-- ==== Sys2Proof/Word.lean ====
section
/-! DEFINITION. The plain words of the link and the numbers of bays and lanes. -/

namespace Sys2Proof

/-- One byte of a frame, a notice or a reading. -/
abbrev Byte := BitVec 8

/-- A two-byte field of a frame, a holder, a job tag or a minute value. -/
abbrev Word16 := BitVec 16

/-- A bay. Bay number `n` of the manual (1..32) is the index `n - 1` (2.4). -/
abbrev Bay := Fin 32

/-- A lane. Lane number `n` of the manual (1..4) is the index `n - 1` (2.4). -/
abbrev Lane := Fin 4

/-- A cabinet zone. Zone number `n` of the manual (1..4) is the index `n - 1` (2.4). -/
abbrev Zone := Fin 4

/-- Bays 1..32 in ascending order. -/
def allBays : List Bay :=
  [0, 1, 2, 3, 4, 5, 6, 7, 8, 9, 10, 11, 12, 13, 14, 15] ++
  [16, 17, 18, 19, 20, 21, 22, 23, 24, 25, 26, 27, 28, 29, 30, 31]

/-- Lanes 1..4 in ascending order. -/
def allLanes : List Lane := [0, 1, 2, 3]

/-- Zones 1..4 in ascending order. -/
def allZones : List Zone := [0, 1, 2, 3]

/-- The high byte of a two-byte field. -/
def hiByte (w : Word16) : Byte := w.extractLsb' 8 8

/-- The low byte of a two-byte field. -/
def loByte (w : Word16) : Byte := w.extractLsb' 0 8

/-- A two-byte field from its bytes, high byte first (2.4). -/
def join16 (hi lo : Byte) : Word16 := hi ++ lo

/-- The two bytes of a field as the link sends them, high byte first (2.4). -/
def bytes16 (w : Word16) : List Byte := [hiByte w, loByte w]

/-- The number of a bay, as frames and notices carry it. -/
def bayNumber (b : Bay) : Byte := BitVec.ofNat 8 (b.val + 1)

/-- The number of a lane, as frames and notices carry it. -/
def laneNumber (l : Lane) : Byte := BitVec.ofNat 8 (l.val + 1)

end Sys2Proof
end

