-- ==== Sys2Proof/Syntax.lean ====
section
/-! DEFINITION. The commands: one constructor per row of spec/opcode_table.json, with the row's operands. -/

namespace Sys2Proof

/-- A link frame: kind, tag and payload (R172). SYNC, LEN and the CRC follow from these. -/
structure Frame where
  kind : Byte
  tag : Byte
  payload : List Byte
  deriving DecidableEq, Repr

/-- The three contacts of a bay's door and bolt (chapter 7). -/
inductive Contact where
  | boltOut
  | boltIn
  | doorClosed
  deriving DecidableEq, Repr

/-- What a line check can report of a bay's data pair (R16). -/
inductive DataLine where
  | clear
  | dataOpen
  | dataShortGnd
  | dataShortSupply
  deriving DecidableEq, Repr

/-- What starts a full reset (R190). -/
inductive ResetCause where
  | powerOn
  | rstLow
  | restartFull
  deriving DecidableEq, Repr

/-- The commands. The request rows carry the frame's tag and its payload fields, two-byte fields as `Word16`;
they are requests TAKEN (R175). The event rows carry what the part is told by the event. -/
inductive Instr where
  /-- R173: the second CRC byte of the frame in progress arrives. -/
  | frameReceived (last : Byte)
  /-- R174: more than 20 ms since the last byte of the frame in progress. -/
  | interbyteGapTimeout
  /-- R175: the last byte of the answer has been sent. -/
  | answerSent
  | status (tag : Byte)
  | notices (tag : Byte)
  | snapshot (tag : Byte)
  | bayQuery (tag bay : Byte)
  | measure (tag : Byte)
  | scanSet (tag mode period : Byte)
  | budgetSet (tag : Byte) (inlet efficiency overhead knee cut hysteresis : Word16)
  | profileSet (tag index : Byte) (floor ceiling maintenance taper full readiness : Word16)
  | bayProfile (tag bay index : Byte)
  | bayEnableOff (tag bay : Byte)
  | bayEnableOn (tag bay : Byte)
  | chargeSet (tag : Byte)
      (provFloor settle reclaimCount reclaimMargin pressMargin pressStep taper full wake : Word16)
  | supervisionSet (tag : Byte) (retryLimit backoff tolerance hotLimit : Word16)
  | faultClear (tag bay : Byte)
  | latchSet (tag : Byte) (noise window closeSettle travel movers draw : Word16)
  | serviceOpen (tag bay flags : Byte)
  | lockdownOn (tag : Byte)
  | lockdownOff (tag : Byte)
  | checkout (tag bay : Byte) (holder : Word16) (group : Byte) (due : Word16) (flags : Byte)
  | returnTablet (tag : Byte) (holder : Word16)
  | reserve (tag group count : Byte) (due : Word16)
  | reserveCancel (tag group : Byte)
  | custodyLoad (tag bay : Byte) (holder due : Word16)
  | custodySet (tag : Byte) (holderLimit horizon grace : Word16)
  | provAdd (tag bay cls : Byte) (jobTag : Word16) (attempts : Byte)
  | provCancel (tag bay : Byte)
  | provDone (tag lane bay : Byte) (jobTag : Word16) (result : Byte)
  | laneServiceOut (tag lane : Byte)
  | laneServiceIn (tag lane : Byte)
  | slotTable (tag length : Byte) (classes : List Byte)
  | provSet (tag : Byte) (threshold sessionLimit : Word16)
  | watchdogArm (tag period : Byte)
  | resume (tag : Byte)
  | storeSave (tag : Byte)
  | restartFull (tag : Byte)
  | restartWarm (tag : Byte)
  | linkSet (tag code : Byte)
  /-- R3: the attach run of the bay reaches 500 ms. -/
  | attach (bay : Bay)
  /-- R4: the absence run of the bay reaches 50 ms. -/
  | detach (bay : Bay)
  /-- R9: the result of the probe of the bay with this number (entry 27) arrives. -/
  | probeComplete (bay : Bay) (number : Nat) (short : Bool)
  /-- R13: the output stage's current trip is reported. -/
  | shortEvent (bay : Bay)
  /-- R23: the bay's reading arrives; the temperature counts in a thermal round only. -/
  | sample (bay : Bay) (draw temperature : Byte)
  /-- R21: the reading awaited has not arrived within 20 ms. -/
  | readingDeadline
  /-- R22: a zone reading arrives. -/
  | zoneReading (zone : Zone) (value : Byte)
  /-- R24: the round completes, its last reading being recorded. -/
  | roundComplete
  | periodExpiry
  | backoffExpiry (bay : Bay)
  | cleanChargeExpiry (bay : Bay)
  /-- R37: the SHED filter accepts the level. -/
  | shedChange (asserted : Bool)
  | settleExpiry
  /-- R107: the filter of the contact accepts the level. -/
  | contactEvent (bay : Bay) (contact : Contact) (asserted : Bool)
  /-- R126: the three filters of the bay have accepted these levels. -/
  | latchMachineStart (bay : Bay) (boltOut boltIn doorClosed : Bool)
  | travelTimeout (bay : Bay)
  | retryPauseExpiry (bay : Bay)
  | windowExpiry (bay : Bay)
  | closeSettleExpiry (bay : Bay)
  | minuteAdvance
  /-- R159: the result of the line check of the lane with this number (entry 27); `clear` is no fault. -/
  | lineCheckResult (lane : Lane) (number : Nat) (found : DataLine)
  | lineCheckDeadline (lane : Lane)
  /-- R159: the 64 ms of the pattern check of the lane with this number (entry 27) have passed with these errors. -/
  | patternCheckEnd (lane : Lane) (number : Nat) (errors : Nat)
  | sessionExpiry (lane : Lane)
  | watchdogExpiry
  | storeWordWrite
  | saveComplete
  | fullReset (cause : ResetCause)
  /-- R173, R174: a byte arrives, with a good stop bit or not. -/
  | byteReceived (value : Byte) (stopGood : Bool)
  /-- R176: a valid frame of a kind that the request kind table does not list is taken. -/
  | unknownKind (tag kind : Byte)
  /-- R190: RST is high again, or VDD has stayed above 2.8 V for 10 ms. -/
  | resetEnd
  deriving DecidableEq, Repr

end Sys2Proof
end

