-- ==== Sys2Proof/Config.lean ====
section
/-! DEFINITION. The figures fixed in the part and the free values: what the manual leaves open. -/

namespace Sys2Proof.Config

/-- What a reset can leave of the store word that a save was writing (R189). -/
inductive Torn where
  | old
  | new
  | twoWrong
  deriving DecidableEq, Repr, Inhabited

/-- FREE VALUE (R189, entry 8): which of the three contents the word being written holds after the reset. The
argument counts the free values drawn so far. -/
opaque tornWord : Nat → Torn

/-- FREE VALUE (R18, entry 9): whether BAY-QUERY reports a backoff of this many ms, not a whole number of seconds,
rounded up to the next second or down. -/
opaque backoffRoundsUp : Nat → Bool

/-- R2: the attach run that sets presence, in ms. -/
def attachRun : Nat := 500
/-- R2: the absence run that clears presence, in ms. -/
def absenceRun : Nat := 50
/-- R37: the SHED run that changes the filtered level, in ms. -/
def shedRun : Nat := 20
/-- R21: the deadline of a reading, in ms. -/
def readingDeadline : Nat := 20
/-- R14: the longest elapsed time a sample stands for, in ms. -/
def sampleGap : Nat := 2000
/-- R15: the largest energy count, in qJ. -/
def energyMax : Nat := 4294967295
/-- R15: one report unit of 0.1 Wh, in qJ. -/
def energyUnit : Nat := 1440
/-- R92: the invalid draws in a row that are a SENSE fault. -/
def senseRun : Nat := 3
/-- R97: the cool-down margin, in °C. -/
def coolDownMargin : Nat := 5
/-- R99: the clean-charge time, in ms. -/
def cleanCharge : Nat := 600000
/-- R113: the extend retry pause, in ms. -/
def retryPause : Nat := 2000
/-- R133, R139, R146: the longest due time of a request, in minutes. -/
def dueMax : Nat := 10080
/-- R152: the entries the provisioning queue holds. -/
def provQueueMax : Nat := 32
/-- R159: the deadline of a line check, in ms. -/
def lineCheck : Nat := 20
/-- R159: the strike at which a lane leaves service. -/
def strikeLimit : Nat := 3
/-- R156, R162: the power hold set by a pass. -/
def powerHold : Nat := 2
/-- R172: the largest LEN. -/
def payloadMax : Nat := 240
/-- R173: the SYNC byte. -/
def sync : Byte := 0xA5
/-- R174: the longest gap between two bytes of one frame, in ms. -/
def byteGap : Nat := 20
/-- R175: the frames the receive buffer holds. -/
def bufferMax : Nat := 2
/-- R177: the notices the notice queue holds. -/
def noticeMax : Nat := 48
/-- R178: the notices one NOTICES answer takes. -/
def noticesPerAnswer : Nat := 16
/-- R193: the ticks of one minute. -/
def minute : Nat := 60000
/-- R187, R188: the words of the store. -/
def storeWords : Nat := 64
/-- The passes one event can bring after one another before the next is left to the next event (entry 11). -/
def passesPerEvent : Nat := 40

end Sys2Proof.Config
end

