-- ==== Sys2Proof/Decode.lean ====
section
/-! DEFINITION. Requests as frames: the kinds and lengths of R176's request kind table, the payload fields of each
request, and the table's own words (no row of the table gives bits). -/

namespace Sys2Proof

/-- The command that a word spells by the table's bits. No row of spec/opcode_table.json gives bits. -/
def decodeTableWord (_nbits _w : Nat) : Option Instr := none

/-- The request kind table of R176: each kind with the payload length it requires. SLOT-TABLE's is not fixed. -/
def requestKinds : List (Byte × Option Nat) :=
  [(0x01, some 0), (0x02, some 0), (0x03, some 0), (0x04, some 1), (0x05, some 0), (0x06, some 2),
   (0x10, some 12), (0x12, some 13), (0x13, some 2), (0x14, some 2), (0x15, some 18), (0x16, some 8),
   (0x17, some 1)] ++
  [(0x20, some 12), (0x21, some 2), (0x22, some 1), (0x30, some 7), (0x31, some 2), (0x32, some 4),
   (0x33, some 1), (0x34, some 5), (0x35, some 6), (0x40, some 5), (0x41, some 1), (0x42, some 5),
   (0x43, some 2), (0x44, none), (0x45, some 4)] ++
  [(0x50, some 1), (0x51, some 0), (0x52, some 0), (0x53, some 1), (0x54, some 1)]

/-- R176, check 1: the kind stands in the request kind table. -/
def kindListed (kind : Byte) : Bool := requestKinds.any fun row => row.1 == kind

/-- What the Link Port makes of a frame taken from the buffer. -/
inductive Decoded where
  /-- The request, or UNKNOWN_KIND, with its fields. -/
  | request (i : Instr)
  /-- R176, check 2: the length is not the kind's. -/
  | malformed
  /-- An action, mode byte or value that picks no row of the table: its owner refuses it with RANGE (R17, R145,
  R167, R191). -/
  | outOfRange
  deriving DecidableEq, Repr

/-- The request a frame of 0x01 to 0x17 carries. -/
def decodeLow (f : Frame) : Decoded :=
  match f.kind, f.payload with
  | 0x01, [] => .request (.status f.tag)
  | 0x02, [] => .request (.notices f.tag)
  | 0x03, [] => .request (.snapshot f.tag)
  | 0x04, [bay] => .request (.bayQuery f.tag bay)
  | 0x05, [] => .request (.measure f.tag)
  | 0x06, [mode, period] => .request (.scanSet f.tag mode period)
  | 0x10, [a, a', b, b', c, c', d, d', e, e', g, g'] =>
    .request (.budgetSet f.tag (join16 a a') (join16 b b') (join16 c c') (join16 d d') (join16 e e') (join16 g g'))
  | 0x12, [index, a, a', b, b', c, c', d, d', e, e', g, g'] =>
    .request (.profileSet f.tag index (join16 a a') (join16 b b') (join16 c c') (join16 d d') (join16 e e')
      (join16 g g'))
  | 0x13, [bay, index] => .request (.bayProfile f.tag bay index)
  | 0x14, [bay, action] =>
    if action = 0 then .request (.bayEnableOff f.tag bay)
    else if action = 1 then .request (.bayEnableOn f.tag bay)
    else .outOfRange
  | 0x15, [a, a', b, b', c, c', d, d', e, e', g, g', h, h', i, i', j, j'] =>
    .request (.chargeSet f.tag (join16 a a') (join16 b b') (join16 c c') (join16 d d') (join16 e e') (join16 g g')
      (join16 h h') (join16 i i') (join16 j j'))
  | 0x16, [a, a', b, b', c, c', d, d'] =>
    .request (.supervisionSet f.tag (join16 a a') (join16 b b') (join16 c c') (join16 d d'))
  | 0x17, [bay] => .request (.faultClear f.tag bay)
  | _, _ => .malformed

/-- The request a frame of 0x20 to 0x35 carries. -/
def decodeMid (f : Frame) : Decoded :=
  match f.kind, f.payload with
  | 0x20, [a, a', b, b', c, c', d, d', e, e', g, g'] =>
    .request (.latchSet f.tag (join16 a a') (join16 b b') (join16 c c') (join16 d d') (join16 e e') (join16 g g'))
  | 0x21, [bay, flags] => .request (.serviceOpen f.tag bay flags)
  | 0x22, [value] =>
    if value = 0 then .request (.lockdownOff f.tag)
    else if value = 1 then .request (.lockdownOn f.tag)
    else .outOfRange
  | 0x30, [bay, h, h', group, d, d', flags] =>
    .request (.checkout f.tag bay (join16 h h') group (join16 d d') flags)
  | 0x31, [h, h'] => .request (.returnTablet f.tag (join16 h h'))
  | 0x32, [group, count, d, d'] => .request (.reserve f.tag group count (join16 d d'))
  | 0x33, [group] => .request (.reserveCancel f.tag group)
  | 0x34, [bay, h, h', d, d'] => .request (.custodyLoad f.tag bay (join16 h h') (join16 d d'))
  | 0x35, [a, a', b, b', c, c'] => .request (.custodySet f.tag (join16 a a') (join16 b b') (join16 c c'))
  | _, _ => .malformed

/-- The request a frame of 0x40 to 0x54 carries. -/
def decodeHigh (f : Frame) : Decoded :=
  match f.kind, f.payload with
  | 0x40, [bay, cls, t, t', attempts] => .request (.provAdd f.tag bay cls (join16 t t') attempts)
  | 0x41, [bay] => .request (.provCancel f.tag bay)
  | 0x42, [lane, bay, t, t', result] => .request (.provDone f.tag lane bay (join16 t t') result)
  | 0x43, [lane, action] =>
    if action = 0 then .request (.laneServiceOut f.tag lane)
    else if action = 1 then .request (.laneServiceIn f.tag lane)
    else .outOfRange
  | 0x44, length :: classes => .request (.slotTable f.tag length classes)
  | 0x45, [a, a', b, b'] => .request (.provSet f.tag (join16 a a') (join16 b b'))
  | 0x50, [period] => .request (.watchdogArm f.tag period)
  | 0x51, [] => .request (.resume f.tag)
  | 0x52, [] => .request (.storeSave f.tag)
  | 0x53, [value] =>
    if value = 0 then .request (.restartFull f.tag)
    else if value = 1 then .request (.restartWarm f.tag)
    else .outOfRange
  | 0x54, [code] => .request (.linkSet f.tag code)
  | _, _ => .malformed

/-- R176: the checks of kind and length, and the request a frame carries. -/
def decodeRequest (f : Frame) : Decoded :=
  if kindListed f.kind = false then .request (.unknownKind f.tag f.kind)
  else if f.kind.toNat < 0x20 then decodeLow f
  else if f.kind.toNat < 0x40 then decodeMid f
  else decodeHigh f

/-- The frame that carries a request, its fields in the order its rule gives; `none` for an event row. -/
def encodeRequest : Instr → Option Frame
  | .frameReceived _ => none
  | .interbyteGapTimeout => none
  | .answerSent => none
  | .status t => some ⟨0x01, t, []⟩
  | .notices t => some ⟨0x02, t, []⟩
  | .snapshot t => some ⟨0x03, t, []⟩
  | .bayQuery t bay => some ⟨0x04, t, [bay]⟩
  | .measure t => some ⟨0x05, t, []⟩
  | .scanSet t mode period => some ⟨0x06, t, [mode, period]⟩
  | .budgetSet t a b c d e g =>
    some ⟨0x10, t, bytes16 a ++ bytes16 b ++ bytes16 c ++ bytes16 d ++ bytes16 e ++ bytes16 g⟩
  | .profileSet t index a b c d e g =>
    some ⟨0x12, t, index :: (bytes16 a ++ bytes16 b ++ bytes16 c ++ bytes16 d ++ bytes16 e ++ bytes16 g)⟩
  | .bayProfile t bay index => some ⟨0x13, t, [bay, index]⟩
  | .bayEnableOff t bay => some ⟨0x14, t, [bay, 0]⟩
  | .bayEnableOn t bay => some ⟨0x14, t, [bay, 1]⟩
  | .chargeSet t a b c d e g h i j =>
    some ⟨0x15, t, bytes16 a ++ bytes16 b ++ bytes16 c ++ bytes16 d ++ bytes16 e ++ bytes16 g ++ bytes16 h ++
      bytes16 i ++ bytes16 j⟩
  | .supervisionSet t a b c d => some ⟨0x16, t, bytes16 a ++ bytes16 b ++ bytes16 c ++ bytes16 d⟩
  | .faultClear t bay => some ⟨0x17, t, [bay]⟩
  | .latchSet t a b c d e g =>
    some ⟨0x20, t, bytes16 a ++ bytes16 b ++ bytes16 c ++ bytes16 d ++ bytes16 e ++ bytes16 g⟩
  | .serviceOpen t bay flags => some ⟨0x21, t, [bay, flags]⟩
  | .lockdownOn t => some ⟨0x22, t, [1]⟩
  | .lockdownOff t => some ⟨0x22, t, [0]⟩
  | .checkout t bay holder group due flags =>
    some ⟨0x30, t, bay :: (bytes16 holder ++ group :: (bytes16 due ++ [flags]))⟩
  | .returnTablet t holder => some ⟨0x31, t, bytes16 holder⟩
  | .reserve t group count due => some ⟨0x32, t, group :: count :: bytes16 due⟩
  | .reserveCancel t group => some ⟨0x33, t, [group]⟩
  | .custodyLoad t bay holder due => some ⟨0x34, t, bay :: (bytes16 holder ++ bytes16 due)⟩
  | .custodySet t a b c => some ⟨0x35, t, bytes16 a ++ bytes16 b ++ bytes16 c⟩
  | .provAdd t bay cls jobTag attempts => some ⟨0x40, t, bay :: cls :: (bytes16 jobTag ++ [attempts])⟩
  | .provCancel t bay => some ⟨0x41, t, [bay]⟩
  | .provDone t lane bay jobTag result => some ⟨0x42, t, lane :: bay :: (bytes16 jobTag ++ [result])⟩
  | .laneServiceOut t lane => some ⟨0x43, t, [lane, 0]⟩
  | .laneServiceIn t lane => some ⟨0x43, t, [lane, 1]⟩
  | .slotTable t length classes => some ⟨0x44, t, length :: classes⟩
  | .provSet t a b => some ⟨0x45, t, bytes16 a ++ bytes16 b⟩
  | .watchdogArm t period => some ⟨0x50, t, [period]⟩
  | .resume t => some ⟨0x51, t, []⟩
  | .storeSave t => some ⟨0x52, t, []⟩
  | .restartFull t => some ⟨0x53, t, [0]⟩
  | .restartWarm t => some ⟨0x53, t, [1]⟩
  | .linkSet t code => some ⟨0x54, t, [code]⟩
  | .attach _ => none
  | .detach _ => none
  | .probeComplete _ _ _ => none
  | .shortEvent _ => none
  | .sample _ _ _ => none
  | .readingDeadline => none
  | .zoneReading _ _ => none
  | .roundComplete => none
  | .periodExpiry => none
  | .backoffExpiry _ => none
  | .cleanChargeExpiry _ => none
  | .shedChange _ => none
  | .settleExpiry => none
  | .contactEvent _ _ _ => none
  | .latchMachineStart _ _ _ _ => none
  | .travelTimeout _ => none
  | .retryPauseExpiry _ => none
  | .windowExpiry _ => none
  | .closeSettleExpiry _ => none
  | .minuteAdvance => none
  | .lineCheckResult _ _ _ => none
  | .lineCheckDeadline _ => none
  | .patternCheckEnd _ _ _ => none
  | .sessionExpiry _ => none
  | .watchdogExpiry => none
  | .storeWordWrite => none
  | .saveComplete => none
  | .fullReset _ => none
  | .byteReceived _ _ => none
  | .unknownKind t kind => some ⟨kind, t, []⟩
  | .resetEnd => none

/-- One step of the cyclic check of R173, polynomial x^16 + x^12 + x^5 + 1: the top bit shifted out. -/
def crcBit (crc : Word16) : Word16 := if crc.msb then (crc <<< 1) ^^^ 0x1021 else crc <<< 1

/-- One byte taken into the cyclic check, most significant bit first. -/
def crcByte (crc : Word16) (b : Byte) : Word16 :=
  (List.range 8).foldl (fun c _ => crcBit c) (crc ^^^ (b.setWidth 16 <<< 8))

/-- The cyclic check of R173 over a list of bytes, starting at 0xFFFF. -/
def crc16 (bytes : List Byte) : Word16 := bytes.foldl crcByte 0xFFFF

/-- The bytes the check is computed over: LEN, KIND, TAG and the payload (R173). -/
def Frame.checked (f : Frame) : List Byte :=
  BitVec.ofNat 8 f.payload.length :: f.kind :: f.tag :: f.payload

/-- The bytes of a frame on the line (R172). -/
def Frame.wire (f : Frame) : List Byte :=
  Config.sync :: (f.checked ++ bytes16 (crc16 f.checked))

/-- The frame that the bytes after SYNC spell, when they are a whole frame with the check it should carry (R173). -/
def parseFrame (bytes : List Byte) : Option Frame :=
  match bytes with
  | len :: kind :: tag :: rest =>
    let payload := rest.take len.toNat
    let f : Frame := ⟨kind, tag, payload⟩
    if rest.length = len.toNat + 2 ∧ rest.drop len.toNat = bytes16 (crc16 f.checked) then some f else none
  | _ => none

end Sys2Proof
end

