-- ==== Sys2Proof/Machine/State.lean ====
section
/-! DEFINITION. The state of the SZ32: every item the manual gives its nine blocks, as plain data, and the state right
after a full reset. A timer field is `none` while it is stopped and `some t` while it runs, `t` being the ms time of
its expiry. -/

namespace Sys2Proof.Machine

/-- A timer: stopped, or running with its expiry in ms of the time base. -/
abbrev Timer := Option Nat

/-- The bay states of R5. -/
inductive BayState where
  | empty
  | qualifying
  | waiting
  | charging
  | hold
  | latched
  | disabled
  deriving DecidableEq, Repr

/-- The fault kinds of R91. -/
inductive FaultKind where
  | short
  | overdraw
  | hot
  | sense
  | probe
  deriving DecidableEq, Repr

/-- The backoff timer of R90. -/
inductive Backoff where
  | stopped
  | running (expiry : Nat)
  | coolDown
  deriving DecidableEq, Repr

/-- A probe in flight: its start time in ms (R1), and the number that tells its result from another's (entry 27). -/
structure Probe where
  number : Nat
  started : Nat
  deriving DecidableEq, Repr

/-- One bay record (R1, R90). -/
structure BayRec where
  presence : Bool
  attachRun : Nat
  absenceRun : Nat
  state : BayState
  probe : Option Probe
  /-- The model's own (entry 27): the probes begun at the bay so far, each numbered by the count before it. -/
  probes : Nat
  lastFault : Option FaultKind
  retries : Nat
  backoff : Backoff
  /-- The applied grant, in qW. -/
  grant : Nat
  energy : Nat
  residue : Nat
  prevSample : Option Nat
  dataLine : DataLine
  invalidRun : Nat
  prevGrant : Nat
  cleanTimer : Timer
  deriving DecidableEq, Repr

/-- A bay record after each kind of reset (R19, R105). -/
def BayRec.initial : BayRec where
  presence := false
  attachRun := 0
  absenceRun := 0
  state := .empty
  probe := none
  probes := 0
  lastFault := none
  retries := 0
  backoff := .stopped
  grant := 0
  energy := 0
  residue := 0
  prevSample := none
  dataLine := .clear
  invalidRun := 0
  prevGrant := 0
  cleanTimer := none

/-- The tiers of R55, in pass order. -/
inductive Tier where
  | lane
  | reserved
  | normal
  | topping
  deriving DecidableEq, Repr

/-- The charge phases of R73. -/
inductive Phase where
  | bulk
  | taper
  | full
  deriving DecidableEq, Repr

/-- What the Allocator holds for one bay (R51, R73). -/
structure ChargeRec where
  tier : Tier
  target : Nat
  pendingInc : Option Nat
  phase : Phase
  dynCeiling : Nat
  profile : Fin 8
  reclaim : Nat
  press : Nat
  taperN : Nat
  fullN : Nat
  wakeN : Nat
  deriving DecidableEq, Repr

/-- The charge state of a bay after a reset: R72 and R89, with the profile index kept or 0 and the dynamic ceiling at
that profile's ceiling. -/
def ChargeRec.initial (profile : Fin 8) (ceiling : Nat) : ChargeRec where
  tier := .normal
  target := 0
  pendingInc := none
  phase := .bulk
  dynCeiling := ceiling
  profile := profile
  reclaim := 0
  press := 0
  taperN := 0
  fullN := 0
  wakeN := 0

/-- One charge profile (R74). -/
structure Profile where
  floor : Nat
  ceiling : Nat
  maintenance : Nat
  taper : Nat
  full : Nat
  readiness : Nat
  deriving DecidableEq, Repr

/-- The nine charge settings (4.1). -/
structure ChargeSettings where
  provFloor : Nat
  settle : Nat
  reclaimCount : Nat
  reclaimMargin : Nat
  pressMargin : Nat
  pressStep : Nat
  taperCount : Nat
  fullCount : Nat
  wakeCount : Nat
  deriving DecidableEq, Repr

/-- The Allocator's state beside the bays' (R51, R74). -/
structure Allocator where
  /-- ρ, as the index of the bay it names. -/
  rotation : Bay
  settleTimer : Timer
  remainder : Nat
  settings : ChargeSettings
  profiles : Vector Profile 8
  /-- The MODEL's own field (entry 11): a trigger has asked for a pass that has not run yet. -/
  passAsked : Bool
  deriving DecidableEq, Repr

/-- The supervision settings (6.1). -/
structure SupervSettings where
  retryLimit : Nat
  backoff : Nat
  tolerance : Nat
  hotLimit : Nat
  deriving DecidableEq, Repr

/-- The scan modes of R20. -/
inductive ScanMode where
  | continuous
  | onRequest
  deriving DecidableEq, Repr

/-- The reading a round awaits (R21, R22). -/
inductive Reading where
  | bay (b : Bay)
  | zone (z : Zone)
  deriving DecidableEq, Repr

/-- The round in flight (R20, R21). -/
structure Round where
  thermal : Bool
  mark : Bool
  /-- The reading asked for and not yet recorded; `none` once all are recorded. -/
  awaiting : Option Reading
  /-- The deadline of the reading awaited, in ms. -/
  deadline : Nat
  deriving DecidableEq, Repr

/-- The working round: the readings recorded so far, with the time in ms of each bay's sample (R20, R23). -/
structure Working where
  times : Vector (Option Nat) 32
  draws : Vector (Option Byte) 32
  temps : Vector (Option Byte) 32
  zones : Vector (Option Byte) 4
  deriving DecidableEq, Repr

/-- The empty working round. -/
def Working.cleared : Working where
  times := Vector.replicate 32 none
  draws := Vector.replicate 32 none
  temps := Vector.replicate 32 none
  zones := Vector.replicate 4 none

/-- One bay record of the snapshot (R29). -/
structure SnapBay where
  state : BayState
  phase : Phase
  presence : Bool
  draw : Byte
  grant : Nat
  temp : Byte
  /-- In 0.1 Wh. -/
  energy : Nat
  deriving DecidableEq, Repr

/-- The published snapshot (R29). -/
structure Snapshot where
  number : Word16
  minute : Word16
  thermal : Bool
  zones : Vector Byte 4
  budget : Nat
  remainder : Nat
  bays : Vector SnapBay 32
  deriving DecidableEq, Repr

/-- The freshness of R30. -/
inductive Freshness where
  | never
  | valid
  | stale
  deriving DecidableEq, Repr

/-- The Scan Engine (R20). -/
structure ScanEngine where
  mode : ScanMode
  periodCode : Fin 4
  round : Option Round
  index : Fin 6
  number : Word16
  /-- The period wait. -/
  wait : Timer
  working : Working
  latestDraw : Vector Byte 32
  latestTemp : Vector Byte 32
  latestZone : Vector Byte 4
  snapshot : Option Snapshot
  fresh : Freshness
  deriving DecidableEq, Repr

/-- The six budget settings (R36). -/
structure BudgetSettings where
  inlet : Nat
  efficiency : Nat
  overhead : Nat
  knee : Nat
  cut : Nat
  hysteresis : Nat
  deriving DecidableEq, Repr

/-- The Budget Unit (R35). -/
structure BudgetUnit where
  settings : BudgetSettings
  storedInlet : Nat
  shed : Bool
  shedRun : Nat
  h : Option Int
  zonesInvalid : Bool
  derate : Nat
  computed : Nat
  established : Bool
  lastPass : Option Nat
  deriving DecidableEq, Repr

/-- One contact filter (R106, R107). `seen` is the level of the sample before, counted while no level is accepted. -/
structure Filter where
  level : Option Bool
  run : Nat
  seen : Option Bool
  deriving DecidableEq, Repr

/-- A contact filter after a reset (R126). -/
def Filter.initial : Filter where
  level := none
  run := 0
  seen := none

/-- The latch states of R108. -/
inductive LatchState where
  | locked
  | retracting
  | released
  | opened
  | closing
  | extending
  | jammed
  | sensorFault
  | forced
  deriving DecidableEq, Repr

/-- The motions of R118. -/
inductive Motion where
  | retract
  | extend
  deriving DecidableEq, Repr

/-- One latch record (R106). The bay's pending motion is its entry in the motion queue. -/
structure LatchRec where
  boltOut : Filter
  boltIn : Filter
  door : Filter
  /-- `none` until the latch machine starts (R126). -/
  state : Option LatchState
  travel : Timer
  retryUsed : Bool
  pause : Timer
  window : Timer
  settle : Timer
  deriving DecidableEq, Repr

/-- A latch record after each kind of reset (R126). -/
def LatchRec.initial : LatchRec where
  boltOut := Filter.initial
  boltIn := Filter.initial
  door := Filter.initial
  state := none
  travel := none
  retryUsed := false
  pause := none
  window := none
  settle := none

/-- The six latch settings (7.1). -/
structure LatchSettings where
  noise : Nat
  window : Nat
  closeSettle : Nat
  travel : Nat
  movers : Nat
  draw : Nat
  deriving DecidableEq, Repr

/-- The Latch Controller's state beside the latches' (R106, R118). -/
structure LatchUnit where
  queue : List (Bay × Motion)
  settings : LatchSettings
  deriving DecidableEq, Repr

/-- What an OUT record holds beside its status (R127). -/
structure OutRec where
  holder : Word16
  outMinute : Word16
  due : Option Word16
  overdueReported : Bool
  deriving DecidableEq, Repr

/-- The custody statuses of R127. -/
inductive Custody where
  | inCart
  | out (o : OutRec)
  | vacant
  | taken
  deriving DecidableEq, Repr

/-- A reservation (R127) with its within-horizon result (R138). -/
structure Reservation where
  group : Byte
  due : Word16
  within : Bool
  deriving DecidableEq, Repr

/-- A release purpose (R127). -/
inductive Purpose where
  | checkout (holder : Word16) (group : Byte) (due : Option Word16)
  | returning (holder : Word16)
  | service
  deriving DecidableEq, Repr

/-- One custody record (R127). -/
structure CustodyRec where
  status : Custody
  reservation : Option Reservation
  purpose : Option Purpose
  deriving DecidableEq, Repr

/-- A custody record after a full reset (R149). -/
def CustodyRec.initial : CustodyRec where
  status := .vacant
  reservation := none
  purpose := none

/-- The custody settings (8.1). -/
structure CustodySettings where
  holderLimit : Nat
  horizon : Nat
  grace : Nat
  deriving DecidableEq, Repr

/-- The provisioning classes of R152. -/
inductive ProvClass where
  | urgent
  | bulk
  | verify
  deriving DecidableEq, Repr

/-- One entry of the provisioning queue, or held by a lane (R152, R155). -/
structure Entry where
  bay : Bay
  cls : ProvClass
  jobTag : Word16
  attempts : Nat
  stamp : BitVec 32
  hold : Nat
  deriving DecidableEq, Repr

/-- The qualification step in flight, with the number that tells its result from another's (entry 27) and its start time
(R155, R159). -/
inductive QualStep where
  | lineCheck (number started : Nat)
  | patternCheck (number started : Nat)
  deriving DecidableEq, Repr

/-- The lane states of R155 with what each holds. -/
inductive LaneState where
  | free
  | qualifying (e : Entry) (step : QualStep)
  | active (e : Entry) (expiry : Nat)
  | outOfService
  deriving DecidableEq, Repr

/-- One lane record (R155). -/
structure LaneRec where
  state : LaneState
  strikes : Nat
  lastErrors : Nat
  /-- The model's own (entry 27): the qualification steps begun at the lane so far, each numbered by the count before
  it. -/
  checks : Nat
  deriving DecidableEq, Repr

/-- A lane record after a full reset (R171). -/
def LaneRec.initial : LaneRec where
  state := .free
  strikes := 0
  lastErrors := 0
  checks := 0

/-- The provisioning settings (9.1) but for the slot table. -/
structure ProvSettings where
  threshold : Nat
  sessionLimit : Nat
  deriving DecidableEq, Repr

/-- The Provisioning Scheduler's state beside the lanes' (R151). -/
structure ProvUnit where
  queue : List Entry
  stamp : BitVec 32
  slots : List ProvClass
  /-- The slot pointer, as the index of the slot it names. -/
  pointer : Nat
  settings : ProvSettings
  deriving DecidableEq, Repr

/-- The notice kinds of R185's table. -/
inductive NoticeKind where
  | attached
  | detached
  | detachedLocked
  | chargePhase
  | bayFault
  | released
  | releaseFailed
  | checkedOut
  | checkoutLapsed
  | returned
  | returnLapsed
  | forced
  | latchFault
  | overdue
  | reservationExpired
  | provFinished
  | laneOut
  | budget
  | roundDone
  | storeSaved
  | autonomousEntered
  | taken
  | laneReady
  | provAborted
  deriving DecidableEq, Repr

/-- One notice record (R177, R185). -/
structure Notice where
  kind : NoticeKind
  /-- The bay or lane number, or 0. -/
  subject : Byte
  minute : Word16
  d1 : Byte
  d2 : Byte
  d3 : Byte
  d4 : Byte
  deriving DecidableEq, Repr

/-- The receiver of R173: hunting, or inside a frame with the bytes after SYNC and the ms time of the last byte. -/
inductive Receiver where
  | hunting
  | inside (bytes : List Byte) (last : Nat)
  deriving DecidableEq, Repr

/-- The answer being sent (R175), and whether a full reset starts at its end (R191). -/
structure Sending where
  frame : Frame
  thenReset : Bool
  deriving DecidableEq, Repr

/-- The modes of R181. -/
inductive Mode where
  | normal
  | autonomous
  deriving DecidableEq, Repr

/-- The Link Port (R173 to R184). -/
structure LinkPort where
  rx : Receiver
  buffer : List Frame
  sending : Option Sending
  frameError : Bool
  overrun : Bool
  overflow : Bool
  notices : List Notice
  armed : Bool
  period : Nat
  watchdog : Timer
  mode : Mode
  lockdown : Bool
  /-- The link rate setting, as its code. -/
  rate : Nat
  /-- The link rate in force on the line, as its code (R184). -/
  lineRate : Nat
  deriving DecidableEq, Repr

/-- Every working setting of R186's table. -/
structure Settings where
  rate : Nat
  period : Nat
  scanMode : ScanMode
  periodCode : Fin 4
  budget : BudgetSettings
  latch : LatchSettings
  charge : ChargeSettings
  superv : SupervSettings
  custody : CustodySettings
  prov : ProvSettings
  slots : List ProvClass
  profiles : Vector Profile 8
  deriving DecidableEq, Repr

/-- How many of a store word's 22 bits are wrong, as its check bits tell (R186, R187). -/
inductive WrongBits where
  | zero
  | one
  | two
  deriving DecidableEq, Repr

/-- One word of the store: the settings it holds, unpacked (entry 6), and its wrong bits. -/
structure StoreWord where
  a : Word16
  b : Word16
  c : Word16
  wrong : WrongBits
  deriving DecidableEq, Repr

/-- A save in flight (R188): the copy made at acceptance, its minute, and the index of the next word to write. -/
structure Save where
  copy : Settings
  minute : Word16
  next : Nat
  deriving DecidableEq, Repr

/-- The Settings Store (R186). The save-in-flight flag is set while `save` holds one. -/
structure Store where
  words : Vector StoreWord 64
  save : Option Save
  corrected : Bool
  fault : Bool
  deriving DecidableEq, Repr

/-- The time base (R193): the ms ticks since the reset ended, the minute counter and the ticks toward its next
advance. -/
structure TimeBase where
  ms : Nat
  minute : Word16
  minuteTicks : Nat
  deriving DecidableEq, Repr

/-- The raw levels of the three contacts of one bay (chapter 7). -/
structure RawContacts where
  boltOut : Bool
  boltIn : Bool
  doorClosed : Bool
  deriving DecidableEq, Repr

/-- The raw input levels that the filters sample (R2, R37, R107; entry 3). -/
structure Pins where
  signature : Vector Bool 32
  shedLine : Bool
  contacts : Vector RawContacts 32
  deriving DecidableEq, Repr

/-- The state of the SZ32. -/
structure State where
  bays : Vector BayRec 32
  superv : SupervSettings
  charge : Vector ChargeRec 32
  alloc : Allocator
  scan : ScanEngine
  budget : BudgetUnit
  latches : Vector LatchRec 32
  latchUnit : LatchUnit
  custody : Vector CustodyRec 32
  custodySet : CustodySettings
  lanes : Vector LaneRec 4
  prov : ProvUnit
  link : LinkPort
  store : Store
  time : TimeBase
  /-- The full reset the part is held in (R190), if it is. -/
  held : Option ResetCause
  pins : Pins
  /-- The MODEL's own field (entry 10): how many free values have been drawn. -/
  freeDraws : Nat
  /-- The commands that are waiting, first in, first out. -/
  pending : List Instr
  deriving DecidableEq, Repr

/-- The reasons a step can fault. There is none: nothing the manual describes stops the part (entry 31). -/
inductive Fault where
  deriving DecidableEq, Repr

/-- The reasons a step can be refused. -/
inductive Refusal where
  /-- The host's reason for a command without a meaning; no arm of the model raises it. Safe. -/
  | notModelled (mnemonic : String)
  deriving DecidableEq, Repr

/-- The built-in defaults of every stored setting (the "After full reset" columns). -/
def defaultSettings : Settings where
  rate := 0
  period := 10
  scanMode := .continuous
  periodCode := 1
  budget :=
    { inlet := 1200, efficiency := 880, overhead := 160, knee := 40, cut := 60, hysteresis := 16 }
  latch :=
    { noise := 10, window := 15, closeSettle := 1000, travel := 800, movers := 4, draw := 24 }
  charge :=
    { provFloor := 40, settle := 20, reclaimCount := 4, reclaimMargin := 8, pressMargin := 2, pressStep := 8
      taperCount := 6, fullCount := 12, wakeCount := 20 }
  superv := { retryLimit := 3, backoff := 30, tolerance := 8, hotLimit := 70 }
  custody := { holderLimit := 1, horizon := 45, grace := 10 }
  prov := { threshold := 4, sessionLimit := 30 }
  slots := [.urgent, .bulk, .urgent, .bulk, .urgent, .verify]
  profiles := Vector.replicate 8
    { floor := 20, ceiling := 100, maintenance := 4, taper := 32, full := 4, readiness := 150 }

/-- The store after a STORE-SAVE of the built-in defaults, word by word (R186; entries 6 and 7). -/
def defaultWords : Vector StoreWord 64 :=
  let one (a : Word16) : StoreWord := ⟨a, 0, 0, .zero⟩
  let two (a b : Word16) : StoreWord := ⟨a, b, 0, .zero⟩
  ⟨⟨[⟨0, 10, 6, .zero⟩, two 0 1] ++
    [one 1200, one 880, one 160, one 40, one 60, one 16] ++
    [one 10, one 15, one 1000, one 800, one 4, one 24] ++
    [one 40, one 20, one 4, one 8, one 2, one 8, one 6, one 12, one 20] ++
    [one 3, one 30, one 8, one 70] ++ [one 1, one 45, one 10] ++ [one 4, one 30] ++
    [two 0 1, two 0 1, two 0 2, two 0 0, two 0 0, two 0 0, two 0 0, two 0 0] ++
    [two 20 100, two 32 4, two 150 4, two 20 100, two 32 4, two 150 4, two 20 100, two 32 4, two 150 4,
     two 20 100, two 32 4, two 150 4] ++
    [two 20 100, two 32 4, two 150 4, two 20 100, two 32 4, two 150 4, two 20 100, two 32 4, two 150 4,
     two 20 100, two 32 4, two 150 4]⟩, by decide⟩

/-- The machine right after a full reset (R190), from a store that holds the built-in defaults (entry 7): the reset has
ended, the first round has started (R33), and no command waits. -/
def State.reset : State where
  bays := Vector.replicate 32 BayRec.initial
  superv := defaultSettings.superv
  charge := Vector.replicate 32 (ChargeRec.initial 0 100)
  alloc :=
    { rotation := 0, settleTimer := none, remainder := 0, settings := defaultSettings.charge
      profiles := defaultSettings.profiles, passAsked := false }
  scan :=
    { mode := .continuous, periodCode := 1
      round := some { thermal := true, mark := false, awaiting := some (.bay 0), deadline := 20 }
      index := 0, number := 0, wait := none, working := Working.cleared
      latestDraw := Vector.replicate 32 255, latestTemp := Vector.replicate 32 255
      latestZone := Vector.replicate 4 255, snapshot := none, fresh := .never }
  budget :=
    { settings := defaultSettings.budget, storedInlet := 1200, shed := false, shedRun := 0, h := none
      zonesInvalid := false, derate := 256, computed := 0, established := false, lastPass := none }
  latches := Vector.replicate 32 LatchRec.initial
  latchUnit := { queue := [], settings := defaultSettings.latch }
  custody := Vector.replicate 32 CustodyRec.initial
  custodySet := defaultSettings.custody
  lanes := Vector.replicate 4 LaneRec.initial
  prov :=
    { queue := [], stamp := 0, slots := defaultSettings.slots, pointer := 0, settings := defaultSettings.prov }
  link :=
    { rx := .hunting, buffer := [], sending := none, frameError := false, overrun := false, overflow := false
      notices := [], armed := false, period := 10, watchdog := none, mode := .normal, lockdown := false
      rate := 0, lineRate := 0 }
  store := { words := defaultWords, save := none, corrected := false, fault := false }
  time := { ms := 0, minute := 0, minuteTicks := 0 }
  held := none
  pins :=
    { signature := Vector.replicate 32 false, shedLine := false
      contacts := Vector.replicate 32 { boltOut := false, boltIn := false, doorClosed := true } }
  freeDraws := 0
  pending := []

end Sys2Proof.Machine
end

