-- ==== Sys2Proof/Machine/Operands.lean ====
section
/-! DEFINITION. The operands of requests: bay and lane numbers, clamped settings, due times, and the sizes in which
answers carry numbers. -/

namespace Sys2Proof.Machine

/-- The bay a bay-number byte names; `none` outside 1..32 (2.4). -/
def bayOf (n : Byte) : Option Bay :=
  if h : 1 ≤ n.toNat ∧ n.toNat ≤ 32 then some ⟨n.toNat - 1, by omega⟩ else none

/-- The lane a lane-number byte names; `none` outside 1..4 (2.4). -/
def laneOfByte (n : Byte) : Option Lane :=
  if h : 1 ≤ n.toNat ∧ n.toNat ≤ 4 then some ⟨n.toNat - 1, by omega⟩ else none

/-- The profile a profile-index byte names; `none` above 7 (2.4). -/
def profileOf (n : Byte) : Option (Fin 8) :=
  if h : n.toNat < 8 then some ⟨n.toNat, h⟩ else none

/-- The provisioning class of a class byte; `none` above 2 (R152). -/
def classOf (n : Byte) : Option ProvClass :=
  if n = 0 then some .urgent else if n = 1 then some .bulk else if n = 2 then some .verify else none

/-- A value clamped to a range: below it the lowest value, above it the highest (R176). -/
def clamp (lo hi v : Nat) : Nat := max lo (min hi v)

/-- The value of a two-byte field. -/
abbrev val16 (w : Word16) : Nat := w.toNat

/-- A number as one byte of a report. -/
def byte (n : Nat) : Byte := BitVec.ofNat 8 n

/-- A number as a two-byte field of a report. -/
def word (n : Nat) : Word16 := BitVec.ofNat 16 n

/-- A number as the two bytes of a report, high byte first. -/
def num16 (n : Nat) : List Byte := bytes16 (word n)

/-- A number as the four bytes of a report, high byte first. -/
def num32 (n : Nat) : List Byte :=
  [byte (n / 16777216), byte (n / 65536), byte (n / 256), byte n]

/-- A flag as one byte of a report. -/
def flagByte (f : Bool) : Byte := if f then 1 else 0

/-- A due time in minutes with its upper limit (R133, R146). -/
def dueTime (due : Word16) : Nat := min Config.dueMax due.toNat

/-- The due time of RESERVE: 0 is taken as 1, above 10,080 as 10,080 (R139). -/
def reserveDue (due : Word16) : Nat := clamp 1 Config.dueMax due.toNat

/-- The bit of a flags byte (R133, R137). -/
def flagBit (flags : Byte) (bit : Nat) : Bool := flags.getLsbD bit

/-- The budget settings of R36 clamped, the knee first and then the cut (R48). -/
def clampBudget (b : BudgetSettings) : BudgetSettings :=
  let knee := clamp 25 70 b.knee
  { inlet := clamp 100 2400 b.inlet
    efficiency := clamp 500 990 b.efficiency
    overhead := clamp 0 800 b.overhead
    knee := knee
    cut := clamp (knee + 5) 85 b.cut
    hysteresis := clamp 0 200 b.hysteresis }

/-- The charge settings of 4.1 clamped (R70). -/
def clampCharge (c : ChargeSettings) : ChargeSettings where
  provFloor := clamp 0 160 c.provFloor
  settle := clamp 0 500 c.settle
  reclaimCount := clamp 1 15 c.reclaimCount
  reclaimMargin := clamp 0 40 c.reclaimMargin
  pressMargin := clamp 0 40 c.pressMargin
  pressStep := clamp 1 40 c.pressStep
  taperCount := clamp 1 60 c.taperCount
  fullCount := clamp 1 60 c.fullCount
  wakeCount := clamp 1 60 c.wakeCount

/-- A profile of R74 clamped, the floor then to the clamped ceiling (R75). -/
def clampProfile (p : Profile) : Profile :=
  let ceiling := clamp 1 160 p.ceiling
  { floor := min ceiling (clamp 0 160 p.floor)
    ceiling := ceiling
    maintenance := clamp 0 40 p.maintenance
    taper := clamp 0 160 p.taper
    full := clamp 0 40 p.full
    readiness := clamp 0 1000 p.readiness }

/-- The supervision settings of 6.1 clamped (R102). -/
def clampSuperv (v : SupervSettings) : SupervSettings where
  retryLimit := clamp 0 7 v.retryLimit
  backoff := clamp 5 600 v.backoff
  tolerance := clamp 0 40 v.tolerance
  hotLimit := clamp 40 85 v.hotLimit

/-- The latch settings of 7.1 clamped (R125). -/
def clampLatch (l : LatchSettings) : LatchSettings where
  noise := clamp 0 127 l.noise
  window := clamp 1 120 l.window
  closeSettle := clamp 100 5000 l.closeSettle
  travel := clamp 100 3000 l.travel
  movers := clamp 1 8 l.movers
  draw := clamp 0 80 l.draw

/-- The custody settings of 8.1 clamped (R147). -/
def clampCustody (c : CustodySettings) : CustodySettings where
  holderLimit := clamp 1 4 c.holderLimit
  horizon := clamp 0 240 c.horizon
  grace := clamp 0 60 c.grace

/-- The provisioning settings of 9.1 clamped (R169). -/
def clampProv (p : ProvSettings) : ProvSettings where
  threshold := clamp 0 255 p.threshold
  sessionLimit := clamp 1 255 p.sessionLimit

/-- The class a stored slot number stands for; above 2 becomes 2 (R187). -/
def classOfNat (n : Nat) : ProvClass :=
  if n = 0 then .urgent else if n = 1 then .bulk else .verify

/-- The round period of a period code, in ms (R20). -/
def periodMs (code : Fin 4) : Nat :=
  match code with
  | 0 => 0
  | 1 => 100
  | 2 => 500
  | 3 => 2000

/-- A period code clamped to 3 (R28). -/
def periodOf (n : Nat) : Fin 4 := ⟨min 3 n, by omega⟩

end Sys2Proof.Machine
end

