-- ==== Sys2Proof/Machine/Flags.lean ====
section
/-! DEFINITION. The codes and encodings of answers and notices: state codes, reason and result codes, the report
encodings of temperature and energy, and the flags byte of STATUS. -/

namespace Sys2Proof.Machine

/-- The bay state codes of R5. -/
def BayState.code : BayState → Byte
  | .empty => 0
  | .qualifying => 1
  | .waiting => 2
  | .charging => 3
  | .hold => 4
  | .latched => 5
  | .disabled => 6

/-- R5: the states of the eligible set, WAITING and CHARGING. -/
def BayState.eligible : BayState → Bool
  | .waiting => true
  | .charging => true
  | .empty => false
  | .qualifying => false
  | .hold => false
  | .latched => false
  | .disabled => false

/-- The fault codes of R91; 0 stands for none. -/
def faultCode : Option FaultKind → Byte
  | none => 0
  | some .short => 1
  | some .overdraw => 2
  | some .hot => 3
  | some .sense => 4
  | some .probe => 5

/-- The data-line fault codes of R16. -/
def dataLineCode : DataLine → Byte
  | .clear => 0
  | .dataOpen => 1
  | .dataShortGnd => 2
  | .dataShortSupply => 3

/-- The tier codes of R185. -/
def Tier.code : Tier → Byte
  | .lane => 0
  | .reserved => 1
  | .normal => 2
  | .topping => 3

/-- The phase codes of R73. -/
def Phase.code : Phase → Byte
  | .bulk => 0
  | .taper => 1
  | .full => 2

/-- The latch state codes of R108. -/
def LatchState.code : LatchState → Byte
  | .locked => 0
  | .retracting => 1
  | .released => 2
  | .opened => 3
  | .closing => 4
  | .extending => 5
  | .jammed => 6
  | .sensorFault => 7
  | .forced => 8

/-- A latch state code in a notice, 255 before the latch has started (R148; entry 17). -/
def latchCode : Option LatchState → Byte
  | none => 255
  | some st => st.code

/-- The class codes of R152. -/
def ProvClass.code : ProvClass → Byte
  | .urgent => 0
  | .bulk => 1
  | .verify => 2

/-- The lane state codes of R155. -/
def LaneState.code : LaneState → Byte
  | .free => 0
  | .qualifying _ _ => 1
  | .active _ _ => 2
  | .outOfService => 3

/-- The mode codes of R179. -/
def Mode.code : Mode → Byte
  | .normal => 0
  | .autonomous => 1

/-- The freshness codes of R185. -/
def Freshness.code : Freshness → Byte
  | .never => 0
  | .valid => 1
  | .stale => 2

/-- The scan mode codes of R28. -/
def ScanMode.code : ScanMode → Byte
  | .continuous => 0
  | .onRequest => 1

/-- The notice kind codes of R185. -/
def NoticeKind.code : NoticeKind → Byte
  | .attached => 1
  | .detached => 2
  | .detachedLocked => 3
  | .chargePhase => 4
  | .bayFault => 5
  | .released => 6
  | .releaseFailed => 7
  | .checkedOut => 8
  | .checkoutLapsed => 9
  | .returned => 10
  | .returnLapsed => 11
  | .forced => 12
  | .latchFault => 13
  | .overdue => 14
  | .reservationExpired => 15
  | .provFinished => 16
  | .laneOut => 17
  | .budget => 18
  | .roundDone => 19
  | .storeSaved => 20
  | .autonomousEntered => 21
  | .taken => 22
  | .laneReady => 23
  | .provAborted => 24

/-- The eight bytes of a notice record (R185). -/
def Notice.bytes (n : Notice) : List Byte :=
  n.kind.code :: n.subject :: (bytes16 n.minute ++ [n.d1, n.d2, n.d3, n.d4])

/-- The results of R176. -/
inductive Result where
  | done
  | accepted
  | clamped
  | joined
  | refused
  | busy
  | unknownKind
  | malformed
  deriving DecidableEq, Repr

/-- The result codes of R176. -/
def Result.code : Result → Byte
  | .done => 0x00
  | .accepted => 0x01
  | .clamped => 0x02
  | .joined => 0x03
  | .refused => 0x10
  | .busy => 0x11
  | .unknownKind => 0x12
  | .malformed => 0x13

/-- The refusal reasons of R176. -/
inductive Reason where
  | range
  | notPresent
  | latchNotLocked
  | latchFault
  | reservedOther
  | bayBusy
  | bayFault
  | notReady
  | holderLimit
  | notHeld
  | noBay
  | duplicate
  | queueFull
  | lineFault
  | laneState
  | lockdown
  | autonomous
  | inUse
  deriving DecidableEq, Repr

/-- The reason codes of R176. -/
def Reason.code : Reason → Byte
  | .range => 1
  | .notPresent => 2
  | .latchNotLocked => 3
  | .latchFault => 4
  | .reservedOther => 5
  | .bayBusy => 6
  | .bayFault => 7
  | .notReady => 8
  | .holderLimit => 9
  | .notHeld => 10
  | .noBay => 11
  | .duplicate => 12
  | .queueFull => 13
  | .lineFault => 14
  | .laneState => 15
  | .lockdown => 16
  | .autonomous => 17
  | .inUse => 18

/-- R49, R179: the report encoding of the cabinet temperature, h + 40, or 255 while h is none. -/
def encodeH : Option Int → Byte
  | none => 255
  | some h => byte (h + 40).toNat

/-- R15: an energy count in 0.1 Wh, saturating at 65,535. -/
def energyReport (energy : Nat) : Nat := min 65535 (energy / Config.energyUnit)

/-- R90, R97: the encoded byte a temperature in °C compares as. -/
def encodedLimit (celsius : Nat) : Nat := 2 * (celsius + 20)

/-- R18: the backoff remaining in s; 0 when stopped or in the cool-down wait. The rounding is free (entry 9). -/
def backoffSeconds (now : Nat) : Backoff → Nat
  | .stopped => 0
  | .coolDown => 0
  | .running expiry =>
    let ms := expiry - now
    if ms % 1000 ≠ 0 ∧ Config.backoffRoundsUp ms then ms / 1000 + 1 else ms / 1000

/-- The ms left on a timer, 0 when it is stopped. -/
def remaining (now : Nat) : Timer → Nat
  | none => 0
  | some expiry => expiry - now

/-- R179, R185: the flags byte of STATUS. -/
def statusFlags (s : State) : Byte :=
  (if s.budget.zonesInvalid then 1 else 0) ||| (if s.store.corrected then 2 else 0) |||
  (if s.store.fault then 4 else 0) ||| (if s.budget.shed then 8 else 0) |||
  (if s.link.frameError then 16 else 0) ||| (if s.link.overrun then 32 else 0) |||
  (if s.link.overflow then 64 else 0) ||| (if s.store.save.isSome then 128 else 0)

/-- R177: ATTN is driven low while the notice queue holds at least one notice. -/
def State.attnLow (s : State) : Bool := !s.link.notices.isEmpty

/-- R155: the lane's crosspoint connects it to the held bay from the start of the pattern check to the release. -/
def LaneRec.connected (l : LaneRec) : Bool :=
  match l.state with
  | .free => false
  | .qualifying _ (.lineCheck _ _) => false
  | .qualifying _ (.patternCheck _ _) => true
  | .active _ _ => true
  | .outOfService => false

end Sys2Proof.Machine
end

