-- ==== Sys2Proof/Machine/Ops.lean ====
section
/-! DEFINITION. The named operations over the blocks' records: reading and writing them, queuing a notice, loading an
answer, and the facts that several blocks read of one another. -/

namespace Sys2Proof.Machine

/-- What a command or a step answers. -/
abbrev Out := Host.Outcome State Fault Refusal

/-- The record of a bay. -/
def State.bay (s : State) (b : Bay) : BayRec := s.bays[b]

/-- The state with a bay record replaced. -/
def State.setBay (s : State) (b : Bay) (r : BayRec) : State := { s with bays := s.bays.set b r }

/-- What the Allocator holds for a bay. -/
def State.chg (s : State) (b : Bay) : ChargeRec := s.charge[b]

/-- The state with the Allocator's record of a bay replaced. -/
def State.setChg (s : State) (b : Bay) (r : ChargeRec) : State := { s with charge := s.charge.set b r }

/-- The latch record of a bay. -/
def State.latch (s : State) (b : Bay) : LatchRec := s.latches[b]

/-- The state with a latch record replaced. -/
def State.setLatch (s : State) (b : Bay) (r : LatchRec) : State := { s with latches := s.latches.set b r }

/-- The custody record of a bay. -/
def State.cust (s : State) (b : Bay) : CustodyRec := s.custody[b]

/-- The state with a custody record replaced. -/
def State.setCust (s : State) (b : Bay) (r : CustodyRec) : State := { s with custody := s.custody.set b r }

/-- The record of a lane. -/
def State.lane (s : State) (l : Lane) : LaneRec := s.lanes[l]

/-- The state with a lane record replaced. -/
def State.setLane (s : State) (l : Lane) (r : LaneRec) : State := { s with lanes := s.lanes.set l r }

/-- The state with the motion queue replaced. -/
def State.setMotions (s : State) (q : List (Bay × Motion)) : State :=
  { s with latchUnit := { s.latchUnit with queue := q } }

/-- The state with the provisioning queue replaced. -/
def State.setQueue (s : State) (q : List Entry) : State := { s with prov := { s.prov with queue := q } }

/-- The profile a bay uses. -/
def State.profile (s : State) (b : Bay) : Profile := s.alloc.profiles[(s.chg b).profile]

/-- A trigger asks the Allocator for a pass (R52). -/
def askPass (s : State) : State := { s with alloc := { s.alloc with passAsked := true } }

/-- R177: the notices whose unread predecessor is replaced: BUDGET, and CHARGE_PHASE of the same bay. -/
def Notice.replaces (n old : Notice) : Bool :=
  match n.kind with
  | .budget => old.kind = .budget
  | .chargePhase => old.kind = .chargePhase ∧ old.subject = n.subject
  | _ => false

/-- The queue with the first notice that `n` replaces taking its contents, or `none` if it replaces none. -/
def replaceNotice (n : Notice) : List Notice → Option (List Notice)
  | [] => none
  | x :: xs => if n.replaces x then some (n :: xs) else (replaceNotice n xs).map (x :: ·)

/-- R177: a notice replaces its unread predecessor, joins at the tail, or is discarded with the overflow flag. -/
def LinkPort.queued (n : Notice) (l : LinkPort) : LinkPort :=
  match replaceNotice n l.notices with
  | some q => { l with notices := q }
  | none =>
    if l.notices.length < Config.noticeMax then { l with notices := l.notices ++ [n] }
    else { l with overflow := true }

/-- R177: a block hands a notice to the Link Port. -/
def queueNotice (n : Notice) (s : State) : State := { s with link := s.link.queued n }

/-- A notice queued with the present minute. -/
def note (kind : NoticeKind) (subject d1 d2 d3 d4 : Byte) (s : State) : State :=
  queueNotice ⟨kind, subject, s.time.minute, d1, d2, d3, d4⟩ s

/-- The answer of a request is loaded and its transmission begins (R172, R175): answer kind = request kind + 0x80. -/
def reply (kind tag : Byte) (r : Result) (fields : List Byte) (s : State) : State :=
  { s with link := { s.link with sending := some ⟨⟨kind + 0x80, tag, r.code :: fields⟩, false⟩ } }

/-- A REFUSED answer with its reason (R176). -/
def refuse (kind tag : Byte) (reason : Reason) (s : State) : State :=
  reply kind tag .refused [reason.code] s

/-- DONE, or CLAMPED when clamping changed a value (R176). -/
def doneOr (changed : Bool) : Result := if changed then .clamped else .done

/-- R193: a minute value is past when (now − t) mod 65536 is less than 32,768. -/
def past (now t : Word16) : Bool := (now - t).toNat < 32768

/-- A timer is due: it runs and its expiry has come (R193). -/
def Timer.due (t : Timer) (now : Nat) : Bool :=
  match t with
  | none => false
  | some expiry => expiry ≤ now

/-- The pending motion of a bay: its entry in the motion queue (R106, R118). -/
def State.pendingMotion (s : State) (b : Bay) : Option Motion :=
  (s.latchUnit.queue.find? fun m => m.1 == b).map Prod.snd

/-- R108: RETRACTING and EXTENDING count as moving. -/
def LatchRec.isMoving (l : LatchRec) : Bool :=
  match l.state with
  | some .retracting => true
  | some .extending => true
  | _ => false

/-- The count of latches moving (R106). -/
def State.moving (s : State) : Nat := allBays.countP fun b => (s.latch b).isMoving

/-- R155: the entry a lane holds, in QUALIFYING and ACTIVE. -/
def LaneState.held : LaneState → Option Entry
  | .free => none
  | .qualifying e _ => some e
  | .active e _ => some e
  | .outOfService => none

/-- The lane that holds a bay (R155). -/
def State.laneOf (s : State) (b : Bay) : Option Lane :=
  allLanes.find? fun l => ((s.lane l).state.held.map Entry.bay) == some b

/-- The queued entry of a bay (R152). -/
def State.queued (s : State) (b : Bay) : Option Entry := s.prov.queue.find? fun e => e.bay == b

/-- R138: the bay carries a reservation within the horizon. -/
def State.reservedNow (s : State) (b : Bay) : Bool :=
  match (s.cust b).reservation with
  | none => false
  | some r => r.within

/-- R151: the lane level of a bay, the smaller of the provisioning floor and its profile ceiling. -/
def State.laneLevel (s : State) (b : Bay) : Nat := min s.alloc.settings.provFloor (s.profile b).ceiling

/-- R88: the readiness of a bay. -/
def State.ready (s : State) (b : Bay) : Bool :=
  let p := s.profile b
  (s.chg b).phase ≠ .bulk ∨ (0 < p.readiness ∧ p.readiness * Config.energyUnit ≤ (s.bay b).energy)

/-- R55: the tier whose condition the bay meets first. -/
def State.tierOf (s : State) (b : Bay) : Tier :=
  if (s.laneOf b).isSome then .lane
  else if s.reservedNow b then .reserved
  else if (s.chg b).phase ≠ .bulk then .topping
  else .normal

/-- The bays taken one after another in ascending bay number. -/
def eachBay (f : Bay → State → State) (s : State) : State := allBays.foldl (fun s b => f b s) s

/-- The lanes taken one after another in ascending lane number. -/
def eachLane (f : Lane → State → State) (s : State) : State := allLanes.foldl (fun s l => f l s) s

/-- R190: while the part is held in reset no event and no request reaches its blocks (entry 21). -/
def live (f : State → State) (s : State) : State := if s.held.isSome then s else f s

/-- R175: a request reaches the head of the line. It is taken at once when no answer is being sent; otherwise its frame
waits in the receive buffer, or is lost to overrun (entry 1). -/
def bufferFrame (f : Frame) (s : State) : State :=
  if s.link.buffer.length < Config.bufferMax then
    { s with link := { s.link with buffer := s.link.buffer ++ [f] } }
  else
    { s with link := { s.link with overrun := true } }

/-- The meaning of a request command: taken while no answer is being sent, else waiting as its frame (entry 1). -/
def request (i : Instr) (take : State → State) (s : State) : State :=
  live (fun s =>
    if s.link.sending.isNone then take s
    else
      match encodeRequest i with
      | some f => bufferFrame f s
      | none => s) s

end Sys2Proof.Machine
end

