-- ==== Sys2Proof/Machine/Lanes.lean ====
section
/-! DEFINITION. The Provisioning Scheduler (chapter 9): eligibility, the search of the slot table, assignment runs, lane
releases, and what the other blocks' events do to lanes and queue entries. -/

namespace Sys2Proof.Machine

/-- R152: stamp a is older than stamp b. Of equal stamps neither is taken as older (entry 42). -/
def olderStamp (a b : BitVec 32) : Bool := a ≠ b ∧ (b - a).toNat < 2147483648

/-- R156: an entry of the queue is eligible. -/
def eligibleEntry (s : State) (e : Entry) : Bool :=
  (s.bay e.bay).state = .charging ∧ s.laneLevel e.bay ≤ (s.chg e.bay).target ∧
  (s.latch e.bay).state = some .locked ∧ s.pendingMotion e.bay = none ∧ (s.bay e.bay).dataLine = .clear ∧
  s.reservedNow e.bay = false ∧ s.link.mode = .normal ∧ e.hold = 0

/-- The oldest of a list of entries (R152). Of two stamps neither of which is older, equal or half the counter's range
apart, the entry that stands first in the queue goes first, by the model's choice (entry 42). -/
def oldest : List Entry → Option Entry
  | [] => none
  | e :: es =>
    match oldest es with
    | none => some e
    | some x => if olderStamp x.stamp e.stamp then some x else some e

/-- R157, step 1: the oldest eligible entry of a class. -/
def classCandidate (s : State) (c : ProvClass) : Option Entry :=
  oldest (s.prov.queue.filter fun e => e.cls = c ∧ eligibleEntry s e)

/-- R157: the slot after a slot, the first after the last. -/
def nextSlot (slots : List ProvClass) (p : Nat) : Nat := (p + 1) % slots.length

/-- R157, steps 1 to 3: up to `tries` slots are tried from `p` on; the entry found, with the pointer after its slot. -/
def searchFrom (s : State) : Nat → Nat → Option (Entry × Nat)
  | 0, _ => none
  | tries + 1, p =>
    match s.prov.slots[p]? with
    | none => none
    | some c =>
      match classCandidate s c with
      | some e => some (e, nextSlot s.prov.slots p)
      | none => searchFrom s tries (nextSlot s.prov.slots p)

/-- R157: the search for one FREE lane tries every slot of the table once. -/
def search (s : State) : Option (Entry × Nat) := searchFrom s s.prov.slots.length s.prov.pointer

/-- The queue without the entry of a bay. -/
def dropEntry (b : Bay) (q : List Entry) : List Entry := q.filter fun e => e.bay ≠ b

/-- R157, R159: the lane enters QUALIFYING with this entry and its line check starts, under a number that no step of the
lane has had (entry 27). -/
def LaneRec.qualify (r : LaneRec) (e : Entry) (now : Nat) : LaneRec :=
  { r with state := .qualifying e (.lineCheck r.checks now), checks := r.checks + 1 }

/-- R159: the pattern check of the entry held starts, under a new number. -/
def LaneRec.checkPattern (r : LaneRec) (e : Entry) (now : Nat) : LaneRec :=
  { r with state := .qualifying e (.patternCheck r.checks now), checks := r.checks + 1 }

/-- R157: a lane takes an entry; it enters QUALIFYING and the line check starts. -/
def takeEntry (l : Lane) (e : Entry) (pointer : Nat) (s : State) : State :=
  let s := { s with prov := { s.prov with queue := dropEntry e.bay s.prov.queue, pointer := pointer } }
  s.setLane l ((s.lane l).qualify e s.time.ms)

/-- R157: the lanes of an assignment run, in the order given; a search that takes nothing ends the run. -/
def assignLanes : List Lane → State → State
  | [], s => s
  | l :: ls, s =>
    if (s.lane l).state = .free then
      match search s with
      | none => s
      | some (e, p) => assignLanes ls (takeEntry l e p s)
    else assignLanes ls s

/-- R157: an assignment run. -/
def assignmentRun (s : State) : State := assignLanes allLanes s

/-- The causes of a lane release (R162). -/
inductive ReleaseCause where
  | lineFault
  | pattern
  | doneSuccess
  | doneFailed
  | doneRetry
  | timeout
  | detached
  | latch
  | enteredHold
  | enteredLatched
  | enteredDisabled
  | power
  | checkout
  | service
  | cancelled
  | autonomous
  | serviceOut
  deriving DecidableEq, Repr

/-- R162, R170: the PROV_ABORTED reason code of a cause, where it has one. -/
def ReleaseCause.reason : ReleaseCause → Option Byte
  | .lineFault => none
  | .pattern => some 11
  | .doneSuccess => none
  | .doneFailed => none
  | .doneRetry => none
  | .timeout => some 8
  | .detached => some 1
  | .latch => some 2
  | .enteredHold => some 3
  | .enteredLatched => some 3
  | .enteredDisabled => some 4
  | .power => some 4
  | .checkout => some 5
  | .service => some 6
  | .cancelled => some 7
  | .autonomous => some 9
  | .serviceOut => some 10

/-- R162: the cause drops the entry. -/
def ReleaseCause.drops : ReleaseCause → Bool
  | .lineFault => true
  | .pattern => false
  | .doneSuccess => true
  | .doneFailed => true
  | .doneRetry => false
  | .timeout => false
  | .detached => true
  | .latch => false
  | .enteredHold => false
  | .enteredLatched => true
  | .enteredDisabled => false
  | .power => false
  | .checkout => true
  | .service => true
  | .cancelled => true
  | .autonomous => false
  | .serviceOut => false

/-- R162: the cause spends an attempt of a requeued entry. -/
def ReleaseCause.spends : ReleaseCause → Bool
  | .lineFault => false
  | .pattern => true
  | .doneSuccess => false
  | .doneFailed => false
  | .doneRetry => true
  | .timeout => true
  | .detached => false
  | .latch => true
  | .enteredHold => true
  | .enteredLatched => false
  | .enteredDisabled => false
  | .power => false
  | .checkout => false
  | .service => false
  | .cancelled => false
  | .autonomous => false
  | .serviceOut => false

/-- R162, R170: the PROV_FINISHED result code of a dropped entry, where the drop is a completion, a line fault or
exhaustion. -/
def ReleaseCause.finished (cause : ReleaseCause) (exhausted : Bool) : Option Byte :=
  match cause with
  | .lineFault => some 3
  | .doneSuccess => some 0
  | .doneFailed => some 1
  | .pattern => if exhausted then some 2 else none
  | _ => if exhausted then some 4 else none

/-- R162: a requeue that reduces the attempts left to 0 drops the entry instead. -/
def exhausts (cause : ReleaseCause) (e : Entry) : Bool := cause.spends ∧ e.attempts ≤ 1

/-- R162, step 3: the entry as it is requeued, with its attempts and power hold. -/
def requeued (cause : ReleaseCause) (e : Entry) : Entry :=
  { e with
    attempts := if cause.spends then e.attempts - 1 else e.attempts
    hold := if cause = .power then Config.powerHold else 0 }

/-- R159, R162: the strikes of a lane after a release. -/
def strikesAfter (cause : ReleaseCause) (strikes : Nat) : Nat :=
  if cause = .pattern then min Config.strikeLimit (strikes + 1) else strikes

/-- R162, step 2: the release leaves the lane out of service. -/
def leavesService (cause : ReleaseCause) (strikes : Nat) : Bool :=
  cause = .serviceOut ∨ (cause = .pattern ∧ Config.strikeLimit ≤ strikesAfter cause strikes)

/-- R170: a notice that names a bay, one byte, a lane byte and a job tag. -/
def provNote (kind : NoticeKind) (subject d1 d2 : Byte) (jobTag : Word16) (s : State) : State :=
  note kind subject d1 d2 (hiByte jobTag) (loByte jobTag) s

/-- R162, step 4: the notices of a release, PROV_ABORTED, PROV_FINISHED and LANE_OUT in this order. -/
def releaseNotices (l : Lane) (cause : ReleaseCause) (e : Entry) (s : State) : State :=
  let s :=
    match cause.reason with
    | some r => provNote .provAborted (bayNumber e.bay) r (laneNumber l) e.jobTag s
    | none => s
  let s :=
    match cause.finished (exhausts cause e) with
    | some r => provNote .provFinished (bayNumber e.bay) r (laneNumber l) e.jobTag s
    | none => s
  if cause = .pattern ∧ (s.lane l).state = .outOfService then
    provNote .laneOut (laneNumber l) (byte (s.lane l).strikes) (byte (s.lane l).lastErrors) e.jobTag s
  else s

/-- R162, steps 1 to 3: the lane lets its bay go and the entry is dropped or requeued. -/
def letGo (l : Lane) (cause : ReleaseCause) (e : Entry) (s : State) : State :=
  let r := s.lane l
  let state := if leavesService cause r.strikes then LaneState.outOfService else LaneState.free
  let s := s.setLane l { r with state := state, strikes := strikesAfter cause r.strikes }
  if cause.drops ∨ exhausts cause e then s else s.setQueue (s.prov.queue ++ [requeued cause e])

/-- R162: a lane releases its bay. A lane that holds none does nothing. The holding changes are reported at the end of
the event (R158), which is where the tiers are recomputed (entry 12). -/
def release (l : Lane) (cause : ReleaseCause) (s : State) : State :=
  match (s.lane l).state.held with
  | none => s
  | some e => assignmentRun (releaseNotices l cause e (letGo l cause e s))

/-- R154, R163, R165: the queued entry of a bay is removed, with a PROV_ABORTED notice of lane 0. -/
def removeQueued (b : Bay) (reason : Byte) (s : State) : State :=
  match s.queued b with
  | none => s
  | some e => provNote .provAborted (bayNumber b) reason 0 e.jobTag (s.setQueue (dropEntry b s.prov.queue))

/-- R163: the cause that a new bay state decides for a bay held by a lane. QUALIFYING and CHARGING are no change out of
CHARGING of the manual; they stand with EMPTY. -/
def causeOfState : BayState → ReleaseCause
  | .waiting => .power
  | .hold => .enteredHold
  | .latched => .enteredLatched
  | .disabled => .enteredDisabled
  | .empty => .detached
  | .qualifying => .detached
  | .charging => .detached

/-- R163: a change out of CHARGING, or an entry to LATCHED, reaches the Scheduler. -/
def schedChange (b : Bay) (old new : BayState) (s : State) : State :=
  let s :=
    if old = .charging ∧ new ≠ .charging then
      match s.laneOf b with
      | some l => release l (causeOfState new) s
      | none => if new = .empty then removeQueued b 1 s else s
    else s
  if new = .latched ∧ old ≠ .latched then removeQueued b 3 s else s

/-- R163: a detach reaches the Scheduler. -/
def schedDetach (b : Bay) (s : State) : State :=
  match s.laneOf b with
  | some l => release l .detached s
  | none => removeQueued b 1 s

/-- R165: the latch of a bay has left LOCKED. -/
def schedLeftLocked (b : Bay) (s : State) : State :=
  match s.laneOf b with
  | some l => release l .latch s
  | none => s

/-- R166: entry to AUTONOMOUS mode releases each lane in QUALIFYING or ACTIVE, in ascending lane number. -/
def schedAutonomous (s : State) : State := eachLane (fun l => release l .autonomous) s

/-- R164, step 1: each entry whose power hold was set before the pass's event has it reduced by 1. `before` tells which
bays held one before the event. -/
def countHolds (before : Bay → Bool) (s : State) : State :=
  s.setQueue (s.prov.queue.map fun e => if before e.bay then { e with hold := e.hold - 1 } else e)

/-- R164, step 2: a lane whose bay's target is below its lane level releases it. -/
def powerTest (l : Lane) (s : State) : State :=
  match (s.lane l).state.held with
  | none => s
  | some e => if (s.chg e.bay).target < s.laneLevel e.bay then release l .power s else s

/-- R164: the Scheduler handles a pass result. -/
def schedPassResult (before : Bay → Bool) (s : State) : State :=
  assignmentRun (eachLane powerTest (countHolds before s))

/-- The bays whose queued entry holds a power hold. -/
def holding (q : List Entry) (b : Bay) : Bool := q.any fun e => e.bay == b ∧ 0 < e.hold

end Sys2Proof.Machine
end

