-- ==== Sys2Proof/Machine/Custody.lean ====
section
/-! DEFINITION. The Custody Table's events (chapter 8): attach and detach, release purposes, reservations, and the tests
of the minute counter. -/

namespace Sys2Proof.Machine

/-- R138: a reservation due at this minute is within the horizon. -/
def withinHorizon (now : Word16) (horizon : Nat) (due : Word16) : Bool :=
  past now due ∨ (due - now).toNat ≤ horizon

/-- R141: a reservation due at this minute expires. -/
def expires (now : Word16) (grace : Nat) (due : Word16) : Bool := past now (due + word grace)

/-- R138: a bay's reservation ends, and the Scheduler runs assignment. The Allocator's tiers follow at the end of the
event (entry 12). -/
def endReservation (b : Bay) (s : State) : State :=
  match (s.cust b).reservation with
  | none => s
  | some _ => assignmentRun (s.setCust b { s.cust b with reservation := none })

/-- R138: the within-horizon test of a bay's reservation; one that leaves the horizon runs assignment. -/
def testHorizon (b : Bay) (s : State) : State :=
  match (s.cust b).reservation with
  | none => s
  | some r =>
    let within := withinHorizon s.time.minute s.custodySet.horizon r.due
    if within = r.within then s
    else
      let s := s.setCust b { s.cust b with reservation := some { r with within := within } }
      if within then s else assignmentRun s

/-- R141: the expiry test of a bay's reservation. -/
def testExpiry (b : Bay) (s : State) : State :=
  match (s.cust b).reservation with
  | none => s
  | some r =>
    if expires s.time.minute s.custodySet.grace r.due then
      endReservation b (note .reservationExpired (bayNumber b) r.group 0 (hiByte r.due) (loByte r.due) s)
    else s

/-- R142: the overdue test of a bay's record. -/
def testOverdue (b : Bay) (s : State) : State :=
  match (s.cust b).status with
  | .out o =>
    match o.due with
    | none => s
    | some due =>
      if o.overdueReported = false ∧ past s.time.minute due then
        note .overdue (bayNumber b) (hiByte o.holder) (loByte o.holder) (hiByte due) (loByte due)
          (s.setCust b { s.cust b with status := .out { o with overdueReported := true } })
      else s
  | _ => s

/-- The notice of a release purpose that ends without fulfilment (R132, R148); SERVICE has none. -/
def lapseNote (b : Bay) (p : Purpose) (s : State) : State :=
  let code := latchCode (s.latch b).state
  match p with
  | .checkout holder group _ => note .checkoutLapsed (bayNumber b) (hiByte holder) (loByte holder) group code s
  | .returning holder => note .returnLapsed (bayNumber b) (hiByte holder) (loByte holder) code 0 s
  | .service => s

/-- R132: a release purpose lapses, with its notice. -/
def lapsePurpose (b : Bay) (s : State) : State :=
  match (s.cust b).purpose with
  | none => s
  | some p => lapseNote b p (s.setCust b { s.cust b with purpose := none })

/-- R132, R143: the latch of a bay can bring no event that ends its purpose: JAMMED or SENSOR_FAULT with no pending
motion. -/
def latchStuck (s : State) (b : Bay) : Bool :=
  ((s.latch b).state = some .jammed ∨ (s.latch b).state = some .sensorFault) ∧ s.pendingMotion b = none

/-- R143: what an advance of the minute counter does to one bay, in its order. -/
def minuteTests (b : Bay) (s : State) : State :=
  let s := testOverdue b (testHorizon b (testExpiry b s))
  if latchStuck s b then lapsePurpose b s else s

/-- R143: the Custody Table takes an advance of the minute counter. -/
def custodyMinute (s : State) : State := eachBay minuteTests s

/-- R130: the late flag of a return. -/
def lateFlag (now : Word16) (o : OutRec) : Bool :=
  o.overdueReported || (match o.due with | none => false | some due => past now due)

/-- R130: the purpose that is left after an attach in OUT; RETURN is fulfilled. -/
def purposeAfterAttach : Option Purpose → Option Purpose
  | some (.returning _) => none
  | p => p

/-- R130: an attach reaches the Custody Table. -/
def custodyAttach (b : Bay) (s : State) : State :=
  let c := s.cust b
  match c.status with
  | .out o =>
    note .returned (bayNumber b) (hiByte o.holder) (loByte o.holder) (flagByte (lateFlag s.time.minute o))
      (latchCode (s.latch b).state)
      (s.setCust b { c with status := .inCart, purpose := purposeAfterAttach c.purpose })
  | .inCart => s
  | .vacant => s.setCust b { c with status := .inCart }
  | .taken => s.setCust b { c with status := .inCart }

/-- R148: the due time of CHECKED_OUT in minutes from the out minute, 0 for none. -/
def checkedOutDue (now : Word16) : Option Word16 → Word16
  | none => 0
  | some due => if past now due then 1 else due - now

/-- What a detach finds of the latch when no purpose stands behind it (R131): the TAKEN cause, if the tablet is taken. -/
def takenCause (l : LatchRec) : Option Byte :=
  match l.state with
  | some .forced => some 1
  | some .opened => some 2
  | some .sensorFault => if l.door.level = some false then some 2 else none
  | _ => none

/-- The group of a reservation in a notice, 0 for none. -/
def groupByte : Option Reservation → Byte
  | none => 0
  | some r => r.group

/-- R131: a detach reaches the Custody Table. -/
def custodyDetach (b : Bay) (s : State) : State :=
  let c := s.cust b
  let code := latchCode (s.latch b).state
  match c.purpose with
  | some (.checkout holder _ due) =>
    let late := checkedOutDue s.time.minute due
    let s := s.setCust b { c with status := .out ⟨holder, s.time.minute, due, false⟩, purpose := none }
    endReservation b
      (note .checkedOut (bayNumber b) (hiByte holder) (loByte holder) (hiByte late) (loByte late) s)
  | some .service => endReservation b (s.setCust b { c with status := .vacant })
  | _ =>
    match takenCause (s.latch b) with
    | some cause =>
      endReservation b
        (note .taken (bayNumber b) cause code (groupByte c.reservation) 0 (s.setCust b { c with status := .taken }))
    | none => note .detachedLocked (bayNumber b) code 0 0 0 s

/-- R132: Relocked reaches the Custody Table. A SERVICE purpose over an IN_CART record with presence clear leaves it
VACANT. -/
def custodyRelocked (b : Bay) (s : State) : State :=
  let c := s.cust b
  let s := lapsePurpose b s
  if c.purpose = some .service ∧ c.status = .inCart ∧ (s.bay b).presence = false then
    endReservation b (s.setCust b { s.cust b with status := .vacant })
  else s

/-- R132: a failed release ends the purpose with no custody notice. -/
def custodyReleaseFailed (b : Bay) (s : State) : State := s.setCust b { s.cust b with purpose := none }

/-- R129: the record counts toward the holder count of a holder. -/
def CustodyRec.counts (c : CustodyRec) (holder : Word16) : Nat :=
  (match c.status with | .out o => if o.holder = holder then 1 else 0 | _ => 0) +
  (match c.purpose with | some (.checkout h _ _) => if h = holder then 1 else 0 | _ => 0)

/-- R129: the holder count of a holder. -/
def holderCount (s : State) (holder : Word16) : Nat := (allBays.map fun b => (s.cust b).counts holder).sum

end Sys2Proof.Machine
end

