-- ==== Sys2Proof/Machine/Bays.lean ====
section
/-! DEFINITION. The Bay Interface's operations (chapters 1 and 6): changes of bay state with their reports, the
qualification probe, faults, HOLD and its end, and the energy accumulator. -/

namespace Sys2Proof.Machine

/-- R86: the five round counters at 0. -/
def ChargeRec.zeroCounts (c : ChargeRec) : ChargeRec :=
  { c with reclaim := 0, press := 0, taperN := 0, fullN := 0, wakeN := 0 }

/-- R54, R67, R86: a change of bay state reaches the Allocator. Entering or leaving the eligible set asks for a pass. -/
def allocChange (b : Bay) (old new : BayState) (s : State) : State :=
  let c := s.chg b
  let c := if old = .charging ∧ new ≠ .charging then { c.zeroCounts with pendingInc := none } else c
  if old.eligible = false ∧ new.eligible then
    askPass (s.setChg b { c with tier := s.tierOf b, target := 0, pendingInc := none })
  else if old.eligible ∧ new.eligible = false then
    askPass (s.setChg b { c with tier := .normal, target := 0, pendingInc := none })
  else s.setChg b c

/-- R6: a change of bay state is reported to the Allocator and then to the Provisioning Scheduler. -/
def reportChange (b : Bay) (old new : BayState) (s : State) : State :=
  if old = new then s else schedChange b old new (allocChange b old new s)

/-- The bay record in a new state: outside CHARGING the applied grant is 0 (R12) and the clean-charge timer stopped
(R99); outside QUALIFYING no probe is in flight (R8, R10); outside HOLD the backoff timer is stopped (R98). A bay that leaves
CHARGING, for any cause, starts its next invalid-draw run from 0 (R92). -/
def BayRec.moved (r : BayRec) (new : BayState) : BayRec :=
  { r with
    state := new
    grant := if new = .charging then r.grant else 0
    cleanTimer := if new = .charging then r.cleanTimer else none
    probe := if new = .qualifying then r.probe else none
    backoff := if new = .hold then r.backoff else .stopped
    invalidRun := if r.state = .charging ∧ new ≠ .charging then 0 else r.invalidRun }

/-- A bay changes state and the change is reported. -/
def changeBay (b : Bay) (new : BayState) (s : State) : State :=
  let r := s.bay b
  reportChange b r.state new (s.setBay b (r.moved new))

/-- R8: a probe starts, under a number that no probe of the bay has had (entry 27). -/
def BayRec.newProbe (r : BayRec) (now : Nat) : BayRec :=
  { r with probe := some ⟨r.probes, now⟩, probes := r.probes + 1 }

/-- R8: a bay enters QUALIFYING with a probe started, and the change is reported. -/
def enterQualifying (b : Bay) (s : State) : State :=
  let r := s.bay b
  reportChange b r.state .qualifying
    (s.setBay b ((r.moved .qualifying).newProbe s.time.ms))

/-- R96: the BAY_FAULT notice of a fault entry. -/
def bayFaultNote (b : Bay) (kind : FaultKind) (new : BayState) (retries : Nat) (detail : Byte) (s : State) : State :=
  note .bayFault (bayNumber b) (faultCode (some kind)) new.code (byte retries) detail s

/-- R94: the state a transient fault leads to. -/
def faultState (retries limit : Nat) : BayState := if retries < limit then .hold else .latched

/-- R94, R96: a transient fault of a bay in CHARGING, WAITING or QUALIFYING. -/
def transientFault (b : Bay) (kind : FaultKind) (detail : Byte) (s : State) : State :=
  let r := s.bay b
  let new := faultState r.retries s.superv.retryLimit
  let r' : BayRec :=
    { r.moved new with
      lastFault := some kind
      invalidRun := 0
      backoff := if new = .hold then .running (s.time.ms + s.superv.backoff * 1000) else .stopped }
  reportChange b r.state new (bayFaultNote b kind new r.retries detail (s.setBay b r'))

/-- R9, R95: a probe finds a short. -/
def probeFault (b : Bay) (s : State) : State :=
  let r := s.bay b
  reportChange b r.state .latched
    (bayFaultNote b .probe .latched r.retries 0 (s.setBay b { r.moved .latched with lastFault := some .probe }))

/-- R97: the cool-down condition on a connector reading. -/
def coolDownMet (lastFault : Option FaultKind) (hotLimit : Nat) (reading : Byte) : Bool :=
  lastFault ≠ some .hot ∨
    (reading ≠ 255 ∧ reading.toNat < encodedLimit (hotLimit - Config.coolDownMargin))

/-- R97: the bay leaves HOLD with a retry spent and a probe started. -/
def leaveHold (b : Bay) (s : State) : State :=
  enterQualifying b (s.setBay b { s.bay b with retries := (s.bay b).retries + 1 })

/-- R14: the elapsed time a sample stands for, in ms. -/
def elapsedMs (now : Nat) : Option Nat → Nat
  | none => 0
  | some before => min Config.sampleGap (now - before)

/-- R15: the accumulator after a product of draw and elapsed time. -/
def BayRec.accumulate (r : BayRec) (product : Nat) : BayRec :=
  { r with
    energy := min Config.energyMax (r.energy + (r.residue + product) / 1000)
    residue := (r.residue + product) % 1000 }

/-- R14, R15: a sample reaches the energy accumulator. -/
def energySample (now : Nat) (draw : Byte) (r : BayRec) : BayRec :=
  let counted := if r.state = .charging ∧ draw ≠ 255 then r.accumulate (draw.toNat * elapsedMs now r.prevSample) else r
  { counted with prevSample := some now }

/-- R93: the OVERDRAW allowance of a sample. -/
def allowance (r : BayRec) (tolerance : Nat) : Nat := max r.grant r.prevGrant + tolerance

/-- R92, step 1: the invalid-draw run after a sample. -/
def senseRunAfter (r : BayRec) (draw : Byte) : Nat :=
  if r.state = .charging ∧ draw = 255 then r.invalidRun + 1 else 0

/-- R92: the fault that the checks of a sample find first, with its notice detail. `reading` is the connector
temperature in a thermal round and `none` otherwise. -/
def sampleFault (sup : SupervSettings) (r : BayRec) (draw : Byte) (reading : Option Byte) : Option (FaultKind × Byte) :=
  if Config.senseRun ≤ senseRunAfter r draw then some (.sense, 255)
  else if (r.state = .charging ∨ r.state = .waiting) ∧ draw ≠ 255 ∧ allowance r sup.tolerance < draw.toNat then
    some (.overdraw, draw)
  else
    match reading with
    | none => none
    | some t =>
      if (r.state = .charging ∨ r.state = .waiting ∨ r.state = .qualifying) ∧ t ≠ 255 ∧
          encodedLimit sup.hotLimit ≤ t.toNat then some (.hot, t)
      else none

/-- R92: the fault checks of a sample, then the grant at previous sample. -/
def faultChecks (b : Bay) (draw : Byte) (reading : Option Byte) (s : State) : State :=
  let r := s.bay b
  let s' :=
    match sampleFault s.superv r draw reading with
    | some (kind, detail) => transientFault b kind detail s
    | none => s.setBay b { r with invalidRun := senseRunAfter r draw }
  s'.setBay b { s'.bay b with prevGrant := (s'.bay b).grant }

/-- R97: a thermal sample of a bay in the cool-down wait. -/
def coolDownSample (b : Bay) (reading : Option Byte) (s : State) : State :=
  match reading with
  | none => s
  | some t =>
    if (s.bay b).state = .hold ∧ (s.bay b).backoff = .coolDown ∧
        coolDownMet (s.bay b).lastFault s.superv.hotLimit t then leaveHold b s
    else s

/-- R23, step 3: a sample reaches the Bay Interface. -/
def baySample (b : Bay) (draw : Byte) (reading : Option Byte) (s : State) : State :=
  coolDownSample b reading (faultChecks b draw reading (s.setBay b (energySample s.time.ms draw (s.bay b))))

/-- R12: an applied grant above the profile ceiling of the bay is set to that ceiling. -/
def capGrant (b : Bay) (s : State) : State :=
  s.setBay b { s.bay b with grant := min (s.profile b).ceiling (s.bay b).grant }

end Sys2Proof.Machine
end

