-- ==== Sys2Proof/Machine/Budget.lean ====
section
/-! DEFINITION. The charge budget (chapter 3): the seven stages, when a computation asks for a pass, and the cabinet
temperature. -/

namespace Sys2Proof.Machine

/-- R38, R47: the inlet limit in use. -/
def inletInUse (s : State) : Nat :=
  match s.link.mode with
  | .normal => s.budget.settings.inlet
  | .autonomous => s.budget.storedInlet

/-- R38, stage 1: the effective inlet, in W. -/
def effectiveInlet (limit : Nat) (shed : Bool) : Nat := if shed then limit / 2 else limit

/-- R38, stages 2 and 3: the converted power, in qW. -/
def convertedPower (inlet efficiency : Nat) : Nat := 4 * inlet * efficiency / 1000

/-- R40: the derate factor D. -/
def derateFactor (knee cut : Nat) : Option Int → Nat
  | none => 128
  | some h =>
    if h ≤ 2 * knee then 256
    else if 2 * cut ≤ h then 0
    else (256 * (2 * (cut : Int) - h) / (2 * ((cut : Int) - knee))).toNat

/-- R46: the M of the actuation reserve, the larger of the movers limit and the count of latches moving. -/
def reserveMovers (s : State) : Nat := max s.latchUnit.settings.movers s.moving

/-- R41, stage 6: the reserve. -/
def reservePower (s : State) : Nat :=
  s.budget.settings.overhead + reserveMovers s * s.latchUnit.settings.draw

/-- R40 as the inputs stand. -/
def derateNow (s : State) : Nat := derateFactor s.budget.settings.knee s.budget.settings.cut s.budget.h

/-- R38 to R41: the charge budget as the inputs stand. -/
def budgetNow (s : State) : Nat :=
  convertedPower (effectiveInlet (inletInUse s) s.budget.shed) s.budget.settings.efficiency * derateNow s / 256
    - reservePower s

/-- R44: a new B asks for a pass when it is lower than the budget of the last pass, or higher by at least the
hysteresis. -/
def asksPass (hysteresis newB : Nat) : Option Nat → Bool
  | none => true
  | some last => newB < last ∨ (last < newB ∧ hysteresis ≤ newB - last)

/-- R42 to R44: a computation stores D and B, and once the budget is established it may ask for a pass. -/
def recompute (s : State) : State :=
  let b := budgetNow s
  let s' : State := { s with budget := { s.budget with derate := derateNow s, computed := b } }
  if s.budget.established ∧ asksPass s.budget.settings.hysteresis b s.budget.lastPass then askPass s' else s'

/-- R39: one zone reading in the half-degree scale, left out when invalid. -/
def halfDegrees (reading : Byte) : Option Int := if reading = 255 then none else some ((reading.toNat : Int) - 40)

/-- R39: the larger of two readings, an invalid one left out. -/
def hotter : Option Int → Option Int → Option Int
  | none, y => y
  | some x, none => some x
  | some x, some y => some (max x y)

/-- R39: the cabinet temperature of four zone readings. -/
def cabinet (zones : Vector Byte 4) : Option Int :=
  allZones.foldl (fun h z => hotter h (halfDegrees zones[z])) none

/-- R39, R42, R43: the zone readings of a thermal completion reach the Budget Unit. The first after a reset establishes
the budget and always asks for a pass. -/
def thermalCompletion (zones : Vector Byte 4) (s : State) : State :=
  let h := cabinet zones
  let first := !s.budget.established
  let s' := recompute { s with budget := { s.budget with h := h, zonesInvalid := h.isNone, established := true } }
  if first then askPass s' else s'

end Sys2Proof.Machine
end

