-- ==== Sys2Proof/Machine/Allocation.lean ====
section
/-! DEFINITION. Allocation passes (chapter 4): effective floors and ceilings, the floor and fill stages, the handing on of
a pass result, the application of increases, and the settling of an event's pass triggers. -/

namespace Sys2Proof.Machine

/-- What a pass works out for one bay. -/
structure Share where
  bay : Bay
  floor : Nat
  ceil : Nat
  target : Nat
  deferred : Bool
  deriving DecidableEq, Repr

/-- R57: the effective ceiling of a bay. -/
def effCeiling (c : ChargeRec) (p : Profile) : Nat :=
  match c.phase with
  | .full => min p.maintenance p.ceiling
  | .bulk => c.dynCeiling
  | .taper => c.dynCeiling

/-- R57: the effective floor of a bay. -/
def effFloor (provFloor : Nat) (c : ChargeRec) (p : Profile) : Nat :=
  match c.phase with
  | .full => effCeiling c p
  | .bulk => min (if c.tier = .lane then max p.floor provFloor else p.floor) (effCeiling c p)
  | .taper => min (if c.tier = .lane then max p.floor provFloor else p.floor) (effCeiling c p)

/-- R58: the rotation order, from bay ρ up to 32 and then from 1 up to ρ − 1. -/
def rotationOrder (rho : Bay) : List Bay := allBays.drop rho.val ++ allBays.take rho.val

/-- The bays of one tier of the eligible set in rotation order (R54, R58), each with its floor and ceiling. -/
def tierShares (s : State) (t : Tier) : List Share :=
  (rotationOrder s.alloc.rotation).filterMap fun b =>
    if (s.bay b).state.eligible ∧ (s.chg b).tier = t then
      some ⟨b, effFloor s.alloc.settings.provFloor (s.chg b) (s.profile b), effCeiling (s.chg b) (s.profile b), 0, false⟩
    else none

/-- R59: the floor stage over bays in order; the shares and the balance left. -/
def floorStage : List Share → Nat → List Share × Nat
  | [], r => ([], r)
  | x :: xs, r =>
    if x.floor ≤ r then
      let (ys, r') := floorStage xs (r - x.floor)
      ({ x with target := x.floor, deferred := false } :: ys, r')
    else
      let (ys, r') := floorStage xs r
      ({ x with target := 0, deferred := true } :: ys, r')

/-- R60: a bay is in U, not deferred and below its effective ceiling. -/
def Share.inFill (x : Share) : Bool := x.deferred = false ∧ x.target < x.ceil

/-- R60, step 2: the first `r` bays of U gain 1 qW each. -/
def giveOnes : List Share → Nat → List Share
  | [], _ => []
  | x :: xs, 0 => x :: xs
  | x :: xs, r + 1 =>
    if x.inFill then { x with target := x.target + 1 } :: giveOnes xs r else x :: giveOnes xs (r + 1)

/-- R60, step 3: what a bay of U gains of a share s. -/
def Share.gain (x : Share) (s : Nat) : Nat := if x.inFill then min s (x.ceil - x.target) else 0

/-- R60, step 3: each bay of U gains the smaller of s and its room. -/
def giveShares (xs : List Share) (s : Nat) : List Share :=
  xs.map fun x => { x with target := x.target + x.gain s }

/-- R60, step 3: the sum of the gains. -/
def gains (xs : List Share) (s : Nat) : Nat := (xs.map fun x => x.gain s).sum

/-- R60: the fill stage of one tier. It repeats at most n + 1 times, which `fuel` allows for. -/
def fillTier : Nat → List Share → Nat → List Share × Nat
  | 0, xs, r => (xs, r)
  | fuel + 1, xs, r =>
    let n := xs.countP Share.inFill
    if r = 0 ∨ n = 0 then (xs, r)
    else if r / n = 0 then (giveOnes xs r, 0)
    else fillTier fuel (giveShares xs (r / n)) (r - gains xs (r / n))

/-- The result of computing a pass (R59 to R61): every share, and the unallocated remainder. -/
structure PassResult where
  shares : List Share
  remainder : Nat
  deriving DecidableEq, Repr

/-- R59 to R61: the floor stage over all tiers, then the fill stage tier by tier. -/
def divide (lane reserved normal topping : List Share) (b : Nat) : PassResult :=
  let (lane, r) := floorStage lane b
  let (reserved, r) := floorStage reserved r
  let (normal, r) := floorStage normal r
  let (topping, r) := floorStage topping r
  let (lane, r) := fillTier 33 lane r
  let (reserved, r) := fillTier 33 reserved r
  let (normal, r) := fillTier 33 normal r
  let (topping, r) := fillTier 33 topping r
  ⟨lane ++ reserved ++ normal ++ topping, r⟩

/-- The pass computed whole at the Allocator (R53, R58). -/
def computePass (s : State) : PassResult :=
  divide (tierShares s .lane) (tierShares s .reserved) (tierShares s .normal) (tierShares s .topping) s.budget.computed

/-- The target a bay gets of the shares; a bay outside the eligible set gets none. -/
def targetIn (shares : List Share) (b : Bay) : Option Nat := (shares.find? fun x => x.bay == b).map Share.target

/-- R51: the Allocator holds the new targets. -/
def storeTargets (shares : List Share) (s : State) : State :=
  eachBay (fun b s =>
    match targetIn shares b with
    | some t => s.setChg b { s.chg b with target := t }
    | none => s) s

/-- R67, first row: a new pass stops the settle timer and drops every pending increase. -/
def supersede (s : State) : State :=
  eachBay (fun b s => s.setChg b { s.chg b with pendingInc := none })
    { s with alloc := { s.alloc with settleTimer := none } }

/-- R45: the budget of the last pass becomes the B divided, with a BUDGET notice when it differs. -/
def markBudget (s : State) : State :=
  let b := s.budget.computed
  let old := s.budget.lastPass
  let s' := { s with budget := { s.budget with lastPass := some b } }
  if old = some b then s'
  else
    let was := word (old.getD 0)
    note .budget 0 (hiByte (word b)) (loByte (word b)) (hiByte was) (loByte was) s'

/-- R61: the remainder is stored and ρ moves on by one. -/
def markRemainder (r : Nat) (s : State) : State :=
  { s with alloc := { s.alloc with remainder := r, rotation := s.alloc.rotation + 1 } }

/-- R7, R64: a bay's target reaches the Bay Interface: its state and its decrease. A change from CHARGING to WAITING is
reported to the Scheduler (R6). -/
def applyTarget (b : Bay) (t : Nat) (s : State) : State :=
  let r := s.bay b
  if r.state = .waiting ∧ 0 < t then
    s.setBay b { r with state := .charging, grant := 0, cleanTimer := some (s.time.ms + Config.cleanCharge) }
  else if r.state = .charging ∧ t = 0 then
    let s := s.setBay b (r.moved .waiting)
    schedChange b .charging .waiting (s.setChg b { (s.chg b).zeroCounts with pendingInc := none })
  else if r.state = .charging ∧ t < r.grant then
    s.setBay b { r with grant := min (s.profile b).ceiling t }
  else s

/-- R64: the bay is lowered by its target. -/
def isLowered (s : State) (shares : List Share) (b : Bay) : Bool :=
  match targetIn shares b with
  | some t => (s.bay b).state = .charging ∧ t < (s.bay b).grant
  | none => false

/-- R63, step 3: the targets go to the Bay Interface bay by bay, in ascending bay number. -/
def applyTargets (shares : List Share) (s : State) : State :=
  eachBay (fun b s =>
    match targetIn shares b with
    | some t => applyTarget b t s
    | none => s) s

/-- R65: a pending increase for a bay in CHARGING whose target is above its applied grant. -/
def recordIncrease (b : Bay) (s : State) : State :=
  if (s.bay b).state = .charging ∧ (s.bay b).grant < (s.chg b).target then
    s.setChg b { s.chg b with pendingInc := some (s.chg b).target }
  else s

/-- R11, R66: a bay's pending increase is applied, capped at its profile ceiling, and cleared. -/
def applyIncrease (b : Bay) (s : State) : State :=
  match (s.chg b).pendingInc with
  | none => s
  | some t =>
    let s :=
      if (s.bay b).state = .charging then
        s.setBay b { s.bay b with grant := min (s.profile b).ceiling t }
      else s
    s.setChg b { s.chg b with pendingInc := none }

/-- R65, R66: every pending increase is applied. -/
def applyIncreases (s : State) : State := eachBay applyIncrease s

/-- R65: the increases wait for the settle interval when a bay was lowered, and are applied at once otherwise. -/
def stageIncreases (lowered : Bool) (s : State) : State :=
  let s := eachBay recordIncrease s
  if lowered then
    { s with alloc := { s.alloc with settleTimer := some (s.time.ms + s.alloc.settings.settle) } }
  else applyIncreases s

/-- R63, R67: one allocation pass, whole. -/
def runPass (s : State) : State :=
  let s := supersede s
  let result := computePass s
  let before := holding s.prov.queue
  let lowered := allBays.any (isLowered s result.shares)
  let s := storeTargets result.shares s
  let s := markRemainder result.remainder (markBudget s)
  let s := applyTargets result.shares s
  let s := stageIncreases lowered s
  schedPassResult before s

/-- R66: the expiry of the settle timer. -/
def settleExpires (s : State) : State :=
  match s.alloc.settleTimer with
  | none => s
  | some _ =>
    let s := applyIncreases s
    { s with alloc := { s.alloc with settleTimer := none } }

/-- R66: the settle timer when it is due. -/
def settleIfDue (s : State) : State := if s.alloc.settleTimer.due s.time.ms then settleExpires s else s

/-- R53: the pass asked for runs, once the budget is established; before that it does not run at all (R43). With the
settle interval at 0 the expiry follows the pass with no time between them (R65), before any pass that the first one
brings (entry 41). -/
def runAsked (s : State) : State :=
  let asked := s.alloc.passAsked
  let s := { s with alloc := { s.alloc with passAsked := false } }
  if asked ∧ s.budget.established then settleIfDue (runPass s) else s

/-- R56: the tier of an eligible bay is recomputed; a change asks for a pass. -/
def retier (b : Bay) (s : State) : State :=
  if (s.bay b).state.eligible ∧ (s.chg b).tier ≠ s.tierOf b then
    askPass (s.setChg b { s.chg b with tier := s.tierOf b })
  else s

/-- R56, R158: at the end of an event the tiers follow what the event changed. -/
def retierAll (s : State) : State := eachBay retier s

/-- The passes of an event (R53, R158): its own, and after it one for each pass that changed a tier. Those beyond
`fuel` stay asked for and run at the end of the next event (entry 11). -/
def settle : Nat → State → State
  | 0, s => retierAll s
  | fuel + 1, s =>
    let s := retierAll s
    if s.alloc.passAsked then settle fuel (runAsked s) else s

/-- The end of an event: its reports to the Allocator and the passes they trigger. -/
def finish (s : State) : State := settle Config.passesPerEvent s

/-- R66 as a command: SETTLE_EXPIRY. -/
def execSettleExpiry (s : State) : Out := .next (live settleExpires s)

/-- R70: CHARGE-SET is taken. -/
def takeChargeSet (tag : Byte) (asked : ChargeSettings) (s : State) : State :=
  let c := clampCharge asked
  let s := { s with alloc := { s.alloc with settings := c } }
  finish (askPass (reply 0x15 tag (doneOr (c ≠ asked))
    (num16 c.provFloor ++ num16 c.settle ++ num16 c.reclaimCount ++ num16 c.reclaimMargin ++ num16 c.pressMargin ++
      num16 c.pressStep ++ num16 c.taperCount ++ num16 c.fullCount ++ num16 c.wakeCount) s))

/-- The charge settings a CHARGE-SET carries. -/
def chargeFields (provFloor settle reclaimCount reclaimMargin pressMargin pressStep taper full wake : Word16) :
    ChargeSettings where
  provFloor := provFloor.toNat
  settle := settle.toNat
  reclaimCount := reclaimCount.toNat
  reclaimMargin := reclaimMargin.toNat
  pressMargin := pressMargin.toNat
  pressStep := pressStep.toNat
  taperCount := taper.toNat
  fullCount := full.toNat
  wakeCount := wake.toNat

/-- R70 as a command: CHARGE_SET. -/
def execChargeSet (tag : Byte)
    (provFloor settle reclaimCount reclaimMargin pressMargin pressStep taper full wake : Word16) (s : State) : Out :=
  .next (request
    (.chargeSet tag provFloor settle reclaimCount reclaimMargin pressMargin pressStep taper full wake)
    (takeChargeSet tag
      (chargeFields provFloor settle reclaimCount reclaimMargin pressMargin pressStep taper full wake)) s)

/-- R48: BUDGET-SET is taken: the settings are replaced and the budget is recomputed. -/
def takeBudgetSet (tag : Byte) (asked : BudgetSettings) (s : State) : State :=
  let c := clampBudget asked
  let s := { s with budget := { s.budget with settings := c } }
  finish (recompute (reply 0x10 tag (doneOr (c ≠ asked))
    (num16 c.inlet ++ num16 c.efficiency ++ num16 c.overhead ++ num16 c.knee ++ num16 c.cut ++ num16 c.hysteresis) s))

/-- The budget settings a BUDGET-SET carries. -/
def budgetFields (inlet efficiency overhead knee cut hysteresis : Word16) : BudgetSettings where
  inlet := inlet.toNat
  efficiency := efficiency.toNat
  overhead := overhead.toNat
  knee := knee.toNat
  cut := cut.toNat
  hysteresis := hysteresis.toNat

/-- R48 as a command: BUDGET_SET. -/
def execBudgetSet (tag : Byte) (inlet efficiency overhead knee cut hysteresis : Word16) (s : State) : Out :=
  .next (request (.budgetSet tag inlet efficiency overhead knee cut hysteresis)
    (takeBudgetSet tag (budgetFields inlet efficiency overhead knee cut hysteresis)) s)

/-- R37: the SHED filter accepts a level; a change recomputes the budget. The raw line stands at that level. -/
def shedAccepts (asserted : Bool) (s : State) : State :=
  let s := { s with pins := { s.pins with shedLine := asserted } }
  if s.budget.shed = asserted then s
  else finish (recompute { s with budget := { s.budget with shed := asserted, shedRun := 0 } })

/-- R37 as a command: SHED_CHANGE. -/
def execShedChange (asserted : Bool) (s : State) : Out := .next (live (shedAccepts asserted) s)

end Sys2Proof.Machine
end

