-- ==== Sys2Proof/Machine/Profiles.lean ====
section
/-! DEFINITION. Charge profiles, phases and ceilings (chapter 5): the counters of a counted sample, phase changes, and the
requests that set profiles. -/

namespace Sys2Proof.Machine

/-- R83: a counted sample is unconstrained. -/
def unconstrained (draw margin grant : Nat) : Bool := draw + margin ≤ grant

/-- R83: whether a sample adds to the taper or full counter. -/
def phaseAdds (draw threshold margin grant : Nat) : Bool := draw < threshold ∧ unconstrained draw margin grant

/-- R83: the taper or full counter after a sample. -/
def phaseCount (draw threshold margin grant count : Nat) : Nat :=
  if draw < threshold then (if unconstrained draw margin grant then count + 1 else count) else 0

/-- R80: the reclaim floor of a bay. -/
def reclaimFloor (cfg : ChargeSettings) (c : ChargeRec) (p : Profile) : Nat :=
  min p.ceiling (if c.tier = .lane then max p.floor cfg.provFloor else p.floor)

/-- R80, steps 1 to 3: the new dynamic ceiling of a reclaim. -/
def reclaimCeiling (cfg : ChargeSettings) (c : ChargeRec) (p : Profile) (draw : Nat) : Nat :=
  max 1 (min p.ceiling (max (reclaimFloor cfg c p) (draw + cfg.reclaimMargin)))

/-- R80: the condition of the reclaim counter. -/
def reclaimHolds (cfg : ChargeSettings) (c : ChargeRec) (draw : Nat) : Bool := draw + cfg.reclaimMargin < c.target

/-- R81: the condition of the press counter, the difference taken with its sign. -/
def pressHolds (cfg : ChargeSettings) (c : ChargeRec) (p : Profile) (draw : Nat) : Bool :=
  c.target ≤ draw + cfg.pressMargin ∧ c.dynCeiling < p.ceiling

/-- R84: the condition of the wake counter, the difference taken with its sign. -/
def wakeHolds (cfg : ChargeSettings) (p : Profile) (draw : Nat) : Bool := p.maintenance ≤ draw + cfg.pressMargin

/-- What a counted sample does to a bay's charge state (R79): nothing but counting, a phase change, or a change of the
dynamic ceiling. -/
inductive Action where
  | counted (c : ChargeRec)
  | phase (new : Phase) (c : ChargeRec)
  | ceiling (c : ChargeRec)
  deriving DecidableEq, Repr

/-- R81: the press test of a counted sample. -/
def pressTest (cfg : ChargeSettings) (c : ChargeRec) (p : Profile) (draw : Nat) : Action :=
  if pressHolds cfg c p draw then
    if cfg.reclaimCount ≤ c.press + 1 then
      .ceiling { c with press := 0, dynCeiling := min p.ceiling (c.dynCeiling + cfg.pressStep) }
    else .counted { c with press := c.press + 1 }
  else .counted { c with press := 0 }

/-- R79, R80: the reclaim test of a counted sample, and the press test when it takes no action. -/
def reclaimTest (cfg : ChargeSettings) (c : ChargeRec) (p : Profile) (draw : Nat) : Action :=
  if reclaimHolds cfg c draw then
    if cfg.reclaimCount ≤ c.reclaim + 1 then
      let new := reclaimCeiling cfg c p draw
      let c' := { c with reclaim := 0, press := 0 }
      if new = c.dynCeiling then .counted c' else .ceiling { c' with dynCeiling := new }
    else pressTest cfg { c with reclaim := c.reclaim + 1 } p draw
  else pressTest cfg { c with reclaim := 0 } p draw

/-- R79, R83, R84: a counted sample of a bay with this applied grant. A counter acts at a sample that adds to it (entry
14). -/
def countSample (cfg : ChargeSettings) (c : ChargeRec) (p : Profile) (grant draw : Nat) : Action :=
  match c.phase with
  | .bulk =>
    let n := phaseCount draw p.taper cfg.reclaimMargin grant c.taperN
    if phaseAdds draw p.taper cfg.reclaimMargin grant ∧ cfg.taperCount ≤ n then
      .phase .taper { c.zeroCounts with phase := .taper }
    else reclaimTest cfg { c with taperN := n } p draw
  | .taper =>
    let n := phaseCount draw p.full cfg.reclaimMargin grant c.fullN
    if phaseAdds draw p.full cfg.reclaimMargin grant ∧ cfg.fullCount ≤ n then
      .phase .full { c.zeroCounts with phase := .full }
    else reclaimTest cfg { c with fullN := n } p draw
  | .full =>
    if wakeHolds cfg p draw then
      if cfg.wakeCount ≤ c.wakeN + 1 then .phase .taper { c.zeroCounts with phase := .taper, dynCeiling := p.ceiling }
      else .counted { c with wakeN := c.wakeN + 1 }
    else .counted { c with wakeN := 0 }

/-- R87: the CHARGE_PHASE notice. -/
def phaseNote (b : Bay) (old new : Phase) (s : State) : State :=
  let e := word (energyReport (s.bay b).energy)
  note .chargePhase (bayNumber b) old.code new.code (hiByte e) (loByte e) s

/-- R79, R85: the action of a counted sample is taken; a phase change and a change of the dynamic ceiling ask for a
pass. -/
def takeAction (b : Bay) (a : Action) (s : State) : State :=
  match a with
  | .counted c => s.setChg b c
  | .phase new c => askPass (phaseNote b (s.chg b).phase new (s.setChg b c))
  | .ceiling c => askPass (s.setChg b c)

/-- R78: the sample is a counted sample. -/
def countedSample (s : State) (b : Bay) (draw : Byte) : Bool :=
  (s.bay b).state = .charging ∧ draw ≠ 255 ∧ (s.chg b).pendingInc = none

/-- R23, step 4: a sample reaches the Allocator. -/
def allocSample (b : Bay) (draw : Byte) (s : State) : State :=
  if countedSample s b draw then
    takeAction b (countSample s.alloc.settings (s.chg b) (s.profile b) (s.bay b).grant draw.toNat) s
  else s

/-- R86: an attach reaches the Allocator. -/
def allocAttach (b : Bay) (s : State) : State :=
  s.setChg b { (s.chg b).zeroCounts with phase := .bulk, dynCeiling := (s.profile b).ceiling }

/-- R86: a detach reaches the Allocator. -/
def allocDetach (b : Bay) (s : State) : State := s.setChg b (s.chg b).zeroCounts

/-- R76: the dynamic ceiling of a bay whose profile ceiling changes. -/
def followCeiling (old new dyn : Nat) : Nat :=
  if new < old then min new dyn else if old < new ∧ dyn = old then new else dyn

/-- R76: PROFILE-SET acts on a bay that uses the profile. -/
def followProfile (i : Fin 8) (old : Nat) (b : Bay) (s : State) : State :=
  if (s.chg b).profile = i then
    capGrant b (s.setChg b
      { s.chg b with dynCeiling := followCeiling old (s.profile b).ceiling (s.chg b).dynCeiling })
  else s

/-- R76: some bay with presence set uses the profile. -/
def profileInUse (s : State) (i : Fin 8) : Bool :=
  allBays.any fun b => (s.chg b).profile = i ∧ (s.bay b).presence

/-- R75: the values taken by a PROFILE-SET, in its order. -/
def profileBytes (p : Profile) : List Byte :=
  num16 p.floor ++ num16 p.ceiling ++ num16 p.maintenance ++ num16 p.taper ++ num16 p.full ++ num16 p.readiness

/-- R75, R76: PROFILE-SET is taken. -/
def takeProfileSet (tag index : Byte) (asked : Profile) (s : State) : State :=
  match profileOf index with
  | none => refuse 0x12 tag .range s
  | some i =>
    let p := clampProfile asked
    let old := s.alloc.profiles[i].ceiling
    let s := { s with alloc := { s.alloc with profiles := s.alloc.profiles.set i p } }
    let s := eachBay (followProfile i old) s
    let s := reply 0x12 tag (doneOr (p ≠ asked)) (index :: profileBytes p) s
    finish (if profileInUse s i then askPass s else s)

/-- The profile a PROFILE-SET carries. -/
def profileFields (floor ceiling maintenance taper full readiness : Word16) : Profile where
  floor := floor.toNat
  ceiling := ceiling.toNat
  maintenance := maintenance.toNat
  taper := taper.toNat
  full := full.toNat
  readiness := readiness.toNat

/-- R75 as a command: PROFILE_SET. -/
def execProfileSet (tag index : Byte) (floor ceiling maintenance taper full readiness : Word16) (s : State) : Out :=
  .next (request (.profileSet tag index floor ceiling maintenance taper full readiness)
    (takeProfileSet tag index (profileFields floor ceiling maintenance taper full readiness)) s)

/-- R77: BAY-PROFILE is taken. The answer's fields are bytes; the size of the new dynamic ceiling, which no request
carries, is the model's (entry 16). -/
def takeBayProfile (tag bay index : Byte) (s : State) : State :=
  match bayOf bay, profileOf index with
  | some b, some i =>
    let ceiling := s.alloc.profiles[i].ceiling
    let s := s.setChg b { (s.chg b).zeroCounts with profile := i, dynCeiling := ceiling }
    finish (askPass (reply 0x13 tag .done [bay, index, byte ceiling] (capGrant b s)))
  | _, _ => refuse 0x13 tag .range s

/-- R77 as a command: BAY_PROFILE. -/
def execBayProfile (tag bay index : Byte) (s : State) : Out :=
  .next (request (.bayProfile tag bay index) (takeBayProfile tag bay index) s)

end Sys2Proof.Machine
end

