-- ==== Sys2Proof/Machine/BayCommands.lean ====
section
/-! DEFINITION. The events and requests of the bays (chapters 1 and 6): attach and detach, probes, shorts, backoff and
clean charge, BAY-ENABLE, BAY-QUERY, FAULT-CLEAR and SUPERVISION-SET. -/

namespace Sys2Proof.Machine

/-- The raw attach signature of a bay stands at a level (entry 3). -/
def setSignature (b : Bay) (level : Bool) (s : State) : State :=
  { s with pins := { s.pins with signature := s.pins.signature.set b level } }

/-- R3: the bay record after an attach. -/
def BayRec.attached (r : BayRec) (now : Nat) : BayRec :=
  let seated : BayRec := { r with presence := true, attachRun := 0, energy := 0, residue := 0, dataLine := .clear }
  if r.state = .empty then (seated.moved .qualifying).newProbe now else seated

/-- R3: an attach, handed to the Custody Table, the Allocator and the Provisioning Scheduler. The data bytes of ATTACHED
that R3 and R185 leave open are 0 (entry 43). -/
def attach (b : Bay) (s : State) : State :=
  let r := s.bay b
  let r' := r.attached s.time.ms
  let s := note .attached (bayNumber b) r'.state.code 0 0 0 (s.setBay b r')
  let s := allocAttach b (custodyAttach b s)
  finish (reportChange b r.state r'.state s)

/-- R3 as an event: the presence flag of the bay was clear. -/
def attachEvent (b : Bay) (s : State) : State :=
  if (s.bay b).presence then s else attach b (setSignature b true s)

/-- R3 as a command: ATTACH. -/
def execAttach (bay : Bay) (s : State) : Out := .next (live (attachEvent bay) s)

/-- R4: the state of a bay after a detach. -/
def BayState.afterDetach : BayState → BayState
  | .empty => .empty
  | .qualifying => .empty
  | .waiting => .empty
  | .charging => .empty
  | .hold => .empty
  | .latched => .latched
  | .disabled => .disabled

/-- R4, R99: the bay record after a detach. -/
def BayRec.detached (r : BayRec) : BayRec :=
  { r.moved r.state.afterDetach with presence := false, absenceRun := 0, grant := 0, retries := 0, backoff := .stopped }

/-- R4: a detach, handed to the Custody Table, the Allocator and the Provisioning Scheduler (entry 13). -/
def detach (b : Bay) (s : State) : State :=
  let r := s.bay b
  let r' := r.detached
  let e := word (energyReport r'.energy)
  let s := note .detached (bayNumber b) r.state.code r'.state.code (hiByte e) (loByte e) (s.setBay b r')
  let s := allocDetach b (custodyDetach b s)
  finish (schedDetach b (reportChange b r.state r'.state s))

/-- R4 as an event: the presence flag of the bay was set. -/
def detachEvent (b : Bay) (s : State) : State :=
  if (s.bay b).presence then detach b (setSignature b false s) else s

/-- R4 as a command: DETACH. -/
def execDetach (bay : Bay) (s : State) : Out := .next (live (detachEvent bay) s)

/-- R9: the result of a probe arrives. That of an abandoned probe, which its number tells, is discarded
(entry 27). -/
def probeCompletes (b : Bay) (number : Nat) (short : Bool) (s : State) : State :=
  if (s.bay b).state = .qualifying ∧ (s.bay b).probe.map Probe.number = some number then
    finish (if short then probeFault b s else changeBay b .waiting s)
  else s

/-- R9 as a command: PROBE_COMPLETE. -/
def execProbeComplete (bay : Bay) (number : Nat) (short : Bool) (s : State) : Out :=
  .next (live (probeCompletes bay number short) s)

/-- R13: the states in which a SHORT event is a fault. -/
def BayState.shortFaults : BayState → Bool
  | .empty => false
  | .qualifying => true
  | .waiting => true
  | .charging => true
  | .hold => false
  | .latched => false
  | .disabled => false

/-- R13: the current trip of a bay's output stage. -/
def shortTrip (b : Bay) (s : State) : State :=
  if (s.bay b).state.shortFaults then finish (transientFault b .short 0 s) else s

/-- R13 as a command: SHORT_EVENT. -/
def execShortEvent (bay : Bay) (s : State) : Out := .next (live (shortTrip bay) s)

/-- R97: the backoff timer of a bay in HOLD expires. -/
def backoffExpires (b : Bay) (s : State) : State :=
  let r := s.bay b
  match r.state, r.backoff with
  | .hold, .running _ =>
    if coolDownMet r.lastFault s.superv.hotLimit s.scan.latestTemp[b] then finish (leaveHold b s)
    else s.setBay b { r with backoff := .coolDown }
  | _, _ => s

/-- R97 as a command: BACKOFF_EXPIRY. -/
def execBackoffExpiry (bay : Bay) (s : State) : Out := .next (live (backoffExpires bay) s)

/-- R99: the clean-charge timer of a bay expires. -/
def cleanChargeExpires (b : Bay) (s : State) : State :=
  let r := s.bay b
  match r.cleanTimer with
  | none => s
  | some _ => s.setBay b { r with retries := 0, lastFault := none, cleanTimer := none }

/-- R99 as a command: CLEAN_CHARGE_EXPIRY. -/
def execCleanChargeExpiry (bay : Bay) (s : State) : Out := .next (live (cleanChargeExpires bay) s)

/-- R17: a bay is disabled; one that is DISABLED already is left as it is. -/
def disableBay (b : Bay) (s : State) : State :=
  if (s.bay b).state = .disabled then s else changeBay b .disabled s

/-- R17: BAY-ENABLE(off) is taken. -/
def takeBayEnableOff (tag bay : Byte) (s : State) : State :=
  match bayOf bay with
  | none => refuse 0x14 tag .range s
  | some b =>
    let s := disableBay b s
    finish (reply 0x14 tag .done [(s.bay b).state.code] s)

/-- R17 as a command: BAY_ENABLE_OFF. -/
def execBayEnableOff (tag bay : Byte) (s : State) : Out :=
  .next (request (.bayEnableOff tag bay) (takeBayEnableOff tag bay) s)

/-- R17: a bay is enabled; one that is not DISABLED is left as it is. -/
def enableBay (b : Bay) (s : State) : State :=
  if (s.bay b).state = .disabled then
    if (s.bay b).presence then enterQualifying b s else changeBay b .empty s
  else s

/-- R17: BAY-ENABLE(on) is taken. -/
def takeBayEnableOn (tag bay : Byte) (s : State) : State :=
  match bayOf bay with
  | none => refuse 0x14 tag .range s
  | some b =>
    let s := enableBay b s
    finish (reply 0x14 tag .done [(s.bay b).state.code] s)

/-- R17 as a command: BAY_ENABLE_ON. -/
def execBayEnableOn (tag bay : Byte) (s : State) : Out :=
  .next (request (.bayEnableOn tag bay) (takeBayEnableOn tag bay) s)

/-- R18: the tier as BAY-QUERY reports it, NORMAL outside the eligible set. -/
def reportedTier (s : State) (b : Bay) : Tier := if (s.bay b).state.eligible then (s.chg b).tier else .normal

/-- R18, R185: the fields of the BAY-QUERY answer after the result byte. The byte values of presence and of the probe in
flight are the model's (entry 44). -/
def bayQueryFields (b : Bay) (s : State) : List Byte :=
  let r := s.bay b
  let c := s.chg b
  [bayNumber b, flagByte r.presence, r.state.code, faultCode r.lastFault, byte r.retries] ++
    num16 (backoffSeconds s.time.ms r.backoff) ++
    [flagByte r.probe.isSome, byte r.grant, byte c.target, byte (c.pendingInc.getD 0), (reportedTier s b).code,
      c.phase.code, byte c.dynCeiling, byte c.profile.val] ++
    num32 r.energy ++ num16 r.residue ++ num16 (energyReport r.energy) ++
    [s.scan.latestDraw[b], s.scan.latestTemp[b], dataLineCode r.dataLine]

/-- R18: BAY-QUERY is taken. -/
def takeBayQuery (tag bay : Byte) (s : State) : State :=
  match bayOf bay with
  | none => refuse 0x04 tag .range s
  | some b => reply 0x04 tag .done (bayQueryFields b s) s

/-- R18 as a command: BAY_QUERY. -/
def execBayQuery (tag bay : Byte) (s : State) : Out := .next (request (.bayQuery tag bay) (takeBayQuery tag bay) s)

/-- R101: the fault fields of a bay are cleared and its state follows. -/
def clearFault (b : Bay) (s : State) : State :=
  let s := s.setBay b { s.bay b with retries := 0, lastFault := none }
  match (s.bay b).state with
  | .latched => if (s.bay b).presence then enterQualifying b s else changeBay b .empty s
  | .hold => enterQualifying b s
  | .empty => s
  | .qualifying => s
  | .waiting => s
  | .charging => s
  | .disabled => s

/-- R101: FAULT-CLEAR is taken. -/
def takeFaultClear (tag bay : Byte) (s : State) : State :=
  match bayOf bay with
  | none => refuse 0x17 tag .range s
  | some b =>
    let s := clearFault b s
    finish (reply 0x17 tag .done [bay, (s.bay b).state.code] s)

/-- R101 as a command: FAULT_CLEAR. -/
def execFaultClear (tag bay : Byte) (s : State) : Out :=
  .next (request (.faultClear tag bay) (takeFaultClear tag bay) s)

/-- R102: SUPERVISION-SET is taken. -/
def takeSupervisionSet (tag : Byte) (asked : SupervSettings) (s : State) : State :=
  let c := clampSuperv asked
  reply 0x16 tag (doneOr (c ≠ asked)) (num16 c.retryLimit ++ num16 c.backoff ++ num16 c.tolerance ++ num16 c.hotLimit)
    { s with superv := c }

/-- The supervision settings a SUPERVISION-SET carries. -/
def supervFields (retryLimit backoff tolerance hotLimit : Word16) : SupervSettings where
  retryLimit := retryLimit.toNat
  backoff := backoff.toNat
  tolerance := tolerance.toNat
  hotLimit := hotLimit.toNat

/-- R102 as a command: SUPERVISION_SET. -/
def execSupervisionSet (tag : Byte) (retryLimit backoff tolerance hotLimit : Word16) (s : State) : Out :=
  .next (request (.supervisionSet tag retryLimit backoff tolerance hotLimit)
    (takeSupervisionSet tag (supervFields retryLimit backoff tolerance hotLimit)) s)

end Sys2Proof.Machine
end

