-- ==== Sys2Proof/Machine/Latches.lean ====
section
/-! DEFINITION. The Latch Controller (chapter 7): the latch machines, the motion queue and the arbitration step, what the
other blocks receive, and the commands of the latches. -/

namespace Sys2Proof.Machine

/-- The latch events handed to the Custody Table and the Provisioning Scheduler (R123). -/
inductive LatchEvent where
  | released
  | doorOpen
  | releaseFailed
  | leftLocked
  | relocked
  deriving DecidableEq, Repr

/-- R123: a latch event is handed to the Custody Table and then to the Provisioning Scheduler. -/
def handOn (b : Bay) (ev : LatchEvent) (s : State) : State :=
  match ev with
  | .released => s
  | .doorOpen => s
  | .releaseFailed => custodyReleaseFailed b s
  | .leftLocked => schedLeftLocked b s
  | .relocked => assignmentRun (custodyRelocked b s)

/-- The accepted level of a filter is asserted. -/
def Filter.on (f : Filter) : Bool := f.level = some true

/-- Every timer of a latch stopped. -/
def LatchRec.still (l : LatchRec) : LatchRec := { l with travel := none, pause := none, window := none, settle := none }

/-- R118: a motion joins the queue at its tail. -/
def queueMotion (b : Bay) (m : Motion) (s : State) : State := s.setMotions (s.latchUnit.queue ++ [(b, m)])

/-- R118: a bay's entry leaves the motion queue. -/
def dropMotion (b : Bay) (s : State) : State := s.setMotions (s.latchUnit.queue.filter fun m => m.1 ≠ b)

/-- R124: a latch notice with its two data bytes. -/
def latchNote (kind : NoticeKind) (b : Bay) (d1 d2 : Byte) (s : State) : State := note kind (bayNumber b) d1 d2 0 0 s

/-- R110, R111: the latch enters RELEASED with its window timer started, and a RELEASED notice of cause 0 is queued. -/
def enterReleased (b : Bay) (s : State) : State :=
  let l := { (s.latch b).still with
    state := some .released, window := some (s.time.ms + s.latchUnit.settings.window * 1000) }
  handOn b .released (latchNote .released b 0 LatchState.released.code (s.setLatch b l))

/-- R113: the latch enters LOCKED and is handed on as relocked. -/
def enterLocked (b : Bay) (s : State) : State :=
  handOn b .relocked (s.setLatch b { (s.latch b).still with state := some .locked })

/-- R112: the latch enters OPEN, its pending motion removed. -/
def enterOpen (b : Bay) (s : State) : State :=
  handOn b .doorOpen (dropMotion b (s.setLatch b { (s.latch b).still with state := some .opened }))

/-- R112: the latch enters CLOSING with its settle timer started. -/
def enterClosing (b : Bay) (s : State) : State :=
  s.setLatch b { (s.latch b).still with
    state := some .closing, settle := some (s.time.ms + s.latchUnit.settings.closeSettle) }

/-- R114, R117, R126: the latch enters CLOSING with an EXTEND queued at once and no settle timer. -/
def enterClosingExtend (b : Bay) (s : State) : State :=
  queueMotion b .extend (s.setLatch b { (s.latch b).still with state := some .closing })

/-- R115: the latch enters FORCED from LOCKED or JAMMED. -/
def enterForced (b : Bay) (before : LatchState) (s : State) : State :=
  let retract := s.pendingMotion b = some .retract
  let s := dropMotion b (s.setLatch b { (s.latch b).still with state := some .forced })
  let s := if retract then latchNote .releaseFailed b 2 LatchState.forced.code s else s
  let s := latchNote .forced b before.code 0 s
  let s := if retract then handOn b .releaseFailed s else s
  let s := if before = .locked then handOn b .leftLocked s else s
  handOn b .doorOpen s

/-- R117: the latch enters SENSOR_FAULT from the state it was in. -/
def enterSensorFault (b : Bay) (before : LatchState) (s : State) : State :=
  let retract := s.pendingMotion b = some .retract
  let s := dropMotion b (s.setLatch b { (s.latch b).still with state := some .sensorFault })
  let s := if retract then latchNote .releaseFailed b 3 LatchState.sensorFault.code s else s
  let s := latchNote .latchFault b 2 before.code s
  let s := if retract then handOn b .releaseFailed s else s
  if before = .locked then handOn b .leftLocked s else s

/-- R113, R119: an EXTEND is granted; a bolt already thrown completes it at once. -/
def grantExtend (b : Bay) (s : State) : State :=
  let l := { (s.latch b).still with
    state := some .extending, retryUsed := false, travel := some (s.time.ms + s.latchUnit.settings.travel) }
  let s := s.setLatch b l
  if l.boltOut.on then enterLocked b s else s

/-- R114, R116, R119: a RETRACT is granted; a bolt already withdrawn completes it at once. -/
def grantRetract (b : Bay) (s : State) : State :=
  let before := (s.latch b).state
  let l := { (s.latch b).still with
    state := some .retracting, travel := some (s.time.ms + s.latchUnit.settings.travel) }
  let s := s.setLatch b l
  let s := if before = some .locked then handOn b .leftLocked s else s
  if l.boltIn.on then enterReleased b s else s

/-- R119, step 1: the entry to grant, the oldest EXTEND, or else the oldest entry. -/
def nextMotion (q : List (Bay × Motion)) : Option (Bay × Motion) :=
  match q.find? fun m => m.2 == .extend with
  | some m => some m
  | none => q.head?

/-- R119: motions are granted while the queue is not empty and fewer than M latches move. Each grant takes one entry
from the queue. -/
def grantMotions : Nat → State → State
  | 0, s => s
  | fuel + 1, s =>
    if s.moving < s.latchUnit.settings.movers then
      match nextMotion s.latchUnit.queue with
      | none => s
      | some (b, m) =>
        let s := dropMotion b s
        grantMotions fuel (match m with | .extend => grantExtend b s | .retract => grantRetract b s)
    else s

/-- R119: the arbitration step. -/
def arbitrate (s : State) : State := grantMotions s.latchUnit.queue.length s

/-- R46, R120: after a mover was freed, the Budget Unit is told if more latches moved before it than M allows, and an
arbitration step runs. -/
def moverFreed (before : State) (s : State) : State :=
  arbitrate (if before.latchUnit.settings.movers < before.moving then recompute s else s)

/-- R114: BOLT_OUT is released in LOCKED: the bolt has slipped. A pending RETRACT is kept. -/
def boltSlipped (b : Bay) (s : State) : State :=
  if s.pendingMotion b = some .retract then s
  else arbitrate (handOn b .leftLocked (enterClosingExtend b s))

/-- R117: a contact event in SENSOR_FAULT tests the three accepted levels. -/
def sensorFaultTest (b : Bay) (s : State) : State :=
  let l := s.latch b
  if l.boltOut.on ∧ l.boltIn.on then s
  else if l.door.on = false then enterOpen b s
  else if l.boltOut.on then enterLocked b s
  else if l.boltIn.on then arbitrate (enterClosingExtend b s)
  else s

/-- The door is opened (R110 to R116): DOOR_CLOSED has been released in this state. -/
def doorOpened (b : Bay) (st : LatchState) (s : State) : State :=
  match st with
  | .locked => enterForced b .locked s
  | .retracting =>
    let opened := { (s.latch b).still with state := some .opened }
    let s' := latchNote .released b 1 LatchState.opened.code (s.setLatch b opened)
    moverFreed s (handOn b .doorOpen (handOn b .released s'))
  | .released => enterOpen b s
  | .opened => s
  | .closing => enterOpen b s
  | .extending => moverFreed s (enterOpen b s)
  | .jammed => if (s.latch b).boltOut.on then enterForced b .jammed s else enterOpen b s
  | .sensorFault => s
  | .forced => s

/-- The door is shut (R112, R115): DOOR_CLOSED has been asserted in this state. -/
def doorShut (b : Bay) (st : LatchState) (s : State) : State :=
  match st with
  | .opened => enterClosing b s
  | .forced => if (s.latch b).boltOut.on then enterLocked b s else enterClosing b s
  | .locked => s
  | .retracting => s
  | .released => s
  | .closing => s
  | .extending => s
  | .jammed => s
  | .sensorFault => s

/-- The bolt has reached a contact or left it (R110, R113, R114). -/
def boltMoved (b : Bay) (st : LatchState) (contact : Contact) (asserted : Bool) (s : State) : State :=
  if st = .retracting ∧ contact = .boltIn ∧ asserted then moverFreed s (enterReleased b s)
  else if st = .extending ∧ contact = .boltOut ∧ asserted then moverFreed s (enterLocked b s)
  else if st = .locked ∧ contact = .boltOut ∧ asserted = false then boltSlipped b s
  else s

/-- R110 to R117: a contact event reaches the bay's latch machine. Both bolt contacts asserted takes every state but
SENSOR_FAULT to SENSOR_FAULT. -/
def machineEvent (b : Bay) (st : LatchState) (contact : Contact) (asserted : Bool) (s : State) : State :=
  let l := s.latch b
  if st = .sensorFault then sensorFaultTest b s
  else if l.boltOut.on ∧ l.boltIn.on then
    let s' := enterSensorFault b st s
    if st = .retracting ∨ st = .extending then moverFreed s s' else s'
  else
    match contact with
    | .doorClosed => if asserted then doorShut b st s else doorOpened b st s
    | .boltOut => boltMoved b st .boltOut asserted s
    | .boltIn => boltMoved b st .boltIn asserted s

/-- The filter of a contact. -/
def LatchRec.filter (l : LatchRec) : Contact → Filter
  | .boltOut => l.boltOut
  | .boltIn => l.boltIn
  | .doorClosed => l.door

/-- The latch record with the filter of a contact replaced. -/
def LatchRec.setFilter (l : LatchRec) (c : Contact) (f : Filter) : LatchRec :=
  match c with
  | .boltOut => { l with boltOut := f }
  | .boltIn => { l with boltIn := f }
  | .doorClosed => { l with door := f }

/-- R126: the start state of a latch machine, from its accepted levels. The arbitration step follows the starts of the
same sample. -/
def startMachine (b : Bay) (s : State) : State :=
  let l := s.latch b
  if l.boltOut.on ∧ l.boltIn.on then
    latchNote .latchFault b 2 255 (s.setLatch b { l with state := some .sensorFault })
  else if l.door.on = false then s.setLatch b { l with state := some .opened }
  else if l.boltOut.on then s.setLatch b { l with state := some .locked }
  else if l.boltIn.on then enterClosing b s
  else enterClosingExtend b s

/-- R107, R126: all three filters of a bay have accepted levels and its machine has not started. -/
def readyToStart (l : LatchRec) : Bool :=
  l.state = none ∧ l.boltOut.level ≠ none ∧ l.boltIn.level ≠ none ∧ l.door.level ≠ none

/-- R126: the machine of a bay starts when it is due. -/
def startIfReady (b : Bay) (s : State) : State := if readyToStart (s.latch b) then startMachine b s else s

/-- R107: a contact filter accepts a level. A first acceptance is no contact event. -/
def acceptLevel (b : Bay) (contact : Contact) (asserted : Bool) (s : State) : State :=
  let l := s.latch b
  let f := l.filter contact
  let s' := s.setLatch b (l.setFilter contact ⟨some asserted, 0, some asserted⟩)
  match f.level, l.state with
  | none, _ => s'
  | some _, none => s'
  | some level, some st => if level = asserted then s else machineEvent b st contact asserted s'

/-- The raw level of a contact (entry 3). -/
def RawContacts.set (r : RawContacts) (c : Contact) (level : Bool) : RawContacts :=
  match c with
  | .boltOut => { r with boltOut := level }
  | .boltIn => { r with boltIn := level }
  | .doorClosed => { r with doorClosed := level }

/-- The raw level of a contact. -/
def RawContacts.get (r : RawContacts) : Contact → Bool
  | .boltOut => r.boltOut
  | .boltIn => r.boltIn
  | .doorClosed => r.doorClosed

/-- A contact line of a bay stands at a level (entry 3). -/
def setContactPin (b : Bay) (c : Contact) (level : Bool) (s : State) : State :=
  { s with pins := { s.pins with contacts := s.pins.contacts.set b (s.pins.contacts[b].set c level) } }

/-- R107: a contact event, with the start of the machine when the level completes its three. -/
def contactEvent (b : Bay) (contact : Contact) (asserted : Bool) (s : State) : State :=
  let s' := acceptLevel b contact asserted (setContactPin b contact asserted s)
  finish (if readyToStart (s'.latch b) then arbitrate (startMachine b s') else s')

/-- R107 as a command: CONTACT_EVENT. -/
def execContactEvent (bay : Bay) (contact : Contact) (asserted : Bool) (s : State) : Out :=
  .next (live (contactEvent bay contact asserted) s)

/-- R126: the three filters of a bay have accepted these levels and its machine starts. A machine that has started is
left as it is. -/
def latchMachineStart (b : Bay) (boltOut boltIn doorClosed : Bool) (s : State) : State :=
  if (s.latch b).state ≠ none then s
  else
    let s := setContactPin b .boltOut boltOut (setContactPin b .boltIn boltIn (setContactPin b .doorClosed doorClosed s))
    let accepted (level : Bool) : Filter := ⟨some level, 0, some level⟩
    finish (arbitrate (startMachine b (s.setLatch b { s.latch b with
      boltOut := accepted boltOut, boltIn := accepted boltIn, door := accepted doorClosed })))

/-- R126 as a command: LATCH_MACHINE_START. -/
def execLatchMachineStart (bay : Bay) (boltOut boltIn doorClosed : Bool) (s : State) : Out :=
  .next (live (latchMachineStart bay boltOut boltIn doorClosed) s)

/-- R110, R113: the travel timer of a latch expires. -/
def travelTimeout (b : Bay) (s : State) : State :=
  let l := s.latch b
  match l.travel, l.state with
  | some _, some .retracting =>
    let s' := latchNote .releaseFailed b 1 LatchState.jammed.code (s.setLatch b { l.still with state := some .jammed })
    finish (moverFreed s (handOn b .releaseFailed s'))
  | some _, some .extending =>
    if l.retryUsed then
      finish (moverFreed s
        (latchNote .latchFault b 1 LatchState.extending.code (s.setLatch b { l.still with state := some .jammed })))
    else s.setLatch b { l with travel := none, retryUsed := true, pause := some (s.time.ms + Config.retryPause) }
  | _, _ => s

/-- R113 as a command: TRAVEL_TIMEOUT. -/
def execTravelTimeout (bay : Bay) (s : State) : Out := .next (live (travelTimeout bay) s)

/-- R113: the retry pause expires and the bolt is driven out again. -/
def retryPauseExpires (b : Bay) (s : State) : State :=
  let l := s.latch b
  match l.pause, l.state with
  | some _, some .extending =>
    s.setLatch b { l with pause := none, travel := some (s.time.ms + s.latchUnit.settings.travel) }
  | _, _ => s

/-- R113 as a command: RETRY_PAUSE_EXPIRY. -/
def execRetryPauseExpiry (bay : Bay) (s : State) : Out := .next (live (retryPauseExpires bay) s)

/-- R111: the window timer stops and an EXTEND is queued, in a latch in RELEASED whose window runs. -/
def endWindow (b : Bay) (s : State) : State :=
  let l := s.latch b
  match l.window, l.state with
  | some _, some .released => queueMotion b .extend (s.setLatch b { l with window := none })
  | _, _ => s

/-- R111: the release window of a bay expires. -/
def windowExpires (b : Bay) (s : State) : State :=
  match (s.latch b).window, (s.latch b).state with
  | some _, some .released => finish (arbitrate (endWindow b s))
  | _, _ => s

/-- R111 as a command: WINDOW_EXPIRY. -/
def execWindowExpiry (bay : Bay) (s : State) : Out := .next (live (windowExpires bay) s)

/-- R112: the close settle of a bay expires. -/
def closeSettleExpires (b : Bay) (s : State) : State :=
  let l := s.latch b
  match l.settle, l.state with
  | some _, some .closing => finish (arbitrate (queueMotion b .extend (s.setLatch b { l with settle := none })))
  | _, _ => s

/-- R112 as a command: CLOSE_SETTLE_EXPIRY. -/
def execCloseSettleExpiry (bay : Bay) (s : State) : Out := .next (live (closeSettleExpires bay) s)

/-- R121: the lockdown flag changes from clear to set. -/
def latchLockdown (s : State) : State := arbitrate (eachBay endWindow s)

/-- R122, step 1: a latch in RETRACTING is reversed. -/
def reverseLatch (b : Bay) (s : State) : State :=
  let l := s.latch b
  if l.state = some .retracting then
    s.setLatch b { l.still with
      state := some .extending, retryUsed := false, travel := some (s.time.ms + s.latchUnit.settings.travel) }
  else s

/-- R122, step 2: a RETRACT is removed from the queue; a LOCKED latch is handed on as relocked. -/
def removeRetract (b : Bay) (s : State) : State :=
  if (b, Motion.retract) ∈ s.latchUnit.queue then
    let s := s.setMotions (s.latchUnit.queue.filter fun m => m ≠ (b, Motion.retract))
    if (s.latch b).state = some .locked then handOn b .relocked s else s
  else s

/-- R122: the Latch Controller acts on entry to AUTONOMOUS mode. -/
def latchAutonomous (s : State) : State :=
  arbitrate (eachBay endWindow (eachBay removeRetract (eachBay reverseLatch s)))

/-- R109: a release request that the Custody Table's checks have let through queues a RETRACT, and an arbitration step
follows. A latch that R109 refuses is left as it is. -/
def releaseRequest (b : Bay) (s : State) : State :=
  if s.link.mode = .normal ∧ ((s.latch b).state = some .locked ∨ (s.latch b).state = some .jammed) ∧
      s.pendingMotion b = none then
    arbitrate (queueMotion b .retract s)
  else s

/-- R125: LATCH-SET is taken. The Budget Unit is told of a changed M or A before the arbitration of a raised M. -/
def takeLatchSet (tag : Byte) (asked : LatchSettings) (s : State) : State :=
  let c := clampLatch asked
  let old := s.latchUnit.settings
  let s := { s with latchUnit := { s.latchUnit with settings := c } }
  let s := if c.movers ≠ old.movers ∨ c.draw ≠ old.draw then runAsked (recompute s) else s
  let s := if old.movers < c.movers then arbitrate s else s
  finish (reply 0x20 tag (doneOr (c ≠ asked))
    (num16 c.noise ++ num16 c.window ++ num16 c.closeSettle ++ num16 c.travel ++ num16 c.movers ++ num16 c.draw ++
      [byte s.moving, byte s.latchUnit.queue.length]) s)

/-- The latch settings a LATCH-SET carries. -/
def latchFields (noise window closeSettle travel movers draw : Word16) : LatchSettings where
  noise := noise.toNat
  window := window.toNat
  closeSettle := closeSettle.toNat
  travel := travel.toNat
  movers := movers.toNat
  draw := draw.toNat

/-- R125 as a command: LATCH_SET. -/
def execLatchSet (tag : Byte) (noise window closeSettle travel movers draw : Word16) (s : State) : Out :=
  .next (request (.latchSet tag noise window closeSettle travel movers draw)
    (takeLatchSet tag (latchFields noise window closeSettle travel movers draw)) s)

end Sys2Proof.Machine
end

