-- ==== Sys2Proof/Machine/Checkout.lean ====
section
/-! DEFINITION. The custody requests and the advance of the minute counter (chapter 8): CHECKOUT, RETURN, SERVICE-OPEN,
reservations, LOCKDOWN, CUSTODY-LOAD and CUSTODY-SET. -/

namespace Sys2Proof.Machine

/-- The latch is JAMMED or SENSOR_FAULT (check 5 of R133 and of R136). -/
def latchFaulty (s : State) (b : Bay) : Bool :=
  (s.latch b).state = some .jammed ∨ (s.latch b).state = some .sensorFault

/-- The latch is in another state than LOCKED or holds a pending motion, or the record holds a release purpose (check 5
of R133 and of R136). -/
def notLocked (s : State) (b : Bay) : Bool :=
  (s.latch b).state ≠ some .locked ∨ s.pendingMotion b ≠ none ∨ (s.cust b).purpose ≠ none

/-- R133, check 6: the bay carries a reservation of another group. -/
def reservedOther (s : State) (b : Bay) (group : Byte) : Bool :=
  match (s.cust b).reservation with
  | none => false
  | some r => r.group ≠ group

/-- R133: checks 4 to 9 of a CHECKOUT for one bay; the reason of the first that fails. -/
def checkBay (s : State) (group flags : Byte) (b : Bay) : Option Reason :=
  if (s.bay b).presence = false ∨ (s.cust b).status ≠ .inCart then some .notPresent
  else if latchFaulty s b then some .latchFault
  else if notLocked s b then some .latchNotLocked
  else if reservedOther s b group then some .reservedOther
  else if (s.laneOf b).isSome ∧ flagBit flags 1 = false then some .bayBusy
  else if ((s.bay b).state = .hold ∨ (s.bay b).state = .latched) ∧ flagBit flags 2 = false then some .bayFault
  else if s.ready b = false ∧ flagBit flags 0 = false then some .notReady
  else none

/-- R129: the holder count of a holder has reached the holder limit. -/
def atHolderLimit (s : State) (holder : Word16) : Bool := s.custodySet.holderLimit ≤ holderCount s holder

/-- R133, R146: the due minute of a due time in minutes from now, none for 0. -/
def dueMinute (now : Word16) (dueIn : Nat) : Option Word16 := if dueIn = 0 then none else some (now + word dueIn)

/-- R135, test 1: FULL before TAPER before BULK. -/
def phaseRank : Phase → Nat
  | .full => 0
  | .taper => 1
  | .bulk => 2

/-- R135: bay a is chosen before bay b. -/
def betterBay (s : State) (a b : Bay) : Bool :=
  let pa := phaseRank (s.chg a).phase
  let pb := phaseRank (s.chg b).phase
  pa < pb ∨ (pa = pb ∧
    ((s.bay b).energy < (s.bay a).energy ∨ ((s.bay a).energy = (s.bay b).energy ∧ a.val < b.val)))

/-- A bay put in its place in a ranked list. -/
def insertRanked (s : State) (b : Bay) : List Bay → List Bay
  | [] => [b]
  | x :: xs => if betterBay s b x then b :: x :: xs else x :: insertRanked s b xs

/-- R135: bays ranked best first. -/
def rankBays (s : State) : List Bay → List Bay
  | [] => []
  | x :: xs => insertRanked s x (rankBays s xs)

/-- R135: the bay carries a reservation of the group that the request names. -/
def reservedFor (s : State) (group : Byte) (b : Bay) : Bool :=
  group ≠ 0 ∧ ((s.cust b).reservation.map Reservation.group) = some group

/-- R135: the candidates, narrowed to the bays reserved for the group when there are any. -/
def candidates (s : State) (group flags : Byte) : List Bay :=
  let passing := allBays.filter fun b => checkBay s group flags b = none
  let reserved := passing.filter (reservedFor s group)
  if reserved.isEmpty then passing else reserved

/-- R135: the bay that an ANY request gets. -/
def chosenBay (s : State) (group flags : Byte) : Option Bay := (rankBays s (candidates s group flags)).head?

/-- R134, step 1: the provisioning work of a bay ends with reason CHECKOUT. -/
def abortForCheckout (b : Bay) (s : State) : State :=
  let s :=
    match s.laneOf b with
    | some l => release l .checkout s
    | none => s
  removeQueued b 5 s

/-- The record of a bay with its release purpose set. -/
def setPurpose (b : Bay) (p : Purpose) (s : State) : State := s.setCust b { s.cust b with purpose := some p }

/-- R134: a CHECKOUT is accepted for a bay. -/
def acceptCheckout (tag : Byte) (b : Bay) (holder : Word16) (group : Byte) (dueIn : Nat) (s : State) : State :=
  let s := endReservation b (abortForCheckout b s)
  let s := releaseRequest b (setPurpose b (.checkout holder group (dueMinute s.time.minute dueIn)) s)
  finish (reply 0x30 tag .accepted (bayNumber b :: num16 dueIn) s)

/-- R133, R135: CHECKOUT is taken. A holder count above the limit, which R129 rules out, is refused as one at it. -/
def takeCheckout (tag bay : Byte) (holder : Word16) (group : Byte) (due : Word16) (flags : Byte) (s : State) : State :=
  if s.link.mode = .autonomous then refuse 0x30 tag .autonomous s
  else if s.link.lockdown then refuse 0x30 tag .lockdown s
  else if 32 < bay.toNat ∨ holder = 0 then refuse 0x30 tag .range s
  else
    match bayOf bay with
    | none =>
      if atHolderLimit s holder then refuse 0x30 tag .holderLimit s
      else
        match chosenBay s group flags with
        | none => refuse 0x30 tag .noBay s
        | some b => acceptCheckout tag b holder group (dueTime due) s
    | some b =>
      match checkBay s group flags b with
      | some reason => refuse 0x30 tag reason s
      | none =>
        if atHolderLimit s holder then refuse 0x30 tag .holderLimit s
        else acceptCheckout tag b holder group (dueTime due) s

/-- R133 as a command: CHECKOUT. -/
def execCheckout (tag bay : Byte) (holder : Word16) (group : Byte) (due : Word16) (flags : Byte) (s : State) : Out :=
  .next (request (.checkout tag bay holder group due flags) (takeCheckout tag bay holder group due flags) s)

/-- R136: the bay's record is OUT with this holder. -/
def isOutTo (s : State) (holder : Word16) (b : Bay) : Bool :=
  match (s.cust b).status with
  | .out o => o.holder = holder
  | .inCart => false
  | .vacant => false
  | .taken => false

/-- R136: the bay a RETURN acts on. -/
def returnBay (s : State) (holder : Word16) : Option Bay :=
  let outs := allBays.filter (isOutTo s holder)
  match outs.find? fun b => (s.cust b).purpose = none with
  | some b => some b
  | none => outs.head?

/-- R136: RETURN is taken. -/
def takeReturn (tag : Byte) (holder : Word16) (s : State) : State :=
  if s.link.mode = .autonomous then refuse 0x31 tag .autonomous s
  else if s.link.lockdown then refuse 0x31 tag .lockdown s
  else if holder = 0 then refuse 0x31 tag .range s
  else
    match returnBay s holder with
    | none => refuse 0x31 tag .notHeld s
    | some b =>
      if latchFaulty s b then refuse 0x31 tag .latchFault s
      else if notLocked s b then refuse 0x31 tag .latchNotLocked s
      else finish (reply 0x31 tag .accepted [bayNumber b] (releaseRequest b (setPurpose b (.returning holder) s)))

/-- R136 as a command: RETURN. -/
def execReturn (tag : Byte) (holder : Word16) (s : State) : Out :=
  .next (request (.returnTablet tag holder) (takeReturn tag holder) s)

/-- R137, check 3, second row: the latch does not admit a service opening. -/
def serviceNotLocked (s : State) (b : Bay) : Bool :=
  ((s.latch b).state ≠ some .locked ∧ (s.latch b).state ≠ some .jammed) ∨ s.pendingMotion b ≠ none ∨
    ((s.latch b).state = some .locked ∧ (s.cust b).purpose ≠ none)

/-- R137: a service opening is accepted for a bay. -/
def acceptService (tag : Byte) (b : Bay) (s : State) : State :=
  let before := (s.latch b).state
  let s :=
    match s.laneOf b with
    | some l => release l .service s
    | none => s
  let s := if before = some .jammed then lapsePurpose b s else s
  finish (reply 0x21 tag .accepted [bayNumber b, latchCode before] (releaseRequest b (setPurpose b .service s)))

/-- R137: SERVICE-OPEN is taken. -/
def takeServiceOpen (tag bay flags : Byte) (s : State) : State :=
  if s.link.mode = .autonomous then refuse 0x21 tag .autonomous s
  else
    match bayOf bay with
    | none => refuse 0x21 tag .range s
    | some b =>
      if (s.latch b).state = some .sensorFault then refuse 0x21 tag .latchFault s
      else if serviceNotLocked s b then refuse 0x21 tag .latchNotLocked s
      else if (s.laneOf b).isSome ∧ flagBit flags 1 = false then refuse 0x21 tag .bayBusy s
      else acceptService tag b s

/-- R137 as a command: SERVICE_OPEN. -/
def execServiceOpen (tag bay flags : Byte) (s : State) : Out :=
  .next (request (.serviceOpen tag bay flags) (takeServiceOpen tag bay flags) s)

/-- R139: a bay may be reserved. -/
def reservable (s : State) (b : Bay) : Bool :=
  (s.cust b).status = .inCart ∧ (s.bay b).presence ∧ (s.cust b).reservation = none ∧ (s.cust b).purpose = none ∧
  (s.bay b).state ≠ .latched ∧ (s.latch b).state = some .locked ∧ s.pendingMotion b = none

/-- R139, R140: the bay carries a reservation of the group. -/
def carriesGroup (s : State) (group : Byte) (b : Bay) : Bool :=
  ((s.cust b).reservation.map Reservation.group) = some group

/-- R139: a bay receives a reservation, held as not within the horizon until its first test. -/
def giveReservation (group : Byte) (due : Word16) (b : Bay) (s : State) : State :=
  s.setCust b { s.cust b with reservation := some ⟨group, due, false⟩ }

/-- R139: the reservations of an accepted RESERVE. -/
def acceptReserve (tag group : Byte) (count : Nat) (due : Word16) (s : State) : State :=
  let taken := (rankBays s (allBays.filter (reservable s))).take count
  let minute := s.time.minute + word (reserveDue due)
  let s := taken.foldl (fun s b => giveReservation group minute b s) s
  let s := eachBay (fun b s => if b ∈ taken then testHorizon b s else s) s
  finish (reply 0x32 tag .done (byte taken.length :: (bytes16 minute ++ taken.map bayNumber)) s)

/-- R139: RESERVE is taken. -/
def takeReserve (tag group count : Byte) (due : Word16) (s : State) : State :=
  if group = 0 ∨ count = 0 ∨ 32 < count.toNat then refuse 0x32 tag .range s
  else if allBays.any (carriesGroup s group) then refuse 0x32 tag .duplicate s
  else acceptReserve tag group count.toNat due s

/-- R139 as a command: RESERVE. -/
def execReserve (tag group count : Byte) (due : Word16) (s : State) : Out :=
  .next (request (.reserve tag group count due) (takeReserve tag group count due) s)

/-- R140: RESERVE-CANCEL is taken. -/
def takeReserveCancel (tag group : Byte) (s : State) : State :=
  if group = 0 then refuse 0x33 tag .range s
  else
    let removed := allBays.countP (carriesGroup s group)
    let s := eachBay (fun b s => if carriesGroup s group b then endReservation b s else s) s
    finish (reply 0x33 tag .done [byte removed] s)

/-- R140 as a command: RESERVE_CANCEL. -/
def execReserveCancel (tag group : Byte) (s : State) : Out :=
  .next (request (.reserveCancel tag group) (takeReserveCancel tag group) s)

/-- R146: CUSTODY-LOAD is taken. -/
def takeCustodyLoad (tag bay : Byte) (holder due : Word16) (s : State) : State :=
  match bayOf bay with
  | none => refuse 0x34 tag .range s
  | some b =>
    if holder = 0 then refuse 0x34 tag .range s
    else if (s.bay b).presence ∨ (s.cust b).status ≠ .vacant ∨ (s.cust b).purpose ≠ none then
      refuse 0x34 tag .bayBusy s
    else if atHolderLimit s holder then refuse 0x34 tag .holderLimit s
    else
      let now := s.time.minute
      let record : Custody := .out ⟨holder, now, dueMinute now (dueTime due), false⟩
      reply 0x34 tag .done (bayNumber b :: (bytes16 now ++ num16 (dueTime due)))
        (s.setCust b { s.cust b with status := record })

/-- R146 as a command: CUSTODY_LOAD. -/
def execCustodyLoad (tag bay : Byte) (holder due : Word16) (s : State) : Out :=
  .next (request (.custodyLoad tag bay holder due) (takeCustodyLoad tag bay holder due) s)

/-- The status is OUT. -/
def Custody.isOut : Custody → Bool
  | .out _ => true
  | .inCart => false
  | .vacant => false
  | .taken => false

/-- The release purpose is a CHECKOUT. -/
def isCheckout : Option Purpose → Bool
  | some (.checkout _ _ _) => true
  | some (.returning _) => false
  | some .service => false
  | none => false

/-- R147: the record is OUT or holds a CHECKOUT purpose. -/
def CustodyRec.lent (c : CustodyRec) : Bool := c.status.isOut || isCheckout c.purpose

/-- R147: CUSTODY-SET is taken. -/
def takeCustodySet (tag : Byte) (asked : CustodySettings) (s : State) : State :=
  let c := clampCustody asked
  if c.holderLimit ≠ s.custodySet.holderLimit ∧ (allBays.any fun b => (s.cust b).lent) then
    refuse 0x35 tag .inUse s
  else
    let s := eachBay (fun b s => testHorizon b (testExpiry b s)) { s with custodySet := c }
    finish (reply 0x35 tag (doneOr (c ≠ asked)) (num16 c.holderLimit ++ num16 c.horizon ++ num16 c.grace) s)

/-- The custody settings a CUSTODY-SET carries. -/
def custodyFields (holderLimit horizon grace : Word16) : CustodySettings where
  holderLimit := holderLimit.toNat
  horizon := horizon.toNat
  grace := grace.toNat

/-- R147 as a command: CUSTODY_SET. -/
def execCustodySet (tag : Byte) (holderLimit horizon grace : Word16) (s : State) : Out :=
  .next (request (.custodySet tag holderLimit horizon grace)
    (takeCustodySet tag (custodyFields holderLimit horizon grace)) s)

/-- R145: LOCKDOWN(on) is taken. -/
def takeLockdownOn (tag : Byte) (s : State) : State :=
  let before := s.link.lockdown
  let s := { s with link := { s.link with lockdown := true } }
  let s := if before then s else latchLockdown s
  finish (reply 0x22 tag .done [1] s)

/-- R145 as a command: LOCKDOWN_ON. -/
def execLockdownOn (tag : Byte) (s : State) : Out := .next (request (.lockdownOn tag) (takeLockdownOn tag) s)

/-- R145: LOCKDOWN(off) is taken. -/
def takeLockdownOff (tag : Byte) (s : State) : State :=
  reply 0x22 tag .done [0] { s with link := { s.link with lockdown := false } }

/-- R145 as a command: LOCKDOWN_OFF. -/
def execLockdownOff (tag : Byte) (s : State) : Out := .next (request (.lockdownOff tag) (takeLockdownOff tag) s)

/-- R143, R193: the minute counter advances and the Custody Table takes the advance. -/
def advanceMinute (s : State) : State :=
  finish (custodyMinute { s with time := { s.time with minute := s.time.minute + 1, minuteTicks := 0 } })

/-- R143 as a command: MINUTE_ADVANCE. -/
def execMinuteAdvance (s : State) : Out := .next (live advanceMinute s)

end Sys2Proof.Machine
end

