-- ==== Sys2Proof/Machine/LaneCommands.lean ====
section
/-! DEFINITION. The requests and events of the provisioning lanes (chapter 9): PROV-ADD, PROV-CANCEL, PROV-DONE,
LANE-SERVICE, SLOT-TABLE, PROV-SET, the qualification steps and the session timer. -/

namespace Sys2Proof.Machine

/-- R153: the first check of a PROV-ADD that fails. -/
def provAddCheck (s : State) (b : Bay) : Option Reason :=
  if (s.bay b).presence = false then some .notPresent
  else if (s.bay b).dataLine ≠ .clear then some .lineFault
  else if (s.queued b).isSome ∨ (s.laneOf b).isSome then some .duplicate
  else if Config.provQueueMax ≤ s.prov.queue.length then some .queueFull
  else if (s.bay b).state = .latched then some .bayFault
  else none

/-- R152, R153: a new entry joins the queue and takes the next stamp. -/
def addEntry (b : Bay) (cls : ProvClass) (jobTag : Word16) (attempts : Nat) (s : State) : State :=
  { s with prov := { s.prov with
      queue := s.prov.queue ++ [⟨b, cls, jobTag, attempts, s.prov.stamp, 0⟩], stamp := s.prov.stamp + 1 } }

/-- R153: PROV-ADD is taken. The queue count is that after the assignment run (entry 15). -/
def takeProvAdd (tag bay cls : Byte) (jobTag : Word16) (attempts : Byte) (s : State) : State :=
  match bayOf bay, classOf cls with
  | some b, some c =>
    match provAddCheck s b with
    | some reason => refuse 0x40 tag reason s
    | none =>
      let n := clamp 1 7 attempts.toNat
      let s := assignmentRun (addEntry b c jobTag n s)
      finish (reply 0x40 tag (if n ≠ attempts.toNat then .clamped else .accepted)
        [bay, byte n, byte s.prov.queue.length] s)
  | _, _ => refuse 0x40 tag .range s

/-- R153 as a command: PROV_ADD. -/
def execProvAdd (tag bay cls : Byte) (jobTag : Word16) (attempts : Byte) (s : State) : Out :=
  .next (request (.provAdd tag bay cls jobTag attempts) (takeProvAdd tag bay cls jobTag attempts) s)

/-- R154: PROV-CANCEL is taken. -/
def takeProvCancel (tag bay : Byte) (s : State) : State :=
  match bayOf bay with
  | none => refuse 0x41 tag .range s
  | some b =>
    match s.laneOf b with
    | some l => finish (reply 0x41 tag .done [bay, 2, laneNumber l] (release l .cancelled s))
    | none =>
      match s.queued b with
      | some _ => reply 0x41 tag .done [bay, 1, 0] (s.setQueue (dropEntry b s.prov.queue))
      | none => reply 0x41 tag .done [bay, 0, 0] s

/-- R154 as a command: PROV_CANCEL. -/
def execProvCancel (tag bay : Byte) (s : State) : Out :=
  .next (request (.provCancel tag bay) (takeProvCancel tag bay) s)

/-- R161: the cause of a release by a PROV-DONE result. -/
def doneCause (result : Byte) : Option ReleaseCause :=
  if result = 0 then some .doneSuccess
  else if result = 1 then some .doneFailed
  else if result = 2 then some .doneRetry
  else none

/-- R161: the lane holds a session of this bay and job tag. -/
def LaneState.sessionOf (st : LaneState) (bay : Byte) (jobTag : Word16) : Bool :=
  match st with
  | .active e _ => bayNumber e.bay = bay ∧ e.jobTag = jobTag
  | .free => false
  | .qualifying _ _ => false
  | .outOfService => false

/-- R161: PROV-DONE is taken. -/
def takeProvDone (tag lane bay : Byte) (jobTag : Word16) (result : Byte) (s : State) : State :=
  match laneOfByte lane, doneCause result with
  | some l, some cause =>
    if (s.lane l).state.sessionOf bay jobTag then finish (reply 0x42 tag .done [] (release l cause s))
    else refuse 0x42 tag .laneState s
  | _, _ => refuse 0x42 tag .range s

/-- R161 as a command: PROV_DONE. -/
def execProvDone (tag lane bay : Byte) (jobTag : Word16) (result : Byte) (s : State) : Out :=
  .next (request (.provDone tag lane bay jobTag result) (takeProvDone tag lane bay jobTag result) s)

/-- R167: the fields of a lane record in the LANE-SERVICE answer. -/
def LaneRec.fields (r : LaneRec) : List Byte :=
  let held := r.state.held
  let tag := (held.map Entry.jobTag).getD 0
  [r.state.code, byte r.strikes, byte r.lastErrors, (held.map fun e => bayNumber e.bay).getD 0] ++ bytes16 tag

/-- R167: LANE-SERVICE(out) acts on a lane. -/
def laneOut (l : Lane) (s : State) : State :=
  match (s.lane l).state with
  | .free => s.setLane l { s.lane l with state := .outOfService }
  | .qualifying _ _ => release l .serviceOut s
  | .active _ _ => release l .serviceOut s
  | .outOfService => s

/-- R167: LANE-SERVICE(out) is taken. -/
def takeLaneServiceOut (tag lane : Byte) (s : State) : State :=
  match laneOfByte lane with
  | none => refuse 0x43 tag .range s
  | some l =>
    let s := laneOut l s
    finish (reply 0x43 tag .done (s.lane l).fields s)

/-- R167 as a command: LANE_SERVICE_OUT. -/
def execLaneServiceOut (tag lane : Byte) (s : State) : Out :=
  .next (request (.laneServiceOut tag lane) (takeLaneServiceOut tag lane) s)

/-- R167: LANE-SERVICE(in) acts on a lane. -/
def laneIn (l : Lane) (s : State) : State :=
  match (s.lane l).state with
  | .outOfService => assignmentRun (s.setLane l { s.lane l with state := .free, strikes := 0 })
  | .free => s.setLane l { s.lane l with strikes := 0 }
  | .qualifying _ _ => s.setLane l { s.lane l with strikes := 0 }
  | .active _ _ => s.setLane l { s.lane l with strikes := 0 }

/-- R167: LANE-SERVICE(in) is taken. -/
def takeLaneServiceIn (tag lane : Byte) (s : State) : State :=
  match laneOfByte lane with
  | none => refuse 0x43 tag .range s
  | some l =>
    let s := laneIn l s
    finish (reply 0x43 tag .done (s.lane l).fields s)

/-- R167 as a command: LANE_SERVICE_IN. -/
def execLaneServiceIn (tag lane : Byte) (s : State) : Out :=
  .next (request (.laneServiceIn tag lane) (takeLaneServiceIn tag lane) s)

/-- R168: the classes of a slot table; `none` when one is above 2. -/
def slotClasses : List Byte → Option (List ProvClass)
  | [] => some []
  | c :: cs =>
    match classOf c, slotClasses cs with
    | some x, some xs => some (x :: xs)
    | _, _ => none

/-- R168: the table with these slots is taken and assignment runs. -/
def putSlots (slots : List ProvClass) (s : State) : State :=
  assignmentRun { s with prov := { s.prov with slots := slots, pointer := 0 } }

/-- R168, R176: SLOT-TABLE is taken, its byte count checked first (entry 23). The table in the answer is given as the
request gives it, its length byte before the classes (entry 40). -/
def takeSlotTable (tag length : Byte) (classes : List Byte) (s : State) : State :=
  if classes.length ≠ length.toNat then reply 0x44 tag .malformed [] s
  else if length = 0 ∨ 16 < length.toNat then refuse 0x44 tag .range s
  else
    match slotClasses classes with
    | none => refuse 0x44 tag .range s
    | some slots => finish (reply 0x44 tag .done (length :: classes) (putSlots slots s))

/-- R168 as a command: SLOT_TABLE. -/
def execSlotTable (tag length : Byte) (classes : List Byte) (s : State) : Out :=
  .next (request (.slotTable tag length classes) (takeSlotTable tag length classes) s)

/-- R169: PROV-SET is taken. -/
def takeProvSet (tag : Byte) (asked : ProvSettings) (s : State) : State :=
  let c := clampProv asked
  reply 0x45 tag (doneOr (c ≠ asked)) (num16 c.threshold ++ num16 c.sessionLimit)
    { s with prov := { s.prov with settings := c } }

/-- The provisioning settings a PROV-SET carries. -/
def provFields (threshold sessionLimit : Word16) : ProvSettings where
  threshold := threshold.toNat
  sessionLimit := sessionLimit.toNat

/-- R169 as a command: PROV_SET. -/
def execProvSet (tag : Byte) (threshold sessionLimit : Word16) (s : State) : Out :=
  .next (request (.provSet tag threshold sessionLimit) (takeProvSet tag (provFields threshold sessionLimit)) s)

/-- R16: the data-line fault flag of a bay. -/
def setDataLine (b : Bay) (d : DataLine) (s : State) : State := s.setBay b { s.bay b with dataLine := d }

/-- R159: the result of the line check of a lane arrives. That of an abandoned check, which its number tells, is
discarded (entry 27). -/
def lineCheckReturns (l : Lane) (number : Nat) (found : DataLine) (s : State) : State :=
  match (s.lane l).state with
  | .qualifying e (.lineCheck n _) =>
    if n = number then
      if found = .clear then s.setLane l ((s.lane l).checkPattern e s.time.ms)
      else finish (release l .lineFault (setDataLine e.bay found s))
    else s
  | _ => s

/-- R159 as a command: LINE_CHECK_RESULT. -/
def execLineCheckResult (lane : Lane) (number : Nat) (found : DataLine) (s : State) : Out :=
  .next (live (lineCheckReturns lane number found) s)

/-- R159: no result of the line check of a lane has arrived 20 ms after its start. -/
def lineCheckMissed (l : Lane) (s : State) : State :=
  match (s.lane l).state with
  | .qualifying _ (.lineCheck _ _) => finish (release l .pattern s)
  | _ => s

/-- R159 as a command: LINE_CHECK_DEADLINE. -/
def execLineCheckDeadline (lane : Lane) (s : State) : Out := .next (live (lineCheckMissed lane) s)

/-- R159: a lane enters ACTIVE with its session timer started, and LANE_READY is queued. -/
def enterActive (l : Lane) (e : Entry) (s : State) : State :=
  provNote .laneReady (bayNumber e.bay) (laneNumber l) e.cls.code e.jobTag
    (s.setLane l { s.lane l with
      state := .active e (s.time.ms + s.prov.settings.sessionLimit * Config.minute), strikes := 0 })

/-- R159: the pattern check of a lane ends with this many errors. The end of an abandoned check, which
its number tells, is discarded (entry 27). -/
def patternEnds (l : Lane) (number errors : Nat) (s : State) : State :=
  match (s.lane l).state with
  | .qualifying e (.patternCheck k _) =>
    if k = number then
      let n := min 255 errors
      let s := s.setLane l { s.lane l with lastErrors := n }
      if n ≤ s.prov.settings.threshold then enterActive l e s else finish (release l .pattern s)
    else s
  | _ => s

/-- R159 as a command: PATTERN_CHECK_END. -/
def execPatternCheckEnd (lane : Lane) (number errors : Nat) (s : State) : Out :=
  .next (live (patternEnds lane number errors) s)

/-- R160: the session timer of a lane expires. -/
def sessionExpires (l : Lane) (s : State) : State :=
  match (s.lane l).state with
  | .active _ _ => finish (release l .timeout s)
  | _ => s

/-- R160 as a command: SESSION_EXPIRY. -/
def execSessionExpiry (lane : Lane) (s : State) : Out := .next (live (sessionExpires lane) s)

end Sys2Proof.Machine
end

