-- ==== Sys2Proof/Machine/Scan.lean ====
section
/-! DEFINITION. The Scan Engine (chapter 2): rounds and their readings, completion and the snapshot, and the requests
MEASURE, SCAN-SET and SNAPSHOT. -/

namespace Sys2Proof.Machine

/-- R21: a round starts with the present index, its report mark as given, and bay 1 asked for. -/
def startRound (mark : Bool) (s : State) : State :=
  { s with scan := { s.scan with
      round := some
        { thermal := s.scan.index = 0, mark := mark, awaiting := some (.bay 0)
          deadline := s.time.ms + Config.readingDeadline }
      working := Working.cleared } }

/-- R21, R22: the reading asked for after a reading. -/
def nextReading (thermal : Bool) : Reading → Option Reading
  | .bay b => if h : b.val + 1 < 32 then some (.bay ⟨b.val + 1, h⟩) else if thermal then some (.zone 0) else none
  | .zone z => if h : z.val + 1 < 4 then some (.zone ⟨z.val + 1, h⟩) else none

/-- The reading the round in flight awaits. -/
def awaited (s : State) : Option Reading :=
  match s.scan.round with
  | none => none
  | some r => r.awaiting

/-- R21: a reading is recorded and the next one is asked for. -/
def askNext (s : State) : State :=
  match s.scan.round with
  | none => s
  | some r =>
    let next := match r.awaiting with
      | none => none
      | some x => nextReading r.thermal x
    { s with scan := { s.scan with
        round := some { r with awaiting := next, deadline := s.time.ms + Config.readingDeadline } } }

/-- The round in flight is thermal. -/
def inThermal (s : State) : Bool :=
  match s.scan.round with
  | none => false
  | some r => r.thermal

/-- R23, steps 1 and 2: a sample is written, with its time, into the working round, and into the latest-reading table. -/
def writeSample (b : Bay) (draw : Byte) (reading : Option Byte) (s : State) : State :=
  let w := { s.scan.working with times := s.scan.working.times.set b (some s.time.ms) }
  match reading with
  | none =>
    { s with scan := { s.scan with
        working := { w with draws := w.draws.set b (some draw) }, latestDraw := s.scan.latestDraw.set b draw } }
  | some t =>
    { s with scan := { s.scan with
        working := { w with draws := w.draws.set b (some draw), temps := w.temps.set b (some t) }
        latestDraw := s.scan.latestDraw.set b draw, latestTemp := s.scan.latestTemp.set b t } }

/-- R23: the sample of a bay, with its connector temperature in a thermal round only. -/
def recordSample (b : Bay) (draw temperature : Byte) (s : State) : State :=
  let reading := if inThermal s then some temperature else none
  let s := askNext (writeSample b draw reading s)
  finish (allocSample b draw (baySample b draw reading s))

/-- R23 as an event: only the reading asked for is taken (entry 32). -/
def sampleArrives (b : Bay) (draw temperature : Byte) (s : State) : State :=
  if awaited s = some (.bay b) then recordSample b draw temperature s else s

/-- R23 as a command: SAMPLE. -/
def execSample (bay : Bay) (draw temperature : Byte) (s : State) : Out :=
  .next (live (sampleArrives bay draw temperature) s)

/-- R22, R23: a zone reading is written into the working round and the latest-reading table. -/
def recordZone (z : Zone) (value : Byte) (s : State) : State :=
  let w := s.scan.working
  askNext { s with scan := { s.scan with
    working := { w with zones := w.zones.set z (some value) }, latestZone := s.scan.latestZone.set z value } }

/-- R22 as an event: only the reading asked for is taken (entry 32). -/
def zoneArrives (z : Zone) (value : Byte) (s : State) : State :=
  if awaited s = some (.zone z) then recordZone z value s else s

/-- R22 as a command: ZONE_READING. -/
def execZoneReading (zone : Zone) (value : Byte) (s : State) : Out := .next (live (zoneArrives zone value) s)

/-- R21: the reading asked for misses its deadline and is recorded as 255. -/
def readingMissed (s : State) : State :=
  match awaited s with
  | none => s
  | some (.bay b) => recordSample b 255 255 s
  | some (.zone z) => recordZone z 255 s

/-- R21 as a command: READING_DEADLINE. -/
def execReadingDeadline (s : State) : Out := .next (live readingMissed s)

/-- R29: the snapshot record of a bay at a completion. -/
def snapBay (s : State) (b : Bay) : SnapBay where
  state := (s.bay b).state
  phase := (s.chg b).phase
  presence := (s.bay b).presence
  draw := s.scan.working.draws[b].getD 255
  grant := (s.bay b).grant
  temp := s.scan.latestTemp[b]
  energy := energyReport (s.bay b).energy

/-- R29: the snapshot of a completion, carrying the new round number. -/
def buildSnapshot (number : Word16) (thermal : Bool) (s : State) : Snapshot where
  number := number
  minute := s.time.minute
  thermal := thermal
  zones := s.scan.latestZone
  budget := s.budget.lastPass.getD 0
  remainder := s.alloc.remainder
  bays := Vector.ofFn (snapBay s)

/-- R24, step 6: the number of invalid draws of the working round. -/
def invalidDraws (s : State) : Nat := allBays.countP fun b => s.scan.working.draws[b] = some 255

/-- R24, steps 1 to 4: the round is numbered and published, and no round is in flight. -/
def publish (thermal : Bool) (s : State) : State :=
  let number := s.scan.number + 1
  { s with scan := { s.scan with
      number := number, snapshot := some (buildSnapshot number thermal s), fresh := .valid
      index := s.scan.index + 1, round := none } }

/-- R24, step 5: the zone readings of a thermal round, an unrecorded one being 255. -/
def zoneReadings (s : State) : Vector Byte 4 := Vector.ofFn fun z => s.scan.working.zones[z].getD 255

/-- R24, step 7: what follows a completion. -/
def afterRound (s : State) : State :=
  match s.scan.mode with
  | .onRequest => s
  | .continuous =>
    if periodMs s.scan.periodCode = 0 then startRound false s
    else { s with scan := { s.scan with wait := some (s.time.ms + periodMs s.scan.periodCode) } }

/-- R24: a round completes. The pass that its budget starts runs at step 5 (entry 11). -/
def completeRound (r : Round) (s : State) : State :=
  let zones := zoneReadings s
  let invalid := invalidDraws s
  let s := publish r.thermal s
  let s := if r.thermal then runAsked (thermalCompletion zones s) else s
  let n := s.scan.number
  let s := if r.mark then note .roundDone 0 (hiByte n) (loByte n) (flagByte r.thermal) (byte invalid) s else s
  finish (afterRound s)

/-- R24 as an event: the last reading of the round in flight has been recorded (entry 35). It is a step of its own, the
command ROUND_COMPLETE or the next tick: a command between finds the round still in flight (entry 38). -/
def roundCompletes (s : State) : State :=
  match s.scan.round with
  | none => s
  | some r => if r.awaiting = none then completeRound r s else s

/-- R24 as a command: ROUND_COMPLETE. -/
def execRoundComplete (s : State) : Out := .next (live roundCompletes s)

/-- The period wait stopped. -/
def stopWait (s : State) : State := { s with scan := { s.scan with wait := none } }

/-- R25: the period wait expires and a round starts. -/
def periodExpires (s : State) : State :=
  match s.scan.wait, s.scan.round with
  | some _, none => startRound false (stopWait s)
  | _, _ => s

/-- R25 as a command: PERIOD_EXPIRY. -/
def execPeriodExpiry (s : State) : Out := .next (live periodExpires s)

/-- R27: MEASURE is taken. -/
def takeMeasure (tag : Byte) (s : State) : State :=
  let n := bytes16 (s.scan.number + 1)
  match s.scan.round, s.scan.mode with
  | none, .onRequest => reply 0x05 tag .accepted n (startRound true s)
  | none, .continuous => reply 0x05 tag .accepted n (startRound false (stopWait s))
  | some r, .onRequest =>
    reply 0x05 tag .joined n { s with scan := { s.scan with round := some { r with mark := true } } }
  | some _, .continuous => reply 0x05 tag .joined n s

/-- R27 as a command: MEASURE. -/
def execMeasure (tag : Byte) (s : State) : Out := .next (request (.measure tag) (takeMeasure tag) s)

/-- R28: new scan settings are stored. -/
def storeScan (mode : ScanMode) (code : Fin 4) (s : State) : State :=
  { s with scan := { s.scan with mode := mode, periodCode := code } }

/-- R28: the period wait after a change of the period, from the old expiry and period; `none` when it has passed. -/
def movedWait (now : Nat) (old new : Fin 4) (expiry : Nat) : Option Nat :=
  let moved := expiry - periodMs old + periodMs new
  if periodMs new = 0 ∨ moved ≤ now then none else some moved

/-- R28: what SCAN-SET does to the round in flight or the wait. -/
def applyScan (mode : ScanMode) (code : Fin 4) (s : State) : State :=
  let old := s.scan
  let s := storeScan mode code s
  match old.round, mode with
  | some _, _ => s
  | none, .onRequest => stopWait s
  | none, .continuous =>
    match old.wait with
    | none => startRound false s
    | some expiry =>
      match movedWait s.time.ms old.periodCode code expiry with
      | none => startRound false (stopWait s)
      | some moved => { s with scan := { s.scan with wait := some moved } }

/-- R28: the mode of a mode byte. -/
def scanModeOf (n : Byte) : Option ScanMode :=
  if n = 0 then some .continuous else if n = 1 then some .onRequest else none

/-- R28: SCAN-SET is taken. -/
def takeScanSet (tag mode period : Byte) (s : State) : State :=
  match scanModeOf mode with
  | none => refuse 0x06 tag .range s
  | some m =>
    let code := periodOf period.toNat
    reply 0x06 tag (doneOr (code.val ≠ period.toNat)) [m.code, byte code.val] (applyScan m code s)

/-- R28 as a command: SCAN_SET. -/
def execScanSet (tag mode period : Byte) (s : State) : Out :=
  .next (request (.scanSet tag mode period) (takeScanSet tag mode period) s)

/-- R31: the bay record of a SNAPSHOT answer before the first publication. -/
def SnapBay.blank : SnapBay where
  state := .empty
  phase := .bulk
  presence := false
  draw := 255
  grant := 0
  temp := 255
  energy := 0

/-- R31: what a SNAPSHOT answer carries before the first publication. -/
def Snapshot.blank : Snapshot where
  number := 0
  minute := 0
  thermal := false
  zones := Vector.replicate 4 255
  budget := 0
  remainder := 0
  bays := Vector.replicate 32 SnapBay.blank

/-- R185: the six bytes of a bay record of the snapshot. Bit 6 of the first, which R185 leaves open, is 0 (entry 43). -/
def SnapBay.bytes (b : SnapBay) : List Byte :=
  [b.state.code ||| (b.phase.code <<< 4) ||| (if b.presence then 0x80 else 0), b.draw, byte b.grant, b.temp] ++
    num16 b.energy

/-- R185: the fields of the SNAPSHOT answer after the result byte. -/
def Snapshot.fields (fresh : Freshness) (p : Snapshot) : List Byte :=
  fresh.code :: (bytes16 p.number ++ bytes16 p.minute ++ [flagByte p.thermal] ++ p.zones.toList ++ num16 p.budget ++
    num16 p.remainder) ++ p.bays.toList.flatMap SnapBay.bytes

/-- R30: the freshness after a SNAPSHOT answer has begun. -/
def Freshness.read : Freshness → Freshness
  | .never => .never
  | .valid => .stale
  | .stale => .stale

/-- R31: SNAPSHOT is taken. -/
def takeSnapshot (tag : Byte) (s : State) : State :=
  reply 0x03 tag .done ((s.scan.snapshot.getD Snapshot.blank).fields s.scan.fresh)
    { s with scan := { s.scan with fresh := s.scan.fresh.read } }

/-- R31 as a command: SNAPSHOT. -/
def execSnapshot (tag : Byte) (s : State) : Out := .next (request (.snapshot tag) (takeSnapshot tag) s)

end Sys2Proof.Machine
end

