-- ==== Sys2Proof/Machine/Store.lean ====
section
/-! DEFINITION. The Settings Store (chapter 11): the words that hold the working settings, the load at a full reset, and
STORE-SAVE with its save in flight. -/

namespace Sys2Proof.Machine

/-- R188: every working setting of the table in R186, as it stands. -/
def currentSettings (s : State) : Settings where
  rate := s.link.rate
  period := s.link.period
  scanMode := s.scan.mode
  periodCode := s.scan.periodCode
  budget := s.budget.settings
  latch := s.latchUnit.settings
  charge := s.alloc.settings
  superv := s.superv
  custody := s.custodySet
  prov := s.prov.settings
  slots := s.prov.slots
  profiles := s.alloc.profiles

/-- A store word of one setting. -/
def word1 (a : Nat) : StoreWord := ⟨word a, 0, 0, .zero⟩

/-- A store word of two settings. -/
def word2 (a b : Nat) : StoreWord := ⟨word a, word b, 0, .zero⟩

/-- The number of a slot class as a slot word holds it. -/
def slotNumber (slots : List ProvClass) (i : Nat) : Nat :=
  match slots[i]? with
  | none => 0
  | some c => c.code.toNat

/-- R186: the scan mode as word 2 holds it. -/
def ScanMode.number : ScanMode → Nat
  | .continuous => 0
  | .onRequest => 1

/-- R186: the first 32 words, from the link rate to the session limit. -/
def plainWords (c : Settings) : List StoreWord :=
  [⟨word c.rate, word c.period, word c.slots.length, .zero⟩, word2 c.scanMode.number c.periodCode.val] ++
    [word1 c.budget.inlet, word1 c.budget.efficiency, word1 c.budget.overhead, word1 c.budget.knee, word1 c.budget.cut,
      word1 c.budget.hysteresis] ++
    [word1 c.latch.noise, word1 c.latch.window, word1 c.latch.closeSettle, word1 c.latch.travel, word1 c.latch.movers,
      word1 c.latch.draw] ++
    [word1 c.charge.provFloor, word1 c.charge.settle, word1 c.charge.reclaimCount, word1 c.charge.reclaimMargin,
      word1 c.charge.pressMargin, word1 c.charge.pressStep, word1 c.charge.taperCount, word1 c.charge.fullCount,
      word1 c.charge.wakeCount] ++
    [word1 c.superv.retryLimit, word1 c.superv.backoff, word1 c.superv.tolerance, word1 c.superv.hotLimit] ++
    [word1 c.custody.holderLimit, word1 c.custody.horizon, word1 c.custody.grace] ++
    [word1 c.prov.threshold, word1 c.prov.sessionLimit]

/-- R186: a profile as its three words hold it. -/
def profileWord (p : Profile) (part : Nat) : StoreWord :=
  if part = 0 then word2 p.floor p.ceiling
  else if part = 1 then word2 p.taper p.maintenance
  else word2 p.readiness p.full

/-- R186: the word of an index (word number less 1) as a save writes it, with fresh check bits. -/
def savedWord (c : Settings) (i : Fin 64) : StoreWord :=
  if i.val < 32 then (plainWords c).getD i.val (word1 0)
  else if i.val < 40 then word2 (slotNumber c.slots (2 * (i.val - 32))) (slotNumber c.slots (2 * (i.val - 32) + 1))
  else profileWord (c.profiles[(i.val - 40) / 3]'(by omega)) ((i.val - 40) % 3)

/-- R187: a word as the load takes it, its defaults when two bits are wrong. -/
def loadedWord (words : Vector StoreWord 64) (i : Fin 64) : StoreWord :=
  if words[i].wrong = .two then defaultWords[i] else words[i]

/-- The first setting of a word as the load takes it. -/
def firstOf (words : Vector StoreWord 64) (i : Fin 64) : Nat := (loadedWord words i).a.toNat

/-- The second setting of a word as the load takes it. -/
def secondOf (words : Vector StoreWord 64) (i : Fin 64) : Nat := (loadedWord words i).b.toNat

/-- R186, R187: the 16 slots of words 33 to 40, a class above 2 becoming 2. -/
def loadedSlots (words : Vector StoreWord 64) : List ProvClass :=
  [(32 : Fin 64), 33, 34, 35, 36, 37, 38, 39].flatMap fun i =>
    [classOfNat (firstOf words i), classOfNat (secondOf words i)]

/-- R186, R187: a profile of words 41 to 64, clamped. -/
def loadedProfile (words : Vector StoreWord 64) (p : Fin 8) : Profile :=
  let i : Fin 64 := ⟨40 + 3 * p.val, by omega⟩
  let j : Fin 64 := ⟨41 + 3 * p.val, by omega⟩
  let k : Fin 64 := ⟨42 + 3 * p.val, by omega⟩
  clampProfile
    { floor := firstOf words i, ceiling := secondOf words i, taper := firstOf words j
      maintenance := secondOf words j, readiness := firstOf words k, full := secondOf words k }

/-- R187: the settings that the load takes from the words, each clamped to its range. -/
def loadSettings (words : Vector StoreWord 64) : Settings :=
  let a (i : Fin 64) : Nat := firstOf words i
  { rate := clamp 0 1 (a 0)
    period := clamp 1 60 (secondOf words 0)
    scanMode := if a 1 = 0 then .continuous else .onRequest
    periodCode := periodOf (secondOf words 1)
    budget := clampBudget
      { inlet := a 2, efficiency := a 3, overhead := a 4, knee := a 5, cut := a 6, hysteresis := a 7 }
    latch := clampLatch
      { noise := a 8, window := a 9, closeSettle := a 10, travel := a 11, movers := a 12, draw := a 13 }
    charge := clampCharge
      { provFloor := a 14, settle := a 15, reclaimCount := a 16, reclaimMargin := a 17, pressMargin := a 18
        pressStep := a 19, taperCount := a 20, fullCount := a 21, wakeCount := a 22 }
    superv := clampSuperv { retryLimit := a 23, backoff := a 24, tolerance := a 25, hotLimit := a 26 }
    custody := clampCustody { holderLimit := a 27, horizon := a 28, grace := a 29 }
    prov := clampProv { threshold := a 30, sessionLimit := a 31 }
    slots := (loadedSlots words).take (clamp 1 16 (loadedWord words 0).c.toNat)
    profiles := Vector.ofFn (loadedProfile words) }

/-- R187: the store flags that a load leaves. -/
def loadFlags (st : Store) : Store :=
  { st with
    corrected := st.words.toList.any fun w => w.wrong = .one
    fault := st.words.toList.any fun w => w.wrong = .two }

/-- R188: STORE-SAVE is taken. -/
def takeStoreSave (tag : Byte) (s : State) : State :=
  match s.store.save with
  | some _ => reply 0x52 tag .busy [] s
  | none =>
    reply 0x52 tag .accepted []
      { s with store := { s.store with
          save := some { copy := currentSettings s, minute := s.time.minute, next := 0 } } }

/-- R188 as a command: STORE_SAVE. -/
def execStoreSave (tag : Byte) (s : State) : Out := .next (request (.storeSave tag) (takeStoreSave tag) s)

/-- R188: the save in flight writes its next word. After word 64 the save is still in flight until its completion, a step
of its own (entry 45). -/
def writeNext (st : Store) : Store :=
  match st.save with
  | none => st
  | some v =>
    if h : v.next < 64 then
      { st with
        words := st.words.set v.next (savedWord v.copy ⟨v.next, h⟩)
        save := some { v with next := v.next + 1 } }
    else st

/-- R188: a word of the save in flight is written. -/
def storeWrites (s : State) : State := { s with store := writeNext s.store }

/-- R188 as a command: STORE_WORD_WRITE. -/
def execStoreWordWrite (s : State) : Out := .next (live storeWrites s)

/-- R188: the words of the save that are not written yet are written (entry 24). -/
def writeRest (st : Store) : Store := (List.range Config.storeWords).foldl (fun st _ => writeNext st) st

/-- R188: the save in flight completes. Data byte 4 of STORE_SAVED, which R188 leaves open, is 0 (entry 43). -/
def saveCompletes (s : State) : State :=
  match s.store.save with
  | none => s
  | some v =>
    note .storeSaved 0 (hiByte v.minute) (loByte v.minute) (byte Config.storeWords) 0
      { s with
        store := { writeRest s.store with save := none }
        budget := { s.budget with storedInlet := v.copy.budget.inlet } }

/-- R188 as a command: SAVE_COMPLETE. -/
def execSaveComplete (s : State) : Out := .next (live saveCompletes s)

/-- R189: what a reset leaves of the word that was being written. -/
def tear (t : Config.Torn) (old new : StoreWord) : StoreWord :=
  match t with
  | .old => old
  | .new => new
  | .twoWrong => { old with wrong := .two }

/-- R189: a reset abandons the save in flight. What the word being written holds is a free value (entry 8). -/
def abandonSave (s : State) : State :=
  match s.store.save with
  | none => s
  | some v =>
    if h : v.next < 64 then
      { s with
        store := { s.store with
          save := none
          words := s.store.words.set v.next
            (tear (Config.tornWord s.freeDraws) s.store.words[v.next] (savedWord v.copy ⟨v.next, h⟩)) }
        freeDraws := s.freeDraws + 1 }
    else { s with store := { s.store with save := none } }

end Sys2Proof.Machine
end

