-- ==== Sys2Proof/Machine/Restart.lean ====
section
/-! DEFINITION. Full reset and warm restart (chapter 11), and the request RESTART. -/

namespace Sys2Proof.Machine

/-- R183: the Link Port after both kinds of reset. -/
def LinkPort.cleared (l : LinkPort) : LinkPort :=
  { l with
    rx := .hunting, buffer := [], sending := none, frameError := false, overrun := false, overflow := false
    notices := [], armed := false, watchdog := none, mode := .normal }

/-- R33: the Scan Engine after both kinds of reset, before its first round starts. -/
def ScanEngine.cleared (e : ScanEngine) : ScanEngine :=
  { e with
    round := none, index := 0, number := 0, wait := none, working := Working.cleared
    latestDraw := Vector.replicate 32 255, latestTemp := Vector.replicate 32 255
    latestZone := Vector.replicate 4 255, snapshot := none, fresh := .never }

/-- R50: the Budget Unit after both kinds of reset. -/
def BudgetUnit.cleared (u : BudgetUnit) : BudgetUnit :=
  { u with
    shed := false, shedRun := 0, h := none, zonesInvalid := false, derate := 256, computed := 0
    established := false, lastPass := none }

/-- R72: the Allocator's pass state after both kinds of reset. -/
def Allocator.cleared (a : Allocator) : Allocator :=
  { a with rotation := 0, settleTimer := none, remainder := 0, passAsked := false }

/-- R171: the Provisioning Scheduler after both kinds of reset. -/
def ProvUnit.cleared (p : ProvUnit) : ProvUnit := { p with queue := [], stamp := 0, pointer := 0 }

/-- R171: a lane after a warm restart. -/
def LaneRec.cleared (l : LaneRec) : LaneRec :=
  { l with state := if l.state = .outOfService then .outOfService else .free }

/-- R150: a custody record after a warm restart. -/
def CustodyRec.restarted (c : CustodyRec) : CustodyRec := { c with purpose := none }

/-- R10, R19: a bay record after both kinds of reset. The count that numbers probes runs on, so that the result of a probe
abandoned by the reset is told from a later one's (entry 27). -/
def BayRec.cleared (r : BayRec) : BayRec := { BayRec.initial with probes := r.probes }

/-- R19, R33, R50, R72, R89, R105, R126, R150, R171, R183: every block takes its values after a warm restart, the first
round not started yet. -/
def clearBlocks (s : State) : State :=
  { s with
    bays := Vector.ofFn fun b => (s.bay b).cleared
    charge := Vector.ofFn fun b => ChargeRec.initial (s.chg b).profile (s.profile b).ceiling
    alloc := s.alloc.cleared
    scan := s.scan.cleared
    budget := s.budget.cleared
    latches := Vector.replicate 32 LatchRec.initial
    latchUnit := { s.latchUnit with queue := [] }
    custody := Vector.ofFn fun b => (s.cust b).restarted
    lanes := Vector.ofFn fun l => (s.lane l).cleared
    prov := s.prov.cleared
    link := s.link.cleared }

/-- R187: the settings taken become the working settings of their blocks, and the stored inlet limit. -/
def takeSettings (c : Settings) (s : State) : State :=
  { s with
    superv := c.superv
    alloc := { s.alloc with settings := c.charge, profiles := c.profiles }
    scan := { s.scan with mode := c.scanMode, periodCode := c.periodCode }
    budget := { s.budget with settings := c.budget, storedInlet := c.budget.inlet }
    latchUnit := { s.latchUnit with settings := c.latch }
    custodySet := c.custody
    prov := { s.prov with slots := c.slots, settings := c.prov }
    link := { s.link with rate := c.rate, lineRate := c.rate, period := c.period } }

/-- R171: a lane record after a full reset. The count that numbers qualification steps runs on (entry 27). -/
def LaneRec.blank (r : LaneRec) : LaneRec := { LaneRec.initial with checks := r.checks }

/-- What a full reset alone clears: custody, lane strikes, profile indices, lockdown and the time base (R89, R149, R171,
R183, R193). -/
def clearAll (s : State) : State :=
  { s with
    charge := Vector.replicate 32 (ChargeRec.initial 0 0)
    custody := Vector.replicate 32 CustodyRec.initial
    lanes := Vector.ofFn fun l => (s.lane l).blank
    link := { s.link with lockdown := false }
    time := { ms := 0, minute := 0, minuteTicks := 0 } }

/-- R190: the part with the store loaded and every block at its values after a full reset, the first round not started
yet. -/
def resetPart (s : State) : State :=
  let s := abandonSave s
  clearBlocks (takeSettings (loadSettings s.store.words) (clearAll { s with store := loadFlags s.store }))

/-- R190: the reset ends and the first round starts (R33). -/
def endReset (s : State) : State := startRound false { s with held := none }

/-- R190: a full reset. One at power-on or by RST is held until RESET_END, and starts again when it comes again; one
after a RESTART(FULL) ends at once, and no answer can end while the part is held in reset. -/
def fullReset (cause : ResetCause) (s : State) : State :=
  match cause with
  | .powerOn => { resetPart s with held := some .powerOn }
  | .rstLow => { resetPart s with held := some .rstLow }
  | .restartFull => if s.held.isSome then s else endReset (resetPart s)

/-- R190 as a command: FULL_RESET. -/
def execFullReset (cause : ResetCause) (s : State) : Out := .next (fullReset cause s)

/-- R190: the held reset ends. -/
def resetEnds (s : State) : State :=
  match s.held with
  | none => s
  | some _ => endReset s

/-- R190 as a command: RESET_END. -/
def execResetEnd (s : State) : Out := .next (resetEnds s)

/-- R192: a warm restart. -/
def warmRestart (s : State) : State := startRound false (clearBlocks (abandonSave s))

/-- R191: RESTART(WARM) is taken: the restart comes at the beginning of the answer. -/
def takeRestartWarm (tag : Byte) (s : State) : State := reply 0x53 tag .done [1] (warmRestart s)

/-- R191 as a command: RESTART_WARM. -/
def execRestartWarm (tag : Byte) (s : State) : Out := .next (request (.restartWarm tag) (takeRestartWarm tag) s)

/-- R191: the answer being sent is followed by a full reset. -/
def resetAfterAnswer (s : State) : State :=
  { s with link := { s.link with sending := s.link.sending.map fun a => { a with thenReset := true } } }

/-- R191: RESTART(FULL) is taken: the full reset starts when the answer has been sent. -/
def takeRestartFull (tag : Byte) (s : State) : State := resetAfterAnswer (reply 0x53 tag .done [0] s)

/-- R191 as a command: RESTART_FULL. -/
def execRestartFull (tag : Byte) (s : State) : Out := .next (request (.restartFull tag) (takeRestartFull tag) s)

end Sys2Proof.Machine
end

