-- ==== Sys2Proof/Machine/Link.lean ====
section
/-! DEFINITION. The Link Port (chapter 10): STATUS, NOTICES, WATCHDOG-ARM, RESUME, LINK-SET, the watchdog and AUTONOMOUS
mode, the receiver, and the taking of buffered requests. -/

namespace Sys2Proof.Machine

/-- R179, R185: the fields of the STATUS answer after the result byte. The byte values of the armed watchdog are the
model's (entry 44). -/
def statusFields (s : State) : List Byte :=
  [s.link.mode.code, flagByte s.link.lockdown, flagByte s.link.armed] ++
    num16 (remaining s.time.ms s.link.watchdog) ++ bytes16 s.time.minute ++ num16 s.budget.computed ++
    num16 (s.budget.lastPass.getD 0) ++ num16 s.budget.derate ++ [encodeH s.budget.h] ++ num16 s.alloc.remainder ++
    [statusFlags s, byte s.link.notices.length]

/-- R179: STATUS is taken: the answer is loaded and the frame-error and overrun flags are cleared. -/
def takeStatus (tag : Byte) (s : State) : State :=
  reply 0x01 tag .done (statusFields s) { s with link := { s.link with frameError := false, overrun := false } }

/-- R179 as a command: STATUS. -/
def execStatus (tag : Byte) (s : State) : Out := .next (request (.status tag) (takeStatus tag) s)

/-- R178, R185: the fields of the NOTICES answer after the result byte. -/
def noticesFields (s : State) : List Byte :=
  let taken := s.link.notices.take Config.noticesPerAnswer
  let left := s.link.notices.drop Config.noticesPerAnswer
  [flagByte s.link.overflow, byte taken.length, byte left.length] ++ taken.flatMap Notice.bytes

/-- R178: NOTICES is taken. -/
def takeNotices (tag : Byte) (s : State) : State :=
  reply 0x02 tag .done (noticesFields s)
    { s with link := { s.link with
        overflow := false, notices := s.link.notices.drop Config.noticesPerAnswer } }

/-- R178 as a command: NOTICES. -/
def execNotices (tag : Byte) (s : State) : Out := .next (request (.notices tag) (takeNotices tag) s)

/-- R180: the watchdog count starts afresh. -/
def startWatchdog (s : State) : State :=
  { s with link := { s.link with watchdog := some (s.time.ms + s.link.period * 1000) } }

/-- R180: WATCHDOG-ARM is taken. -/
def takeWatchdogArm (tag period : Byte) (s : State) : State :=
  let p := clamp 1 60 period.toNat
  reply 0x50 tag (doneOr (p ≠ period.toNat)) [byte p]
    (startWatchdog { s with link := { s.link with armed := true, period := p } })

/-- R180 as a command: WATCHDOG_ARM. -/
def execWatchdogArm (tag period : Byte) (s : State) : Out :=
  .next (request (.watchdogArm tag period) (takeWatchdogArm tag period) s)

/-- R181, R182: the mode is set. -/
def setMode (m : Mode) (s : State) : State := { s with link := { s.link with mode := m } }

/-- R182: RESUME is taken. Its recomputation and its assignment run bring one pass between them (entry 30). -/
def takeResume (tag : Byte) (s : State) : State :=
  match s.link.mode with
  | .normal => reply 0x51 tag .done [0] s
  | .autonomous => finish (reply 0x51 tag .done [0] (assignmentRun (recompute (setMode .normal s))))

/-- R182 as a command: RESUME. -/
def execResume (tag : Byte) (s : State) : Out := .next (request (.resume tag) (takeResume tag) s)

/-- R184: LINK-SET is taken. -/
def takeLinkSet (tag code : Byte) (s : State) : State :=
  if 1 < code.toNat then refuse 0x54 tag .range s
  else reply 0x54 tag .done [code] { s with link := { s.link with rate := code.toNat } }

/-- R184 as a command: LINK_SET. -/
def execLinkSet (tag code : Byte) (s : State) : Out := .next (request (.linkSet tag code) (takeLinkSet tag code) s)

/-- R176: a frame of a kind that is not in the table is answered UNKNOWN_KIND. -/
def takeUnknownKind (tag kind : Byte) (s : State) : State :=
  let answerKind : Byte := if kind.toNat < 0x80 then kind + 0x80 else 0xFF
  { s with link := { s.link with sending := some ⟨⟨answerKind, tag, [Result.unknownKind.code]⟩, false⟩ } }

/-- R176 as a command: UNKNOWN_KIND. -/
def execUnknownKind (tag kind : Byte) (s : State) : Out :=
  .next (request (.unknownKind tag kind) (takeUnknownKind tag kind) s)

/-- R181: entry to AUTONOMOUS mode, in its order. The data bytes of AUTONOMOUS_ENTERED that R181 leaves open are 0 (entry
43). -/
def enterAutonomous (s : State) : State :=
  let s := note .autonomousEntered 0 (byte s.link.period) 0 0 0 (setMode .autonomous s)
  finish (recompute (latchAutonomous (schedAutonomous s)))

/-- R180: the watchdog count expires. -/
def watchdogExpires (s : State) : State :=
  match s.link.watchdog with
  | none => s
  | some _ =>
    let s := { s with link := { s.link with watchdog := none } }
    match s.link.mode with
    | .normal => enterAutonomous s
    | .autonomous => s

/-- R180 as a command: WATCHDOG_EXPIRY. -/
def execWatchdogExpiry (s : State) : Out := .next (live watchdogExpires s)

/-- R175: a request reaches its owning block, which acts on it and gives the answer. Events are no requests. -/
def serve (i : Instr) (s : State) : State :=
  match i with
  | .status t => takeStatus t s
  | .notices t => takeNotices t s
  | .snapshot t => takeSnapshot t s
  | .bayQuery t bay => takeBayQuery t bay s
  | .measure t => takeMeasure t s
  | .scanSet t mode period => takeScanSet t mode period s
  | .budgetSet t a b c d e f => takeBudgetSet t (budgetFields a b c d e f) s
  | .profileSet t index a b c d e f => takeProfileSet t index (profileFields a b c d e f) s
  | .bayProfile t bay index => takeBayProfile t bay index s
  | .bayEnableOff t bay => takeBayEnableOff t bay s
  | .bayEnableOn t bay => takeBayEnableOn t bay s
  | .chargeSet t a b c d e f g h i => takeChargeSet t (chargeFields a b c d e f g h i) s
  | .supervisionSet t a b c d => takeSupervisionSet t (supervFields a b c d) s
  | .faultClear t bay => takeFaultClear t bay s
  | .latchSet t a b c d e f => takeLatchSet t (latchFields a b c d e f) s
  | .serviceOpen t bay flags => takeServiceOpen t bay flags s
  | .lockdownOn t => takeLockdownOn t s
  | .lockdownOff t => takeLockdownOff t s
  | .checkout t bay holder group due flags => takeCheckout t bay holder group due flags s
  | .returnTablet t holder => takeReturn t holder s
  | .reserve t group count due => takeReserve t group count due s
  | .reserveCancel t group => takeReserveCancel t group s
  | .custodyLoad t bay holder due => takeCustodyLoad t bay holder due s
  | .custodySet t a b c => takeCustodySet t (custodyFields a b c) s
  | .provAdd t bay cls jobTag attempts => takeProvAdd t bay cls jobTag attempts s
  | .provCancel t bay => takeProvCancel t bay s
  | .provDone t lane bay jobTag result => takeProvDone t lane bay jobTag result s
  | .laneServiceOut t lane => takeLaneServiceOut t lane s
  | .laneServiceIn t lane => takeLaneServiceIn t lane s
  | .slotTable t length classes => takeSlotTable t length classes s
  | .provSet t a b => takeProvSet t (provFields a b) s
  | .watchdogArm t period => takeWatchdogArm t period s
  | .resume t => takeResume t s
  | .storeSave t => takeStoreSave t s
  | .restartFull t => takeRestartFull t s
  | .restartWarm t => takeRestartWarm t s
  | .linkSet t code => takeLinkSet t code s
  | .unknownKind t kind => takeUnknownKind t kind s
  | .frameReceived _ => s
  | .interbyteGapTimeout => s
  | .answerSent => s
  | .attach _ => s
  | .detach _ => s
  | .probeComplete _ _ _ => s
  | .shortEvent _ => s
  | .sample _ _ _ => s
  | .readingDeadline => s
  | .zoneReading _ _ => s
  | .roundComplete => s
  | .periodExpiry => s
  | .backoffExpiry _ => s
  | .cleanChargeExpiry _ => s
  | .shedChange _ => s
  | .settleExpiry => s
  | .contactEvent _ _ _ => s
  | .latchMachineStart _ _ _ _ => s
  | .travelTimeout _ => s
  | .retryPauseExpiry _ => s
  | .windowExpiry _ => s
  | .closeSettleExpiry _ => s
  | .minuteAdvance => s
  | .lineCheckResult _ _ _ => s
  | .lineCheckDeadline _ => s
  | .patternCheckEnd _ _ _ => s
  | .sessionExpiry _ => s
  | .watchdogExpiry => s
  | .storeWordWrite => s
  | .saveComplete => s
  | .fullReset _ => s
  | .byteReceived _ _ => s
  | .resetEnd => s

/-- R175, R176: a frame is taken: its kind and length are checked and its request is served. -/
def takeFrame (f : Frame) (s : State) : State :=
  match decodeRequest f with
  | .request i => serve i s
  | .malformed => reply f.kind f.tag .malformed [] s
  | .outOfRange => refuse f.kind f.tag .range s

/-- R175: the oldest buffered frame is taken when no answer is being sent. -/
def takeNext (s : State) : State :=
  match s.link.sending, s.link.buffer with
  | none, f :: rest => takeFrame f { s with link := { s.link with buffer := rest } }
  | _, _ => s

/-- R173, R180: a valid frame completes: it reloads an armed watchdog and is buffered or lost to overrun. -/
def frameValid (f : Frame) (s : State) : State :=
  takeNext (bufferFrame f (if s.link.armed then startWatchdog s else s))

/-- R173: the receiver stands in this state. -/
def setRx (r : Receiver) (s : State) : State := { s with link := { s.link with rx := r } }

/-- R174: the frame in progress is discarded with the frame-error flag, and hunting resumes. -/
def discardFrame (s : State) : State := { s with link := { s.link with rx := .hunting, frameError := true } }

/-- R173: the second CRC byte arrives, the bytes after SYNC being these. -/
def frameCompletes (bytes : List Byte) (s : State) : State :=
  match parseFrame bytes with
  | none => discardFrame s
  | some f => frameValid f (setRx .hunting s)

/-- R173: a byte arrives while hunting. A bad one is discarded like any other (entry 25). -/
def huntByte (value : Byte) (stopGood : Bool) (s : State) : State :=
  if stopGood ∧ value = Config.sync then setRx (.inside [] s.time.ms) s else s

/-- R172: the bytes after SYNC are a whole frame: LEN, KIND, TAG, LEN payload bytes and two CRC bytes. -/
def frameWhole (bytes : List Byte) : Bool :=
  match bytes with
  | [] => false
  | len :: _ => bytes.length = len.toNat + 5

/-- R173, R174: a good byte joins the frame in progress. -/
def joinByte (bytes : List Byte) (value : Byte) (s : State) : State :=
  if bytes = [] ∧ Config.payloadMax < value.toNat then discardFrame s
  else if frameWhole (bytes ++ [value]) then frameCompletes (bytes ++ [value]) s
  else setRx (.inside (bytes ++ [value]) s.time.ms) s

/-- R173, R174: a byte arrives. More than 20 ms after the last byte of the frame in progress, that frame is discarded
first. -/
def byteArrives (value : Byte) (stopGood : Bool) (s : State) : State :=
  match s.link.rx with
  | .hunting => huntByte value stopGood s
  | .inside bytes last =>
    if Config.byteGap < s.time.ms - last then huntByte value stopGood (discardFrame s)
    else if stopGood then joinByte bytes value s
    else discardFrame s

/-- R173 as a command: BYTE_RECEIVED. -/
def execByteReceived (value : Byte) (stopGood : Bool) (s : State) : Out := .next (live (byteArrives value stopGood) s)

/-- R173 as a command: FRAME_RECEIVED, the arrival of the frame's last byte with a good stop bit. -/
def execFrameReceived (last : Byte) (s : State) : Out := .next (live (byteArrives last true) s)

/-- R174: the gap after the last byte of the frame in progress is too long. -/
def gapExpires (s : State) : State :=
  match s.link.rx with
  | .hunting => s
  | .inside _ _ => discardFrame s

/-- R174 as a command: INTERBYTE_GAP_TIMEOUT. -/
def execInterbyteGapTimeout (s : State) : Out := .next (live gapExpires s)

/-- R175, R184, R191: the last byte of the answer has been sent: a full reset after RESTART(FULL), or else the link rate
set takes effect and the next buffered frame is taken. -/
def answerEnds (s : State) : State :=
  match s.link.sending with
  | none => s
  | some a =>
    if a.thenReset then fullReset .restartFull s
    else takeNext { s with link := { s.link with sending := none, lineRate := s.link.rate } }

/-- R175 as a command: ANSWER_SENT. -/
def execAnswerSent (s : State) : Out := .next (live answerEnds s)

end Sys2Proof.Machine
end

