-- ==== Sys2Proof/Machine/Tick.lean ====
section
/-! DEFINITION. The 1 ms tick (R193): what the part does of its own accord when no command waits. The filters sample their
lines and the timers that are due expire, in the order of entry 2. -/

namespace Sys2Proof.Machine

/-- R193: the tick counts a millisecond, and toward the next minute. -/
def countTick (s : State) : State :=
  { s with time := { s.time with ms := s.time.ms + 1, minuteTicks := s.time.minuteTicks + 1 } }

/-- R193: the minute counter advances each time 60,000 ticks have passed. -/
def tickMinute (s : State) : State := if Config.minute ≤ s.time.minuteTicks then advanceMinute s else s

/-- R2: the presence filter samples the attach signature of a bay. -/
def samplePresence (b : Bay) (s : State) : State :=
  let r := s.bay b
  let level := s.pins.signature[b]
  if r.presence then
    if level then s.setBay b { r with absenceRun := 0 }
    else if Config.absenceRun ≤ r.absenceRun + 1 then detach b s
    else s.setBay b { r with absenceRun := r.absenceRun + 1 }
  else
    if level = false then s.setBay b { r with attachRun := 0 }
    else if Config.attachRun ≤ r.attachRun + 1 then attach b s
    else s.setBay b { r with attachRun := r.attachRun + 1 }

/-- The SHED run stands at a count. -/
def setShedRun (n : Nat) (s : State) : State := { s with budget := { s.budget with shedRun := n } }

/-- R37: the SHED filter samples its line. -/
def sampleShed (s : State) : State :=
  if s.pins.shedLine = s.budget.shed then setShedRun 0 s
  else if Config.shedRun ≤ s.budget.shedRun + 1 then shedAccepts s.pins.shedLine s
  else setShedRun (s.budget.shedRun + 1) s

/-- R107: the run of a contact filter after a sample at a level. -/
def Filter.runAfter (f : Filter) (level : Bool) : Nat :=
  match f.level with
  | some accepted => if level = accepted then 0 else f.run + 1
  | none => if f.seen = some level then f.run + 1 else 1

/-- R107: the sample differs from the accepted level, or there is none. -/
def Filter.differs (f : Filter) (level : Bool) : Bool := f.level ≠ some level

/-- R107: a contact filter samples its line. An acceptance is a contact event, but for a filter's first. -/
def sampleContact (b : Bay) (c : Contact) (s : State) : State :=
  let level := s.pins.contacts[b].get c
  let f := (s.latch b).filter c
  let run := f.runAfter level
  if f.differs level ∧ s.latchUnit.settings.noise ≤ run then finish (acceptLevel b c level s)
  else s.setLatch b ((s.latch b).setFilter c { f with run := run, seen := some level })

/-- R107: the three filters of a bay sample. The rule gives no order among them; the model takes BOLT_OUT, BOLT_IN and
DOOR_CLOSED (entry 39). -/
def sampleContacts (b : Bay) (s : State) : State :=
  sampleContact b .doorClosed (sampleContact b .boltIn (sampleContact b .boltOut s))

/-- R126: the machines due at this sample start in ascending bay number, and one arbitration step follows. -/
def startMachines (s : State) : State :=
  if allBays.any fun b => readyToStart (s.latch b) then finish (arbitrate (eachBay startIfReady s)) else s

/-- R21: the deadline of the reading awaited, when it is due. -/
def tickReading (s : State) : State :=
  match s.scan.round with
  | none => s
  | some r => if r.deadline ≤ s.time.ms then readingMissed s else s

/-- R25: the period wait when it is due. -/
def tickWait (s : State) : State := if s.scan.wait.due s.time.ms then periodExpires s else s

/-- R97: the backoff timer of a bay when it is due. -/
def tickBackoff (b : Bay) (s : State) : State :=
  match (s.bay b).backoff with
  | .running expiry => if expiry ≤ s.time.ms then backoffExpires b s else s
  | .stopped => s
  | .coolDown => s

/-- R99: the clean-charge timer of a bay when it is due. -/
def tickClean (b : Bay) (s : State) : State :=
  if (s.bay b).cleanTimer.due s.time.ms then cleanChargeExpires b s else s

/-- R110, R113: the travel timer of a latch when it is due. -/
def tickTravel (b : Bay) (s : State) : State := if (s.latch b).travel.due s.time.ms then travelTimeout b s else s

/-- R113: the retry pause of a latch when it is due. -/
def tickPause (b : Bay) (s : State) : State := if (s.latch b).pause.due s.time.ms then retryPauseExpires b s else s

/-- R111: the window timer of a latch when it is due. -/
def tickWindow (b : Bay) (s : State) : State := if (s.latch b).window.due s.time.ms then windowExpires b s else s

/-- R112: the settle timer of a latch when it is due. -/
def tickCloseSettle (b : Bay) (s : State) : State :=
  if (s.latch b).settle.due s.time.ms then closeSettleExpires b s else s

/-- R159: the deadline of the line check of a lane, when it is due. -/
def tickLineCheck (l : Lane) (s : State) : State :=
  match (s.lane l).state with
  | .qualifying _ (.lineCheck _ started) =>
    if started + Config.lineCheck ≤ s.time.ms then lineCheckMissed l s else s
  | _ => s

/-- R160: the session timer of a lane when it is due. -/
def tickSession (l : Lane) (s : State) : State :=
  match (s.lane l).state with
  | .active _ expiry => if expiry ≤ s.time.ms then sessionExpires l s else s
  | _ => s

/-- R180: the watchdog count when it is due. -/
def tickWatchdog (s : State) : State := if s.link.watchdog.due s.time.ms then watchdogExpires s else s

/-- R174: the gap inside a frame when it is too long. -/
def tickGap (s : State) : State :=
  match s.link.rx with
  | .hunting => s
  | .inside _ last => if Config.byteGap < s.time.ms - last then gapExpires s else s

/-- The filters of a tick (R2, R37, R107, R126). -/
def tickFilters (s : State) : State := startMachines (eachBay sampleContacts (sampleShed (eachBay samplePresence s)))

/-- The timers of the Allocator, the Scan Engine and the bays at a tick. -/
def tickCharge (s : State) : State :=
  eachBay tickClean (eachBay tickBackoff (tickWait (roundCompletes (tickReading (settleIfDue s)))))

/-- The timers of the latches at a tick. -/
def tickLatches (s : State) : State :=
  eachBay tickCloseSettle (eachBay tickWindow (eachBay tickPause (eachBay tickTravel s)))

/-- The timers of the lanes and of the link at a tick. -/
def tickLink (s : State) : State := tickGap (tickWatchdog (eachLane tickSession (eachLane tickLineCheck s)))

/-- R193: one tick of 1 ms. -/
def tick (s : State) : State := live (fun s => tickLink (tickLatches (tickCharge (tickFilters (tickMinute (countTick s)))))) s

end Sys2Proof.Machine
end

