-- ==== Sys2Proof/Machine/Dispatch.lean ====
section
/-! DEFINITION. One arm per command: the meaning of each row of spec/opcode_table.json. -/

namespace Sys2Proof.Machine

/-- The effect of a command on everything but the queue of waiting commands. -/
def exec (i : Instr) (s : State) : Host.Outcome State Fault Refusal :=
  match i with
  | .frameReceived last => Sys2Proof.Machine.execFrameReceived last s
  | .interbyteGapTimeout => Sys2Proof.Machine.execInterbyteGapTimeout s
  | .answerSent => Sys2Proof.Machine.execAnswerSent s
  | .status tag => Sys2Proof.Machine.execStatus tag s
  | .notices tag => Sys2Proof.Machine.execNotices tag s
  | .snapshot tag => Sys2Proof.Machine.execSnapshot tag s
  | .bayQuery tag bay => Sys2Proof.Machine.execBayQuery tag bay s
  | .measure tag => Sys2Proof.Machine.execMeasure tag s
  | .scanSet tag mode period => Sys2Proof.Machine.execScanSet tag mode period s
  | .budgetSet tag inlet efficiency overhead knee cut hysteresis => Sys2Proof.Machine.execBudgetSet tag inlet efficiency overhead knee cut hysteresis s
  | .profileSet tag index floor ceiling maintenance taper full readiness => Sys2Proof.Machine.execProfileSet tag index floor ceiling maintenance taper full readiness s
  | .bayProfile tag bay index => Sys2Proof.Machine.execBayProfile tag bay index s
  | .bayEnableOff tag bay => Sys2Proof.Machine.execBayEnableOff tag bay s
  | .bayEnableOn tag bay => Sys2Proof.Machine.execBayEnableOn tag bay s
  | .chargeSet tag provFloor settle reclaimCount reclaimMargin pressMargin pressStep taper full wake => Sys2Proof.Machine.execChargeSet tag provFloor settle reclaimCount reclaimMargin pressMargin pressStep taper full wake s
  | .supervisionSet tag retryLimit backoff tolerance hotLimit => Sys2Proof.Machine.execSupervisionSet tag retryLimit backoff tolerance hotLimit s
  | .faultClear tag bay => Sys2Proof.Machine.execFaultClear tag bay s
  | .latchSet tag noise window closeSettle travel movers draw => Sys2Proof.Machine.execLatchSet tag noise window closeSettle travel movers draw s
  | .serviceOpen tag bay flags => Sys2Proof.Machine.execServiceOpen tag bay flags s
  | .lockdownOn tag => Sys2Proof.Machine.execLockdownOn tag s
  | .lockdownOff tag => Sys2Proof.Machine.execLockdownOff tag s
  | .checkout tag bay holder group due flags => Sys2Proof.Machine.execCheckout tag bay holder group due flags s
  | .returnTablet tag holder => Sys2Proof.Machine.execReturn tag holder s
  | .reserve tag group count due => Sys2Proof.Machine.execReserve tag group count due s
  | .reserveCancel tag group => Sys2Proof.Machine.execReserveCancel tag group s
  | .custodyLoad tag bay holder due => Sys2Proof.Machine.execCustodyLoad tag bay holder due s
  | .custodySet tag holderLimit horizon grace => Sys2Proof.Machine.execCustodySet tag holderLimit horizon grace s
  | .provAdd tag bay cls jobTag attempts => Sys2Proof.Machine.execProvAdd tag bay cls jobTag attempts s
  | .provCancel tag bay => Sys2Proof.Machine.execProvCancel tag bay s
  | .provDone tag lane bay jobTag result => Sys2Proof.Machine.execProvDone tag lane bay jobTag result s
  | .laneServiceOut tag lane => Sys2Proof.Machine.execLaneServiceOut tag lane s
  | .laneServiceIn tag lane => Sys2Proof.Machine.execLaneServiceIn tag lane s
  | .slotTable tag length classes => Sys2Proof.Machine.execSlotTable tag length classes s
  | .provSet tag threshold sessionLimit => Sys2Proof.Machine.execProvSet tag threshold sessionLimit s
  | .watchdogArm tag period => Sys2Proof.Machine.execWatchdogArm tag period s
  | .resume tag => Sys2Proof.Machine.execResume tag s
  | .storeSave tag => Sys2Proof.Machine.execStoreSave tag s
  | .restartFull tag => Sys2Proof.Machine.execRestartFull tag s
  | .restartWarm tag => Sys2Proof.Machine.execRestartWarm tag s
  | .linkSet tag code => Sys2Proof.Machine.execLinkSet tag code s
  | .attach bay => Sys2Proof.Machine.execAttach bay s
  | .detach bay => Sys2Proof.Machine.execDetach bay s
  | .probeComplete bay number short => Sys2Proof.Machine.execProbeComplete bay number short s
  | .shortEvent bay => Sys2Proof.Machine.execShortEvent bay s
  | .sample bay draw temperature => Sys2Proof.Machine.execSample bay draw temperature s
  | .readingDeadline => Sys2Proof.Machine.execReadingDeadline s
  | .zoneReading zone value => Sys2Proof.Machine.execZoneReading zone value s
  | .roundComplete => Sys2Proof.Machine.execRoundComplete s
  | .periodExpiry => Sys2Proof.Machine.execPeriodExpiry s
  | .backoffExpiry bay => Sys2Proof.Machine.execBackoffExpiry bay s
  | .cleanChargeExpiry bay => Sys2Proof.Machine.execCleanChargeExpiry bay s
  | .shedChange asserted => Sys2Proof.Machine.execShedChange asserted s
  | .settleExpiry => Sys2Proof.Machine.execSettleExpiry s
  | .contactEvent bay contact asserted => Sys2Proof.Machine.execContactEvent bay contact asserted s
  | .latchMachineStart bay boltOut boltIn doorClosed => Sys2Proof.Machine.execLatchMachineStart bay boltOut boltIn doorClosed s
  | .travelTimeout bay => Sys2Proof.Machine.execTravelTimeout bay s
  | .retryPauseExpiry bay => Sys2Proof.Machine.execRetryPauseExpiry bay s
  | .windowExpiry bay => Sys2Proof.Machine.execWindowExpiry bay s
  | .closeSettleExpiry bay => Sys2Proof.Machine.execCloseSettleExpiry bay s
  | .minuteAdvance => Sys2Proof.Machine.execMinuteAdvance s
  | .lineCheckResult lane number found => Sys2Proof.Machine.execLineCheckResult lane number found s
  | .lineCheckDeadline lane => Sys2Proof.Machine.execLineCheckDeadline lane s
  | .patternCheckEnd lane number errors => Sys2Proof.Machine.execPatternCheckEnd lane number errors s
  | .sessionExpiry lane => Sys2Proof.Machine.execSessionExpiry lane s
  | .watchdogExpiry => Sys2Proof.Machine.execWatchdogExpiry s
  | .storeWordWrite => Sys2Proof.Machine.execStoreWordWrite s
  | .saveComplete => Sys2Proof.Machine.execSaveComplete s
  | .fullReset cause => Sys2Proof.Machine.execFullReset cause s
  | .byteReceived value stopGood => Sys2Proof.Machine.execByteReceived value stopGood s
  | .unknownKind tag kind => Sys2Proof.Machine.execUnknownKind tag kind s
  | .resetEnd => Sys2Proof.Machine.execResetEnd s

end Sys2Proof.Machine
end

