-- ==== Sys2Proof/WellFormed.lean ====
section
/-! DEFINITION. Which commands are well formed: the operands that a frame or an event of the part can carry. -/

namespace Sys2Proof

/-- A command is well formed when the part can meet it: an UNKNOWN_KIND names a kind that the request kind table does
not list (R176), and a SLOT-TABLE fits a frame (R172). Every other operand is bounded by its type; a request field out
of its range is the owner's to refuse or clamp. -/
def Instr.wellFormed : Instr → Bool
  | .slotTable _ _ classes => classes.length + 1 ≤ Config.payloadMax
  | .unknownKind _ kind => kindListed kind = false
  | .frameReceived _ => true
  | .interbyteGapTimeout => true
  | .answerSent => true
  | .status _ => true
  | .notices _ => true
  | .snapshot _ => true
  | .bayQuery _ _ => true
  | .measure _ => true
  | .scanSet _ _ _ => true
  | .budgetSet _ _ _ _ _ _ _ => true
  | .profileSet _ _ _ _ _ _ _ _ => true
  | .bayProfile _ _ _ => true
  | .bayEnableOff _ _ => true
  | .bayEnableOn _ _ => true
  | .chargeSet _ _ _ _ _ _ _ _ _ _ => true
  | .supervisionSet _ _ _ _ _ => true
  | .faultClear _ _ => true
  | .latchSet _ _ _ _ _ _ _ => true
  | .serviceOpen _ _ _ => true
  | .lockdownOn _ => true
  | .lockdownOff _ => true
  | .checkout _ _ _ _ _ _ => true
  | .returnTablet _ _ => true
  | .reserve _ _ _ _ => true
  | .reserveCancel _ _ => true
  | .custodyLoad _ _ _ _ => true
  | .custodySet _ _ _ _ => true
  | .provAdd _ _ _ _ _ => true
  | .provCancel _ _ => true
  | .provDone _ _ _ _ _ => true
  | .laneServiceOut _ _ => true
  | .laneServiceIn _ _ => true
  | .provSet _ _ _ => true
  | .watchdogArm _ _ => true
  | .resume _ => true
  | .storeSave _ => true
  | .restartFull _ => true
  | .restartWarm _ => true
  | .linkSet _ _ => true
  | .attach _ => true
  | .detach _ => true
  | .probeComplete _ _ _ => true
  | .shortEvent _ => true
  | .sample _ _ _ => true
  | .readingDeadline => true
  | .zoneReading _ _ => true
  | .roundComplete => true
  | .periodExpiry => true
  | .backoffExpiry _ => true
  | .cleanChargeExpiry _ => true
  | .shedChange _ => true
  | .settleExpiry => true
  | .contactEvent _ _ _ => true
  | .latchMachineStart _ _ _ _ => true
  | .travelTimeout _ => true
  | .retryPauseExpiry _ => true
  | .windowExpiry _ => true
  | .closeSettleExpiry _ => true
  | .minuteAdvance => true
  | .lineCheckResult _ _ _ => true
  | .lineCheckDeadline _ => true
  | .patternCheckEnd _ _ errors => errors ≤ 255
  | .sessionExpiry _ => true
  | .watchdogExpiry => true
  | .storeWordWrite => true
  | .saveComplete => true
  | .fullReset _ => true
  | .byteReceived _ _ => true
  | .resetEnd => true

end Sys2Proof
end

