-- ==== Sys2Proof/Safety.lean ====
section
/-! DEFINITION. The laws of the part, as conditions on a state, and what kinds of work leave unchanged: the terms in
which the statements about the model are made. -/

namespace Sys2Proof.Machine

/-! ### When a request is taken, and when an event brings no pass -/

/-- The part is out of reset and no answer is being sent, so that a request is taken at once (R175, R190). -/
def CanTake (s : State) : Prop := s.held = none ∧ s.link.sending = none

/-- No pass is asked for and every tier follows its conditions (R55, R56): what every event leaves behind. -/
def Settled (s : State) : Prop :=
  s.alloc.passAsked = false ∧ ∀ b, (s.bay b).state.eligible = true → (s.chg b).tier = s.tierOf b

/-! ### What a kind of work may change -/

/-- The link after these notices have been queued, first to last (R177). -/
def LinkPort.queueAll (ns : List Notice) (l : LinkPort) : LinkPort := ns.foldl (fun l n => l.queued n) l

/-- Releases, removals and assignment runs at the Provisioning Scheduler: nothing but the lanes, the provisioning queue
and slot pointer, and queued notices. -/
def OnlyLanes (s t : State) : Prop :=
  ∃ lanes queue pointer ns,
    t = { s with
      lanes := lanes, prov := { s.prov with queue := queue, pointer := pointer }, link := s.link.queueAll ns }

/-- Work at the Custody Table: its records, and what its reports do at the lanes. -/
def OnlyCustody (s t : State) : Prop :=
  ∃ custody lanes queue pointer ns,
    t = { s with
      custody := custody, lanes := lanes, prov := { s.prov with queue := queue, pointer := pointer }
      link := s.link.queueAll ns }

/-- Work at the Latch Controller: its records and motion queue, what it hands on, and a recomputed budget. -/
def OnlyLatches (s t : State) : Prop :=
  ∃ latches motions custody lanes queue pointer ns derate computed asked,
    t = { s with
      latches := latches, latchUnit := { s.latchUnit with queue := motions }, custody := custody, lanes := lanes
      prov := { s.prov with queue := queue, pointer := pointer }, link := s.link.queueAll ns
      budget := { s.budget with derate := derate, computed := computed }
      alloc := { s.alloc with passAsked := asked } }

/-- What passes leave of a bay record: everything but the state, the applied grant and what follows the state; the whole
record of a bay outside the eligible set; and the bay's place in the set. The invalid-draw run is kept or, by a
deferral, ended (R92). -/
structure BayKept (r r' : BayRec) : Prop where
  presence : r'.presence = r.presence
  attachRun : r'.attachRun = r.attachRun
  absenceRun : r'.absenceRun = r.absenceRun
  lastFault : r'.lastFault = r.lastFault
  retries : r'.retries = r.retries
  energy : r'.energy = r.energy
  residue : r'.residue = r.residue
  prevSample : r'.prevSample = r.prevSample
  dataLine : r'.dataLine = r.dataLine
  invalidRun : r'.invalidRun = r.invalidRun ∨ r'.invalidRun = 0
  prevGrant : r'.prevGrant = r.prevGrant
  probes : r'.probes = r.probes
  outside : r.state.eligible = false → r' = r
  inside : r.state.eligible = true → r'.state.eligible = true

/-- What passes leave of the Allocator's record of a bay: its phase, dynamic ceiling and profile. -/
structure ChargeKept (c c' : ChargeRec) : Prop where
  phase : c'.phase = c.phase
  dynCeiling : c'.dynCeiling = c.dynCeiling
  profile : c'.profile = c.profile

/-- Allocation passes with what they hand on: nothing but states and grants of eligible bays, the Allocator's pass state,
the budget of the last pass, the lanes, the provisioning queue and slot pointer, and queued notices. -/
def OnlyPass (s t : State) : Prop :=
  ∃ bays charge rotation settleTimer remainder asked lastPass lanes queue pointer ns,
    t = { s with
      bays := bays, charge := charge
      alloc := { s.alloc with
        rotation := rotation, settleTimer := settleTimer, remainder := remainder, passAsked := asked }
      budget := { s.budget with lastPass := lastPass }, lanes := lanes
      prov := { s.prov with queue := queue, pointer := pointer }, link := s.link.queueAll ns } ∧
    (∀ b, BayKept (s.bay b) (t.bay b)) ∧ ∀ b, ChargeKept (s.chg b) (t.chg b)

/-- The fields that events of the bays and the passes after them can write, taken from `t`; every other field is that of
`s`. -/
def PassFields (s t : State) : State :=
  { s with
    bays := t.bays, charge := t.charge
    alloc := { s.alloc with
      rotation := t.alloc.rotation, settleTimer := t.alloc.settleTimer, remainder := t.alloc.remainder
      passAsked := t.alloc.passAsked }
    budget := { s.budget with lastPass := t.budget.lastPass }, lanes := t.lanes
    prov := { s.prov with queue := t.prov.queue, pointer := t.prov.pointer }
    link := { s.link with notices := t.link.notices, overflow := t.link.overflow } }

/-- Every other bay keeps what passes keep. -/
def OthersKept (b : Bay) (s t : State) : Prop :=
  ∀ c, c ≠ b → BayKept (s.bay c) (t.bay c) ∧ ChargeKept (s.chg c) (t.chg c)

/-- The five round counters of a bay (R78): reclaim, press, taper, full, wake. -/
def roundCounts (c : ChargeRec) : List Nat := [c.reclaim, c.press, c.taperN, c.fullN, c.wakeN]

/-- The bay stands outside CHARGING, or has entered it anew at this time, its clean-charge timer starting afresh (R99). -/
def LeftCharging (now : Nat) (r : BayRec) : Prop := r.state ≠ .charging ∨ r.cleanTimer = some (now + 600000)

/-- A command answers the next state that the end of its event makes of `u`, where its own effect stands (entry 11): the
tiers are recomputed and the passes asked for run, and nothing but these changes. -/
def Completes (run : Out) (u : State) : Prop := run = .next (finish u) ∧ OnlyPass u (finish u)

/-- A trigger brought a pass (R52, R53): passes follow, and once the budget is established the last of them divided the
computed budget as it stands (R45). -/
def PassFollows (s t : State) : Prop :=
  OnlyPass s t ∧ (s.budget.established = true → t.budget.lastPass = some s.budget.computed)

/-- R44: a new B asks for a pass: it is below the budget of the last pass, or above it by at least the hysteresis, or there
has been no pass. -/
def NewBudgetAsks (s : State) (b : Nat) : Prop :=
  match s.budget.lastPass with
  | none => True
  | some last => b < last ∨ (last < b ∧ last + s.budget.settings.hysteresis ≤ b)

/-- R42 to R44: from inputs as they stand in `s` the budget is computed and stored; once it is established, a B below the
budget of the last pass, or above it by at least the hysteresis, brings a pass; otherwise, in a settled state, nothing else
changes. -/
def Recomputed (s t : State) : Prop :=
  let b := budgetNow s
  let u : State := { s with budget := { s.budget with derate := derateNow s, computed := b } }
  OnlyPass u t ∧ (s.budget.established = true → NewBudgetAsks s b → t.budget.lastPass = some b) ∧
  (Settled s → s.budget.established = false ∨ ¬ NewBudgetAsks s b → t = u)

/-- The budget stands as computed before. -/
def BudgetKept (s t : State) : Prop := t.budget.derate = s.budget.derate ∧ t.budget.computed = s.budget.computed

/-- R46, R120: where `told` holds, a mover having been freed while more latches moved than M allows, the Budget Unit
recomputes from what the event leaves, with the pass that the new B asks for; otherwise it does not recompute. -/
def BudgetTold (told : Prop) (s t : State) : Prop :=
  (told → t.budget.derate = derateNow t ∧ t.budget.computed = budgetNow t ∧
    (s.budget.established = true → NewBudgetAsks s (budgetNow t) → t.budget.lastPass = some (budgetNow t))) ∧
  (¬ told → BudgetKept s t)

/-- Work at the Latch Controller, and the passes it brings. -/
def OnlyLatchesPass (s t : State) : Prop := ∃ u, OnlyLatches s u ∧ OnlyPass u t

/-! ### Answers, notices and commands one after another -/

/-- R172, R176: the state with an answer loaded: its kind, its tag, and its payload from the result code on. -/
def State.answer (s : State) (kind tag : Byte) (payload : List Byte) : State :=
  { s with link := { s.link with sending := some ⟨⟨kind, tag, payload⟩, false⟩ } }

/-- The state with these notices queued, first to last (R177). -/
def State.notices (s : State) (ns : List Notice) : State := { s with link := s.link.queueAll ns }

/-- Commands that run one after another, as long as each answers a next state. -/
def runCommands : List Instr → State → Out
  | [], s => .next s
  | c :: cs, s =>
    match exec c s with
    | .next t => runCommands cs t
    | .fault f => .fault f
    | .refused r => .refused r

/-! ### The laws of the part -/

/-- R12: a bay's applied grant never exceeds its profile ceiling, and it is 0 in every bay state other than CHARGING. -/
def GrantLaw (s : State) : Prop :=
  ∀ b, (s.bay b).grant ≤ (s.profile b).ceiling ∧ ((s.bay b).state ≠ .charging → (s.bay b).grant = 0)

/-- R177: the queue holds at most 48 notices, and at most one CHARGE_PHASE notice per bay. -/
def NoticeLaw (s : State) : Prop :=
  s.link.notices.length ≤ 48 ∧
  ∀ subject : Byte, s.link.notices.countP (fun n => n.kind = .chargePhase ∧ n.subject = subject) ≤ 1

/-- R128: a bay with presence set has status IN_CART, and so has a bay that carries a reservation. -/
def CustodyLaw (s : State) : Prop :=
  ∀ b, ((s.bay b).presence = true → (s.cust b).status = .inCart) ∧
    ((s.cust b).reservation ≠ none → (s.cust b).status = .inCart)

/-- R122, R166, R181: in AUTONOMOUS mode no lane is QUALIFYING or ACTIVE and no latch is RETRACTING, and no RETRACT waits
to be granted. -/
def AutonomousLaw (s : State) : Prop :=
  s.link.mode = .autonomous →
    (∀ l, (s.lane l).state.held = none) ∧ (∀ b, (s.latch b).state ≠ some .retracting) ∧
    ∀ m ∈ s.latchUnit.queue, m.2 = .extend

/-- R129: no holder number stands in more OUT records plus pending CHECKOUT purposes than the holder limit. -/
def HolderLaw (s : State) : Prop := ∀ holder, holderCount s holder ≤ s.custodySet.holderLimit

/-- R68: a bay's applied grant is at most its target, which is 0 outside the eligible set; a pending increase stands at
the target, and only in CHARGING (R66). -/
def TargetLaw (s : State) : Prop :=
  ∀ b, (s.bay b).grant ≤ (s.chg b).target ∧ ((s.bay b).state.eligible = false → (s.chg b).target = 0) ∧
    ∀ inc, (s.chg b).pendingInc = some inc → inc = (s.chg b).target ∧ (s.bay b).state = .charging

/-- What a bay may draw before another pass: its applied grant, or its pending increase if that is more. -/
def committed (s : State) (b : Bay) : Nat := max (s.bay b).grant ((s.chg b).pendingInc.getD 0)

/-- R68, with what keeps it: the applied grants, pending increases counted, never sum to more than the budget of the last
pass, and before the first pass there is none of either. -/
def PowerLaw (s : State) : Prop :=
  GrantLaw s ∧
  match s.budget.lastPass with
  | none => ∀ b, committed s b = 0
  | some budget => (allBays.map (committed s)).sum ≤ budget

/-- R36, R70, R74, R102, R125, R147, R169, R180, R184: every working setting lies in its range. -/
def SettingsLaw (s : State) : Prop :=
  clampBudget s.budget.settings = s.budget.settings ∧ clampCharge s.alloc.settings = s.alloc.settings ∧
  (∀ i : Fin 8, clampProfile s.alloc.profiles[i] = s.alloc.profiles[i]) ∧ clampSuperv s.superv = s.superv ∧
  clampLatch s.latchUnit.settings = s.latchUnit.settings ∧ clampCustody s.custodySet = s.custodySet ∧
  clampProv s.prov.settings = s.prov.settings ∧ (1 ≤ s.prov.slots.length ∧ s.prov.slots.length ≤ 16) ∧
  (1 ≤ s.link.period ∧ s.link.period ≤ 60) ∧ s.link.rate ≤ 1 ∧ s.budget.storedInlet ≤ 2400 ∧
  ∀ v, s.store.save = some v → v.copy.budget.inlet ≤ 2400

/-- R41: D lies within 0..256 and B within 0..9,504 qW. -/
def BudgetLaw (s : State) : Prop := s.budget.derate ≤ 256 ∧ s.budget.computed ≤ 9504

/-- R82: a bay's dynamic ceiling lies between 1 and its profile ceiling. -/
def CeilingLaw (s : State) : Prop := ∀ b, 1 ≤ (s.chg b).dynCeiling ∧ (s.chg b).dynCeiling ≤ (s.profile b).ceiling

/-- R175: the receive buffer holds up to two frames. -/
def BufferLaw (s : State) : Prop := s.link.buffer.length ≤ 2

/-- R119: a step leaves more latches moving than it found only while the movers limit allows them. -/
def MoversKept (s t : State) : Prop := t.moving ≤ max t.latchUnit.settings.movers s.moving

/-- No motion of a bay waits in the motion queue. -/
def NoMotion (s : State) (b : Bay) : Prop := ∀ m ∈ s.latchUnit.queue, m.1 ≠ b

/-- R108, R118: the motion queue holds at most one entry per bay, and in each latch state just the timers run and just the
motions wait that the state admits. -/
def LatchLaw (s : State) : Prop :=
  (s.latchUnit.queue.map Prod.fst).Nodup ∧
  ∀ b,
    let l := s.latch b
    let motion := s.pendingMotion b
    let noTravel := l.travel = none ∧ l.pause = none
    match l.state with
    | some .locked => noTravel ∧ l.window = none ∧ l.settle = none ∧ motion ≠ some .extend
    | some .jammed => noTravel ∧ l.window = none ∧ l.settle = none ∧ motion ≠ some .extend
    | some .retracting => l.travel ≠ none ∧ l.pause = none ∧ l.window = none ∧ l.settle = none ∧ motion = none
    | some .extending =>
      (l.travel = none ↔ l.pause ≠ none) ∧ l.window = none ∧ l.settle = none ∧ motion = none
    | some .released =>
      noTravel ∧ l.settle = none ∧ motion ≠ some .retract ∧ (motion = some .extend ↔ l.window = none)
    | some .closing =>
      noTravel ∧ l.window = none ∧ motion ≠ some .retract ∧ (motion = some .extend ↔ l.settle = none)
    | some .opened => noTravel ∧ l.window = none ∧ l.settle = none ∧ motion = none
    | some .sensorFault => noTravel ∧ l.window = none ∧ l.settle = none ∧ motion = none
    | some .forced => noTravel ∧ l.window = none ∧ l.settle = none ∧ motion = none
    | none => noTravel ∧ l.window = none ∧ l.settle = none ∧ motion = none

/-- R5, R8, R90, R98, R99: a bay without a tablet is EMPTY, LATCHED or DISABLED and one with a tablet is not EMPTY; a probe
is in flight in QUALIFYING alone, the backoff runs or waits in HOLD alone, and the clean-charge timer runs only in
CHARGING. -/
def SeatLaw (s : State) : Prop :=
  ∀ b,
    let r := s.bay b
    (r.presence = false → r.state = .empty ∨ r.state = .latched ∨ r.state = .disabled) ∧
    (r.presence = true → r.state ≠ .empty) ∧ (r.probe ≠ none ↔ r.state = .qualifying) ∧
    (r.backoff ≠ .stopped ↔ r.state = .hold) ∧ (r.cleanTimer ≠ none → r.state = .charging)

/-- The entries that the lanes hold, in ascending lane number (R155). -/
def heldEntries (s : State) : List Entry := allLanes.filterMap fun l => (s.lane l).state.held

/-- R152, R155, R163: a bay has at most one entry, in the queue or held by one lane; a queued entry's bay has its presence
set and is not LATCHED; a held entry's bay has its presence set, is in CHARGING, and its latch is LOCKED; an entry has 1 to
7 attempts left and a power hold of at most 2; a lane has at most 3 strikes. -/
def LaneLaw (s : State) : Prop :=
  ((s.prov.queue ++ heldEntries s).map Entry.bay).Nodup ∧
  (∀ e ∈ s.prov.queue, (s.bay e.bay).presence = true ∧ (s.bay e.bay).state ≠ .latched ∧ e.hold ≤ 2) ∧
  (∀ e ∈ heldEntries s, (s.bay e.bay).presence = true ∧ (s.bay e.bay).state = .charging ∧
    (s.latch e.bay).state = some .locked) ∧
  (∀ e ∈ s.prov.queue ++ heldEntries s, 1 ≤ e.attempts ∧ e.attempts ≤ 7) ∧
  ∀ l, (s.lane l).strikes ≤ 3

/-- R55, R56: a bay of the eligible set carries the tier of the first condition of R55 that it meets. -/
def TierLaw (s : State) : Prop :=
  ∀ b, (s.bay b).state.eligible = true → (s.chg b).tier =
    if ∃ l, (s.lane l).state.held.map Entry.bay = some b then .lane
    else if (s.cust b).reservation.any fun r => r.within then .reserved
    else if (s.chg b).phase ≠ .bulk then .topping
    else .normal

/-- R159: the number of the qualification step in flight at a lane. -/
def LaneState.step : LaneState → Option Nat
  | .free => none
  | .qualifying _ (.lineCheck number _) => some number
  | .qualifying _ (.patternCheck number _) => some number
  | .active _ _ => none
  | .outOfService => none

/-- R9, R159 (entry 27): a probe in flight after the step was in flight before it, or its number was given to no probe of the
bay before; and so with the qualification steps of a lane. So the late result of an abandoned one names no other. -/
def NumbersFresh (s t : State) : Prop :=
  (∀ b, (s.bay b).probes ≤ (t.bay b).probes ∧ ∀ p, (t.bay b).probe = some p →
    (s.bay b).probe = some p ∨ ((s.bay b).probes ≤ p.number ∧ p.number < (t.bay b).probes)) ∧
  ∀ l, (s.lane l).checks ≤ (t.lane l).checks ∧ ∀ n, (t.lane l).state.step = some n →
    (s.lane l).state.step = some n ∨ ((s.lane l).checks ≤ n ∧ n < (t.lane l).checks)

/-- R156: an entry of the queue is eligible. -/
def EntryEligible (s : State) (e : Entry) : Prop :=
  (s.bay e.bay).state = .charging ∧ min s.alloc.settings.provFloor (s.profile e.bay).ceiling ≤ (s.chg e.bay).target ∧
  (s.latch e.bay).state = some .locked ∧ s.pendingMotion e.bay = none ∧ (s.bay e.bay).dataLine = .clear ∧
  (∀ r, (s.cust e.bay).reservation = some r → r.within = false) ∧ s.link.mode = .normal ∧ e.hold = 0

/-- R157: what an assignment run leaves: no lane is FREE while an entry of a class in the slot table is eligible. -/
def LanesServed (s : State) : Prop :=
  (∀ l, (s.lane l).state ≠ .free) ∨ ∀ e ∈ s.prov.queue, EntryEligible s e → e.cls ∉ s.prov.slots

/-- R157: the slot pointer names a slot of the table. -/
def SlotLaw (s : State) : Prop := s.prov.pointer < s.prov.slots.length

/-! ### What follows a motion asked for -/

/-- Every latch but that of `b` for which no motion waits is left as it is. -/
def OtherLatchesKept (b : Bay) (s t : State) : Prop := ∀ c, c ≠ b → NoMotion s c → t.latch c = s.latch c

/-- The latch record `r` with the bolt being driven out from time `now` (R113). -/
def LatchRec.drivenOut (r : LatchRec) (now travel : Nat) : LatchRec :=
  { r with
    state := some .extending, retryUsed := false, pause := none, window := none, settle := none
    travel := some (now + travel) }

/-- The latch record `r` with the bolt being withdrawn from time `now` (R110). -/
def LatchRec.drivenIn (r : LatchRec) (now travel : Nat) : LatchRec :=
  { r with
    state := some .retracting, pause := none, window := none, settle := none, travel := some (now + travel) }

/-- R118, R119: an EXTEND of a bay whose bolt is not thrown has been queued: it waits, the latch record being `r`, or it
has been granted. It is granted when no other motion waited and a mover was free, and waits when none was. -/
def ExtendFollows (b : Bay) (r : LatchRec) (s t : State) : Prop :=
  let driven := r.drivenOut s.time.ms s.latchUnit.settings.travel
  ((t.latch b = r ∧ (b, Motion.extend) ∈ t.latchUnit.queue) ∨ (t.latch b = driven ∧ NoMotion t b)) ∧
  (s.latchUnit.queue = [] → s.moving < s.latchUnit.settings.movers → t.latch b = driven) ∧
  (s.latchUnit.settings.movers ≤ s.moving → t.latch b = r)

/-- R109, R118, R119: a RETRACT of a bay whose bolt is not withdrawn has been queued: it waits, the latch record as it was,
or it has been granted. It is granted when no other motion waited and a mover was free, and waits when none was. -/
def RetractFollows (b : Bay) (s t : State) : Prop :=
  let driven := (s.latch b).drivenIn s.time.ms s.latchUnit.settings.travel
  ((t.latch b = s.latch b ∧ (b, Motion.retract) ∈ t.latchUnit.queue) ∨ (t.latch b = driven ∧ NoMotion t b)) ∧
  (s.latchUnit.queue = [] → s.moving < s.latchUnit.settings.movers → t.latch b = driven) ∧
  (s.latchUnit.settings.movers ≤ s.moving → t.latch b = s.latch b) ∧ OtherLatchesKept b s t

/-! ### What a grant of a motion does -/

/-- R132: the custody record of a bay after Relocked: the purpose ends, and a SERVICE purpose over an IN_CART record with
presence clear leaves the record VACANT with no reservation. -/
def CustodyRec.relocked (c : CustodyRec) (presence : Bool) : CustodyRec :=
  let vacated := c.purpose = some .service ∧ c.status = .inCart ∧ presence = false
  { status := if vacated then .vacant else c.status
    reservation := if vacated then none else c.reservation, purpose := none }

/-- R132, R148: the notice of a release purpose that lapses, the latch being in a state of this code; SERVICE has none. -/
def lapsed (b : Bay) (minute : Word16) (code : Byte) : Option Purpose → List Notice
  | some (.checkout h g _) => [⟨.checkoutLapsed, bayNumber b, minute, hiByte h, loByte h, g, code⟩]
  | some (.returning h) => [⟨.returnLapsed, bayNumber b, minute, hiByte h, loByte h, code, 0⟩]
  | some .service => []
  | none => []

/-- R113, R119: the EXTEND of a bay is granted: the bolt is driven out, or, BOLT_OUT being asserted already, the latch is
LOCKED at once and handed on as relocked. -/
def State.extendGranted (s : State) (b : Bay) : State :=
  let l := s.latch b
  let driven := l.drivenOut s.time.ms s.latchUnit.settings.travel
  if l.boltOut.level = some true then
    assignmentRun (State.notices
      { s with
        latches := s.latches.set b { driven with state := some .locked, travel := none }
        custody := s.custody.set b ((s.cust b).relocked (s.bay b).presence) }
      (lapsed b s.time.minute 0 (s.cust b).purpose))
  else { s with latches := s.latches.set b driven }

/-- R110, R114, R119, R165: the RETRACT of a bay is granted: the bolt is withdrawn, a lane that holds the bay of a LOCKED
latch releasing it; or, BOLT_IN being asserted already, the latch is RELEASED at once. -/
def State.retractGranted (s : State) (b : Bay) : State :=
  let l := s.latch b
  let driven := l.drivenIn s.time.ms s.latchUnit.settings.travel
  let u : State := { s with latches := s.latches.set b driven }
  let left := match s.laneOf b with
    | some lane => if l.state = some .locked then release lane .latch u else u
    | none => u
  if l.boltIn.level = some true then
    State.notices
      { left with latches := left.latches.set b { driven with
          state := some .released, travel := none
          window := some (s.time.ms + s.latchUnit.settings.window * 1000) } }
      [⟨.released, bayNumber b, s.time.minute, 0, 2, 0, 0⟩]
  else left

/-! ### The Settings Store -/

/-- R186, R187: every setting lies in its range, the slot table being one of 1 to 16 slots. -/
def SettingsInRange (c : Settings) : Prop :=
  c.rate ≤ 1 ∧ (1 ≤ c.period ∧ c.period ≤ 60) ∧ clampBudget c.budget = c.budget ∧ clampLatch c.latch = c.latch ∧
  clampCharge c.charge = c.charge ∧ clampSuperv c.superv = c.superv ∧ clampCustody c.custody = c.custody ∧
  clampProv c.prov = c.prov ∧ (1 ≤ c.slots.length ∧ c.slots.length ≤ 16) ∧
  ∀ i : Fin 8, clampProfile c.profiles[i] = c.profiles[i]

end Sys2Proof.Machine
end

