-- ==== Sys2Proof/Certificates/Slice0/Obligations.lean ====
section
/-! DEFINITION. The statements for the provers, from the numbered rules of the manual. -/

open Sys2Proof Sys2Proof.Machine

/-! ### Steps and time -/

/-- The model's queue (entry 34): a step takes the command at the front and runs it with the queue's rest. -/
def Obligations.StepRunsTheFrontCommand : Prop :=
  ∀ (c : Instr) (rest : List Instr) (s : State), s.pending = c :: rest →
    step s = exec c { s with pending := rest }

/-- R193, by the model's tick (entry 2): with no command waiting, a step is one tick of 1 ms; it counts toward the minute,
and the minute counter advances, from 65,535 back to 0, when 60,000 ticks have passed since its last advance. A part held
in reset does not tick (entry 21). The tick takes the filters and then the timers, in the model's order (entries 2 and 39).
R2, R37, R107: a sample at a filter's present level sets its run to 0 (500 samples for an attach, 50 for a detach, 20 for
SHED, the noise-cancel count for a contact), another adds 1, and the one that reaches the count is the filter's event; a
contact filter with no accepted level counts equal samples, and its acceptance is no event. Once the three levels of a bay
are accepted its latch machine starts (R126). R193: each timer and deadline of the part expires, as its event, in the tick
at which it is due, and does nothing before. -/
def Obligations.EmptyQueueStepIsOneTick : Prop :=
  (∀ s : State, s.pending = [] →
    (s.held ≠ none → step s = .next s) ∧
    (s.held = none → ∃ t, step s = .next t ∧ t.time.ms = s.time.ms + 1 ∧ t.pending = [] ∧ t.held = none ∧
      (s.time.minuteTicks + 1 < 60000 →
        t.time.minute = s.time.minute ∧ t.time.minuteTicks = s.time.minuteTicks + 1) ∧
      (60000 ≤ s.time.minuteTicks + 1 → t.time.minute = s.time.minute + 1 ∧ t.time.minuteTicks = 0) ∧
      let counted : State := { s with time := { s.time with
        ms := s.time.ms + 1, minuteTicks := s.time.minuteTicks + 1 } }
      let contacts := fun (b : Bay) (s : State) =>
        sampleContact b .doorClosed (sampleContact b .boltIn (sampleContact b .boltOut s))
      let filtered := startMachines (eachBay contacts (sampleShed (eachBay samplePresence (tickMinute counted))))
      let charged := eachBay tickClean (eachBay tickBackoff
        (tickWait (roundCompletes (tickReading (settleIfDue filtered)))))
      let latched := eachBay tickCloseSettle (eachBay tickWindow (eachBay tickPause (eachBay tickTravel charged)))
      t = tickGap (tickWatchdog (eachLane tickSession (eachLane tickLineCheck latched))))) ∧
  (∀ (b : Bay) (c : Contact) (s : State), s.held = none →
    let bay := s.bay b
    let run := fun n : Nat => s.setBay b (if bay.presence then { bay with absenceRun := n } else { bay with attachRun := n })
    let n := if bay.presence then bay.absenceRun + 1 else bay.attachRun + 1
    let limit := if bay.presence then 50 else 500
    (s.pins.signature[b] = bay.presence → samplePresence b s = run 0) ∧
    (s.pins.signature[b] ≠ bay.presence →
      (n < limit → samplePresence b s = run n) ∧
      (limit ≤ n → exec (if bay.presence then .detach b else .attach b) s = .next (samplePresence b s))) ∧
    (s.pins.shedLine = s.budget.shed → sampleShed s = { s with budget := { s.budget with shedRun := 0 } }) ∧
    (s.pins.shedLine ≠ s.budget.shed →
      (s.budget.shedRun + 1 < 20 →
        sampleShed s = { s with budget := { s.budget with shedRun := s.budget.shedRun + 1 } }) ∧
      (20 ≤ s.budget.shedRun + 1 → exec (.shedChange s.pins.shedLine) s = .next (sampleShed s))) ∧
    let f := (s.latch b).filter c
    let level := s.pins.contacts[b].get c
    let put := fun g : Filter => s.setLatch b ((s.latch b).setFilter c g)
    let noise := s.latchUnit.settings.noise
    let same := if f.seen = some level then f.run + 1 else 1
    (f.level = some level → sampleContact b c s = put ⟨some level, 0, some level⟩) ∧
    (f.level = some (!level) →
      (f.run + 1 < noise → sampleContact b c s = put ⟨f.level, f.run + 1, some level⟩) ∧
      (noise ≤ f.run + 1 → (s.latch b).state ≠ none →
        exec (.contactEvent b c level) s = .next (sampleContact b c s)) ∧
      (noise ≤ f.run + 1 → (s.latch b).state = none →
        sampleContact b c s = finish (put ⟨some level, 0, some level⟩))) ∧
    (f.level = none →
      (same < noise → sampleContact b c s = put ⟨none, same, some level⟩) ∧
      (noise ≤ same → sampleContact b c s = finish (put ⟨some level, 0, some level⟩))) ∧
    ((∀ b', readyToStart (s.latch b') = false) → startMachines s = s) ∧
    ∀ out inn shut : Bool, s.pins.contacts[b] = ⟨out, inn, shut⟩ →
      s.latch b = { s.latch b with
        boltOut := ⟨some out, 0, some out⟩, boltIn := ⟨some inn, 0, some inn⟩, door := ⟨some shut, 0, some shut⟩
        state := none } →
      (∀ b', b' ≠ b → readyToStart (s.latch b') = false) →
      exec (.latchMachineStart b out inn shut) s = .next (startMachines s)) ∧
  ∀ (b : Bay) (l : Lane) (s : State), s.held = none →
    let now := s.time.ms
    let due := fun t : Timer => ∃ expiry, t = some expiry ∧ expiry ≤ now
    let falls := fun (t : State) (when_ : Prop) (i : Instr) => (when_ → exec i s = .next t) ∧ (¬ when_ → t = s)
    falls (tickMinute s) (60000 ≤ s.time.minuteTicks) .minuteAdvance ∧
    falls (settleIfDue s) (due s.alloc.settleTimer) .settleExpiry ∧
    falls (tickReading s) (∃ r, s.scan.round = some r ∧ r.deadline ≤ now) .readingDeadline ∧
    falls (roundCompletes s) (∃ r, s.scan.round = some r ∧ r.awaiting = none) .roundComplete ∧
    falls (tickWait s) (due s.scan.wait) .periodExpiry ∧
    falls (tickBackoff b s) (∃ expiry, (s.bay b).backoff = .running expiry ∧ expiry ≤ now) (.backoffExpiry b) ∧
    falls (tickClean b s) (due (s.bay b).cleanTimer) (.cleanChargeExpiry b) ∧
    falls (tickTravel b s) (due (s.latch b).travel) (.travelTimeout b) ∧
    falls (tickPause b s) (due (s.latch b).pause) (.retryPauseExpiry b) ∧
    falls (tickWindow b s) (due (s.latch b).window) (.windowExpiry b) ∧
    falls (tickCloseSettle b s) (due (s.latch b).settle) (.closeSettleExpiry b) ∧
    falls (tickLineCheck l s)
      (∃ e number started, (s.lane l).state = .qualifying e (.lineCheck number started) ∧ started + 20 ≤ now)
      (.lineCheckDeadline l) ∧
    falls (tickSession l s) (∃ e expiry, (s.lane l).state = .active e expiry ∧ expiry ≤ now) (.sessionExpiry l) ∧
    falls (tickWatchdog s) (due s.link.watchdog) .watchdogExpiry ∧
    falls (tickGap s) (∃ bytes last, s.link.rx = .inside bytes last ∧ 20 < now - last) .interbyteGapTimeout

/-- No command stops the part (entry 31), and none touches the commands that wait. While the part is held in reset (R190;
entry 21) no command but a full reset and the end of the reset reaches it. -/
def Obligations.EveryCommandGoesOn : Prop :=
  ∀ (c : Instr) (s : State),
    (∃ t, exec c s = .next t ∧ t.pending = s.pending) ∧
    (s.held ≠ none → c ≠ .resetEnd → (∀ cause, c ≠ .fullReset cause) → exec c s = .next s)

/-! ### Frames -/

/-- R172, R176: every well-formed request is carried by a frame of at most 240 payload bytes, from which the Link Port
reads that request with every field. -/
def Obligations.RequestFramesReadBack : Prop :=
  ∀ (i : Instr) (f : Frame), i.wellFormed = true → encodeRequest i = some f →
    decodeRequest f = .request i ∧ f.payload.length ≤ 240

/-- R172, R173: the bytes of a frame are SYNC, LEN, KIND, TAG, the payload and the two CRC bytes; the receiver reads the
frame back from the bytes after SYNC, and from no other CRC. R173: the check starts at 0xFFFF and takes each byte most
significant bit first with the polynomial x^16 + x^12 + x^5 + 1, its 16 bits being sent as they stand. -/
def Obligations.FrameBytesReadBack : Prop :=
  (∀ (bytes : List Byte) (v : Byte),
    let shift := fun (crc : Word16) (bit : Bool) => if crc.msb ≠ bit then (crc <<< 1) ^^^ 0x1021 else crc <<< 1
    crc16 [] = 0xFFFF ∧
    crc16 (bytes ++ [v]) = (List.range 8).foldl (fun crc i => shift crc (v.getMsbD i)) (crc16 bytes)) ∧
  ∀ f : Frame, f.payload.length ≤ 240 →
    f.wire = 0xA5 :: BitVec.ofNat 8 f.payload.length :: f.kind :: f.tag :: (f.payload ++ bytes16 (crc16 f.checked)) ∧
    parseFrame f.wire.tail = some f ∧
    ∀ c : Word16, c ≠ crc16 f.checked → parseFrame (f.checked ++ bytes16 c) = none

/-- R176: a kind that is not in the request kind table is UNKNOWN_KIND, which is answered with that result alone, in a frame
of kind + 0x80 for a kind below 0x80 and of kind 0xFF otherwise, and changes nothing else; a listed kind with another length
than the table's is MALFORMED, and with its own length it is not. R17, R145, R167, R191: an action of BAY-ENABLE or
LANE-SERVICE, or a value of LOCKDOWN or RESTART, above 1 picks no request and is out of range, which is refused with RANGE
where the frame is taken. -/
def Obligations.KindAndLengthAreChecked : Prop :=
  (∀ f : Frame,
    (kindListed f.kind = false → decodeRequest f = .request (.unknownKind f.tag f.kind)) ∧
    (∀ n, (f.kind, some n) ∈ requestKinds → f.payload.length ≠ n → decodeRequest f = .malformed) ∧
    (∀ n, (f.kind, some n) ∈ requestKinds → f.payload.length = n → decodeRequest f ≠ .malformed) ∧
    (f.kind = 0x44 → f.payload = [] → decodeRequest f = .malformed) ∧
    ∀ v : Byte, 1 < v.toNat →
      (f.kind = 0x14 ∨ f.kind = 0x43 → ∀ x : Byte, f.payload = [x, v] → decodeRequest f = .outOfRange) ∧
      (f.kind = 0x22 ∨ f.kind = 0x53 → f.payload = [v] → decodeRequest f = .outOfRange)) ∧
  ∀ (tag kind : Byte) (s : State), CanTake s →
    exec (.unknownKind tag kind) s =
      .next (s.answer (if kind.toNat < 0x80 then kind + 0x80 else 0xFF) tag [0x12])

/-- R173, R175: a request's frame that arrives byte by byte at an idle port has the effect of the request, after an armed
watchdog has been reloaded (R180). -/
def Obligations.RequestBytesHaveTheRequestsEffect : Prop :=
  ∀ (i : Instr) (f : Frame) (s : State), i.wellFormed = true → encodeRequest i = some f →
    s.held = none → s.link.rx = .hunting → s.link.sending = none → s.link.buffer = [] →
    runCommands (f.wire.map fun v => .byteReceived v true) s =
      exec i (if s.link.armed then
        { s with link := { s.link with watchdog := some (s.time.ms + s.link.period * 1000) } } else s)

/-- R173, R174: what one byte, a gap of more than 20 ms, or a frame's end with a wrong check does to the receiver. That a
gap while hunting does nothing is the model's choice (entry 4), and so is that a bad stop bit while hunting sets no flag
(entry 25). -/
def Obligations.ReceiverTakesBytes : Prop :=
  ∀ (v : Byte) (good : Bool) (s : State), s.held = none →
    (s.link.rx = .hunting →
      exec (.byteReceived v good) s =
          .next (if good = true ∧ v = 0xA5 then { s with link := { s.link with rx := .inside [] s.time.ms } } else s) ∧
        exec .interbyteGapTimeout s = .next s) ∧
    ∀ (bytes : List Byte) (last : Nat), s.link.rx = .inside bytes last →
      exec .interbyteGapTimeout s = .next { s with link := { s.link with rx := .hunting, frameError := true } } ∧
      (20 < s.time.ms - last →
        exec (.byteReceived v good) s =
          .next { s with link := { s.link with
            frameError := true
            rx := if good = true ∧ v = 0xA5 then .inside [] s.time.ms else .hunting } }) ∧
      (s.time.ms - last ≤ 20 →
        (good = false →
          exec (.byteReceived v good) s = .next { s with link := { s.link with rx := .hunting, frameError := true } }) ∧
        (good = true → bytes = [] →
          exec (.byteReceived v good) s =
            .next { s with link :=
              if 240 < v.toNat then { s.link with rx := .hunting, frameError := true }
              else { s.link with rx := .inside [v] s.time.ms } }) ∧
        (∀ (len : Byte) (more : List Byte), good = true → bytes = len :: more →
          (more.length + 2 < len.toNat + 5 →
            exec (.byteReceived v good) s =
              .next { s with link := { s.link with rx := .inside (bytes ++ [v]) s.time.ms } }) ∧
          (more.length + 2 = len.toNat + 5 → parseFrame (bytes ++ [v]) = none →
            exec (.byteReceived v good) s =
                .next { s with link := { s.link with rx := .hunting, frameError := true } } ∧
              exec (.frameReceived v) s =
                .next { s with link := { s.link with rx := .hunting, frameError := true } })))

/-- R173, R175, R180: the last byte of a valid frame returns the receiver to hunting and reloads an armed watchdog. While
an answer is being sent the frame joins the buffer, or is lost to overrun when the buffer holds two; at an idle port its
request is taken. -/
def Obligations.ValidFrameIsBufferedOrTaken : Prop :=
  ∀ (v len : Byte) (more : List Byte) (last : Nat) (f : Frame) (s : State), s.held = none →
    s.link.rx = .inside (len :: more) last → s.time.ms - last ≤ 20 → more.length + 2 = len.toNat + 5 →
    parseFrame (len :: more ++ [v]) = some f →
    let l := { s.link with
      rx := .hunting
      watchdog := if s.link.armed then some (s.time.ms + s.link.period * 1000) else s.link.watchdog }
    (∀ a, s.link.sending = some a →
      exec (.frameReceived v) s =
        .next { s with link :=
          if s.link.buffer.length < 2 then { l with buffer := s.link.buffer ++ [f] } else { l with overrun := true } }) ∧
    (∀ i, s.link.sending = none → s.link.buffer = [] → decodeRequest f = .request i →
      exec (.frameReceived v) s = exec i { s with link := l }) ∧
    (s.link.sending = none → s.link.buffer = [] → decodeRequest f = .malformed →
      exec (.frameReceived v) s = .next (State.answer { s with link := l } (f.kind + 0x80) f.tag [0x13])) ∧
    (s.link.sending = none → s.link.buffer = [] → decodeRequest f = .outOfRange →
      exec (.frameReceived v) s = .next (State.answer { s with link := l } (f.kind + 0x80) f.tag [0x10, 1]))

/-- R175, as the model gives request rows (entry 1): a request that comes while an answer is being sent waits in the
buffer as its frame, or is lost to overrun when the buffer holds two; nothing else changes. -/
def Obligations.RequestWaitsBehindAnAnswer : Prop :=
  ∀ (i : Instr) (f : Frame) (a : Sending) (s : State), encodeRequest i = some f → s.held = none →
    s.link.sending = some a →
    exec i s = .next { s with link :=
      if s.link.buffer.length < 2 then { s.link with buffer := s.link.buffer ++ [f] }
      else { s.link with overrun := true } }

/-- R175, R184, R191: when the last byte of the answer has been sent, the link rate set takes effect and the oldest
buffered frame is taken, with the effect of its request; after a RESTART(FULL) answer a full reset comes instead. That the
event does nothing while no answer is being sent is the model's choice (entry 4). -/
def Obligations.AnswerEndTakesTheNextFrame : Prop :=
  ∀ s : State, s.held = none →
    (s.link.sending = none → exec .answerSent s = .next s) ∧
    ∀ a, s.link.sending = some a →
      (a.thenReset = true → exec .answerSent s = exec (.fullReset .restartFull) s) ∧
      (a.thenReset = false →
        (s.link.buffer = [] →
          exec .answerSent s = .next { s with link := { s.link with sending := none, lineRate := s.link.rate } }) ∧
        ∀ f rest, s.link.buffer = f :: rest →
          let s' := { s with link := { s.link with sending := none, lineRate := s.link.rate, buffer := rest } }
          (∀ i, decodeRequest f = .request i → exec .answerSent s = exec i s') ∧
          (decodeRequest f = .malformed → exec .answerSent s = .next (s'.answer (f.kind + 0x80) f.tag [0x13])) ∧
          (decodeRequest f = .outOfRange → exec .answerSent s = .next (s'.answer (f.kind + 0x80) f.tag [0x10, 1])))

/-! ### STATUS, NOTICES and the notice queue -/

/-- R179, R185: STATUS is answered DONE with the state as it stands, then the frame-error and overrun flags are cleared,
and nothing else changes. R178, R185: NOTICES takes the oldest notices out of the queue, up to 16, and answers with the
overflow flag, which it clears, their number, the number left, and their records of 8 bytes. That the byte of the armed
watchdog is 1 for armed and 0 for not is the model's choice (entry 44). -/
def Obligations.StatusAndNoticesReport : Prop :=
  (∀ (tag : Byte) (s : State), CanTake s →
    exec (.status tag) s =
      .next (State.answer { s with link := { s.link with frameError := false, overrun := false } } 0x81 tag
        (([0x00, if s.link.mode = .autonomous then 1 else 0, if s.link.lockdown then 1 else 0,
            if s.link.armed then 1 else 0] : List Byte) ++
          num16 (match s.link.watchdog with | none => 0 | some expiry => expiry - s.time.ms) ++
          bytes16 s.time.minute ++ num16 s.budget.computed ++ num16 (s.budget.lastPass.getD 0) ++
          num16 s.budget.derate ++ [match s.budget.h with | none => 255 | some h => byte (h + 40).toNat] ++
          num16 s.alloc.remainder ++ [statusFlags s, byte s.link.notices.length])) ∧
    (statusFlags s).getLsbD 0 = s.budget.zonesInvalid ∧ (statusFlags s).getLsbD 1 = s.store.corrected ∧
    (statusFlags s).getLsbD 2 = s.store.fault ∧ (statusFlags s).getLsbD 3 = s.budget.shed ∧
    (statusFlags s).getLsbD 4 = s.link.frameError ∧ (statusFlags s).getLsbD 5 = s.link.overrun ∧
    (statusFlags s).getLsbD 6 = s.link.overflow ∧ (statusFlags s).getLsbD 7 = s.store.save.isSome) ∧
  ∀ (tag : Byte) (s : State), CanTake s →
    exec (.notices tag) s =
      .next (State.answer
        { s with link := { s.link with overflow := false, notices := s.link.notices.drop 16 } } 0x82 tag
        (([0x00, if s.link.overflow then 1 else 0, byte (min 16 s.link.notices.length),
            byte (s.link.notices.length - 16)] : List Byte) ++
          (s.link.notices.take 16).flatMap fun n =>
            [n.kind.code, n.subject, hiByte n.minute, loByte n.minute, n.d1, n.d2, n.d3, n.d4]))

/-- R177: a CHARGE_PHASE notice takes the place of the one of the same bay, a BUDGET notice that of the one in the queue;
any other notice, and one with nothing to replace, joins at the tail, or is discarded with the overflow flag when the
queue holds 48. So the queue keeps to 48 notices, and to one CHARGE_PHASE notice per bay. ATTN is low just while the queue
holds a notice. -/
def Obligations.NoticeReplacesJoinsOrIsDiscarded : Prop :=
  (∀ (n : Notice) (l : LinkPort),
    let same := fun old : Notice =>
      (n.kind = .budget ∧ old.kind = .budget) ∨
        (n.kind = .chargePhase ∧ old.kind = .chargePhase ∧ old.subject = n.subject)
    (∀ older newer old, l.notices = older ++ old :: newer → same old → (∀ o ∈ older, ¬ same o) →
      l.queued n = { l with notices := older ++ n :: newer }) ∧
    ((∀ o ∈ l.notices, ¬ same o) →
      (l.notices.length < 48 → l.queued n = { l with notices := l.notices ++ [n] }) ∧
      (48 ≤ l.notices.length → l.queued n = { l with overflow := true }))) ∧
  ∀ (n : Notice) (s : State), (NoticeLaw s → NoticeLaw (s.notices [n])) ∧ (s.attnLow = true ↔ s.link.notices ≠ [])

/-! ### The watchdog and AUTONOMOUS mode -/

/-- R180, R184: WATCHDOG-ARM clamps the period to 1..60 s, sets the armed flag and starts the count afresh with the new
period. LINK-SET refuses a code other than 0 or 1 with RANGE; otherwise the rate set waits for the end of the answer,
which is sent at the rate in force. R102, R169: SUPERVISION-SET and PROV-SET clamp their values, take them together,
answer with the values taken, CLAMPED when one was changed and DONE otherwise, and change nothing else. The sizes of the
answers' fields, the period of WATCHDOG-ARM, the code of LINK-SET and the values of PROV-SET among them, are the model's
choice (entry 16). -/
def Obligations.PlainSettingsRequestsAreTaken : Prop :=
  (∀ (tag : Byte) (s : State), CanTake s →
    (∀ period : Byte,
      let p := max 1 (min 60 period.toNat)
      exec (.watchdogArm tag period) s =
        .next (State.answer
          { s with link := { s.link with armed := true, period := p, watchdog := some (s.time.ms + p * 1000) } } 0xD0
          tag [if p = period.toNat then 0x00 else 0x02, byte p])) ∧
    ∀ code : Byte,
      exec (.linkSet tag code) s =
        .next (if code.toNat ≤ 1 then
          State.answer { s with link := { s.link with rate := code.toNat } } 0xD4 tag [0x00, code]
        else s.answer 0xD4 tag [0x10, 1])) ∧
  ∀ (tag : Byte) (s : State), CanTake s →
    (∀ retryLimit backoff tolerance hotLimit : Word16,
      let c : SupervSettings :=
        { retryLimit := min 7 retryLimit.toNat, backoff := max 5 (min 600 backoff.toNat)
          tolerance := min 40 tolerance.toNat, hotLimit := max 40 (min 85 hotLimit.toNat) }
      let same := c.retryLimit = retryLimit.toNat ∧ c.backoff = backoff.toNat ∧ c.tolerance = tolerance.toNat ∧
        c.hotLimit = hotLimit.toNat
      exec (.supervisionSet tag retryLimit backoff tolerance hotLimit) s =
        .next (State.answer { s with superv := c } 0x96 tag
          ((if same then 0x00 else 0x02) :: (num16 c.retryLimit ++ num16 c.backoff ++ num16 c.tolerance ++
            num16 c.hotLimit)))) ∧
    ∀ threshold sessionLimit : Word16,
      let c : ProvSettings :=
        { threshold := min 255 threshold.toNat, sessionLimit := max 1 (min 255 sessionLimit.toNat) }
      exec (.provSet tag threshold sessionLimit) s =
        .next (State.answer { s with prov := { s.prov with settings := c } } 0xC5 tag
          ((if c.threshold = threshold.toNat ∧ c.sessionLimit = sessionLimit.toNat then 0x00 else 0x02) ::
            (num16 c.threshold ++ num16 c.sessionLimit)))

/-- R180, R181, R122, R132, R162, R166, R47, R44: the expiry of the watchdog count. In AUTONOMOUS mode, or with no count
running, nothing but the count stops. In NORMAL mode the part enters AUTONOMOUS mode: AUTONOMOUS_ENTERED is queued. Each
lane that holds a bay, in ascending number, lets it go: PROV_ABORTED with reason 9 is queued, and the entry joins the
queue at its tail, its attempts unchanged. Every latch in RETRACTING turns to EXTENDING with its retry unused. No RETRACT
waits, and the purpose of a LOCKED latch whose RETRACT waited lapses, bay by bay, with its notice. Every running release
window of a RELEASED latch ends, and an EXTEND is queued for it, bay by bay. An arbitration step runs, and then the budget
is recomputed with the stored inlet limit and brings the pass that B asks for. Nothing outside the latches, the custody
records, the lanes and the passes changes. That the event does nothing while no count runs is the model's choice (entry
4). That a RETRACTING latch turns to EXTENDING though its BOLT_OUT is still asserted is read from R122 (entry 20). The 0
in the open data bytes of AUTONOMOUS_ENTERED is the model's choice (entry 43). -/
def Obligations.WatchdogExpiryEntersAutonomous : Prop :=
  ∀ s : State, s.held = none →
    (s.link.watchdog = none → exec .watchdogExpiry s = .next s) ∧
    (s.link.watchdog ≠ none → s.link.mode = .autonomous →
      exec .watchdogExpiry s = .next { s with link := { s.link with watchdog := none } }) ∧
    (s.link.watchdog ≠ none → s.link.mode = .normal → ∃ t, exec .watchdogExpiry s = .next t ∧
      OnlyLatchesPass
        (State.notices { s with link := { s.link with watchdog := none, mode := .autonomous } }
          [⟨.autonomousEntered, 0, s.time.minute, byte s.link.period, 0, 0, 0⟩]) t ∧
      AutonomousLaw t ∧
      (∀ b, (s.latch b).state = some .retracting → (∀ m ∈ s.latchUnit.queue, m.1 ≠ b) →
        t.latch b = { s.latch b with
          state := some .extending, retryUsed := false, pause := none, window := none, settle := none
          travel := some (s.time.ms + s.latchUnit.settings.travel) }) ∧
      (∀ b, (s.latch b).state = some .locked → (b, Motion.retract) ∈ s.latchUnit.queue → (t.cust b).purpose = none) ∧
      (∀ b, (t.latch b).state = some .released → (t.latch b).window = none) ∧
      t.budget.computed = budgetNow t ∧
      let at_ (k : NoticeKind) (subject d1 d2 d3 d4 : Byte) : Notice := ⟨k, subject, s.time.minute, d1, d2, d3, d4⟩
      let aborted := allLanes.filterMap fun l => (s.lane l).state.held.map fun e =>
        at_ .provAborted (bayNumber e.bay) 9 (laneNumber l) (hiByte e.jobTag) (loByte e.jobTag)
      let lapses := fun b => (s.latch b).state = some .locked ∧ (b, Motion.retract) ∈ s.latchUnit.queue
      let ends := fun b => (s.latch b).state = some .released ∧ (s.latch b).window ≠ none
      let entered : State :=
        { s with
          link := { s.link with watchdog := none, mode := .autonomous }
          lanes := Vector.ofFn fun l =>
            if (s.lane l).state.held = none then s.lane l else { s.lane l with state := .free }
          prov := { s.prov with queue := s.prov.queue ++ (heldEntries s).map fun e => { e with hold := 0 } }
          latches := Vector.ofFn fun b =>
            if (s.latch b).state = some .retracting then
              (s.latch b).drivenOut s.time.ms s.latchUnit.settings.travel
            else if ends b then { s.latch b with window := none } else s.latch b
          latchUnit := { s.latchUnit with
            queue := (s.latchUnit.queue.filter fun m => m.2 ≠ .retract) ++
              (allBays.filter ends).map fun b => (b, Motion.extend) }
          custody := Vector.ofFn fun b => if lapses b then (s.cust b).relocked (s.bay b).presence else s.cust b }
      Recomputed
        (arbitrate (entered.notices (at_ .autonomousEntered 0 (byte s.link.period) 0 0 0 :: (aborted ++
          allBays.flatMap fun b => if lapses b then lapsed b s.time.minute 0 (s.cust b).purpose else [])))) t)

/-- R182, R44, R47, R166: RESUME is answered DONE with mode 0, a byte whose size is the model's (entry 16). In NORMAL mode
nothing changes. In AUTONOMOUS mode the mode becomes NORMAL, the budget is recomputed with the working inlet limit, an
assignment run follows, and then the pass that the new budget or a tier asks for (one for both, entry 30); no latch changes.
Once the budget is established a B below the budget of the last pass, or above it by at least the hysteresis, brings that
pass. -/
def Obligations.ResumeReturnsToNormal : Prop :=
  ∀ (tag : Byte) (s : State), CanTake s →
    (s.link.mode = .normal → exec (.resume tag) s = .next (s.answer 0xD1 tag [0x00, 0])) ∧
    (s.link.mode = .autonomous →
      let b := budgetNow { s with link := { s.link with mode := .normal } }
      let asks := NewBudgetAsks s b
      let u : State := { s with
        link := { s.link with mode := .normal }
        budget := { s.budget with derate := derateNow s, computed := b } }
      ∃ t, exec (.resume tag) s = .next t ∧ OnlyPass ((assignmentRun u).answer 0xD1 tag [0x00, 0]) t ∧
        (s.budget.established = true → asks → t.budget.lastPass = some b) ∧
        (s.alloc.passAsked = false → s.budget.established = false ∨ ¬ asks →
          t = finish ((assignmentRun u).answer 0xD1 tag [0x00, 0])) ∧
        (s.budget.established = true → asks → t = finish (State.answer
          { assignmentRun u with alloc := { (assignmentRun u).alloc with passAsked := true } } 0xD1 tag [0x00, 0])))

/-! ### Rounds, samples and the snapshot -/

/-- R14, R15, R22, R23: the sample that the round in flight awaits is written, with its time in ms, into the working round,
and into the latest-reading table, its connector temperature in a thermal round only; the bay's energy accumulator takes
it; the next reading is asked for with a deadline of 20 ms. Nothing changes but these, the sampled bay's records, and what
passes change. R78: a sample that is not counted, the bay being outside CHARGING, the draw invalid or an increase pending,
leaves the five round counters as they are, unless the bay leaves CHARGING, which sets them to 0. -/
def Obligations.SampleIsRecordedAndCounted : Prop :=
  ∀ (b : Bay) (draw temperature : Byte) (r : Round) (s : State), s.held = none → s.scan.round = some r →
    r.awaiting = some (.bay b) →
    let bay := s.bay b
    let elapsed := match bay.prevSample with | none => 0 | some before => min 2000 (s.time.ms - before)
    let sum := bay.residue + draw.toNat * elapsed
    let counts := bay.state = .charging ∧ draw ≠ 255
    ∃ t, exec (.sample b draw temperature) s = .next t ∧
      t = PassFields
        { s with scan := { s.scan with
            round := some { r with
              awaiting := if b ≠ 31 then some (.bay (b + 1)) else if r.thermal then some (.zone 0) else none
              deadline := s.time.ms + 20 }
            working := {
              times := s.scan.working.times.set b (some s.time.ms)
              zones := s.scan.working.zones
              draws := s.scan.working.draws.set b (some draw)
              temps := if r.thermal then s.scan.working.temps.set b (some temperature) else s.scan.working.temps }
            latestDraw := s.scan.latestDraw.set b draw
            latestTemp := if r.thermal then s.scan.latestTemp.set b temperature else s.scan.latestTemp } } t ∧
      OthersKept b s t ∧ (t.bay b).presence = bay.presence ∧ (t.bay b).dataLine = bay.dataLine ∧
      (t.chg b).profile = (s.chg b).profile ∧ (t.bay b).prevSample = some s.time.ms ∧
      (t.bay b).energy = (if counts then min 4294967295 (bay.energy + sum / 1000) else bay.energy) ∧
      (t.bay b).residue = (if counts then sum % 1000 else bay.residue) ∧
      (¬ counts ∨ (s.chg b).pendingInc ≠ none →
        roundCounts (t.chg b) = roundCounts (s.chg b) ∨
          (roundCounts (t.chg b) = [0, 0, 0, 0, 0] ∧ LeftCharging s.time.ms (t.bay b)))

/-- R92, R93, R94, R96: the fault checks of a sample, SENSE before OVERDRAW before HOT, and the fault that the first one
finds: HOLD while retries are left and LATCHED otherwise, with the applied grant at 0, the backoff started in HOLD, and
a BAY_FAULT notice before any other. With no fault found the bay keeps its last fault and retries, its invalid-draw
run is as the sample leaves it, or 0 where a pass then defers the bay, and the grant of this sample becomes the grant at
previous sample. R97: a thermal sample of a bay in the cool-down wait that meets the
cool-down condition ends HOLD, with a retry spent and a probe started; any other sample leaves a bay in HOLD as it is.
The number that the probe takes is the model's choice (entry 27). -/
def Obligations.SampleFaultChecks : Prop :=
  ∀ (b : Bay) (draw temperature : Byte) (r : Round) (s : State), s.held = none → s.scan.round = some r →
    r.awaiting = some (.bay b) →
    let bay := s.bay b
    let run := if bay.state = .charging ∧ draw = 255 then bay.invalidRun + 1 else 0
    let found : Option (FaultKind × Byte) :=
      if 3 ≤ run then some (.sense, 255)
      else if (bay.state = .charging ∨ bay.state = .waiting) ∧ draw ≠ 255 ∧
          max bay.grant bay.prevGrant + s.superv.tolerance < draw.toNat then some (.overdraw, draw)
      else if r.thermal = true ∧ (bay.state = .charging ∨ bay.state = .waiting ∨ bay.state = .qualifying) ∧
          temperature ≠ 255 ∧ 2 * (s.superv.hotLimit + 20) ≤ temperature.toNat then some (.hot, temperature)
      else none
    ∃ t, exec (.sample b draw temperature) s = .next t ∧
      (∀ kind detail, found = some (kind, detail) →
        let new := if bay.retries < s.superv.retryLimit then BayState.hold else .latched
        (t.bay b).state = new ∧ (t.bay b).lastFault = some kind ∧ (t.bay b).retries = bay.retries ∧
        (t.bay b).grant = 0 ∧ (t.bay b).probe = none ∧ (t.bay b).invalidRun = 0 ∧ (t.bay b).prevGrant = 0 ∧
        (t.bay b).backoff =
          (if new = .hold then .running (s.time.ms + s.superv.backoff * 1000) else .stopped) ∧
        ∃ ns, t.link = s.link.queueAll
          (⟨.bayFault, bayNumber b, s.time.minute, faultCode (some kind), new.code, byte bay.retries, detail⟩ ::
            ns)) ∧
      (found = none → bay.state ≠ .hold →
        (t.bay b).lastFault = bay.lastFault ∧ (t.bay b).retries = bay.retries ∧
        ((t.bay b).invalidRun = run ∨ ((t.bay b).invalidRun = 0 ∧ LeftCharging s.time.ms (t.bay b))) ∧
        (t.bay b).prevGrant = bay.grant ∧ (t.bay b).state.eligible = bay.state.eligible ∧
        (bay.state.eligible = false → (t.bay b).state = bay.state)) ∧
      (bay.state = .hold →
        let cool := bay.lastFault ≠ some .hot ∨
          (temperature ≠ 255 ∧ temperature.toNat < 2 * (s.superv.hotLimit - 5 + 20))
        let ends := r.thermal = true ∧ bay.backoff = .coolDown ∧ cool
        (t.bay b).lastFault = bay.lastFault ∧ (t.bay b).grant = (if ends then 0 else bay.grant) ∧
        (t.bay b).state = (if ends then .qualifying else .hold) ∧
        (t.bay b).retries = (if ends then bay.retries + 1 else bay.retries) ∧
        (t.bay b).backoff = (if ends then .stopped else bay.backoff) ∧
        (t.bay b).probe = (if ends then some ⟨bay.probes, s.time.ms⟩ else bay.probe) ∧
        (t.bay b).probes = if ends then bay.probes + 1 else bay.probes)

/-- R78, R79, R80, R81, R83, R84, R85, R87: what a counted sample in which no fault is found does to the phase, the
dynamic ceiling and the five round counters of its bay. A sample that meets a counter's condition adds 1 to it, one that
fails it sets it to 0, and a constrained one below the taper or full threshold leaves it; a counter that acts returns to
0, a reclaim sets press to 0, and a phase change sets all five to 0, as leaving CHARGING in a pass does (R86). That a
taper or full count at or above a lowered setting does not act at a constrained sample is the model's reading (entry
14). A phase change queues CHARGE_PHASE before any other notice, and a phase change or a change of the ceiling brings a
pass. -/
def Obligations.CountedSampleMovesPhaseAndCeiling : Prop :=
  ∀ (b : Bay) (draw temperature : Byte) (r : Round) (s : State), s.held = none → s.scan.round = some r →
    r.awaiting = some (.bay b) → (s.bay b).state = .charging → draw ≠ 255 → (s.chg b).pendingInc = none →
    draw.toNat ≤ max (s.bay b).grant (s.bay b).prevGrant + s.superv.tolerance →
    (r.thermal = true → temperature = 255 ∨ temperature.toNat < 2 * (s.superv.hotLimit + 20)) →
    let c := s.chg b
    let p := s.profile b
    let g := s.alloc.settings
    let d := draw.toNat
    let free := d + g.reclaimMargin ≤ (s.bay b).grant
    let toTaper := c.phase = .bulk ∧ d < p.taper ∧ free ∧ g.taperCount ≤ c.taperN + 1
    let toFull := c.phase = .taper ∧ d < p.full ∧ free ∧ g.fullCount ≤ c.fullN + 1
    let wakes := c.phase = .full ∧ p.maintenance ≤ d + g.pressMargin ∧ g.wakeCount ≤ c.wakeN + 1
    let reclaims := d + g.reclaimMargin < c.target ∧ g.reclaimCount ≤ c.reclaim + 1
    let presses := c.target ≤ d + g.pressMargin ∧ c.dynCeiling < p.ceiling ∧ g.reclaimCount ≤ c.press + 1
    let floor := min p.ceiling (if c.tier = .lane then max p.floor g.provFloor else p.floor)
    let phase := if toTaper then Phase.taper else if toFull then .full else if wakes then .taper else c.phase
    let ceiling :=
      if toTaper ∨ toFull then c.dynCeiling
      else if c.phase = .full then (if wakes then p.ceiling else c.dynCeiling)
      else if reclaims then max 1 (min p.ceiling (max floor (d + g.reclaimMargin)))
      else if presses then min p.ceiling (c.dynCeiling + g.pressStep)
      else c.dynCeiling
    let run := fun (count limit : Nat) => if d < limit then (if free then count + 1 else count) else 0
    let counted : List Nat :=
      if phase ≠ c.phase then [0, 0, 0, 0, 0]
      else if c.phase = .full then
        [c.reclaim, c.press, c.taperN, c.fullN, if p.maintenance ≤ d + g.pressMargin then c.wakeN + 1 else 0]
      else
        [if reclaims then 0 else if d + g.reclaimMargin < c.target then c.reclaim + 1 else 0,
          if reclaims ∨ presses then 0
          else if c.target ≤ d + g.pressMargin ∧ c.dynCeiling < p.ceiling then c.press + 1 else 0,
          if c.phase = .bulk then run c.taperN p.taper else c.taperN,
          if c.phase = .taper then run c.fullN p.full else c.fullN, c.wakeN]
    ∃ t, exec (.sample b draw temperature) s = .next t ∧ (t.chg b).phase = phase ∧ (t.chg b).dynCeiling = ceiling ∧
      (roundCounts (t.chg b) = counted ∨
        (roundCounts (t.chg b) = [0, 0, 0, 0, 0] ∧ LeftCharging s.time.ms (t.bay b))) ∧
      (phase ≠ c.phase → ∃ ns,
        let e := word (min 65535 ((t.bay b).energy / 1440))
        t.link = s.link.queueAll
          (⟨.chargePhase, bayNumber b, s.time.minute, c.phase.code, phase.code, hiByte e, loByte e⟩ :: ns)) ∧
      (phase ≠ c.phase ∨ ceiling ≠ c.dynCeiling → s.budget.established = true →
        t.budget.lastPass = some s.budget.computed)

/-- R21, R22, R23: a zone reading that the round in flight awaits is written into the working round and the latest-reading
table, and the next one is asked for. A reading that misses its deadline is recorded as 255. By the
model's choice a reading deadline with no reading awaited changes nothing (entry 4), and a reading that is not the one
awaited is not taken (entry 32). -/
def Obligations.ZoneAndMissedReadingsAreRecorded : Prop :=
  ∀ s : State, s.held = none →
    (∀ (z : Zone) (value : Byte) (r : Round), s.scan.round = some r → r.awaiting = some (.zone z) →
      exec (.zoneReading z value) s = .next { s with scan := { s.scan with
        round := some { r with
          awaiting := if z ≠ 3 then some (.zone (z + 1)) else none
          deadline := s.time.ms + 20 }
        working := { s.scan.working with zones := s.scan.working.zones.set z (some value) }
        latestZone := s.scan.latestZone.set z value } }) ∧
    (∀ b, awaited s = some (.bay b) → exec .readingDeadline s = exec (.sample b 255 255) s) ∧
    (∀ z, awaited s = some (.zone z) → exec .readingDeadline s = exec (.zoneReading z 255) s) ∧
    (awaited s = none → exec .readingDeadline s = .next s) ∧
    (∀ b draw temperature, awaited s ≠ some (.bay b) → exec (.sample b draw temperature) s = .next s) ∧
    ∀ z value, awaited s ≠ some (.zone z) → exec (.zoneReading z value) s = .next s

/-- R24, R29, R39, R43: at its completion a round is numbered and published with the state of every bay as it stands, the
freshness becomes VALID and the round index advances, from 5 back to 0. A thermal round hands its zone readings to the
Budget Unit, and the first after a reset establishes the budget and brings a pass, as a later one does
whose B is below the budget of the last pass or above it by at least the hysteresis (R44); what passes keep of every bay is
kept; a marked round queues ROUND_DONE; then the next round or the period wait starts, as the mode and the period say. That
the completion is a step of its own, apart from the one that records the last reading, is the model's choice (entry 38).
-/
def Obligations.RoundCompletionPublishes : Prop :=
  ∀ (r : Round) (s : State), s.held = none → s.scan.round = some r → r.awaiting = none →
    let number := s.scan.number + 1
    let zones : Vector Byte 4 := Vector.ofFn fun z => s.scan.working.zones[z].getD 255
    let done : List Notice := if r.mark then
      [⟨.roundDone, 0, s.time.minute, hiByte number, loByte number, if r.thermal then 1 else 0,
        byte (allBays.countP fun b => s.scan.working.draws[b] = some 255)⟩] else []
    let scan : ScanEngine := { s.scan with
      number := number
      index := s.scan.index + 1
      fresh := .valid
      snapshot := some
        { number := number, minute := s.time.minute, thermal := r.thermal, zones := s.scan.latestZone
          budget := s.budget.lastPass.getD 0, remainder := s.alloc.remainder
          bays := Vector.ofFn fun b =>
            { state := (s.bay b).state, phase := (s.chg b).phase, presence := (s.bay b).presence
              draw := s.scan.working.draws[b].getD 255, grant := (s.bay b).grant, temp := s.scan.latestTemp[b]
              energy := min 65535 ((s.bay b).energy / 1440) } }
      round := none }
    ∃ t, exec .roundComplete s = .next t ∧
      t.scan = (match s.scan.mode with
        | .onRequest => scan
        | .continuous =>
          if s.scan.periodCode = 0 then
            { scan with
              round := some
                { thermal := s.scan.index + 1 = 0, mark := false, awaiting := some (.bay 0)
                  deadline := s.time.ms + 20 }
              working := Working.cleared }
          else { scan with wait := some (s.time.ms + periodMs s.scan.periodCode) }) ∧
      (r.thermal = false → OnlyPass (State.notices { s with scan := t.scan } done) t) ∧
      (r.thermal = true →
        t = PassFields
          { s with
            scan := t.scan
            budget := { s.budget with
              h := cabinet zones, zonesInvalid := (cabinet zones).isNone, established := true
              derate := t.budget.derate, computed := t.budget.computed } } t ∧
        t.budget.derate = derateNow t ∧ t.budget.computed = budgetNow t ∧
        (∀ b, BayKept (s.bay b) (t.bay b) ∧ ChargeKept (s.chg b) (t.chg b)) ∧
        (s.budget.established = false → t.budget.lastPass = some t.budget.computed) ∧
        (∀ last, s.budget.lastPass = some last →
          t.budget.computed < last ∨
            (last < t.budget.computed ∧ last + s.budget.settings.hysteresis ≤ t.budget.computed) →
          t.budget.lastPass = some t.budget.computed) ∧
        ∃ before after, t.link = s.link.queueAll (before ++ done ++ after))

/-- R21, R25, R27: MEASURE starts a round, or joins the one in flight, and answers the number it will publish; its
report mark is set in ON_REQUEST mode only. The expiry of the period wait starts a round with no mark. R28: SCAN-SET
refuses a mode other than 0 or 1 with RANGE and clamps a period code above 3. The settings are stored; a round in flight
runs on; with none, ON_REQUEST stops the period wait, CONTINUOUS out of ON_REQUEST starts a round, and a new period
moves the wait's expiry, or starts a round when that time has passed. That a period expiry does nothing while no wait
runs is the model's choice (entry 4), and so is that MEASURE joins a round whose last reading has been recorded and which
has not completed yet (entry 38). The sizes of the fields of the MEASURE and SCAN-SET answers are its choice too
(entry 16). -/
def Obligations.RoundsStartAsTheSettingsSay : Prop :=
  (∀ (tag : Byte) (s : State),
    let started := fun mark : Bool => { s.scan with
      round := some
        { thermal := s.scan.index = 0, mark := mark, awaiting := some (.bay 0), deadline := s.time.ms + 20 }
      working := Working.cleared }
    let n := bytes16 (s.scan.number + 1)
    (CanTake s →
      exec (.measure tag) s = .next (match s.scan.round, s.scan.mode with
        | none, .onRequest => State.answer { s with scan := started true } 0x85 tag (0x01 :: n)
        | none, .continuous => State.answer { s with scan := { started false with wait := none } } 0x85 tag (0x01 :: n)
        | some r, .onRequest =>
          State.answer { s with scan := { s.scan with round := some { r with mark := true } } } 0x85 tag (0x03 :: n)
        | some _, .continuous => s.answer 0x85 tag (0x03 :: n))) ∧
    (s.held = none →
      exec .periodExpiry s = .next (match s.scan.wait, s.scan.round with
        | some _, none => { s with scan := { started false with wait := none } }
        | _, _ => s))) ∧
  ∀ (tag mode period : Byte) (s : State), CanTake s →
    (1 < mode.toNat → exec (.scanSet tag mode period) s = .next (s.answer 0x86 tag [0x10, 1])) ∧
    (mode.toNat ≤ 1 →
      let code : Fin 4 := ⟨min 3 period.toNat, by omega⟩
      let m : ScanMode := if mode = 0 then .continuous else .onRequest
      let kept := { s.scan with mode := m, periodCode := code }
      let started := { kept with
        round := some
          { thermal := s.scan.index = 0, mark := false, awaiting := some (.bay 0), deadline := s.time.ms + 20 }
        working := Working.cleared, wait := none }
      let scan := match s.scan.round, m, s.scan.wait with
        | some _, _, _ => kept
        | none, .onRequest, _ => { kept with wait := none }
        | none, .continuous, none => started
        | none, .continuous, some expiry =>
          let moved := expiry - periodMs s.scan.periodCode + periodMs code
          if periodMs code = 0 ∨ moved ≤ s.time.ms then started else { kept with wait := some moved }
      exec (.scanSet tag mode period) s =
        .next (State.answer { s with scan := scan } 0x86 tag
          [if period.toNat ≤ 3 then 0x00 else 0x02, mode, byte code.val]))

/-- R30, R31, R185: SNAPSHOT is answered DONE with the freshness and the published snapshot as they stand, 207 payload
bytes in all; it makes VALID stale and changes nothing else. Before the first publication the readings are 255 and the
rest is 0. R18, R185: BAY-QUERY refuses a bay number outside 1..32 with RANGE; otherwise it is answered DONE with the
bay's record as it stands, 27 payload bytes in all, and changes nothing. The backoff is reported in whole seconds; the
manual does not say how it is rounded, and the model leaves that free (entry 9). The 0 in bit 6 of a bay record's first
byte is the model's choice (entry 43), and so are the byte values of presence and of the probe in flight, 1 for yes and 0
for no (entry 44). -/
def Obligations.SnapshotAndBayQueryReport : Prop :=
  (∀ (tag : Byte) (s : State), CanTake s →
    let head : List Byte := match s.scan.snapshot with
      | none => [0, 0, 0, 0, 0, 255, 255, 255, 255, 0, 0, 0, 0]
      | some p =>
        bytes16 p.number ++ bytes16 p.minute ++ [if p.thermal then 1 else 0] ++ p.zones.toList ++ num16 p.budget ++
          num16 p.remainder
    let body : List Byte := match s.scan.snapshot with
      | none => (List.replicate 32 [0, 255, 0, 255, 0, 0]).flatten
      | some p => p.bays.toList.flatMap fun b =>
          let marks : Byte := b.state.code ||| BitVec.shiftLeft b.phase.code 4
          (if b.presence then marks ||| 0x80 else marks) :: b.draw :: byte b.grant :: b.temp :: num16 b.energy
    (exec (.snapshot tag) s =
      .next (State.answer
        { s with scan := { s.scan with fresh := if s.scan.fresh = .never then .never else .stale } } 0x83 tag
        (0x00 :: s.scan.fresh.code :: (head ++ body)))) ∧
    (head ++ body).length = 205) ∧
  ∀ (tag bay : Byte) (s : State), CanTake s →
    (bayOf bay = none → exec (.bayQuery tag bay) s = .next (s.answer 0x84 tag [0x10, 1])) ∧
    ∀ b, bayOf bay = some b → ∃ seconds,
      (match (s.bay b).backoff with
        | .running expiry =>
          seconds = (expiry - s.time.ms) / 1000 ∨ seconds = (expiry - s.time.ms + 999) / 1000
        | .stopped => seconds = 0
        | .coolDown => seconds = 0) ∧
      exec (.bayQuery tag bay) s =
        .next (s.answer 0x84 tag
          ([0x00, bay, if (s.bay b).presence then 1 else 0, (s.bay b).state.code, faultCode (s.bay b).lastFault,
              byte (s.bay b).retries] ++
            num16 seconds ++
            [if (s.bay b).probe = none then 0 else 1, byte (s.bay b).grant, byte (s.chg b).target,
              byte ((s.chg b).pendingInc.getD 0),
              if (s.bay b).state = .waiting ∨ (s.bay b).state = .charging then (s.chg b).tier.code else 2,
              (s.chg b).phase.code, byte (s.chg b).dynCeiling, byte (s.chg b).profile.val] ++
            num32 (s.bay b).energy ++ num16 (s.bay b).residue ++ num16 (min 65535 ((s.bay b).energy / 1440)) ++
            [s.scan.latestDraw[b], s.scan.latestTemp[b], dataLineCode (s.bay b).dataLine]))

/-! ### The bays -/

/-- R3, R8, R86, R130, R148: an attach sets presence, zeroes the energy accumulator and the data-line fault flag, and
takes an EMPTY bay to QUALIFYING with a probe started; ATTACHED is queued, and RETURNED after it when the custody record
was OUT; the record becomes IN_CART, a RETURN purpose over an OUT record being fulfilled; the phase is BULK, the dynamic
ceiling at the profile ceiling and the round counters at 0. The rest is what passes change. That an attach of a bay with
its presence set does nothing is the model's choice (entry 4). That RETURNED carries latch code 255 before the latch
machine has started is read from R126 (entry 17). The number that the probe takes, and the 0 in the open data bytes of
ATTACHED, are the model's choices (entries 27 and 43). -/
def Obligations.AttachSeatsATablet : Prop :=
  ∀ (b : Bay) (s : State), s.held = none →
    ((s.bay b).presence = true → exec (.attach b) s = .next s) ∧
    ((s.bay b).presence = false →
      let bay := s.bay b
      let seated := { bay with presence := true, attachRun := 0, energy := 0, residue := 0, dataLine := .clear }
      let bay' := if bay.state = .empty then
          { seated with
            state := .qualifying, grant := 0, cleanTimer := none, backoff := .stopped
            probe := some ⟨bay.probes, s.time.ms⟩, probes := bay.probes + 1 }
        else seated
      let attached : Notice := ⟨.attached, bayNumber b, s.time.minute, bay'.state.code, 0, 0, 0⟩
      let c := s.cust b
      let cust' := match c.status with
        | .out _ =>
          { c with
            status := .inCart
            purpose := match c.purpose with | some (.returning _) => none | p => p }
        | _ => { c with status := .inCart }
      let returned : List Notice := match c.status with
        | .out o =>
          [⟨.returned, bayNumber b, s.time.minute, hiByte o.holder, loByte o.holder,
            if o.overdueReported = true ∨ (∃ due, o.due = some due ∧ past s.time.minute due = true) then 1 else 0,
            latchCode (s.latch b).state⟩]
        | _ => []
      ∃ t, exec (.attach b) s = .next t ∧
        OnlyPass
          (State.notices
            { s with
              bays := s.bays.set b bay', custody := s.custody.set b cust'
              charge := s.charge.set b
                { s.chg b with
                  phase := .bulk, dynCeiling := (s.profile b).ceiling, reclaim := 0, press := 0, taperN := 0
                  fullN := 0, wakeN := 0 }
              pins := { s.pins with signature := s.pins.signature.set b true } } (attached :: returned)) t ∧
        roundCounts (t.chg b) = [0, 0, 0, 0, 0])

/-- R4, R92, R99, R131, R148: a detach clears presence, the applied grant, the retry count, the backoff and a probe in
flight, and the invalid-draw run of a bay that it takes out of CHARGING, and takes the bay to EMPTY but for LATCHED and
DISABLED, its energy and data-line flag kept; DETACHED is queued; then the
custody record decides: a CHECKOUT purpose makes it OUT with CHECKED_OUT, SERVICE makes it VACANT, a tablet gone from a
FORCED or OPEN latch, or through the open door of one in SENSOR_FAULT, makes it TAKEN, and otherwise DETACHED_LOCKED is
queued and the record kept; a reservation ends with the tablet's going, with a lane assignment run (R138, R158). The rest
is what passes change. That DETACHED
and then the Custody Table's notice stand before every other notice of the detach is the model's reading (entry 13,
DEDUCED: one report, handed to the Custody Table, then the Allocator, then the Provisioning Scheduler). That a detach of a
bay without presence does nothing is the model's choice (entry 4). -/
def Obligations.DetachTakesATablet : Prop :=
  ∀ (b : Bay) (s : State), s.held = none →
    ((s.bay b).presence = false → exec (.detach b) s = .next s) ∧
    ((s.bay b).presence = true →
      let bay := s.bay b
      let state' := if bay.state = .latched ∨ bay.state = .disabled then bay.state else .empty
      let bay' := { bay with
        presence := false, absenceRun := 0, state := state', grant := 0, retries := 0, backoff := .stopped
        probe := none, cleanTimer := none, invalidRun := if bay.state = .charging then 0 else bay.invalidRun }
      let e := word (min 65535 (bay.energy / 1440))
      let code := latchCode (s.latch b).state
      let at_ (k : NoticeKind) (d1 d2 d3 d4 : Byte) : Notice := ⟨k, bayNumber b, s.time.minute, d1, d2, d3, d4⟩
      let c := s.cust b
      let opened := (s.latch b).state = some .opened ∨
        ((s.latch b).state = some .sensorFault ∧ (s.latch b).door.level = some false)
      let taken : Option Byte := if (s.latch b).state = some .forced then some 1 else if opened then some 2 else none
      let unlent : CustodyRec × Notice := match taken with
        | some cause =>
          ({ c with status := .taken, reservation := none },
            at_ .taken cause code (match c.reservation with | none => 0 | some r => r.group) 0)
        | none => (c, at_ .detachedLocked code 0 0 0)
      let after : CustodyRec × List Notice := match c.purpose with
        | some (.checkout holder _ due) =>
          let late : Word16 := match due with
            | none => 0
            | some d => if past s.time.minute d = true then 1 else d - s.time.minute
          ({ status := .out ⟨holder, s.time.minute, due, false⟩, reservation := none, purpose := none },
            [at_ .checkedOut (hiByte holder) (loByte holder) (hiByte late) (loByte late)])
        | some .service => ({ c with status := .vacant, reservation := none }, [])
        | some (.returning _) => (unlent.1, [unlent.2])
        | none => (unlent.1, [unlent.2])
      ∃ t, exec (.detach b) s = .next t ∧
        OnlyPass
          (State.notices
            { s with
              bays := s.bays.set b bay', custody := s.custody.set b after.1
              pins := { s.pins with signature := s.pins.signature.set b false } }
            (at_ .detached bay.state.code state'.code (hiByte e) (loByte e) :: after.2)) t ∧
        (c.reservation ≠ none → after.1.reservation = none → SlotLaw s → LanesServed t) ∧
        (t.chg b).reclaim = 0 ∧ (t.chg b).press = 0 ∧ (t.chg b).taperN = 0 ∧ (t.chg b).fullN = 0 ∧
        (t.chg b).wakeN = 0 ∧
        (bay.state.eligible = true →
          (t.chg b).target = 0 ∧ (t.chg b).pendingInc = none ∧
          (s.budget.established = true → t.budget.lastPass = some s.budget.computed)))

/-- R9, R52, R54, R95, R96: the completion of the probe in flight. With no short found the bay enters WAITING, which
brings a pass; with a short it enters LATCHED with last fault PROBE and a BAY_FAULT notice, its retry count kept. The
completion of any other probe changes nothing. A probe is named by its number, by the model's choice (entry 27). -/
def Obligations.ProbeCompletionEndsQualifying : Prop :=
  ∀ (b : Bay) (number : Nat) (short : Bool) (s : State), s.held = none →
    ((s.bay b).state ≠ .qualifying ∨ (s.bay b).probe.map Probe.number ≠ some number →
      exec (.probeComplete b number short) s = .next s) ∧
    ((s.bay b).state = .qualifying → (s.bay b).probe.map Probe.number = some number →
      let ended := { s.bay b with probe := none, grant := 0, backoff := .stopped, cleanTimer := none }
      ∃ t, exec (.probeComplete b number short) s = .next t ∧
        (short = false →
          PassFollows { s with bays := s.bays.set b { ended with state := .waiting } } t ∧
          (s.budget.established = false → (t.chg b).target = 0)) ∧
        (short = true →
          OnlyPass
            (State.notices
              { s with bays := s.bays.set b { ended with state := .latched, lastFault := some .probe } }
              [⟨.bayFault, bayNumber b, s.time.minute, 5, 5, byte (s.bay b).retries, 0⟩]) t))

/-- R13, R91, R94, R96: a SHORT event in CHARGING, WAITING or QUALIFYING is a transient fault: HOLD with the backoff
started while retries are left, LATCHED otherwise, the applied grant at 0, any probe abandoned, and a BAY_FAULT notice; a
bay that leaves the eligible set has target 0 and no pending increase, and brings a pass. In any other state it is no
fault and changes nothing. -/
def Obligations.ShortEventIsATransientFault : Prop :=
  ∀ (b : Bay) (s : State), s.held = none →
    let bay := s.bay b
    let faults := bay.state = .charging ∨ bay.state = .waiting ∨ bay.state = .qualifying
    (¬ faults → exec (.shortEvent b) s = .next s) ∧
    (faults →
      let new := if bay.retries < s.superv.retryLimit then BayState.hold else .latched
      let bay' := { bay with
        state := new, grant := 0, probe := none, cleanTimer := none, lastFault := some .short, invalidRun := 0
        backoff := if new = .hold then .running (s.time.ms + s.superv.backoff * 1000) else .stopped }
      ∃ t, exec (.shortEvent b) s = .next t ∧
        OnlyPass
          (State.notices { s with bays := s.bays.set b bay' }
            [⟨.bayFault, bayNumber b, s.time.minute, 1, new.code, byte bay.retries, 0⟩]) t ∧
        (bay.state.eligible = true →
          (t.chg b).target = 0 ∧ (t.chg b).pendingInc = none ∧
          (s.budget.established = true → t.budget.lastPass = some s.budget.computed)))

/-- R97, R99: at the expiry of its backoff timer a bay in HOLD enters QUALIFYING with a probe started and its retry
count risen by 1, if its last fault is other than HOT or its connector has cooled to 5 °C below the hot limit; otherwise
it waits to cool down. The clean-charge expiry clears the retry count and the last fault. That an expiry of a timer that
is stopped does nothing is the model's choice (entry 4). The number that the probe takes is its choice too (entry 27).
-/
def Obligations.BackoffAndCleanChargeExpire : Prop :=
  ∀ (b : Bay) (s : State), s.held = none →
    let bay := s.bay b
    let reading := s.scan.latestTemp[b]
    let cool := bay.lastFault ≠ some .hot ∨
      (reading ≠ 255 ∧ reading.toNat < 2 * (s.superv.hotLimit - 5 + 20))
    (∀ expiry, bay.state = .hold → bay.backoff = .running expiry →
      (cool →
        let bay' := { bay with
          state := .qualifying, retries := bay.retries + 1, backoff := .stopped
          probe := some ⟨bay.probes, s.time.ms⟩, probes := bay.probes + 1, grant := 0, cleanTimer := none }
        ∃ t, exec (.backoffExpiry b) s = .next t ∧ OnlyPass { s with bays := s.bays.set b bay' } t) ∧
      (¬ cool → exec (.backoffExpiry b) s = .next { s with bays := s.bays.set b { bay with backoff := .coolDown } })) ∧
    ((bay.state ≠ .hold ∨ ∀ expiry, bay.backoff ≠ .running expiry) → exec (.backoffExpiry b) s = .next s) ∧
    exec (.cleanChargeExpiry b) s = .next (if bay.cleanTimer = none then s else
      { s with bays := s.bays.set b { bay with retries := 0, lastFault := none, cleanTimer := none } })

/-- R17, R92: BAY-ENABLE refuses a bay number outside 1..32 with RANGE. Off takes the bay to DISABLED, its applied
grant at 0, a probe or backoff ended, and the invalid-draw run of a CHARGING bay too, its last fault and retry count kept;
on takes a DISABLED bay to QUALIFYING with a probe started, or to EMPTY without a tablet; a bay in any other state is
left. The answer is DONE with the bay state after.
R101: FAULT-CLEAR refuses a bay number outside 1..32 with RANGE. Otherwise it clears the retry count and the last fault;
a bay in HOLD, and one in LATCHED with a tablet, enters QUALIFYING with a probe started, and one in LATCHED without a
tablet enters EMPTY; any other state is left. The answer is DONE with the bay number and the state after. The sizes
of the answers' fields, and the numbers that probes take, are the model's choice (entries 16 and 27). -/
def Obligations.BayEnableAndFaultClearMoveTheBay : Prop :=
  (∀ (tag bay : Byte) (s : State), CanTake s →
    (bayOf bay = none →
      exec (.bayEnableOff tag bay) s = .next (s.answer 0x94 tag [0x10, 1]) ∧
      exec (.bayEnableOn tag bay) s = .next (s.answer 0x94 tag [0x10, 1])) ∧
    ∀ b, bayOf bay = some b →
      let r := s.bay b
      let ended := { r with grant := 0, cleanTimer := none, backoff := .stopped, probe := none }
      let off := if r.state = .disabled then r else
        { ended with state := .disabled, invalidRun := if r.state = .charging then 0 else r.invalidRun }
      let on := if r.state ≠ .disabled then r
        else if r.presence then { ended with state := .qualifying, probe := some ⟨r.probes, s.time.ms⟩, probes := r.probes + 1 }
        else { ended with state := .empty }
      (∃ t, exec (.bayEnableOff tag bay) s = .next t ∧
        OnlyPass (State.answer { s with bays := s.bays.set b off } 0x94 tag [0x00, 6]) t ∧
        (r.state.eligible = true → s.budget.established = true → t.budget.lastPass = some s.budget.computed)) ∧
      ∃ t, exec (.bayEnableOn tag bay) s = .next t ∧
        OnlyPass (State.answer { s with bays := s.bays.set b on } 0x94 tag [0x00, on.state.code]) t) ∧
  ∀ (tag bay : Byte) (s : State), CanTake s →
    (bayOf bay = none → exec (.faultClear tag bay) s = .next (s.answer 0x97 tag [0x10, 1])) ∧
    ∀ b, bayOf bay = some b →
      let r := { s.bay b with retries := 0, lastFault := none }
      let ended := { r with grant := 0, cleanTimer := none, backoff := .stopped, probe := none }
      let r' := if r.state = .hold ∨ (r.state = .latched ∧ r.presence = true) then
          { ended with state := .qualifying, probe := some ⟨r.probes, s.time.ms⟩, probes := r.probes + 1 }
        else if r.state = .latched then { ended with state := .empty }
        else r
      ∃ t, exec (.faultClear tag bay) s = .next t ∧
        OnlyPass (State.answer { s with bays := s.bays.set b r' } 0x97 tag [0x00, bay, r'.state.code]) t

/-! ### The budget -/

/-- R38, R39, R40, R41, R46, R47: the budget as its inputs stand, stage by stage. The cabinet temperature is the largest of
the valid zone readings on the half-degree scale, and none when all four are invalid. The derate factor is 128 with no
cabinet temperature, 256 up to the knee, 0 from the cut on, falls between them as the rule computes it, and never rises as
the cabinet warms. With the settings in their ranges the budget lies within 0..9,504 qW. -/
def Obligations.BudgetComesInSevenStages : Prop :=
  (∀ s : State,
    let limit := if s.link.mode = .normal then s.budget.settings.inlet else s.budget.storedInlet
    let effective := if s.budget.shed then limit / 2 else limit
    let converted := 4 * effective * s.budget.settings.efficiency / 1000
    let moving := allBays.countP fun b =>
      (s.latch b).state = some .retracting ∨ (s.latch b).state = some .extending
    let reserve := s.budget.settings.overhead + max s.latchUnit.settings.movers moving * s.latchUnit.settings.draw
    let derate := derateFactor s.budget.settings.knee s.budget.settings.cut s.budget.h
    derateNow s = derate ∧ budgetNow s = converted * derate / 256 - reserve ∧
    (SettingsLaw s → derate ≤ 256 ∧ budgetNow s ≤ 9504)) ∧
  (∀ zones : Vector Byte 4,
    ((∀ z : Fin 4, zones[z] = 255) → cabinet zones = none) ∧
    ∀ z : Fin 4, zones[z] ≠ 255 → ∃ h, cabinet zones = some h ∧ (zones[z].toNat : Int) - 40 ≤ h ∧
      ∃ z' : Fin 4, zones[z'] ≠ 255 ∧ h = (zones[z'].toNat : Int) - 40) ∧
  ∀ (knee cut : Nat) (h : Int), knee + 5 ≤ cut →
    derateFactor knee cut none = 128 ∧
    (h ≤ 2 * knee → derateFactor knee cut (some h) = 256) ∧
    (2 * cut ≤ h → derateFactor knee cut (some h) = 0) ∧
    (2 * knee < h → h < 2 * cut →
      (derateFactor knee cut (some h) : Int) = 256 * (2 * cut - h) / (2 * (cut - knee)) ∧
      derateFactor knee cut (some h) < 256) ∧
    ∀ h' : Int, h ≤ h' → derateFactor knee cut (some h') ≤ derateFactor knee cut (some h)

/-- R37, R48: BUDGET-SET clamps its six values, the knee first and then the cut from the clamped knee + 5, takes them
together and recomputes the budget; so does a change of the filtered SHED level. The SHED level that stands already
changes nothing but the raw line (entry 3). -/
def Obligations.BudgetSetAndShedRecompute : Prop :=
  (∀ (tag : Byte) (inlet efficiency overhead knee cut hysteresis : Word16) (s : State), CanTake s →
    let k := max 25 (min 70 knee.toNat)
    let c : BudgetSettings :=
      { inlet := max 100 (min 2400 inlet.toNat), efficiency := max 500 (min 990 efficiency.toNat)
        overhead := min 800 overhead.toNat, knee := k, cut := max (k + 5) (min 85 cut.toNat)
        hysteresis := min 200 hysteresis.toNat }
    let same := c.inlet = inlet.toNat ∧ c.efficiency = efficiency.toNat ∧ c.overhead = overhead.toNat ∧
      c.knee = knee.toNat ∧ c.cut = cut.toNat ∧ c.hysteresis = hysteresis.toNat
    ∃ t, exec (.budgetSet tag inlet efficiency overhead knee cut hysteresis) s = .next t ∧
      Recomputed
        (State.answer { s with budget := { s.budget with settings := c } } 0x90 tag
          ((if same then 0x00 else 0x02) :: (num16 c.inlet ++ num16 c.efficiency ++ num16 c.overhead ++
            num16 c.knee ++ num16 c.cut ++ num16 c.hysteresis))) t) ∧
  ∀ (asserted : Bool) (s : State), s.held = none →
    let line := { s.pins with shedLine := asserted }
    (s.budget.shed = asserted → exec (.shedChange asserted) s = .next { s with pins := line }) ∧
    (s.budget.shed ≠ asserted → ∃ t, exec (.shedChange asserted) s = .next t ∧
      Recomputed { s with pins := line, budget := { s.budget with shed := asserted, shedRun := 0 } } t)

/-! ### Allocation passes -/

/-- R54, R57, R58, R59, R60, R61, R45: a pass gives every bay of the eligible set a target, and no other bay; the targets
and the remainder add up to the budget divided; no target is above the bay's effective ceiling; and power is left over
only when every eligible bay has its effective ceiling or could not have its effective floor. The bays are taken tier by
tier, LANE, RESERVED, NORMAL, TOPPING, and in each tier from the rotation pointer on and round. The floors go first fit: a
bay has its floor just when that and the floors given before it fit in the budget, and target 0 otherwise. What is left is
shared above the floors, a tier only when every bay served before it has its ceiling: the bays of one tier gain the same,
but for the room under their ceilings and for one unit more to the first of them. The rotation pointer moves on by one.
The budget divided becomes the budget of the last pass, with a BUDGET notice just when it differs from the one before.
R158, R164: the lane assignment run on the pass result leaves no lane FREE while an entry of a class in the slot table is
eligible. R56, R52: at the end of an event a bay whose tier its conditions change brings a pass, and nothing does where
none changes and none is asked for. -/
def Obligations.PassDividesTheBudget : Prop :=
  (∀ s : State,
    let t := runPass s
    let eligible := allBays.filter fun b => (s.bay b).state.eligible
    let ceiling := fun b =>
      if (s.chg b).phase = .full then min (s.profile b).maintenance (s.profile b).ceiling else (s.chg b).dynCeiling
    let floor := fun b =>
      if (s.chg b).phase = .full then ceiling b
      else if (s.chg b).tier = .lane then min (max (s.profile b).floor s.alloc.settings.provFloor) (ceiling b)
      else min (s.profile b).floor (ceiling b)
    let rank := fun b => match (s.chg b).tier with
      | .lane => (0 : Nat) | .reserved => 1 | .normal => 2 | .topping => 3
    let turn := fun b : Bay => (b.val + 32 - s.alloc.rotation.val) % 32
    let sooner := fun a b => rank a < rank b ∨ (rank a = rank b ∧ turn a < turn b)
    let budget := s.budget.computed
    (eligible.map fun b => (t.chg b).target).sum + t.alloc.remainder = budget ∧
    (∀ b, (s.bay b).state.eligible = true →
      (t.chg b).target ≤ ceiling b ∧
      (0 < t.alloc.remainder → (t.chg b).target = ceiling b ∨
        ((t.chg b).target = 0 ∧ t.alloc.remainder < floor b))) ∧
    (∀ b, (s.bay b).state.eligible = false → t.bay b = s.bay b ∧ (t.chg b).target = (s.chg b).target) ∧
    (∃ (given : Bay → Bool) (level : Nat → Nat), ∀ b, (s.bay b).state.eligible = true →
      (given b = true ↔
        floor b + ((eligible.filter fun a => given a = true ∧ sooner a b).map floor).sum ≤ budget) ∧
      (given b = false → (t.chg b).target = 0) ∧
      (given b = true →
        let gain := fun x => (t.chg x).target - floor x
        floor b ≤ (t.chg b).target ∧
        (gain b = min (ceiling b - floor b) (level (rank b)) ∨ gain b = level (rank b) + 1) ∧
        ∀ a, (s.bay a).state.eligible = true → given a = true → sooner a b → (t.chg a).target < ceiling a →
          (rank a = rank b → gain b ≤ gain a) ∧ (rank a ≠ rank b → gain b = 0))) ∧
    t.alloc.rotation = s.alloc.rotation + 1 ∧ t.budget.lastPass = some budget ∧
    let was := s.budget.lastPass
    let changed : Notice := ⟨.budget, 0, s.time.minute, hiByte (word budget), loByte (word budget),
      hiByte (word (was.getD 0)), loByte (word (was.getD 0))⟩
    (SlotLaw s → LanesServed t) ∧
    ∃ ns, t.link = s.link.queueAll ((if was = some budget then [] else [changed]) ++ ns) ∧
      ∀ n ∈ ns, n.kind ≠ .budget) ∧
  ∀ s : State,
    (s.budget.established = true →
      s.alloc.passAsked = true ∨ (∃ b, (s.bay b).state.eligible = true ∧ (s.chg b).tier ≠ s.tierOf b) →
      (finish s).budget.lastPass = some s.budget.computed ∧ (SlotLaw s → LanesServed (finish s))) ∧
    (Settled s → finish s = s) ∧ TierLaw (finish s)

/-- R7, R11, R64, R65, R67, R86, R92, R99: a pass puts an eligible bay with a target above 0 in CHARGING and one with
target 0 in WAITING. The entry to CHARGING starts the clean-charge timer with 600,000 ms. A deferral out of CHARGING stops
it, ends the invalid-draw run and sets the five round counters to 0; in every other bay the three are left. If it lowers
no applied grant, every grant takes its target at once, capped at the profile ceiling; if it lowers one, decreases act at
once, increases are pending, and the settle timer runs. -/
def Obligations.PassStagesItsIncreases : Prop :=
  ∀ s : State, GrantLaw s →
    let t := runPass s
    let lowers := ∃ b, (s.bay b).state = .charging ∧ (t.chg b).target < (s.bay b).grant
    (∀ b, (s.bay b).state.eligible = true →
      (t.bay b).state = (if (t.chg b).target = 0 then .waiting else .charging) ∧
      (t.bay b).invalidRun =
        (if (s.bay b).state = .charging ∧ (t.chg b).target = 0 then 0 else (s.bay b).invalidRun) ∧
      (t.bay b).cleanTimer =
        (if (s.bay b).state = .charging ∧ (t.chg b).target = 0 then none
        else if (s.bay b).state = .waiting ∧ (t.chg b).target ≠ 0 then some (s.time.ms + 600000)
        else (s.bay b).cleanTimer) ∧
      roundCounts (t.chg b) =
        (if (s.bay b).state = .charging ∧ (t.chg b).target = 0 then [0, 0, 0, 0, 0] else roundCounts (s.chg b)) ∧
      (¬ lowers → (t.bay b).grant = min (s.profile b).ceiling (t.chg b).target ∧ (t.chg b).pendingInc = none) ∧
      (lowers → (t.bay b).grant = min (s.bay b).grant (t.chg b).target ∧
        (t.chg b).pendingInc = if (t.bay b).grant < (t.chg b).target then some (t.chg b).target else none)) ∧
    (¬ lowers → t.alloc.settleTimer = none) ∧
    (lowers → t.alloc.settleTimer = some (s.time.ms + s.alloc.settings.settle))

/-- R11, R66: at the expiry of the settle timer every pending increase is applied to its bay, capped at the profile
ceiling, and cleared, and the timer stops; nothing else changes. R65: the expiry that follows a pass with no time between
them, the settle interval being 0, is taken right after the pass, before any pass that the first one brings (the model's
order, entry 41); with a longer interval it is not. -/
def Obligations.SettleExpiryAppliesTheIncreases : Prop :=
  (∀ s : State, s.held = none → s.alloc.passAsked = true → s.budget.established = true →
    let u := runPass { s with alloc := { s.alloc with passAsked := false } }
    (s.alloc.settings.settle = 0 → u.alloc.settleTimer ≠ none → exec .settleExpiry u = .next (runAsked s)) ∧
    (s.alloc.settings.settle ≠ 0 ∨ u.alloc.settleTimer = none → runAsked s = u)) ∧
  ∀ s : State, s.held = none → s.alloc.settleTimer ≠ none →
    exec .settleExpiry s = .next
      { s with
        bays := Vector.ofFn fun b => match (s.chg b).pendingInc with
          | none => s.bay b
          | some inc =>
            if (s.bay b).state = .charging then { s.bay b with grant := min (s.profile b).ceiling inc } else s.bay b
        charge := Vector.ofFn fun b => { s.chg b with pendingInc := none }
        alloc := { s.alloc with settleTimer := none } }

/-- R70: CHARGE-SET clamps its nine values and takes them together; it brings a pass. With the settle interval at 0 no
increase is left pending and the settle timer is left stopped at the end of this step: R65 lets the expiry follow the pass
with no time between them, and that it is taken within the same step is the model's choice (entry 41, DESIGN CHOICE). -/
def Obligations.ChargeSetBringsAPass : Prop :=
  ∀ (tag : Byte) (a b c d e f g h i : Word16) (s : State), CanTake s →
    let asked : ChargeSettings :=
      ⟨a.toNat, b.toNat, c.toNat, d.toNat, e.toNat, f.toNat, g.toNat, h.toNat, i.toNat⟩
    let taken : ChargeSettings :=
      { provFloor := min 160 a.toNat, settle := min 500 b.toNat, reclaimCount := max 1 (min 15 c.toNat)
        reclaimMargin := min 40 d.toNat, pressMargin := min 40 e.toNat, pressStep := max 1 (min 40 f.toNat)
        taperCount := max 1 (min 60 g.toNat), fullCount := max 1 (min 60 h.toNat)
        wakeCount := max 1 (min 60 i.toNat) }
    ∃ t, exec (.chargeSet tag a b c d e f g h i) s = .next t ∧
      PassFollows
        (State.answer { s with alloc := { s.alloc with settings := taken } } 0x95 tag
          ((if taken = asked then 0x00 else 0x02) :: (num16 taken.provFloor ++ num16 taken.settle ++
            num16 taken.reclaimCount ++ num16 taken.reclaimMargin ++ num16 taken.pressMargin ++
            num16 taken.pressStep ++ num16 taken.taperCount ++ num16 taken.fullCount ++ num16 taken.wakeCount))) t ∧
      (b = 0 → s.budget.established = true →
        t.alloc.settleTimer = none ∧ ∀ bay, (t.chg bay).pendingInc = none)

/-- R12, R75, R76: PROFILE-SET refuses an index above 7 with RANGE. Otherwise it clamps its six values, the floor then
to the clamped ceiling, and takes them together; every bay that uses the profile follows its new ceiling, with its
applied grant lowered to it; a profile that a bay with a tablet uses brings a pass. R12, R77: BAY-PROFILE refuses a bay
number outside 1..32 or an index above 7 with RANGE. Otherwise it gives the bay the profile, its dynamic ceiling at the
profile's and its counters at 0, and lowers an applied grant above that ceiling; it brings a pass, and is answered DONE
with the bay number, the index and the new dynamic ceiling. The sizes of the fields of the BAY-PROFILE answer, one byte
for the new dynamic ceiling among them, are the model's choice (entry 16). -/
def Obligations.ProfileSetAndBayProfileMoveTheBays : Prop :=
  (∀ (tag index : Byte) (floor ceiling maintenance taper full readiness : Word16) (s : State), CanTake s →
    (7 < index.toNat →
      exec (.profileSet tag index floor ceiling maintenance taper full readiness) s =
        .next (s.answer 0x92 tag [0x10, 1])) ∧
    ∀ i : Fin 8, i.val = index.toNat →
      let new := max 1 (min 160 ceiling.toNat)
      let p : Profile :=
        { floor := min new (min 160 floor.toNat), ceiling := new, maintenance := min 40 maintenance.toNat
          taper := min 160 taper.toNat, full := min 40 full.toNat, readiness := min 1000 readiness.toNat }
      let same := p.floor = floor.toNat ∧ p.ceiling = ceiling.toNat ∧ p.maintenance = maintenance.toNat ∧
        p.taper = taper.toNat ∧ p.full = full.toNat ∧ p.readiness = readiness.toNat
      let old := s.alloc.profiles[i].ceiling
      let follow (dyn : Nat) : Nat :=
        if new < old then min new dyn else if old < new ∧ dyn = old then new else dyn
      let u := State.answer
        { s with
          alloc := { s.alloc with profiles := s.alloc.profiles.set i p }
          charge := Vector.ofFn fun b =>
            if (s.chg b).profile = i then { s.chg b with dynCeiling := follow (s.chg b).dynCeiling } else s.chg b
          bays := Vector.ofFn fun b =>
            if (s.chg b).profile = i then { s.bay b with grant := min new (s.bay b).grant } else s.bay b }
        0x92 tag ((if same then 0x00 else 0x02) :: index :: (num16 p.floor ++ num16 p.ceiling ++
          num16 p.maintenance ++ num16 p.taper ++ num16 p.full ++ num16 p.readiness))
      let used := ∃ b, (s.chg b).profile = i ∧ (s.bay b).presence = true
      ∃ t, exec (.profileSet tag index floor ceiling maintenance taper full readiness) s = .next t ∧ OnlyPass u t ∧
        (used → t = finish { u with alloc := { u.alloc with passAsked := true } }) ∧ (¬ used → t = finish u) ∧
        (∀ b, (s.chg b).profile = i → (t.chg b).profile = i ∧ (t.profile b).ceiling = new ∧ (t.bay b).grant ≤ new ∧
          (t.chg b).dynCeiling = follow (s.chg b).dynCeiling) ∧
        (used → s.budget.established = true → t.budget.lastPass = some s.budget.computed)) ∧
  ∀ (tag bay index : Byte) (s : State), CanTake s →
    (bayOf bay = none ∨ 7 < index.toNat →
      exec (.bayProfile tag bay index) s = .next (s.answer 0x93 tag [0x10, 1])) ∧
    ∀ (b : Bay) (i : Fin 8), bayOf bay = some b → i.val = index.toNat →
      let ceiling := s.alloc.profiles[i].ceiling
      let c := { s.chg b with
        profile := i, dynCeiling := ceiling, reclaim := 0, press := 0, taperN := 0, fullN := 0, wakeN := 0 }
      let u := State.answer
        { s with
          charge := s.charge.set b c
          bays := s.bays.set b { s.bay b with grant := min ceiling (s.bay b).grant } }
        0x93 tag [0x00, bay, index, byte ceiling]
      ∃ t, exec (.bayProfile tag bay index) s = .next t ∧ PassFollows u t ∧
        t = finish { u with alloc := { u.alloc with passAsked := true } } ∧
        (t.chg b).profile = i ∧ (t.chg b).dynCeiling = ceiling ∧ roundCounts (t.chg b) = [0, 0, 0, 0, 0] ∧
        (t.bay b).grant ≤ ceiling

/-- R12, R66, R68: from every state that meets them, every step keeps these laws: a bay's applied grant never exceeds its
profile ceiling and is 0 in every bay state other than CHARGING; it is at most the bay's target, which is 0 outside the
eligible set, and a pending increase stands at the target and only in CHARGING; and the applied grants, pending increases
counted, never sum to more than the budget of the last pass, and before the first pass after a reset there is none of
either. So the applied grants of all 32 bays never sum to more than the budget of the most recent pass, and are 0 before
the first. -/
def Obligations.GrantsNeverExceedTheBudget : Prop :=
  (∀ s t : State, step s = .next t →
    (GrantLaw s → GrantLaw t) ∧ (GrantLaw s → TargetLaw s → TargetLaw t) ∧ (PowerLaw s → PowerLaw t)) ∧
  ∀ s : State, PowerLaw s →
    (∀ budget, s.budget.lastPass = some budget → (allBays.map fun b => (s.bay b).grant).sum ≤ budget) ∧
    (s.budget.lastPass = none → ∀ b, (s.bay b).grant = 0)

/-- R36, R41, R70, R74, R82, R102, R125, R147, R169, R175, R177, R180, R184: from every state that meets them, every
step keeps every working setting in its range, every bay's dynamic ceiling between 1 and its profile ceiling, D within
0..256 and B within 0..9,504; and it keeps the notice queue at 48 notices at most, with at most one CHARGE_PHASE notice
per bay, and the receive buffer at two frames at most. -/
def Obligations.RangesAndQueuesAreKept : Prop :=
  ∀ s t : State, step s = .next t →
    (SettingsLaw s → CeilingLaw s → BudgetLaw s → SettingsLaw t ∧ CeilingLaw t ∧ BudgetLaw t) ∧
    (NoticeLaw s → NoticeLaw t) ∧ (BufferLaw s → BufferLaw t)

/-! ### The latches -/

/-- R46, R107, R110 to R117, R120, R124, R132, R158: a contact event of a bay whose latch machine runs. The filter takes
the level; the machine takes the state that its present state, the contact and the accepted levels give, with the timers
and the notices of that change. With no motion waiting, a slipped bolt, and a SENSOR_FAULT left with the bolt withdrawn,
ask for an EXTEND at once; an entry to LOCKED ends the release purpose with its lapse notice, and a SERVICE purpose over
an IN_CART record without presence leaves the record VACANT, and a lane assignment run leaves no FREE lane with an
eligible entry; a mover freed while more latches move than M allows recomputes the budget, with the pass that B asks for;
every other custody record of the bay is kept, and every latch for which no motion waits is left. With a motion waiting, a
change of state takes it out of the queue; a RETRACT so removed at FORCED or SENSOR_FAULT queues RELEASE_FAILED, of cause
2 or 3, before the other notice and ends the purpose; a slipped bolt keeps its RETRACT and the latch LOCKED; and no other
latch or record changes. A level that stands already is no event (entries 3 and 4). R119: an arbitration step with a
motion waiting and a mover free grants the oldest EXTEND, or with none the oldest RETRACT, and goes on; a motion whose
contact is asserted already completes at once; otherwise it changes nothing. That at an entry to LOCKED the lapse notice
stands before what the arbitration step after it queues for other bays is the model's choice (entry 28, DESIGN CHOICE:
handing on comes before arbitration), and so is that the event's own notices stand before those of its pass (entry 11).
The hypothesis `told` leaves out a LOCKED bolt that has slipped and whose door then opens (entry 18), and BOLT_OUT
released in LOCKED with BOLT_IN asserted or the door open (entry 19; no run reaches it). -/
def Obligations.ContactEventMovesTheLatch : Prop :=
  (∀ (b : Bay) (contact : Contact) (asserted : Bool) (st : LatchState) (s : State), s.held = none →
    let l := s.latch b
    let pins := { s.pins with contacts := s.pins.contacts.set b (s.pins.contacts[b].set contact asserted) }
    let l' := l.setFilter contact ⟨some asserted, 0, some asserted⟩
    let out := l'.boltOut.level = some true
    let inn := l'.boltIn.level = some true
    let shut := l'.door.level = some true
    let next : LatchState :=
      if st = .sensorFault then
        if out ∧ inn then st else if ¬ shut then .opened else if out then .locked else if inn then .closing else st
      else if out ∧ inn then .sensorFault
      else match st, contact, asserted with
        | .locked, .doorClosed, false => .forced
        | .locked, .boltOut, false => .closing
        | .retracting, .boltIn, true => .released
        | .retracting, .doorClosed, false => .opened
        | .released, .doorClosed, false => .opened
        | .opened, .doorClosed, true => .closing
        | .closing, .doorClosed, false => .opened
        | .extending, .boltOut, true => .locked
        | .extending, .doorClosed, false => .opened
        | .jammed, .doorClosed, false => if out then .forced else .opened
        | .forced, .doorClosed, true => if out then .locked else .closing
        | _, _, _ => st
    let still := { l' with state := some next, travel := none, pause := none, window := none, settle := none }
    let now := s.time.ms
    let at_ (k : NoticeKind) (d1 d2 : Byte) : Notice := ⟨k, bayNumber b, s.time.minute, d1, d2, 0, 0⟩
    let notices : List Notice :=
      if next = st then []
      else if next = .sensorFault then [at_ .latchFault 2 st.code]
      else if next = .forced then [at_ .forced st.code 0]
      else if next = .locked then lapsed b s.time.minute 0 (s.cust b).purpose
      else if st = .retracting ∧ next = .released then [at_ .released 0 2]
      else if st = .retracting ∧ next = .opened then [at_ .released 1 3]
      else []
    let freed := (st = .retracting ∨ st = .extending) ∧ next ≠ st
    let told := (st = .locked → contact = .doorClosed → out) ∧ (st = .locked → contact = .boltOut → ¬ inn ∧ shut)
    l.state = some st →
    ((l.filter contact).level = some asserted →
      ∃ t, exec (.contactEvent b contact asserted) s = .next t ∧ OnlyPass { s with pins := pins } t) ∧
    ((l.filter contact).level = some (!asserted) → NoMotion s b → told →
      ∃ t, exec (.contactEvent b contact asserted) s = .next t ∧
        OnlyLatchesPass { s with pins := pins, latches := s.latches.set b l' } t ∧ OtherLatchesKept b s t ∧
        (∃ ns, t.link = s.link.queueAll (notices ++ ns)) ∧
        BudgetTold (freed ∧ s.latchUnit.settings.movers < s.moving) s t ∧
        (next = .locked → st ≠ .locked → SlotLaw s → LanesServed t) ∧
        t.cust b = (if next = .locked ∧ st ≠ .locked then (s.cust b).relocked (s.bay b).presence else s.cust b) ∧
        (next = st → t.latch b = l') ∧
        (next = .closing → st = .locked ∨ st = .sensorFault → ExtendFollows b still s t) ∧
        (next = .closing → st = .opened ∨ st = .forced →
          t.latch b = { still with settle := some (now + s.latchUnit.settings.closeSettle) }) ∧
        (next = .released → st = .retracting →
          t.latch b = { still with window := some (now + s.latchUnit.settings.window * 1000) }) ∧
        (next ≠ st → next ≠ .closing → next ≠ .released → t.latch b = still)) ∧
    ((l.filter contact).level = some (!asserted) → told → ∀ m, s.pendingMotion b = some m →
      (m = .retract ∧ (st = .locked ∨ st = .jammed)) ∨ (m = .extend ∧ (st = .released ∨ st = .closing)) →
      let stays := next = st ∨ next = .closing
      let failed := m = .retract ∧ (next = .forced ∨ next = .sensorFault)
      let failure := if failed then [at_ .releaseFailed (if next = .forced then 2 else 3) next.code] else []
      ∃ t, exec (.contactEvent b contact asserted) s = .next t ∧
        OnlyLatchesPass { s with pins := pins, latches := s.latches.set b l' } t ∧
        (∀ c, c ≠ b → t.latch c = s.latch c ∧ t.cust c = s.cust c) ∧ BudgetKept s t ∧
        (∃ ns, t.link = s.link.queueAll (failure ++ notices ++ ns)) ∧
        t.cust b = (if failed then { s.cust b with purpose := none } else s.cust b) ∧
        t.latch b = (if stays then l' else still) ∧
        t.latchUnit.queue =
          (if stays then s.latchUnit.queue else s.latchUnit.queue.filter fun x => x.1 ≠ b))) ∧
  ∀ s : State,
    (s.latchUnit.queue = [] ∨ s.latchUnit.settings.movers ≤ s.moving → arbitrate s = s) ∧
    ∀ (b : Bay) (m : Motion) (older newer : List (Bay × Motion)), s.latchUnit.queue = older ++ (b, m) :: newer →
      (∀ x ∈ older ++ newer, x.1 ≠ b) → s.moving < s.latchUnit.settings.movers →
      (m = .extend → ∀ x ∈ older, x.2 = .retract) →
      (m = .retract → older = [] ∧ ∀ x ∈ newer, x.2 = .retract) →
      let u : State := { s with latchUnit := { s.latchUnit with queue := older ++ newer } }
      arbitrate s = arbitrate (match m with | .extend => u.extendGranted b | .retract => u.retractGranted b)

/-- R107, R126: a first accepted level is no contact event; once all three filters of a bay have accepted levels its latch
machine starts in the state that these give, with a LATCH_FAULT notice when both bolt contacts are asserted, the settle
timer started when the bolt is withdrawn, and an EXTEND asked for when neither bolt contact is asserted. A machine that
has started does not start again (entry 4). -/
def Obligations.LatchMachineStartsFromItsContacts : Prop :=
  ∀ (b : Bay) (s : State), s.held = none →
    ((s.latch b).state ≠ none → ∀ out inn shut, exec (.latchMachineStart b out inn shut) s = .next s) ∧
    ((s.latch b).state = none → NoMotion s b →
      let starts := fun (out inn shut : Bool) (u t : State) =>
        let r := u.latch b
        OnlyLatchesPass u t ∧ OtherLatchesKept b s t ∧ BudgetKept s t ∧
        (out = true → inn = true → t.latch b = { r with state := some .sensorFault } ∧
          ∃ ns, t.link = s.link.queueAll (⟨.latchFault, bayNumber b, s.time.minute, 2, 255, 0, 0⟩ :: ns)) ∧
        ((out = false ∨ inn = false) → shut = false → t.latch b = { r with state := some .opened }) ∧
        (out = true → inn = false → shut = true → t.latch b = { r with state := some .locked }) ∧
        let still := { r with state := some .closing, travel := none, pause := none, window := none, settle := none }
        (out = false → inn = true → shut = true →
          t.latch b = { still with settle := some (s.time.ms + s.latchUnit.settings.closeSettle) }) ∧
        (out = false → inn = false → shut = true → ExtendFollows b still s t)
      let accepted := fun level : Bool => (⟨some level, 0, some level⟩ : Filter)
      (∀ out inn shut, ∃ t, exec (.latchMachineStart b out inn shut) s = .next t ∧
        starts out inn shut
          { s with
            pins := { s.pins with contacts := s.pins.contacts.set b ⟨out, inn, shut⟩ }
            latches := s.latches.set b { s.latch b with
              boltOut := accepted out, boltIn := accepted inn, door := accepted shut } } t) ∧
      ∀ contact asserted, ((s.latch b).filter contact).level = none →
        let r := (s.latch b).setFilter contact (accepted asserted)
        let u := { s with
          pins := { s.pins with contacts := s.pins.contacts.set b (s.pins.contacts[b].set contact asserted) }
          latches := s.latches.set b r }
        ∃ t, exec (.contactEvent b contact asserted) s = .next t ∧
          (r.boltOut.level = none ∨ r.boltIn.level = none ∨ r.door.level = none → OnlyPass u t) ∧
          ∀ out inn shut, r.boltOut.level = some out → r.boltIn.level = some inn → r.door.level = some shut →
            starts out inn shut u t)

/-- R46, R110, R111, R112, R113, R119, R120, R124, R132: the timers of a latch for which no motion waits. The travel
timeout of RETRACTING is JAMMED with RELEASE_FAILED, the release purpose ended; that of EXTENDING starts the retry pause
of 2,000 ms, and at the second time is JAMMED with LATCH_FAULT; a mover so freed while more latches move than M allows
recomputes the budget, with the pass that B asks for; the end of the pause starts the travel anew; the end of the release
window, and of the close settle, queues an EXTEND, and an arbitration step follows, in which an EXTEND whose BOLT_OUT is
asserted already completes at once. That the expiry of a timer that is stopped, or that the latch state does not run, does
nothing is the model's choice (entry 4), and so is that RELEASE_FAILED and LATCH_FAULT stand before what the arbitration
step and the pass queue (entries 11 and 28). -/
def Obligations.LatchTimersExpire : Prop :=
  ∀ (b : Bay) (s : State), s.held = none → NoMotion s b →
    let l := s.latch b
    let jammed := { l with state := some .jammed, travel := none, pause := none, window := none, settle := none }
    let at_ (k : NoticeKind) (d1 d2 : Byte) : Notice := ⟨k, bayNumber b, s.time.minute, d1, d2, 0, 0⟩
    let travels := l.travel ≠ none
    (travels → l.state = some .retracting → ∃ t, exec (.travelTimeout b) s = .next t ∧
      OnlyLatchesPass s t ∧ OtherLatchesKept b s t ∧ t.latch b = jammed ∧ (t.cust b).purpose = none ∧
      BudgetTold (s.latchUnit.settings.movers < s.moving) s t ∧
      ∃ ns, t.link = s.link.queueAll (at_ .releaseFailed 1 6 :: ns)) ∧
    (travels → l.state = some .extending → l.retryUsed = true → ∃ t, exec (.travelTimeout b) s = .next t ∧
      OnlyLatchesPass s t ∧ OtherLatchesKept b s t ∧ t.latch b = jammed ∧
      BudgetTold (s.latchUnit.settings.movers < s.moving) s t ∧
      ∃ ns, t.link = s.link.queueAll (at_ .latchFault 1 5 :: ns)) ∧
    (travels → l.state = some .extending → l.retryUsed = false →
      exec (.travelTimeout b) s = .next { s with
        latches := s.latches.set b { l with travel := none, retryUsed := true, pause := some (s.time.ms + 2000) } }) ∧
    (¬ travels ∨ (l.state ≠ some .retracting ∧ l.state ≠ some .extending) → exec (.travelTimeout b) s = .next s) ∧
    exec (.retryPauseExpiry b) s = .next
      (if l.pause ≠ none ∧ l.state = some .extending then
        { s with latches := s.latches.set b { l with
          pause := none, travel := some (s.time.ms + s.latchUnit.settings.travel) } }
      else s) ∧
    let queued := fun l' : LatchRec => finish (arbitrate { s with
      latches := s.latches.set b l'
      latchUnit := { s.latchUnit with queue := s.latchUnit.queue ++ [(b, Motion.extend)] } })
    (l.window ≠ none → l.state = some .released →
      exec (.windowExpiry b) s = .next (queued { l with window := none })) ∧
    (l.settle ≠ none → l.state = some .closing →
      exec (.closeSettleExpiry b) s = .next (queued { l with settle := none })) ∧
    (l.window ≠ none → l.state = some .released → l.boltOut.level ≠ some true →
      ∃ t, exec (.windowExpiry b) s = .next t ∧ OnlyLatchesPass s t ∧ OtherLatchesKept b s t ∧
        ExtendFollows b { l with window := none } s t) ∧
    (l.window = none ∨ l.state ≠ some .released → exec (.windowExpiry b) s = .next s) ∧
    (l.settle ≠ none → l.state = some .closing → l.boltOut.level ≠ some true →
      ∃ t, exec (.closeSettleExpiry b) s = .next t ∧ OnlyLatchesPass s t ∧ OtherLatchesKept b s t ∧
        ExtendFollows b { l with settle := none } s t) ∧
    (l.settle = none ∨ l.state ≠ some .closing → exec (.closeSettleExpiry b) s = .next s)

/-- R44, R46, R120, R125: LATCH-SET clamps its six values, takes them together and answers them with the latches moving and
the motions waiting after it. A changed M or A recomputes the budget, and the pass that the new B asks for runs, before the
arbitration step of a raised M (for the place of the pass see entry 11); that step lets motions start until none waits or
M latches move; an M that is not raised moves no latch. R121, R145: LOCKDOWN sets or clears the flag and answers DONE
with it. The change from clear to set ends the release window of every latch in RELEASED, which asks for an EXTEND;
latches with no running window and no motion waiting are left. Clearing the flag changes nothing else. The byte that
carries the flag in the LOCKDOWN answer is the model's choice (entry 16). -/
def Obligations.LatchSetAndLockdownAreTaken : Prop :=
  (∀ (tag : Byte) (noise window closeSettle travel movers draw : Word16) (s : State), CanTake s →
    let c : LatchSettings :=
      { noise := min 127 noise.toNat, window := max 1 (min 120 window.toNat)
        closeSettle := max 100 (min 5000 closeSettle.toNat), travel := max 100 (min 3000 travel.toNat)
        movers := max 1 (min 8 movers.toNat), draw := min 80 draw.toNat }
    let same := c.noise = noise.toNat ∧ c.window = window.toNat ∧ c.closeSettle = closeSettle.toNat ∧
      c.travel = travel.toNat ∧ c.movers = movers.toNat ∧ c.draw = draw.toNat
    let old := s.latchUnit.settings
    ∃ t, exec (.latchSet tag noise window closeSettle travel movers draw) s = .next t ∧
      OnlyLatchesPass
        (State.answer { s with latchUnit := { s.latchUnit with settings := c } } 0xA0 tag
          ((if same then 0x00 else 0x02) :: (num16 c.noise ++ num16 c.window ++ num16 c.closeSettle ++
            num16 c.travel ++ num16 c.movers ++ num16 c.draw ++ [byte t.moving, byte t.latchUnit.queue.length]))) t ∧
      (c.movers ≠ old.movers ∨ c.draw ≠ old.draw → t.budget.computed = budgetNow t) ∧
      (c.movers ≤ old.movers → t.latches = s.latches ∧ t.latchUnit.queue = s.latchUnit.queue) ∧
      (old.movers < c.movers → t.latchUnit.queue = [] ∨ c.movers ≤ t.moving) ∧
      let v : State := { s with latchUnit := { s.latchUnit with settings := c } }
      let b := budgetNow v
      let w : State := { v with budget := { s.budget with derate := derateNow v, computed := b } }
      let done := fun u : State =>
        let u := if old.movers < c.movers then arbitrate u else u
        finish (u.answer 0xA0 tag
          ((if same then 0x00 else 0x02) :: (num16 c.noise ++ num16 c.window ++ num16 c.closeSettle ++
            num16 c.travel ++ num16 c.movers ++ num16 c.draw ++ [byte u.moving, byte u.latchUnit.queue.length])))
      (c.movers = old.movers → c.draw = old.draw → t = done v) ∧
      (c.movers ≠ old.movers ∨ c.draw ≠ old.draw →
        (s.budget.established = true → NewBudgetAsks s b → t.budget.lastPass = some b ∧
          t = done (runAsked { w with alloc := { s.alloc with passAsked := true } })) ∧
        (s.alloc.passAsked = false → s.budget.established = false ∨ ¬ NewBudgetAsks s b → t = done w))) ∧
  ∀ (tag : Byte) (s : State), CanTake s →
    exec (.lockdownOff tag) s =
      .next (State.answer { s with link := { s.link with lockdown := false } } 0xA2 tag [0x00, 0]) ∧
    let ends := fun b => (s.latch b).window ≠ none ∧ (s.latch b).state = some .released
    (s.link.lockdown = false → exec (.lockdownOn tag) s = .next (finish (State.answer (arbitrate { s with
      link := { s.link with lockdown := true }
      latches := Vector.ofFn fun b => if ends b then { s.latch b with window := none } else s.latch b
      latchUnit := { s.latchUnit with
        queue := s.latchUnit.queue ++ (allBays.filter ends).map fun b => (b, Motion.extend) } }) 0xA2 tag [0x00, 1]))) ∧
    let on := State.answer { s with link := { s.link with lockdown := true } } 0xA2 tag [0x00, 1]
    ∃ t, exec (.lockdownOn tag) s = .next t ∧
      (s.link.lockdown = true → OnlyPass on t) ∧
      (s.link.lockdown = false → OnlyLatchesPass on t ∧
        ∀ b, NoMotion s b →
          let l := s.latch b
          (l.window = none ∨ l.state ≠ some .released → t.latch b = l) ∧
          (l.window ≠ none → l.state = some .released → l.boltOut.level ≠ some true →
            (t.latch b = { l with window := none } ∧ (b, Motion.extend) ∈ t.latchUnit.queue) ∨
            t.latch b = l.drivenOut s.time.ms s.latchUnit.settings.travel))

/-- R108, R118, R119, R122, R181: from every state that meets them, every step keeps the laws of the latches: the timers
and waiting motions that each latch state admits, with at most one motion waiting per bay; and in AUTONOMOUS mode no lane
QUALIFYING or ACTIVE, no latch RETRACTING and no RETRACT waiting. No step leaves more latches moving than it found unless
the movers limit allows them. -/
def Obligations.LatchLawsAreKept : Prop :=
  ∀ s t : State, step s = .next t →
    MoversKept s t ∧ (LatchLaw s → LatchLaw t) ∧ (AutonomousLaw s → AutonomousLaw t)

/-! ### Custody -/

/-- R133, R134, R135, R88, R129: CHECKOUT makes its checks in their order and refuses with the reason of the first that
fails. A named bay that passes is accepted; with bay number 0 the best of the bays that pass is, those reserved for the
group first, then by phase, energy and number. An accepted CHECKOUT ends the bay's provisioning work with PROV_ABORTED,
consumes its reservation, with a lane assignment run, sets the release purpose, asks for a RETRACT, and is answered
ACCEPTED with the bay number and the due time taken. The sizes of the answer's fields are the model's choice (entry 16).
-/
def Obligations.CheckoutIsCheckedAndReleases : Prop :=
  ∀ (tag bay : Byte) (holder : Word16) (group : Byte) (due : Word16) (flags : Byte) (s : State), CanTake s →
    let run := exec (.checkout tag bay holder group due flags) s
    let refused := fun reason : Byte => run = .next (s.answer 0xB0 tag [0x10, reason])
    let check : Bay → Option Byte := fun b =>
      let st := (s.latch b).state
      let c := s.cust b
      let p := s.profile b
      let ready := (s.chg b).phase ≠ .bulk ∨ (0 < p.readiness ∧ p.readiness * 1440 ≤ (s.bay b).energy)
      if (s.bay b).presence = false ∨ c.status ≠ .inCart then some 2
      else if st = some .jammed ∨ st = some .sensorFault then some 4
      else if st ≠ some .locked ∨ s.pendingMotion b ≠ none ∨ c.purpose ≠ none then some 3
      else if c.reservation.any fun r => r.group ≠ group then some 5
      else if (s.laneOf b).isSome ∧ flags.getLsbD 1 = false then some 6
      else if ((s.bay b).state = .hold ∨ (s.bay b).state = .latched) ∧ flags.getLsbD 2 = false then some 7
      else if ¬ ready ∧ flags.getLsbD 0 = false then some 8
      else none
    let full := s.custodySet.holderLimit ≤ holderCount s holder
    let minutes := min 10080 due.toNat
    let accepted := fun b : Bay => ∃ t, run = .next t ∧
      OnlyLatchesPass (s.answer 0xB0 tag (0x01 :: bayNumber b :: num16 minutes)) t ∧
      t.cust b = { s.cust b with
        reservation := none
        purpose := some (.checkout holder group (if minutes = 0 then none else some (s.time.minute + word minutes))) } ∧
      ((s.latch b).boltIn.level ≠ some true → RetractFollows b s t) ∧ BudgetKept s t ∧
      ((s.cust b).reservation ≠ none → SlotLaw s → LanesServed t) ∧
      (LaneLaw s → t.laneOf b = none ∧ t.queued b = none ∧
        let aborted := fun (e : Entry) (lane : Byte) => (⟨.provAborted, bayNumber b, s.time.minute, 5, lane,
          hiByte e.jobTag, loByte e.jobTag⟩ : Notice)
        (∀ l e, (s.lane l).state.held = some e → e.bay = b →
          ∃ ns, t.link.notices = (s.link.queueAll (aborted e (laneNumber l) :: ns)).notices) ∧
        ∀ e, s.queued b = some e → ∃ ns, t.link.notices = (s.link.queueAll (aborted e 0 :: ns)).notices)
    (s.link.mode = .autonomous → refused 17) ∧
    (s.link.mode = .normal → s.link.lockdown = true → refused 16) ∧
    (s.link.mode = .normal → s.link.lockdown = false →
      (32 < bay.toNat ∨ holder = 0 → refused 1) ∧
      (holder ≠ 0 → ∀ b, bayOf bay = some b →
        (∀ reason, check b = some reason → refused reason) ∧
        (check b = none → full → refused 9) ∧ (check b = none → ¬ full → accepted b)) ∧
      (holder ≠ 0 → bay = 0 →
        let reserved := fun b : Bay => group ≠ 0 ∧ (s.cust b).reservation.any fun r => r.group = group
        let rank := fun b : Bay =>
          match (s.chg b).phase with | .full => (0 : Nat) | .taper => 1 | .bulk => 2
        let better := fun a b : Bay => rank a < rank b ∨ (rank a = rank b ∧
          ((s.bay b).energy < (s.bay a).energy ∨ ((s.bay a).energy = (s.bay b).energy ∧ a.val ≤ b.val)))
        let candidate := fun b : Bay => check b = none ∧ ((∃ c, check c = none ∧ reserved c) → reserved b)
        (full → refused 9) ∧ (¬ full → (∀ b, check b ≠ none) → refused 11) ∧
        (¬ full → ∀ b, candidate b → (∀ c, candidate c → better b c) → accepted b)))

/-- R136: RETURN makes its checks in their order. It acts on the lowest-numbered bay OUT to the holder that has no
release purpose, or on the lowest-numbered of them all when every one has. Accepted, it sets the purpose RETURN, asks
for a RETRACT, and is answered ACCEPTED with the bay number. R137: SERVICE-OPEN makes its checks in their order.
Accepted, it releases a lane that holds the bay with PROV_ABORTED and its entry dropped, leaves a queued entry, lapses
the purpose of a JAMMED latch, sets the purpose SERVICE, asks for a RETRACT, and is answered ACCEPTED with the bay
number and the latch state before. The sizes of the answers' fields are the model's choice (entry 16). -/
def Obligations.ReturnAndServiceOpenAskForReleases : Prop :=
  (∀ (tag : Byte) (holder : Word16) (s : State), CanTake s →
    let run := exec (.returnTablet tag holder) s
    let refused := fun reason : Byte => run = .next (s.answer 0xB1 tag [0x10, reason])
    let out := fun b : Bay => ∃ o, (s.cust b).status = .out o ∧ o.holder = holder
    let free := fun b : Bay => out b ∧ (s.cust b).purpose = none
    let chosen := fun b : Bay =>
      (free b ∧ ∀ c, c < b → ¬ free c) ∨ ((∀ c, ¬ free c) ∧ out b ∧ ∀ c, c < b → ¬ out c)
    (s.link.mode = .autonomous → refused 17) ∧
    (s.link.mode = .normal → s.link.lockdown = true → refused 16) ∧
    (s.link.mode = .normal → s.link.lockdown = false →
      (holder = 0 → refused 1) ∧
      (holder ≠ 0 → (∀ b, ¬ out b) → refused 10) ∧
      (holder ≠ 0 → ∀ b, chosen b →
        let st := (s.latch b).state
        let faulty := st = some .jammed ∨ st = some .sensorFault
        let unlocked := st ≠ some .locked ∨ s.pendingMotion b ≠ none ∨ (s.cust b).purpose ≠ none
        (faulty → refused 4) ∧ (¬ faulty → unlocked → refused 3) ∧
        (¬ faulty → ¬ unlocked → ∃ t, run = .next t ∧
          OnlyLatchesPass (s.answer 0xB1 tag [0x01, bayNumber b]) t ∧
          t.cust b = { s.cust b with purpose := some (.returning holder) } ∧
          ((s.latch b).boltIn.level ≠ some true → RetractFollows b s t) ∧ BudgetKept s t)))) ∧
  ∀ (tag bay flags : Byte) (s : State), CanTake s →
    let run := exec (.serviceOpen tag bay flags) s
    let refused := fun reason : Byte => run = .next (s.answer 0xA1 tag [0x10, reason])
    (s.link.mode = .autonomous → refused 17) ∧
    (s.link.mode = .normal →
      (bayOf bay = none → refused 1) ∧
      (∀ b, bayOf bay = some b → (s.latch b).state = none → refused 3) ∧
      ∀ b st, bayOf bay = some b → (s.latch b).state = some st →
        let barred := (st ≠ .locked ∧ st ≠ .jammed) ∨ s.pendingMotion b ≠ none ∨
          (st = .locked ∧ (s.cust b).purpose ≠ none)
        let busy := (s.laneOf b).isSome = true ∧ flags.getLsbD 1 = false
        (st = .sensorFault → refused 4) ∧ (st ≠ .sensorFault → barred → refused 3) ∧
        (¬ barred → busy → refused 6) ∧
        (¬ barred → ¬ busy → ∃ t, run = .next t ∧
          OnlyLatchesPass (s.answer 0xA1 tag [0x01, bayNumber b, st.code]) t ∧
          t.cust b = { s.cust b with purpose := some .service } ∧
          ((s.latch b).boltIn.level ≠ some true → RetractFollows b s t) ∧ BudgetKept s t ∧
          (LaneLaw s → t.laneOf b = none ∧ (t.queued b).isSome = (s.queued b).isSome ∧
            let at_ (k : NoticeKind) (d1 d2 d3 d4 : Byte) : Notice :=
              ⟨k, bayNumber b, s.time.minute, d1, d2, d3, d4⟩
            (∀ l e, (s.lane l).state.held = some e → e.bay = b → ∃ ns, t.link.notices =
              (s.link.queueAll (at_ .provAborted 6 (laneNumber l) (hiByte e.jobTag) (loByte e.jobTag) :: ns)).notices) ∧
            (st = .jammed → ∀ h g d, (s.cust b).purpose = some (.checkout h g d) → ∃ ns, t.link.notices =
              (s.link.queueAll (at_ .checkoutLapsed (hiByte h) (loByte h) g 6 :: ns)).notices) ∧
            (st = .jammed → ∀ h, (s.cust b).purpose = some (.returning h) → ∃ ns, t.link.notices =
              (s.link.queueAll (at_ .returnLapsed (hiByte h) (loByte h) 6 0 :: ns)).notices))))

/-- R138, R139: RESERVE refuses a group of 0 or a count outside 1..32 with RANGE, and a group that holds a reservation
with DUPLICATE. Otherwise the best candidates, by phase, energy and number, up to the count, receive a reservation of
the group for the due minute, with its within-horizon result; the answer is DONE with their number, the due minute, and
their bay numbers best first. R138, R140, R158: RESERVE-CANCEL refuses a group of 0 with RANGE; otherwise it removes
every reservation of the group and is answered DONE with their number. What follows is lane assignment and the passes.
The sizes of the answers' fields are the model's choice (entry 16). -/
def Obligations.ReserveGivesAndCancelRemoves : Prop :=
  (∀ (tag group count : Byte) (due : Word16) (s : State), CanTake s →
    let run := exec (.reserve tag group count due) s
    let refused := fun reason : Byte => run = .next (s.answer 0xB2 tag [0x10, reason])
    let ofGroup := fun b : Bay => ∃ r, (s.cust b).reservation = some r ∧ r.group = group
    let range := group = 0 ∨ count = 0 ∨ 32 < count.toNat
    let candidate := fun b : Bay =>
      (s.cust b).status = .inCart ∧ (s.bay b).presence = true ∧ (s.cust b).reservation = none ∧
      (s.cust b).purpose = none ∧ (s.bay b).state ≠ .latched ∧ (s.latch b).state = some .locked ∧
      s.pendingMotion b = none
    let rank := fun b : Bay => match (s.chg b).phase with | .full => (0 : Nat) | .taper => 1 | .bulk => 2
    let better := fun a b : Bay => rank a < rank b ∨ (rank a = rank b ∧
      ((s.bay b).energy < (s.bay a).energy ∨ ((s.bay a).energy = (s.bay b).energy ∧ a.val < b.val)))
    let minute := s.time.minute + word (max 1 (min 10080 due.toNat))
    let within := past s.time.minute minute = true ∨ (minute - s.time.minute).toNat ≤ s.custodySet.horizon
    (range → refused 1) ∧ (¬ range → (∃ b, ofGroup b) → refused 12) ∧
    (¬ range → (∀ b, ¬ ofGroup b) → ∃ (taken : List Bay) (t : State), run = .next t ∧
      (∀ b ∈ taken, candidate b) ∧ taken.Pairwise better ∧
      (∀ b, candidate b → b ∉ taken → taken.length = count.toNat ∧ ∀ a ∈ taken, better a b) ∧
      taken.length ≤ count.toNat ∧
      OnlyPass
        (State.answer
          { s with custody := Vector.ofFn fun b =>
              if b ∈ taken then { s.cust b with reservation := some ⟨group, minute, decide within⟩ } else s.cust b }
          0xB2 tag ((0x00 : Byte) :: byte taken.length :: (bytes16 minute ++ taken.map bayNumber))) t)) ∧
  ∀ (tag group : Byte) (s : State), CanTake s →
    let ofGroup := fun b : Bay => (s.cust b).reservation.any fun r => r.group = group
    (group = 0 → exec (.reserveCancel tag group) s = .next (s.answer 0xB3 tag [0x10, 1])) ∧
    (group ≠ 0 → ∃ t, exec (.reserveCancel tag group) s = .next t ∧
      OnlyPass
        (State.answer
          { s with custody := Vector.ofFn fun b =>
              if ofGroup b then { s.cust b with reservation := none } else s.cust b }
          0xB3 tag [0x00, byte (allBays.countP ofGroup)]) t ∧
      ((∃ b, ofGroup b = true) → SlotLaw s → LanesServed t))

/-- R129, R146: CUSTODY-LOAD makes its checks in their order; accepted, the record is OUT from the present minute with the
holder and the due minute, and nothing else changes. R138, R141, R147: CUSTODY-SET clamps its three values. A changed
holder limit is refused with IN_USE while a record is OUT or a CHECKOUT is pending; otherwise the values are taken
together and every reservation meets the expiry test, with RESERVATION_EXPIRED for one that ends, and the within-horizon
test. R158: a reservation that ends or leaves the horizon brings a lane assignment run. That every RESERVATION_EXPIRED
stands before whatever the lane assignment and the passes queue is the model's choice: the notice comes before the
assignment run (entry 29, DESIGN CHOICE), and the pass runs at the end of the event (entry 11, DESIGN CHOICE). The sizes
of the answers' fields are the model's choice too (entry 16). -/
def Obligations.CustodyLoadAndCustodySetAreTaken : Prop :=
  (∀ (tag bay : Byte) (holder due : Word16) (s : State), CanTake s →
    let run := exec (.custodyLoad tag bay holder due) s
    let refused := fun reason : Byte => run = .next (s.answer 0xB4 tag [0x10, reason])
    let minutes := min 10080 due.toNat
    let now := s.time.minute
    (bayOf bay = none ∨ holder = 0 → refused 1) ∧
    ∀ b, bayOf bay = some b → holder ≠ 0 →
      let busy := (s.bay b).presence = true ∨ (s.cust b).status ≠ .vacant ∨ (s.cust b).purpose ≠ none
      let full := s.custodySet.holderLimit ≤ holderCount s holder
      (busy → refused 6) ∧ (¬ busy → full → refused 9) ∧
      (¬ busy → ¬ full → run = .next (State.answer
        { s with custody := s.custody.set b { s.cust b with
            status := .out ⟨holder, now, if minutes = 0 then none else some (now + word minutes), false⟩ } }
        0xB4 tag ((0x00 : Byte) :: bay :: (bytes16 now ++ num16 minutes))))) ∧
  ∀ (tag : Byte) (holderLimit horizon grace : Word16) (s : State), CanTake s →
    let c : CustodySettings :=
      { holderLimit := max 1 (min 4 holderLimit.toNat), horizon := min 240 horizon.toNat, grace := min 60 grace.toNat }
    let same := c.holderLimit = holderLimit.toNat ∧ c.horizon = horizon.toNat ∧ c.grace = grace.toNat
    let lent := ∃ b, (∃ o, (s.cust b).status = .out o) ∨ ∃ h g d, (s.cust b).purpose = some (.checkout h g d)
    let now := s.time.minute
    let expired := fun r : Reservation => past now (r.due + word c.grace) = true
    let within := fun r : Reservation => past now r.due = true ∨ (r.due - now).toNat ≤ c.horizon
    (c.holderLimit ≠ s.custodySet.holderLimit → lent →
      exec (.custodySet tag holderLimit horizon grace) s = .next (s.answer 0xB5 tag [0x10, 18])) ∧
    (c.holderLimit = s.custodySet.holderLimit ∨ ¬ lent →
      ∃ t, exec (.custodySet tag holderLimit horizon grace) s = .next t ∧
        OnlyPass
          (State.notices
            (State.answer
              { s with
                custodySet := c
                custody := Vector.ofFn fun b => { s.cust b with
                  reservation := (s.cust b).reservation.bind fun r =>
                    if expired r then none else some { r with within := decide (within r) } } }
              0xB5 tag ((if same then 0x00 else 0x02) ::
                (num16 c.holderLimit ++ num16 c.horizon ++ num16 c.grace)))
            (allBays.filterMap fun b => (s.cust b).reservation.bind fun r =>
              if expired r then some ⟨.reservationExpired, bayNumber b, now, r.group, 0, hiByte r.due, loByte r.due⟩
              else none)) t ∧
        ((∃ b r, (s.cust b).reservation = some r ∧ (expired r ∨ (r.within = true ∧ ¬ within r))) →
          SlotLaw s → LanesServed t))

/-- R132, R138, R141, R142, R143, R148, R158, R193: an advance of the minute counter, from 65,535 back to 0. Bay by bay a
reservation whose grace is past expires, one still held takes its within-horizon result, an OUT record whose due minute is
past is reported overdue once, and a release purpose whose latch is JAMMED or SENSOR_FAULT with no motion waiting lapses,
with their notices in this order. What follows is lane assignment, which a reservation that ends or leaves the horizon
brings, and the passes. That the notices of the advance stand before whatever these queue is the model's choice: the
notice of a reservation comes before its assignment run (entry 29, DESIGN CHOICE), and the pass runs at the end of the
event (entry 11, DESIGN CHOICE). -/
def Obligations.MinuteAdvanceTestsTheRecords : Prop :=
  ∀ s : State, s.held = none →
    let now := s.time.minute + 1
    let expired := fun r : Reservation => past now (r.due + word s.custodySet.grace) = true
    let within := fun r : Reservation => past now r.due = true ∨ (r.due - now).toNat ≤ s.custodySet.horizon
    let overdue := fun o : OutRec => o.overdueReported = false ∧ o.due.any fun due => past now due
    let stuck := fun b : Bay =>
      ((s.latch b).state = some .jammed ∨ (s.latch b).state = some .sensorFault) ∧ s.pendingMotion b = none
    let after := fun b : Bay =>
      let c := s.cust b
      let status := match c.status with
        | .out o => Custody.out (if overdue o then { o with overdueReported := true } else o)
        | st => st
      let reservation := c.reservation.bind fun r =>
        if expired r then none else some { r with within := decide (within r) }
      (⟨status, reservation, if stuck b then none else c.purpose⟩ : CustodyRec)
    let notices := fun b : Bay =>
      let c := s.cust b
      let at_ (k : NoticeKind) (d1 d2 d3 d4 : Byte) : Notice := ⟨k, bayNumber b, now, d1, d2, d3, d4⟩
      (match c.reservation with
        | some r => if expired r then [at_ .reservationExpired r.group 0 (hiByte r.due) (loByte r.due)] else []
        | none => []) ++
      (match c.status with
        | .out o =>
          if overdue o then
            [at_ .overdue (hiByte o.holder) (loByte o.holder) (hiByte (o.due.getD 0)) (loByte (o.due.getD 0))] else []
        | _ => []) ++
      (if stuck b then
        match c.purpose with
        | some (.checkout h g _) => [at_ .checkoutLapsed (hiByte h) (loByte h) g (latchCode (s.latch b).state)]
        | some (.returning h) => [at_ .returnLapsed (hiByte h) (loByte h) (latchCode (s.latch b).state) 0]
        | _ => []
       else [])
    ∃ t, exec .minuteAdvance s = .next t ∧
      OnlyPass
        (State.notices
          { s with time := { s.time with minute := now, minuteTicks := 0 }, custody := Vector.ofFn after }
          (allBays.flatMap notices)) t ∧
      ((∃ b r, (s.cust b).reservation = some r ∧ (expired r ∨ (r.within = true ∧ ¬ within r))) →
        SlotLaw s → LanesServed t)

/-- R128, R129: from every state that meets them, every step keeps the laws that a bay with presence set, and a bay that
carries a reservation, has status IN_CART, and that no holder stands in more OUT records and pending CHECKOUT purposes than
the holder limit. -/
def Obligations.CustodyLawsAreKept : Prop :=
  ∀ s t : State, CustodyLaw s → HolderLaw s → step s = .next t → CustodyLaw t ∧ HolderLaw t

/-! ### The provisioning lanes -/

/-- R157: an assignment run gives the first FREE lane the oldest eligible entry of the first slot, from the pointer on
and round, whose class has one; the lane enters QUALIFYING with its line check started, the entry leaves the queue, the
pointer moves past the slot, and the run goes on. With no FREE lane, or no eligible entry of a class in the table, it
changes nothing. An entry is the oldest when its stamp is older than that of every other eligible entry of its class
(R152). The number that the line check takes is the model's choice (entry 27). -/
def Obligations.AssignmentServesTheSlotsInTurn : Prop :=
  ∀ s : State, SlotLaw s →
    let eligible := fun e : Entry => e ∈ s.prov.queue ∧ EntryEligible s e
    let n := s.prov.slots.length
    let slot := fun k : Nat => s.prov.slots[(s.prov.pointer + k) % n]?
    ((∀ l, (s.lane l).state ≠ .free) → assignmentRun s = s) ∧
    ((∀ e, eligible e → e.cls ∉ s.prov.slots) → assignmentRun s = s) ∧
    ∀ (l : Lane) (k : Nat) (e : Entry), (s.lane l).state = .free → (∀ l' : Lane, l' < l → (s.lane l').state ≠ .free) →
      k < n → (∀ j, j < k → ∀ e', eligible e' → slot j ≠ some e'.cls) → eligible e → slot k = some e.cls →
      (∀ e', eligible e' → e'.cls = e.cls → e' ≠ e → (e'.stamp - e.stamp).toNat < 2147483648 ∧ e'.stamp ≠ e.stamp) →
      assignmentRun s = assignmentRun { s with
        lanes := s.lanes.set l { s.lane l with
          state := .qualifying e (.lineCheck (s.lane l).checks s.time.ms), checks := (s.lane l).checks + 1 }
        prov := { s.prov with
          queue := s.prov.queue.filter fun x => x.bay ≠ e.bay, pointer := (s.prov.pointer + k + 1) % n } }

/-- R162, R170: the release of a lane, cause by cause: the lane's new state and strikes, the entry dropped or requeued
with its attempts and power hold, the notices PROV_ABORTED, PROV_FINISHED and LANE_OUT in this order, and the assignment
run. The rows give the cause, its reason code, whether the entry is dropped, whether an attempt is spent, and the result
of PROV_FINISHED. R163, R165: a held bay is released, with its notice, at a detach with cause DETACHED, at a fault with
cause FAULT, its entry dropped where the bay is LATCHED, at BAY-ENABLE(off) with cause POWER and no hold, and when its
latch leaves LOCKED with cause LATCH. A detach, and an entry to LATCHED, take a queued entry out with PROV_ABORTED of
lane 0; at an entry to HOLD it keeps its place. R164: a pass counts each power hold down by 1 and releases each held bay
whose target is below the lane level, with cause POWER and a hold of 2; every bay that a lane holds after it has its
lane level. -/
def Obligations.ReleaseLetsTheBayGo : Prop :=
  (∀ row ∈ ([(.lineFault, none, true, false, some 3), (.pattern, some 11, false, true, some 2),
      (.doneSuccess, none, true, false, some 0), (.doneFailed, none, true, false, some 1),
      (.doneRetry, none, false, true, some 4), (.timeout, some 8, false, true, some 4),
      (.detached, some 1, true, false, none), (.latch, some 2, false, true, some 4),
      (.enteredHold, some 3, false, true, some 4), (.enteredLatched, some 3, true, false, none),
      (.enteredDisabled, some 4, false, false, none), (.power, some 4, false, false, none),
      (.checkout, some 5, true, false, none), (.service, some 6, true, false, none),
      (.cancelled, some 7, true, false, none), (.autonomous, some 9, false, false, none),
      (.serviceOut, some 10, false, false, none)] :
      List (ReleaseCause × Option Byte × Bool × Bool × Option Byte)),
    ∀ (l : Lane) (e : Entry) (s : State), (s.lane l).state.held = some e →
      let (cause, reason, drops, spends, result) := row
      let exhausted := spends = true ∧ e.attempts ≤ 1
      let gone := drops = true ∨ exhausted
      let strikes := if cause = .pattern then min 3 ((s.lane l).strikes + 1) else (s.lane l).strikes
      let third := cause = .pattern ∧ 2 ≤ (s.lane l).strikes
      let e' := { e with
        attempts := if spends then e.attempts - 1 else e.attempts, hold := if cause = .power then 2 else 0 }
      let at_ (k : NoticeKind) (subject d1 d2 : Byte) : Notice :=
        ⟨k, subject, s.time.minute, d1, d2, hiByte e.jobTag, loByte e.jobTag⟩
      release l cause s = assignmentRun (State.notices
        { s with
          lanes := s.lanes.set l { s.lane l with
            state := if third ∨ cause = .serviceOut then .outOfService else .free, strikes := strikes }
          prov := { s.prov with queue := if gone then s.prov.queue else s.prov.queue ++ [e'] } }
        ((match reason with | some r => [at_ .provAborted (bayNumber e.bay) r (laneNumber l)] | none => []) ++
          (match result with
            | some r => if gone then [at_ .provFinished (bayNumber e.bay) r (laneNumber l)] else []
            | none => []) ++
          (if third then [at_ .laneOut (laneNumber l) 3 (byte (s.lane l).lastErrors)] else [])))) ∧
  (∀ (b : Bay) (l : Lane) (e : Entry) (s : State), s.held = none → LaneLaw s → (s.lane l).state.held = some e →
    e.bay = b →
    let at_ (k : NoticeKind) (d1 : Byte) : Notice :=
      ⟨k, bayNumber b, s.time.minute, d1, laneNumber l, hiByte e.jobTag, loByte e.jobTag⟩
    let goes := fun (i : Instr) (reason : Byte) (drops spends : Bool) => ∃ t, exec i s = .next t ∧
      let exhausted := spends = true ∧ e.attempts ≤ 1
      t.laneOf b = none ∧
      t.queued b = (if drops = true ∨ exhausted then none
        else some { e with attempts := if spends then e.attempts - 1 else e.attempts, hold := 0 }) ∧
      ∃ before after, t.link.notices = (s.link.queueAll
        (before ++ at_ .provAborted reason :: (if exhausted then [at_ .provFinished 4] else []) ++ after)).notices
    let latches := s.superv.retryLimit ≤ (s.bay b).retries
    goes (.detach b) 1 true false ∧ goes (.shortEvent b) 3 (decide latches) (decide ¬ latches) ∧
    (s.link.sending = none → ∀ tag, goes (.bayEnableOff tag (bayNumber b)) 4 false false) ∧
    ∀ contact asserted t, exec (.contactEvent b contact asserted) s = .next t → (t.latch b).state ≠ some .locked →
      goes (.contactEvent b contact asserted) 2 false true) ∧
  (∀ (b : Bay) (e : Entry) (s : State), s.held = none → LaneLaw s → s.queued b = some e →
    let removed := fun (i : Instr) (reason : Byte) => ∃ t, exec i s = .next t ∧ t.queued b = none ∧ t.laneOf b = none ∧
      ∃ before after, t.link.notices = (s.link.queueAll (before ++ (⟨.provAborted, bayNumber b, s.time.minute, reason, 0,
        hiByte e.jobTag, loByte e.jobTag⟩ : Notice) :: after)).notices
    let st := (s.bay b).state
    let latches := s.superv.retryLimit ≤ (s.bay b).retries
    removed (.detach b) 1 ∧
    (st = .charging ∨ st = .waiting ∨ st = .qualifying →
      (latches → removed (.shortEvent b) 3) ∧
      (¬ latches → ∃ t, exec (.shortEvent b) s = .next t ∧ ∃ n, n ≤ e.hold ∧ t.queued b = some { e with hold := n })) ∧
    (st = .qualifying → ∀ p, (s.bay b).probe = some p → removed (.probeComplete b p.number true) 3)) ∧
  ∀ s : State, LaneLaw s →
    let t := runPass s
    let level := fun b => min s.alloc.settings.provFloor (s.profile b).ceiling
    (∀ l e, (t.lane l).state.held = some e → level e.bay ≤ (t.chg e.bay).target) ∧
    (∀ e ∈ s.prov.queue, e.hold ≠ 0 →
      let e' := { e with hold := e.hold - 1 }
      e' ∈ t.prov.queue ∨ (e.hold = 1 ∧ ∃ l, (t.lane l).state.held = some e')) ∧
    ∀ l e, (s.lane l).state.held = some e → (t.chg e.bay).target < level e.bay →
      { e with hold := 2 } ∈ t.prov.queue ∧
      ∃ before after, t.link.notices = (s.link.queueAll (before ++ (⟨.provAborted, bayNumber e.bay, s.time.minute, 4,
        laneNumber l, hiByte e.jobTag, loByte e.jobTag⟩ : Notice) :: after)).notices

/-- R152, R153, R154: PROV-ADD makes its checks in their order; accepted, the entry joins the queue with its attempts
clamped to 1..7 and the next stamp, and an assignment run follows. PROV-CANCEL of a bay outside 1..32 is refused with
RANGE; otherwise a held entry is released with cause CANCELLED, a queued one removed with no notice, and the disposition
answered. That the count of the PROV-ADD answer is taken after the run is the model's choice (entry 15). R161: PROV-DONE
of a lane outside 1..4, or with a result above 2, is refused with RANGE, and with LANE_STATE when the lane is not ACTIVE
with that bay and job tag; otherwise the lane is released as the result says, and the answer is DONE. The sizes of the
fields of the PROV-ADD and PROV-CANCEL answers are the model's choice (entry 16). -/
def Obligations.ProvisioningRequestsAreTaken : Prop :=
  (∀ (tag bay : Byte) (s : State), CanTake s →
    (∀ (cls : Byte) (jobTag : Word16) (attempts : Byte),
      let run := exec (.provAdd tag bay cls jobTag attempts) s
      let refused := fun reason : Byte => run = .next (s.answer 0xC0 tag [0x10, reason])
      (bayOf bay = none ∨ 2 < cls.toNat → refused 1) ∧
      ∀ (b : Bay) (c : ProvClass), bayOf bay = some b → c.code = cls →
        let absent := (s.bay b).presence = false
        let faulty := (s.bay b).dataLine ≠ .clear
        let known := s.queued b ≠ none ∨ s.laneOf b ≠ none
        let full := 32 ≤ s.prov.queue.length
        (absent → refused 2) ∧ (¬ absent → faulty → refused 14) ∧ (¬ absent → ¬ faulty → known → refused 12) ∧
        (¬ absent → ¬ faulty → ¬ known → full → refused 13) ∧
        (¬ absent → ¬ faulty → ¬ known → ¬ full → (s.bay b).state = .latched → refused 7) ∧
        (¬ absent → ¬ faulty → ¬ known → ¬ full → (s.bay b).state ≠ .latched →
          let n := max 1 (min 7 attempts.toNat)
          let u := assignmentRun { s with prov := { s.prov with
            queue := s.prov.queue ++ [⟨b, c, jobTag, n, s.prov.stamp, 0⟩], stamp := s.prov.stamp + 1 } }
          Completes run (u.answer 0xC0 tag
            [if n = attempts.toNat then 0x01 else 0x02, bay, byte n, byte u.prov.queue.length]))) ∧
    (bayOf bay = none → exec (.provCancel tag bay) s = .next (s.answer 0xC1 tag [0x10, 1])) ∧
    ∀ b, bayOf bay = some b →
      (∀ l, s.laneOf b = some l → Completes (exec (.provCancel tag bay) s)
        ((release l .cancelled s).answer 0xC1 tag [0x00, bay, 2, laneNumber l])) ∧
      (s.laneOf b = none → s.queued b ≠ none → exec (.provCancel tag bay) s = .next (State.answer
        { s with prov := { s.prov with queue := s.prov.queue.filter fun e => e.bay ≠ b } } 0xC1 tag
        [0x00, bay, 1, 0])) ∧
      (s.laneOf b = none → s.queued b = none →
        exec (.provCancel tag bay) s = .next (s.answer 0xC1 tag [0x00, bay, 0, 0]))) ∧
  ∀ (tag lane bay : Byte) (jobTag : Word16) (result : Byte) (s : State), CanTake s →
    let run := exec (.provDone tag lane bay jobTag result) s
    let refused := fun reason : Byte => run = .next (s.answer 0xC2 tag [0x10, reason])
    (laneOfByte lane = none ∨ 2 < result.toNat → refused 1) ∧
    ∀ l cause, laneOfByte lane = some l →
      (result = 0 ∧ cause = .doneSuccess) ∨ (result = 1 ∧ cause = .doneFailed) ∨ (result = 2 ∧ cause = .doneRetry) →
      let session := ∃ e expiry, (s.lane l).state = .active e expiry ∧ bayNumber e.bay = bay ∧ e.jobTag = jobTag
      (¬ session → refused 15) ∧
      (session → Completes run ((release l cause s).answer 0xC2 tag [0x00]))

/-- R167: LANE-SERVICE of a lane outside 1..4 is refused with RANGE. Out takes a FREE lane out of service and releases a
held one with cause SERVICE_OUT; in sets the strikes to 0, and returns a lane that is out of service to FREE with an
assignment run. The answer is DONE with the lane's record as it then stands. R168: SLOT-TABLE refuses a length of 0 or
above 16, or a class above 2, with RANGE; otherwise the classes become the table, the pointer its first slot, and an
assignment run follows. That a wrong byte count is MALFORMED before these checks is the model's reading of R176 (entry
23). The sizes of the fields of LANE-SERVICE's record are the model's choice (entry 16), and so is the length byte
before the classes in SLOT-TABLE's answer (entry 40). -/
def Obligations.LaneServiceAndSlotTableAreTaken : Prop :=
  (∀ (tag lane : Byte) (s : State), CanTake s →
    (laneOfByte lane = none →
      exec (.laneServiceOut tag lane) s = .next (s.answer 0xC3 tag [0x10, 1]) ∧
      exec (.laneServiceIn tag lane) s = .next (s.answer 0xC3 tag [0x10, 1])) ∧
    ∀ l, laneOfByte lane = some l →
      let r := s.lane l
      let put := fun r' : LaneRec => { s with lanes := s.lanes.set l r' }
      let outs := match r.state with
        | .free => put { r with state := .outOfService }
        | .outOfService => s
        | .qualifying _ _ => release l .serviceOut s
        | .active _ _ => release l .serviceOut s
      let ins := match r.state with
        | .outOfService => assignmentRun (put { r with state := .free, strikes := 0 })
        | st => put { r with state := st, strikes := 0 }
      let answered := fun u : State =>
        let x := u.lane l
        let record : List Byte := match x.state with
          | .free => [0, byte x.strikes, byte x.lastErrors, 0, 0, 0]
          | .qualifying e _ =>
            [1, byte x.strikes, byte x.lastErrors, bayNumber e.bay, hiByte e.jobTag, loByte e.jobTag]
          | .active e _ =>
            [2, byte x.strikes, byte x.lastErrors, bayNumber e.bay, hiByte e.jobTag, loByte e.jobTag]
          | .outOfService => [3, byte x.strikes, byte x.lastErrors, 0, 0, 0]
        u.answer 0xC3 tag (0x00 :: record)
      Completes (exec (.laneServiceOut tag lane) s) (answered outs) ∧ Completes (exec (.laneServiceIn tag lane) s) (answered ins)) ∧
  ∀ (tag length : Byte) (classes : List Byte) (s : State), CanTake s →
    let run := exec (.slotTable tag length classes) s
    (classes.length ≠ length.toNat → run = .next (s.answer 0xC4 tag [0x13])) ∧
    (classes.length = length.toNat → length = 0 ∨ 16 < length.toNat ∨ (∃ c ∈ classes, 2 < c.toNat) →
      run = .next (s.answer 0xC4 tag [0x10, 1])) ∧
    ∀ slots : List ProvClass, classes = slots.map ProvClass.code → slots.length = length.toNat → length ≠ 0 →
      length.toNat ≤ 16 → Completes run
        ((assignmentRun { s with prov := { s.prov with slots := slots, pointer := 0 } }).answer 0xC4 tag
          (0x00 :: length :: classes))

/-- R16, R159, R160, R170: the end of a qualification step or a session. A clear line check starts the pattern check; a
fault found sets the bay's data-line flag and releases the lane; a missing result at its deadline, and a pattern check
above the threshold, release it with cause PATTERN; at or below the threshold the lane enters ACTIVE with its session
timer started, its strikes at 0 and LANE_READY queued; the session expiry releases it with cause TIMEOUT. A step of
qualification is named by its number (entry 27), and the end of any other changes nothing (entry 4). -/
def Obligations.LaneStepsEnd : Prop :=
  ∀ (l : Lane) (s : State), s.held = none →
    let r := s.lane l
    let put := fun r' : LaneRec => { s with lanes := s.lanes.set l r' }
    (∀ e number started, r.state = .qualifying e (.lineCheck number started) →
      exec (.lineCheckResult l number .clear) s =
        .next (put { r with state := .qualifying e (.patternCheck r.checks s.time.ms), checks := r.checks + 1 }) ∧
      (∀ found, found ≠ .clear → Completes (exec (.lineCheckResult l number found) s)
        (release l .lineFault { s with bays := s.bays.set e.bay { s.bay e.bay with dataLine := found } })) ∧
      Completes (exec (.lineCheckDeadline l) s) (release l .pattern s)) ∧
    (∀ e number started errors, r.state = .qualifying e (.patternCheck number started) →
      let n := min 255 errors
      (n ≤ s.prov.settings.threshold → exec (.patternCheckEnd l number errors) s =
        .next (State.notices
          (put { r with
            state := .active e (s.time.ms + s.prov.settings.sessionLimit * 60000), strikes := 0, lastErrors := n })
          [⟨.laneReady, bayNumber e.bay, s.time.minute, laneNumber l, e.cls.code, hiByte e.jobTag, loByte e.jobTag⟩])) ∧
      (s.prov.settings.threshold < n → Completes (exec (.patternCheckEnd l number errors) s)
        (release l .pattern (put { r with lastErrors := n })))) ∧
    (∀ e expiry, r.state = .active e expiry → Completes (exec (.sessionExpiry l) s) (release l .timeout s)) ∧
    (∀ number found errors,
      ((∀ e started, r.state ≠ .qualifying e (.lineCheck number started)) →
        exec (.lineCheckResult l number found) s = .next s) ∧
      ((∀ e started, r.state ≠ .qualifying e (.patternCheck number started)) →
        exec (.patternCheckEnd l number errors) s = .next s)) ∧
    ((∀ e number started, r.state ≠ .qualifying e (.lineCheck number started)) →
      exec (.lineCheckDeadline l) s = .next s) ∧
    ((∀ e expiry, r.state ≠ .active e expiry) → exec (.sessionExpiry l) s = .next s)

/-- R90, R98, R152, R155, R157, R163: from every state that meets the laws of the latches, of the bays and of the lanes,
every step keeps those of the bays and the lanes: a bay has at most one entry, in the queue or held by one lane; a held
bay is present, CHARGING and LOCKED; a queued bay is present and not LATCHED; and probe, backoff and clean-charge timer
stand only in their states. R55, R56: every step keeps each eligible bay in the tier that its lane, reservation and
phase give. R9, R159: a probe or qualification step that a step of the part starts takes a number that none of its bay
or lane has had (the model's numbers, entry 27), so that the late result of an abandoned one is discarded. -/
def Obligations.BayAndLaneLawsAreKept : Prop :=
  ∀ s t : State, LatchLaw s → SeatLaw s → LaneLaw s → step s = .next t →
    SeatLaw t ∧ LaneLaw t ∧ (SlotLaw s → SlotLaw t) ∧ (TierLaw s → TierLaw t) ∧ NumbersFresh s t

/-! ### The Settings Store, reset and restart -/

/-- R188: STORE-SAVE with a save in flight is answered BUSY; otherwise it is answered ACCEPTED and a copy of every
working setting is made. Words are written in order from that copy with fresh check bits. When word 64 has been written
the save completes: the flag is cleared, the stored inlet limit is the one written, and STORE_SAVED is queued. That a
word written with no save in flight, or after word 64, does nothing is the model's choice (entry 4). The 0 in data byte
4 of STORE_SAVED is its choice too (entry 43), and so is that the completion is a step of its own, after the one that
writes word 64 (entry 45). -/
def Obligations.StoreSaveWritesItsCopy : Prop :=
  ∀ (tag : Byte) (s : State),
    (CanTake s → exec (.storeSave tag) s = .next (if s.store.save.isSome then s.answer 0xD2 tag [0x11] else
      State.answer
        { s with store := { s.store with
          save := some
            { copy :=
                { rate := s.link.rate, period := s.link.period, scanMode := s.scan.mode
                  periodCode := s.scan.periodCode, budget := s.budget.settings, latch := s.latchUnit.settings
                  charge := s.alloc.settings, superv := s.superv, custody := s.custodySet, prov := s.prov.settings
                  slots := s.prov.slots, profiles := s.alloc.profiles }
              minute := s.time.minute, next := 0 } } } 0xD2 tag [0x01])) ∧
    (s.held = none →
      (s.store.save = none → exec .storeWordWrite s = .next s ∧ exec .saveComplete s = .next s) ∧
      ∀ v, s.store.save = some v →
        (∀ h : v.next < 64, exec .storeWordWrite s = .next { s with store := { s.store with
          words := s.store.words.set v.next (savedWord v.copy ⟨v.next, h⟩)
          save := some { v with next := v.next + 1 } } }) ∧
        (v.next = 64 → exec .storeWordWrite s = .next s ∧
          exec .saveComplete s = .next (State.notices
            { s with
              store := { s.store with save := none }
              budget := { s.budget with storedInlet := v.copy.budget.inlet } }
            [⟨.storeSaved, 0, s.time.minute, hiByte v.minute, loByte v.minute, 64, 0⟩])))

/-- R186, R187: settings in their ranges, written word by word as a save writes them, are read back by the load, a
single wrong bit in a word making no difference; a word with two wrong bits counts as the word of the built-in defaults;
and whatever the words hold, every setting that the load takes lies in its range. How a word holds its setting, as
numbers and not as packed bits, is the model's choice (entry 6). -/
def Obligations.LoadReadsWhatASaveWrote : Prop :=
  (∀ (c : Settings) (words : Vector StoreWord 64), SettingsInRange c →
    (∀ i : Fin 64, words[i].wrong ≠ .two ∧ { words[i] with wrong := .zero } = savedWord c i) →
    loadSettings words = c) ∧
  (∀ words : Vector StoreWord 64, loadSettings words = loadSettings (Vector.ofFn fun i =>
    if words[i].wrong = .two then savedWord defaultSettings i else words[i])) ∧
  ∀ words : Vector StoreWord 64, SettingsInRange (loadSettings words)

/-- R19, R33, R50, R72, R89, R105, R126, R149, R171, R183, R189, R190, R193: a full reset abandons a save in flight,
sets the store flags as the words tell, takes every working setting from the load, and gives every block its values
after a full reset; at power-on or by RST the part is held so until the reset ends, when the first round, thermal,
starts. The raw lines (entry 3), the free values (entry 10) and the waiting commands are no part of the reset. By the
model's choice (entry 4) a RESTART(FULL) reset that is no answer's end is taken at once, one that comes while the part
is held does nothing, and neither does an end of reset while it is not. That the ms clock is 0 after a full reset is the
model's choice too (entry 26). R10: so is it that the counts which number probes and checks run on (entry 27). -/
def Obligations.FullResetLeavesItsValues : Prop :=
  ∀ s : State,
    let leaves := fun (held : Option ResetCause) (round : Option Round) (t : State) =>
      ∃ (words : Vector StoreWord 64) (free : Nat),
        (s.store.save = none → words = s.store.words) ∧
        (∀ v, s.store.save = some v → ∀ i : Fin 64,
          words[i] = s.store.words[i] ∨ (i.val = v.next ∧
            (words[i] = savedWord v.copy i ∨ words[i] = { s.store.words[i] with wrong := .two }))) ∧
        let c := loadSettings words
        t = {
          bays := Vector.ofFn fun b => { BayRec.initial with probes := (s.bay b).probes }
          superv := c.superv
          charge := Vector.replicate 32
            { tier := .normal, target := 0, pendingInc := none, phase := .bulk, dynCeiling := c.profiles[0].ceiling
              profile := 0, reclaim := 0, press := 0, taperN := 0, fullN := 0, wakeN := 0 }
          alloc :=
            { rotation := 0, settleTimer := none, remainder := 0, settings := c.charge, profiles := c.profiles
              passAsked := false }
          scan :=
            { mode := c.scanMode, periodCode := c.periodCode, round := round, index := 0, number := 0, wait := none
              working := Working.cleared, latestDraw := Vector.replicate 32 255
              latestTemp := Vector.replicate 32 255, latestZone := Vector.replicate 4 255, snapshot := none
              fresh := .never }
          budget :=
            { settings := c.budget, storedInlet := c.budget.inlet, shed := false, shedRun := 0, h := none
              zonesInvalid := false, derate := 256, computed := 0, established := false, lastPass := none }
          latches := Vector.replicate 32 LatchRec.initial
          latchUnit := { queue := [], settings := c.latch }
          custody := Vector.replicate 32 { status := .vacant, reservation := none, purpose := none }
          custodySet := c.custody
          lanes := Vector.ofFn fun l =>
            { state := .free, strikes := 0, lastErrors := 0, checks := (s.lane l).checks }
          prov := { queue := [], stamp := 0, slots := c.slots, pointer := 0, settings := c.prov }
          link :=
            { rx := .hunting, buffer := [], sending := none, frameError := false, overrun := false
              overflow := false, notices := [], armed := false, period := c.period, watchdog := none
              mode := .normal, lockdown := false, rate := c.rate, lineRate := c.rate }
          store :=
            { words := words, save := none, corrected := words.any fun w => w.wrong = .one
              fault := words.any fun w => w.wrong = .two }
          time := { ms := 0, minute := 0, minuteTicks := 0 }
          held := held, pins := s.pins, freeDraws := free, pending := s.pending }
    let first : Round := { thermal := true, mark := false, awaiting := some (.bay 0), deadline := 20 }
    (∀ cause, cause ≠ .restartFull → ∃ t u, exec (.fullReset cause) s = .next t ∧ leaves (some cause) none t ∧
      exec .resetEnd t = .next u ∧ leaves none (some first) u) ∧
    (s.held = none → ∃ t, exec (.fullReset .restartFull) s = .next t ∧ leaves none (some first) t) ∧
    (s.held ≠ none → exec (.fullReset .restartFull) s = .next s) ∧
    (s.held = none → exec .resetEnd s = .next s)

/-- R191, R192, R19, R33, R50, R72, R89, R105, R126, R150, R171, R183, R189: RESTART(FULL) is answered DONE, and a full
reset follows the answer. RESTART(WARM) is one event: the working settings, profiles and slots, the custody records with
their reservations, the lockdown flag, the lanes' strikes, error counts and out-of-service states, the store flags and
the minute counter are kept; release purposes end with no notice; every other item takes its value after a warm restart,
and the first round starts; the answer is DONE. That the ms clock is kept is the model's (entry 26). The value byte of
the two answers is the model's choice (entry 16). So is it that the counts which number probes and checks run on (entry
27). -/
def Obligations.RestartKeepsWhatItMust : Prop :=
  ∀ (tag : Byte) (s : State), CanTake s →
    exec (.restartFull tag) s =
      .next { s with link := { s.link with sending := some ⟨⟨0xD3, tag, [0x00, 0]⟩, true⟩ } } ∧
    ∃ (words : Vector StoreWord 64) (free : Nat),
      (s.store.save = none → words = s.store.words) ∧
      (∀ v, s.store.save = some v → ∀ i : Fin 64,
        words[i] = s.store.words[i] ∨ (i.val = v.next ∧
          (words[i] = savedWord v.copy i ∨ words[i] = { s.store.words[i] with wrong := .two }))) ∧
      exec (.restartWarm tag) s = .next (State.answer
        { s with
          bays := Vector.ofFn fun b => { BayRec.initial with probes := (s.bay b).probes }
          charge := Vector.ofFn fun b =>
            { tier := .normal, target := 0, pendingInc := none, phase := .bulk, dynCeiling := (s.profile b).ceiling
              profile := (s.chg b).profile, reclaim := 0, press := 0, taperN := 0, fullN := 0, wakeN := 0 }
          alloc := { s.alloc with rotation := 0, settleTimer := none, remainder := 0, passAsked := false }
          scan := { s.scan with
            round := some { thermal := true, mark := false, awaiting := some (.bay 0), deadline := s.time.ms + 20 }
            index := 0, number := 0, wait := none, working := Working.cleared
            latestDraw := Vector.replicate 32 255, latestTemp := Vector.replicate 32 255
            latestZone := Vector.replicate 4 255, snapshot := none, fresh := .never }
          budget := { s.budget with
            shed := false, shedRun := 0, h := none, zonesInvalid := false, derate := 256, computed := 0
            established := false, lastPass := none }
          latches := Vector.replicate 32 LatchRec.initial
          latchUnit := { s.latchUnit with queue := [] }
          custody := Vector.ofFn fun b => { s.cust b with purpose := none }
          lanes := Vector.ofFn fun l => { s.lane l with
            state := if (s.lane l).state = .outOfService then .outOfService else .free }
          prov := { s.prov with queue := [], stamp := 0, pointer := 0 }
          link := { s.link with
            rx := .hunting, buffer := [], frameError := false, overrun := false, overflow := false, notices := []
            armed := false, watchdog := none, mode := .normal }
          store := { s.store with words := words, save := none }
          freeDraws := free } 0xD3 tag [0x00, 1])

/-- The state right after reset, its store holding the built-in defaults by the model's choice (entries 7 and 22), is the
one that a full reset leaves, and it meets every law that the statements above keep. -/
def Obligations.ResetMeetsTheLaws : Prop :=
  (∀ cause, cause ≠ .restartFull → exec (.fullReset cause) State.reset = .next { State.reset with
    scan := { State.reset.scan with round := none }, held := some cause }) ∧
  exec (.fullReset .restartFull) State.reset = .next State.reset ∧
  NoticeLaw State.reset ∧ BufferLaw State.reset ∧ AutonomousLaw State.reset ∧ GrantLaw State.reset ∧
  PowerLaw State.reset ∧ SettingsLaw State.reset ∧ CeilingLaw State.reset ∧ BudgetLaw State.reset ∧
  LatchLaw State.reset ∧ TargetLaw State.reset ∧ CustodyLaw State.reset ∧ HolderLaw State.reset ∧ SeatLaw State.reset ∧
  LaneLaw State.reset ∧ SlotLaw State.reset ∧ TierLaw State.reset ∧ CanTake State.reset ∧ Settled State.reset
end

