-- ==== Sys2Proof/Laws/State.lean ====
section
/-! SUPPORT. The small lemmas of the accessors: what each named update leaves and what it writes, so that no later proof
unfolds a record update. -/

namespace Sys2Proof.Machine

/-! ### setBay -/

@[simp] theorem setBay_superv (s : State) (b : Bay) (r : BayRec) : (s.setBay b r).superv = s.superv := rfl
@[simp] theorem setBay_charge (s : State) (b : Bay) (r : BayRec) : (s.setBay b r).charge = s.charge := rfl
@[simp] theorem chg_setBay (s : State) (b : Bay) (r : BayRec) (c : Bay) : (s.setBay b r).chg c = s.chg c := rfl
@[simp] theorem setBay_alloc (s : State) (b : Bay) (r : BayRec) : (s.setBay b r).alloc = s.alloc := rfl
@[simp] theorem setBay_scan (s : State) (b : Bay) (r : BayRec) : (s.setBay b r).scan = s.scan := rfl
@[simp] theorem setBay_budget (s : State) (b : Bay) (r : BayRec) : (s.setBay b r).budget = s.budget := rfl
@[simp] theorem setBay_latches (s : State) (b : Bay) (r : BayRec) : (s.setBay b r).latches = s.latches := rfl
@[simp] theorem latch_setBay (s : State) (b : Bay) (r : BayRec) (c : Bay) : (s.setBay b r).latch c = s.latch c := rfl
@[simp] theorem setBay_latchUnit (s : State) (b : Bay) (r : BayRec) : (s.setBay b r).latchUnit = s.latchUnit := rfl
@[simp] theorem setBay_custody (s : State) (b : Bay) (r : BayRec) : (s.setBay b r).custody = s.custody := rfl
@[simp] theorem cust_setBay (s : State) (b : Bay) (r : BayRec) (c : Bay) : (s.setBay b r).cust c = s.cust c := rfl
@[simp] theorem setBay_custodySet (s : State) (b : Bay) (r : BayRec) : (s.setBay b r).custodySet = s.custodySet := rfl
@[simp] theorem setBay_lanes (s : State) (b : Bay) (r : BayRec) : (s.setBay b r).lanes = s.lanes := rfl
@[simp] theorem lane_setBay (s : State) (b : Bay) (r : BayRec) (m : Lane) : (s.setBay b r).lane m = s.lane m := rfl
@[simp] theorem setBay_prov (s : State) (b : Bay) (r : BayRec) : (s.setBay b r).prov = s.prov := rfl
@[simp] theorem setBay_link (s : State) (b : Bay) (r : BayRec) : (s.setBay b r).link = s.link := rfl
@[simp] theorem setBay_store (s : State) (b : Bay) (r : BayRec) : (s.setBay b r).store = s.store := rfl
@[simp] theorem setBay_time (s : State) (b : Bay) (r : BayRec) : (s.setBay b r).time = s.time := rfl
@[simp] theorem setBay_held (s : State) (b : Bay) (r : BayRec) : (s.setBay b r).held = s.held := rfl
@[simp] theorem setBay_pins (s : State) (b : Bay) (r : BayRec) : (s.setBay b r).pins = s.pins := rfl
@[simp] theorem setBay_freeDraws (s : State) (b : Bay) (r : BayRec) : (s.setBay b r).freeDraws = s.freeDraws := rfl
@[simp] theorem setBay_pending (s : State) (b : Bay) (r : BayRec) : (s.setBay b r).pending = s.pending := rfl
@[simp] theorem bay_setBay_self (s : State) (b : Bay) (r : BayRec) : (s.setBay b r).bay b = r := by
  simp [State.bay, State.setBay]
@[simp] theorem bay_setBay_ne (s : State) (b c : Bay) (r : BayRec) (h : c ≠ b) :
    (s.setBay b r).bay c = s.bay c := by
  simp only [State.bay, State.setBay, Fin.getElem_fin]
  exact Vector.getElem_set_ne _ _ (fun e => h (Fin.ext e.symm))
@[simp] theorem setBay_bay (s : State) (b : Bay) : s.setBay b (s.bay b) = s := by
  simp [State.bay, State.setBay]
theorem bay_setBay (s : State) (b c : Bay) (r : BayRec) :
    (s.setBay b r).bay c = if c = b then r else s.bay c := by
  split
  · subst_vars; simp
  · simp_all

/-! ### setChg -/

@[simp] theorem setChg_bays (s : State) (b : Bay) (r : ChargeRec) : (s.setChg b r).bays = s.bays := rfl
@[simp] theorem bay_setChg (s : State) (b : Bay) (r : ChargeRec) (c : Bay) : (s.setChg b r).bay c = s.bay c := rfl
@[simp] theorem setChg_superv (s : State) (b : Bay) (r : ChargeRec) : (s.setChg b r).superv = s.superv := rfl
@[simp] theorem setChg_alloc (s : State) (b : Bay) (r : ChargeRec) : (s.setChg b r).alloc = s.alloc := rfl
@[simp] theorem setChg_scan (s : State) (b : Bay) (r : ChargeRec) : (s.setChg b r).scan = s.scan := rfl
@[simp] theorem setChg_budget (s : State) (b : Bay) (r : ChargeRec) : (s.setChg b r).budget = s.budget := rfl
@[simp] theorem setChg_latches (s : State) (b : Bay) (r : ChargeRec) : (s.setChg b r).latches = s.latches := rfl
@[simp] theorem latch_setChg (s : State) (b : Bay) (r : ChargeRec) (c : Bay) : (s.setChg b r).latch c = s.latch c := rfl
@[simp] theorem setChg_latchUnit (s : State) (b : Bay) (r : ChargeRec) : (s.setChg b r).latchUnit = s.latchUnit := rfl
@[simp] theorem setChg_custody (s : State) (b : Bay) (r : ChargeRec) : (s.setChg b r).custody = s.custody := rfl
@[simp] theorem cust_setChg (s : State) (b : Bay) (r : ChargeRec) (c : Bay) : (s.setChg b r).cust c = s.cust c := rfl
@[simp] theorem setChg_custodySet (s : State) (b : Bay) (r : ChargeRec) : (s.setChg b r).custodySet = s.custodySet := rfl
@[simp] theorem setChg_lanes (s : State) (b : Bay) (r : ChargeRec) : (s.setChg b r).lanes = s.lanes := rfl
@[simp] theorem lane_setChg (s : State) (b : Bay) (r : ChargeRec) (m : Lane) : (s.setChg b r).lane m = s.lane m := rfl
@[simp] theorem setChg_prov (s : State) (b : Bay) (r : ChargeRec) : (s.setChg b r).prov = s.prov := rfl
@[simp] theorem setChg_link (s : State) (b : Bay) (r : ChargeRec) : (s.setChg b r).link = s.link := rfl
@[simp] theorem setChg_store (s : State) (b : Bay) (r : ChargeRec) : (s.setChg b r).store = s.store := rfl
@[simp] theorem setChg_time (s : State) (b : Bay) (r : ChargeRec) : (s.setChg b r).time = s.time := rfl
@[simp] theorem setChg_held (s : State) (b : Bay) (r : ChargeRec) : (s.setChg b r).held = s.held := rfl
@[simp] theorem setChg_pins (s : State) (b : Bay) (r : ChargeRec) : (s.setChg b r).pins = s.pins := rfl
@[simp] theorem setChg_freeDraws (s : State) (b : Bay) (r : ChargeRec) : (s.setChg b r).freeDraws = s.freeDraws := rfl
@[simp] theorem setChg_pending (s : State) (b : Bay) (r : ChargeRec) : (s.setChg b r).pending = s.pending := rfl
@[simp] theorem chg_setChg_self (s : State) (b : Bay) (r : ChargeRec) : (s.setChg b r).chg b = r := by
  simp [State.chg, State.setChg]
@[simp] theorem chg_setChg_ne (s : State) (b c : Bay) (r : ChargeRec) (h : c ≠ b) :
    (s.setChg b r).chg c = s.chg c := by
  simp only [State.chg, State.setChg, Fin.getElem_fin]
  exact Vector.getElem_set_ne _ _ (fun e => h (Fin.ext e.symm))
@[simp] theorem setChg_chg (s : State) (b : Bay) : s.setChg b (s.chg b) = s := by
  simp [State.chg, State.setChg]
theorem chg_setChg (s : State) (b c : Bay) (r : ChargeRec) :
    (s.setChg b r).chg c = if c = b then r else s.chg c := by
  split
  · subst_vars; simp
  · simp_all

/-! ### setLatch -/

@[simp] theorem setLatch_bays (s : State) (b : Bay) (r : LatchRec) : (s.setLatch b r).bays = s.bays := rfl
@[simp] theorem bay_setLatch (s : State) (b : Bay) (r : LatchRec) (c : Bay) : (s.setLatch b r).bay c = s.bay c := rfl
@[simp] theorem setLatch_superv (s : State) (b : Bay) (r : LatchRec) : (s.setLatch b r).superv = s.superv := rfl
@[simp] theorem setLatch_charge (s : State) (b : Bay) (r : LatchRec) : (s.setLatch b r).charge = s.charge := rfl
@[simp] theorem chg_setLatch (s : State) (b : Bay) (r : LatchRec) (c : Bay) : (s.setLatch b r).chg c = s.chg c := rfl
@[simp] theorem setLatch_alloc (s : State) (b : Bay) (r : LatchRec) : (s.setLatch b r).alloc = s.alloc := rfl
@[simp] theorem setLatch_scan (s : State) (b : Bay) (r : LatchRec) : (s.setLatch b r).scan = s.scan := rfl
@[simp] theorem setLatch_budget (s : State) (b : Bay) (r : LatchRec) : (s.setLatch b r).budget = s.budget := rfl
@[simp] theorem setLatch_latchUnit (s : State) (b : Bay) (r : LatchRec) : (s.setLatch b r).latchUnit = s.latchUnit := rfl
@[simp] theorem setLatch_custody (s : State) (b : Bay) (r : LatchRec) : (s.setLatch b r).custody = s.custody := rfl
@[simp] theorem cust_setLatch (s : State) (b : Bay) (r : LatchRec) (c : Bay) : (s.setLatch b r).cust c = s.cust c := rfl
@[simp] theorem setLatch_custodySet (s : State) (b : Bay) (r : LatchRec) : (s.setLatch b r).custodySet = s.custodySet := rfl
@[simp] theorem setLatch_lanes (s : State) (b : Bay) (r : LatchRec) : (s.setLatch b r).lanes = s.lanes := rfl
@[simp] theorem lane_setLatch (s : State) (b : Bay) (r : LatchRec) (m : Lane) : (s.setLatch b r).lane m = s.lane m := rfl
@[simp] theorem setLatch_prov (s : State) (b : Bay) (r : LatchRec) : (s.setLatch b r).prov = s.prov := rfl
@[simp] theorem setLatch_link (s : State) (b : Bay) (r : LatchRec) : (s.setLatch b r).link = s.link := rfl
@[simp] theorem setLatch_store (s : State) (b : Bay) (r : LatchRec) : (s.setLatch b r).store = s.store := rfl
@[simp] theorem setLatch_time (s : State) (b : Bay) (r : LatchRec) : (s.setLatch b r).time = s.time := rfl
@[simp] theorem setLatch_held (s : State) (b : Bay) (r : LatchRec) : (s.setLatch b r).held = s.held := rfl
@[simp] theorem setLatch_pins (s : State) (b : Bay) (r : LatchRec) : (s.setLatch b r).pins = s.pins := rfl
@[simp] theorem setLatch_freeDraws (s : State) (b : Bay) (r : LatchRec) : (s.setLatch b r).freeDraws = s.freeDraws := rfl
@[simp] theorem setLatch_pending (s : State) (b : Bay) (r : LatchRec) : (s.setLatch b r).pending = s.pending := rfl
@[simp] theorem latch_setLatch_self (s : State) (b : Bay) (r : LatchRec) : (s.setLatch b r).latch b = r := by
  simp [State.latch, State.setLatch]
@[simp] theorem latch_setLatch_ne (s : State) (b c : Bay) (r : LatchRec) (h : c ≠ b) :
    (s.setLatch b r).latch c = s.latch c := by
  simp only [State.latch, State.setLatch, Fin.getElem_fin]
  exact Vector.getElem_set_ne _ _ (fun e => h (Fin.ext e.symm))
@[simp] theorem setLatch_latch (s : State) (b : Bay) : s.setLatch b (s.latch b) = s := by
  simp [State.latch, State.setLatch]
theorem latch_setLatch (s : State) (b c : Bay) (r : LatchRec) :
    (s.setLatch b r).latch c = if c = b then r else s.latch c := by
  split
  · subst_vars; simp
  · simp_all

/-! ### setCust -/

@[simp] theorem setCust_bays (s : State) (b : Bay) (r : CustodyRec) : (s.setCust b r).bays = s.bays := rfl
@[simp] theorem bay_setCust (s : State) (b : Bay) (r : CustodyRec) (c : Bay) : (s.setCust b r).bay c = s.bay c := rfl
@[simp] theorem setCust_superv (s : State) (b : Bay) (r : CustodyRec) : (s.setCust b r).superv = s.superv := rfl
@[simp] theorem setCust_charge (s : State) (b : Bay) (r : CustodyRec) : (s.setCust b r).charge = s.charge := rfl
@[simp] theorem chg_setCust (s : State) (b : Bay) (r : CustodyRec) (c : Bay) : (s.setCust b r).chg c = s.chg c := rfl
@[simp] theorem setCust_alloc (s : State) (b : Bay) (r : CustodyRec) : (s.setCust b r).alloc = s.alloc := rfl
@[simp] theorem setCust_scan (s : State) (b : Bay) (r : CustodyRec) : (s.setCust b r).scan = s.scan := rfl
@[simp] theorem setCust_budget (s : State) (b : Bay) (r : CustodyRec) : (s.setCust b r).budget = s.budget := rfl
@[simp] theorem setCust_latches (s : State) (b : Bay) (r : CustodyRec) : (s.setCust b r).latches = s.latches := rfl
@[simp] theorem latch_setCust (s : State) (b : Bay) (r : CustodyRec) (c : Bay) : (s.setCust b r).latch c = s.latch c := rfl
@[simp] theorem setCust_latchUnit (s : State) (b : Bay) (r : CustodyRec) : (s.setCust b r).latchUnit = s.latchUnit := rfl
@[simp] theorem setCust_custodySet (s : State) (b : Bay) (r : CustodyRec) : (s.setCust b r).custodySet = s.custodySet := rfl
@[simp] theorem setCust_lanes (s : State) (b : Bay) (r : CustodyRec) : (s.setCust b r).lanes = s.lanes := rfl
@[simp] theorem lane_setCust (s : State) (b : Bay) (r : CustodyRec) (m : Lane) : (s.setCust b r).lane m = s.lane m := rfl
@[simp] theorem setCust_prov (s : State) (b : Bay) (r : CustodyRec) : (s.setCust b r).prov = s.prov := rfl
@[simp] theorem setCust_link (s : State) (b : Bay) (r : CustodyRec) : (s.setCust b r).link = s.link := rfl
@[simp] theorem setCust_store (s : State) (b : Bay) (r : CustodyRec) : (s.setCust b r).store = s.store := rfl
@[simp] theorem setCust_time (s : State) (b : Bay) (r : CustodyRec) : (s.setCust b r).time = s.time := rfl
@[simp] theorem setCust_held (s : State) (b : Bay) (r : CustodyRec) : (s.setCust b r).held = s.held := rfl
@[simp] theorem setCust_pins (s : State) (b : Bay) (r : CustodyRec) : (s.setCust b r).pins = s.pins := rfl
@[simp] theorem setCust_freeDraws (s : State) (b : Bay) (r : CustodyRec) : (s.setCust b r).freeDraws = s.freeDraws := rfl
@[simp] theorem setCust_pending (s : State) (b : Bay) (r : CustodyRec) : (s.setCust b r).pending = s.pending := rfl
@[simp] theorem cust_setCust_self (s : State) (b : Bay) (r : CustodyRec) : (s.setCust b r).cust b = r := by
  simp [State.cust, State.setCust]
@[simp] theorem cust_setCust_ne (s : State) (b c : Bay) (r : CustodyRec) (h : c ≠ b) :
    (s.setCust b r).cust c = s.cust c := by
  simp only [State.cust, State.setCust, Fin.getElem_fin]
  exact Vector.getElem_set_ne _ _ (fun e => h (Fin.ext e.symm))
@[simp] theorem setCust_cust (s : State) (b : Bay) : s.setCust b (s.cust b) = s := by
  simp [State.cust, State.setCust]
theorem cust_setCust (s : State) (b c : Bay) (r : CustodyRec) :
    (s.setCust b r).cust c = if c = b then r else s.cust c := by
  split
  · subst_vars; simp
  · simp_all

/-! ### setLane -/

@[simp] theorem setLane_bays (s : State) (l : Lane) (r : LaneRec) : (s.setLane l r).bays = s.bays := rfl
@[simp] theorem bay_setLane (s : State) (l : Lane) (r : LaneRec) (c : Bay) : (s.setLane l r).bay c = s.bay c := rfl
@[simp] theorem setLane_superv (s : State) (l : Lane) (r : LaneRec) : (s.setLane l r).superv = s.superv := rfl
@[simp] theorem setLane_charge (s : State) (l : Lane) (r : LaneRec) : (s.setLane l r).charge = s.charge := rfl
@[simp] theorem chg_setLane (s : State) (l : Lane) (r : LaneRec) (c : Bay) : (s.setLane l r).chg c = s.chg c := rfl
@[simp] theorem setLane_alloc (s : State) (l : Lane) (r : LaneRec) : (s.setLane l r).alloc = s.alloc := rfl
@[simp] theorem setLane_scan (s : State) (l : Lane) (r : LaneRec) : (s.setLane l r).scan = s.scan := rfl
@[simp] theorem setLane_budget (s : State) (l : Lane) (r : LaneRec) : (s.setLane l r).budget = s.budget := rfl
@[simp] theorem setLane_latches (s : State) (l : Lane) (r : LaneRec) : (s.setLane l r).latches = s.latches := rfl
@[simp] theorem latch_setLane (s : State) (l : Lane) (r : LaneRec) (c : Bay) : (s.setLane l r).latch c = s.latch c := rfl
@[simp] theorem setLane_latchUnit (s : State) (l : Lane) (r : LaneRec) : (s.setLane l r).latchUnit = s.latchUnit := rfl
@[simp] theorem setLane_custody (s : State) (l : Lane) (r : LaneRec) : (s.setLane l r).custody = s.custody := rfl
@[simp] theorem cust_setLane (s : State) (l : Lane) (r : LaneRec) (c : Bay) : (s.setLane l r).cust c = s.cust c := rfl
@[simp] theorem setLane_custodySet (s : State) (l : Lane) (r : LaneRec) : (s.setLane l r).custodySet = s.custodySet := rfl
@[simp] theorem setLane_prov (s : State) (l : Lane) (r : LaneRec) : (s.setLane l r).prov = s.prov := rfl
@[simp] theorem setLane_link (s : State) (l : Lane) (r : LaneRec) : (s.setLane l r).link = s.link := rfl
@[simp] theorem setLane_store (s : State) (l : Lane) (r : LaneRec) : (s.setLane l r).store = s.store := rfl
@[simp] theorem setLane_time (s : State) (l : Lane) (r : LaneRec) : (s.setLane l r).time = s.time := rfl
@[simp] theorem setLane_held (s : State) (l : Lane) (r : LaneRec) : (s.setLane l r).held = s.held := rfl
@[simp] theorem setLane_pins (s : State) (l : Lane) (r : LaneRec) : (s.setLane l r).pins = s.pins := rfl
@[simp] theorem setLane_freeDraws (s : State) (l : Lane) (r : LaneRec) : (s.setLane l r).freeDraws = s.freeDraws := rfl
@[simp] theorem setLane_pending (s : State) (l : Lane) (r : LaneRec) : (s.setLane l r).pending = s.pending := rfl
@[simp] theorem lane_setLane_self (s : State) (l : Lane) (r : LaneRec) : (s.setLane l r).lane l = r := by
  simp [State.lane, State.setLane]
@[simp] theorem lane_setLane_ne (s : State) (l m : Lane) (r : LaneRec) (h : m ≠ l) :
    (s.setLane l r).lane m = s.lane m := by
  simp only [State.lane, State.setLane, Fin.getElem_fin]
  exact Vector.getElem_set_ne _ _ (fun e => h (Fin.ext e.symm))
@[simp] theorem setLane_lane (s : State) (l : Lane) : s.setLane l (s.lane l) = s := by
  simp [State.lane, State.setLane]
theorem lane_setLane (s : State) (l m : Lane) (r : LaneRec) :
    (s.setLane l r).lane m = if m = l then r else s.lane m := by
  split
  · subst_vars; simp
  · simp_all

/-! ### setMotions -/

@[simp] theorem setMotions_bays (s : State) (q : List (Bay × Motion)) : (s.setMotions q).bays = s.bays := rfl
@[simp] theorem bay_setMotions (s : State) (q : List (Bay × Motion)) (c : Bay) : (s.setMotions q).bay c = s.bay c := rfl
@[simp] theorem setMotions_superv (s : State) (q : List (Bay × Motion)) : (s.setMotions q).superv = s.superv := rfl
@[simp] theorem setMotions_charge (s : State) (q : List (Bay × Motion)) : (s.setMotions q).charge = s.charge := rfl
@[simp] theorem chg_setMotions (s : State) (q : List (Bay × Motion)) (c : Bay) : (s.setMotions q).chg c = s.chg c := rfl
@[simp] theorem setMotions_alloc (s : State) (q : List (Bay × Motion)) : (s.setMotions q).alloc = s.alloc := rfl
@[simp] theorem setMotions_scan (s : State) (q : List (Bay × Motion)) : (s.setMotions q).scan = s.scan := rfl
@[simp] theorem setMotions_budget (s : State) (q : List (Bay × Motion)) : (s.setMotions q).budget = s.budget := rfl
@[simp] theorem setMotions_latches (s : State) (q : List (Bay × Motion)) : (s.setMotions q).latches = s.latches := rfl
@[simp] theorem latch_setMotions (s : State) (q : List (Bay × Motion)) (c : Bay) : (s.setMotions q).latch c = s.latch c := rfl
@[simp] theorem setMotions_custody (s : State) (q : List (Bay × Motion)) : (s.setMotions q).custody = s.custody := rfl
@[simp] theorem cust_setMotions (s : State) (q : List (Bay × Motion)) (c : Bay) : (s.setMotions q).cust c = s.cust c := rfl
@[simp] theorem setMotions_custodySet (s : State) (q : List (Bay × Motion)) : (s.setMotions q).custodySet = s.custodySet := rfl
@[simp] theorem setMotions_lanes (s : State) (q : List (Bay × Motion)) : (s.setMotions q).lanes = s.lanes := rfl
@[simp] theorem lane_setMotions (s : State) (q : List (Bay × Motion)) (c : Lane) : (s.setMotions q).lane c = s.lane c := rfl
@[simp] theorem setMotions_prov (s : State) (q : List (Bay × Motion)) : (s.setMotions q).prov = s.prov := rfl
@[simp] theorem setMotions_link (s : State) (q : List (Bay × Motion)) : (s.setMotions q).link = s.link := rfl
@[simp] theorem setMotions_store (s : State) (q : List (Bay × Motion)) : (s.setMotions q).store = s.store := rfl
@[simp] theorem setMotions_time (s : State) (q : List (Bay × Motion)) : (s.setMotions q).time = s.time := rfl
@[simp] theorem setMotions_held (s : State) (q : List (Bay × Motion)) : (s.setMotions q).held = s.held := rfl
@[simp] theorem setMotions_pins (s : State) (q : List (Bay × Motion)) : (s.setMotions q).pins = s.pins := rfl
@[simp] theorem setMotions_freeDraws (s : State) (q : List (Bay × Motion)) : (s.setMotions q).freeDraws = s.freeDraws := rfl
@[simp] theorem setMotions_pending (s : State) (q : List (Bay × Motion)) : (s.setMotions q).pending = s.pending := rfl
/-! ### setQueue -/

@[simp] theorem setQueue_bays (s : State) (q : List Entry) : (s.setQueue q).bays = s.bays := rfl
@[simp] theorem bay_setQueue (s : State) (q : List Entry) (c : Bay) : (s.setQueue q).bay c = s.bay c := rfl
@[simp] theorem setQueue_superv (s : State) (q : List Entry) : (s.setQueue q).superv = s.superv := rfl
@[simp] theorem setQueue_charge (s : State) (q : List Entry) : (s.setQueue q).charge = s.charge := rfl
@[simp] theorem chg_setQueue (s : State) (q : List Entry) (c : Bay) : (s.setQueue q).chg c = s.chg c := rfl
@[simp] theorem setQueue_alloc (s : State) (q : List Entry) : (s.setQueue q).alloc = s.alloc := rfl
@[simp] theorem setQueue_scan (s : State) (q : List Entry) : (s.setQueue q).scan = s.scan := rfl
@[simp] theorem setQueue_budget (s : State) (q : List Entry) : (s.setQueue q).budget = s.budget := rfl
@[simp] theorem setQueue_latches (s : State) (q : List Entry) : (s.setQueue q).latches = s.latches := rfl
@[simp] theorem latch_setQueue (s : State) (q : List Entry) (c : Bay) : (s.setQueue q).latch c = s.latch c := rfl
@[simp] theorem setQueue_latchUnit (s : State) (q : List Entry) : (s.setQueue q).latchUnit = s.latchUnit := rfl
@[simp] theorem setQueue_custody (s : State) (q : List Entry) : (s.setQueue q).custody = s.custody := rfl
@[simp] theorem cust_setQueue (s : State) (q : List Entry) (c : Bay) : (s.setQueue q).cust c = s.cust c := rfl
@[simp] theorem setQueue_custodySet (s : State) (q : List Entry) : (s.setQueue q).custodySet = s.custodySet := rfl
@[simp] theorem setQueue_lanes (s : State) (q : List Entry) : (s.setQueue q).lanes = s.lanes := rfl
@[simp] theorem lane_setQueue (s : State) (q : List Entry) (c : Lane) : (s.setQueue q).lane c = s.lane c := rfl
@[simp] theorem setQueue_link (s : State) (q : List Entry) : (s.setQueue q).link = s.link := rfl
@[simp] theorem setQueue_store (s : State) (q : List Entry) : (s.setQueue q).store = s.store := rfl
@[simp] theorem setQueue_time (s : State) (q : List Entry) : (s.setQueue q).time = s.time := rfl
@[simp] theorem setQueue_held (s : State) (q : List Entry) : (s.setQueue q).held = s.held := rfl
@[simp] theorem setQueue_pins (s : State) (q : List Entry) : (s.setQueue q).pins = s.pins := rfl
@[simp] theorem setQueue_freeDraws (s : State) (q : List Entry) : (s.setQueue q).freeDraws = s.freeDraws := rfl
@[simp] theorem setQueue_pending (s : State) (q : List Entry) : (s.setQueue q).pending = s.pending := rfl
@[simp] theorem setMotions_queue (s : State) (q : List (Bay × Motion)) : (s.setMotions q).latchUnit.queue = q := rfl
@[simp] theorem setMotions_settings (s : State) (q : List (Bay × Motion)) :
    (s.setMotions q).latchUnit.settings = s.latchUnit.settings := rfl
@[simp] theorem setQueue_queue (s : State) (q : List Entry) : (s.setQueue q).prov.queue = q := rfl
@[simp] theorem setQueue_pointer (s : State) (q : List Entry) : (s.setQueue q).prov.pointer = s.prov.pointer := rfl
@[simp] theorem setQueue_slots (s : State) (q : List Entry) : (s.setQueue q).prov.slots = s.prov.slots := rfl
@[simp] theorem setQueue_stamp (s : State) (q : List Entry) : (s.setQueue q).prov.stamp = s.prov.stamp := rfl
@[simp] theorem setQueue_settings (s : State) (q : List Entry) : (s.setQueue q).prov.settings = s.prov.settings := rfl

/-! ### askPass and reply -/

@[simp] theorem askPass_bays (s : State) : (askPass s).bays = s.bays := rfl
@[simp] theorem bay_askPass (s : State) (c : Bay) : (askPass s).bay c = s.bay c := rfl
@[simp] theorem askPass_superv (s : State) : (askPass s).superv = s.superv := rfl
@[simp] theorem askPass_charge (s : State) : (askPass s).charge = s.charge := rfl
@[simp] theorem chg_askPass (s : State) (c : Bay) : (askPass s).chg c = s.chg c := rfl
@[simp] theorem askPass_scan (s : State) : (askPass s).scan = s.scan := rfl
@[simp] theorem askPass_budget (s : State) : (askPass s).budget = s.budget := rfl
@[simp] theorem askPass_latches (s : State) : (askPass s).latches = s.latches := rfl
@[simp] theorem latch_askPass (s : State) (c : Bay) : (askPass s).latch c = s.latch c := rfl
@[simp] theorem askPass_latchUnit (s : State) : (askPass s).latchUnit = s.latchUnit := rfl
@[simp] theorem askPass_custody (s : State) : (askPass s).custody = s.custody := rfl
@[simp] theorem cust_askPass (s : State) (c : Bay) : (askPass s).cust c = s.cust c := rfl
@[simp] theorem askPass_custodySet (s : State) : (askPass s).custodySet = s.custodySet := rfl
@[simp] theorem askPass_lanes (s : State) : (askPass s).lanes = s.lanes := rfl
@[simp] theorem lane_askPass (s : State) (c : Lane) : (askPass s).lane c = s.lane c := rfl
@[simp] theorem askPass_prov (s : State) : (askPass s).prov = s.prov := rfl
@[simp] theorem askPass_link (s : State) : (askPass s).link = s.link := rfl
@[simp] theorem askPass_store (s : State) : (askPass s).store = s.store := rfl
@[simp] theorem askPass_time (s : State) : (askPass s).time = s.time := rfl
@[simp] theorem askPass_held (s : State) : (askPass s).held = s.held := rfl
@[simp] theorem askPass_pins (s : State) : (askPass s).pins = s.pins := rfl
@[simp] theorem askPass_freeDraws (s : State) : (askPass s).freeDraws = s.freeDraws := rfl
@[simp] theorem askPass_pending (s : State) : (askPass s).pending = s.pending := rfl
@[simp] theorem askPass_rotation (s : State) : (askPass s).alloc.rotation = s.alloc.rotation := rfl
@[simp] theorem askPass_settleTimer (s : State) : (askPass s).alloc.settleTimer = s.alloc.settleTimer := rfl
@[simp] theorem askPass_remainder (s : State) : (askPass s).alloc.remainder = s.alloc.remainder := rfl
@[simp] theorem askPass_settings (s : State) : (askPass s).alloc.settings = s.alloc.settings := rfl
@[simp] theorem askPass_profiles (s : State) : (askPass s).alloc.profiles = s.alloc.profiles := rfl
@[simp] theorem askPass_passAsked (s : State) : (askPass s).alloc.passAsked = true := rfl
@[simp] theorem reply_bays (s : State) (k t : Byte) (r : Result) (l : List Byte) : (reply k t r l s).bays = s.bays := rfl
@[simp] theorem bay_reply (s : State) (k t : Byte) (r : Result) (l : List Byte) (c : Bay) :
    (reply k t r l s).bay c = s.bay c := rfl
@[simp] theorem reply_superv (s : State) (k t : Byte) (r : Result) (l : List Byte) : (reply k t r l s).superv = s.superv := rfl
@[simp] theorem reply_charge (s : State) (k t : Byte) (r : Result) (l : List Byte) : (reply k t r l s).charge = s.charge := rfl
@[simp] theorem chg_reply (s : State) (k t : Byte) (r : Result) (l : List Byte) (c : Bay) :
    (reply k t r l s).chg c = s.chg c := rfl
@[simp] theorem reply_alloc (s : State) (k t : Byte) (r : Result) (l : List Byte) : (reply k t r l s).alloc = s.alloc := rfl
@[simp] theorem reply_scan (s : State) (k t : Byte) (r : Result) (l : List Byte) : (reply k t r l s).scan = s.scan := rfl
@[simp] theorem reply_budget (s : State) (k t : Byte) (r : Result) (l : List Byte) : (reply k t r l s).budget = s.budget := rfl
@[simp] theorem reply_latches (s : State) (k t : Byte) (r : Result) (l : List Byte) : (reply k t r l s).latches = s.latches := rfl
@[simp] theorem latch_reply (s : State) (k t : Byte) (r : Result) (l : List Byte) (c : Bay) :
    (reply k t r l s).latch c = s.latch c := rfl
@[simp] theorem reply_latchUnit (s : State) (k t : Byte) (r : Result) (l : List Byte) : (reply k t r l s).latchUnit = s.latchUnit := rfl
@[simp] theorem reply_custody (s : State) (k t : Byte) (r : Result) (l : List Byte) : (reply k t r l s).custody = s.custody := rfl
@[simp] theorem cust_reply (s : State) (k t : Byte) (r : Result) (l : List Byte) (c : Bay) :
    (reply k t r l s).cust c = s.cust c := rfl
@[simp] theorem reply_custodySet (s : State) (k t : Byte) (r : Result) (l : List Byte) : (reply k t r l s).custodySet = s.custodySet := rfl
@[simp] theorem reply_lanes (s : State) (k t : Byte) (r : Result) (l : List Byte) : (reply k t r l s).lanes = s.lanes := rfl
@[simp] theorem lane_reply (s : State) (k t : Byte) (r : Result) (l : List Byte) (c : Lane) :
    (reply k t r l s).lane c = s.lane c := rfl
@[simp] theorem reply_prov (s : State) (k t : Byte) (r : Result) (l : List Byte) : (reply k t r l s).prov = s.prov := rfl
@[simp] theorem reply_store (s : State) (k t : Byte) (r : Result) (l : List Byte) : (reply k t r l s).store = s.store := rfl
@[simp] theorem reply_time (s : State) (k t : Byte) (r : Result) (l : List Byte) : (reply k t r l s).time = s.time := rfl
@[simp] theorem reply_held (s : State) (k t : Byte) (r : Result) (l : List Byte) : (reply k t r l s).held = s.held := rfl
@[simp] theorem reply_pins (s : State) (k t : Byte) (r : Result) (l : List Byte) : (reply k t r l s).pins = s.pins := rfl
@[simp] theorem reply_freeDraws (s : State) (k t : Byte) (r : Result) (l : List Byte) : (reply k t r l s).freeDraws = s.freeDraws := rfl
@[simp] theorem reply_pending (s : State) (k t : Byte) (r : Result) (l : List Byte) : (reply k t r l s).pending = s.pending := rfl
@[simp] theorem reply_rx (s : State) (k t : Byte) (r : Result) (l : List Byte) : (reply k t r l s).link.rx = s.link.rx := rfl
@[simp] theorem reply_buffer (s : State) (k t : Byte) (r : Result) (l : List Byte) : (reply k t r l s).link.buffer = s.link.buffer := rfl
@[simp] theorem reply_frameError (s : State) (k t : Byte) (r : Result) (l : List Byte) : (reply k t r l s).link.frameError = s.link.frameError := rfl
@[simp] theorem reply_overrun (s : State) (k t : Byte) (r : Result) (l : List Byte) : (reply k t r l s).link.overrun = s.link.overrun := rfl
@[simp] theorem reply_overflow (s : State) (k t : Byte) (r : Result) (l : List Byte) : (reply k t r l s).link.overflow = s.link.overflow := rfl
@[simp] theorem reply_notices (s : State) (k t : Byte) (r : Result) (l : List Byte) : (reply k t r l s).link.notices = s.link.notices := rfl
@[simp] theorem reply_armed (s : State) (k t : Byte) (r : Result) (l : List Byte) : (reply k t r l s).link.armed = s.link.armed := rfl
@[simp] theorem reply_period (s : State) (k t : Byte) (r : Result) (l : List Byte) : (reply k t r l s).link.period = s.link.period := rfl
@[simp] theorem reply_watchdog (s : State) (k t : Byte) (r : Result) (l : List Byte) : (reply k t r l s).link.watchdog = s.link.watchdog := rfl
@[simp] theorem reply_mode (s : State) (k t : Byte) (r : Result) (l : List Byte) : (reply k t r l s).link.mode = s.link.mode := rfl
@[simp] theorem reply_lockdown (s : State) (k t : Byte) (r : Result) (l : List Byte) : (reply k t r l s).link.lockdown = s.link.lockdown := rfl
@[simp] theorem reply_rate (s : State) (k t : Byte) (r : Result) (l : List Byte) : (reply k t r l s).link.rate = s.link.rate := rfl
@[simp] theorem reply_lineRate (s : State) (k t : Byte) (r : Result) (l : List Byte) : (reply k t r l s).link.lineRate = s.link.lineRate := rfl
@[simp] theorem reply_sending (s : State) (k t : Byte) (r : Result) (l : List Byte) :
    (reply k t r l s).link.sending = some ⟨⟨k + 0x80, t, r.code :: l⟩, false⟩ := rfl

/-! ### queueNotice -/

/-- R177: a notice changes the notice queue and the overflow flag and nothing else. -/
theorem queued_eq (n : Notice) (l : LinkPort) :
    l.queued n = { l with notices := (l.queued n).notices, overflow := (l.queued n).overflow } := by
  unfold LinkPort.queued; split
  · rfl
  · split <;> rfl
@[simp] theorem queueNotice_link (n : Notice) (s : State) : (queueNotice n s).link = s.link.queued n := rfl
@[simp] theorem queueNotice_bays (n : Notice) (s : State) : (queueNotice n s).bays = s.bays := rfl
@[simp] theorem bay_queueNotice (n : Notice) (s : State) (c : Bay) :
    (queueNotice n s).bay c = s.bay c := rfl
@[simp] theorem queueNotice_superv (n : Notice) (s : State) : (queueNotice n s).superv = s.superv := rfl
@[simp] theorem queueNotice_charge (n : Notice) (s : State) : (queueNotice n s).charge = s.charge := rfl
@[simp] theorem chg_queueNotice (n : Notice) (s : State) (c : Bay) :
    (queueNotice n s).chg c = s.chg c := rfl
@[simp] theorem queueNotice_alloc (n : Notice) (s : State) : (queueNotice n s).alloc = s.alloc := rfl
@[simp] theorem queueNotice_scan (n : Notice) (s : State) : (queueNotice n s).scan = s.scan := rfl
@[simp] theorem queueNotice_budget (n : Notice) (s : State) : (queueNotice n s).budget = s.budget := rfl
@[simp] theorem queueNotice_latches (n : Notice) (s : State) : (queueNotice n s).latches = s.latches := rfl
@[simp] theorem latch_queueNotice (n : Notice) (s : State) (c : Bay) :
    (queueNotice n s).latch c = s.latch c := rfl
@[simp] theorem queueNotice_latchUnit (n : Notice) (s : State) : (queueNotice n s).latchUnit = s.latchUnit := rfl
@[simp] theorem queueNotice_custody (n : Notice) (s : State) : (queueNotice n s).custody = s.custody := rfl
@[simp] theorem cust_queueNotice (n : Notice) (s : State) (c : Bay) :
    (queueNotice n s).cust c = s.cust c := rfl
@[simp] theorem queueNotice_custodySet (n : Notice) (s : State) : (queueNotice n s).custodySet = s.custodySet := rfl
@[simp] theorem queueNotice_lanes (n : Notice) (s : State) : (queueNotice n s).lanes = s.lanes := rfl
@[simp] theorem lane_queueNotice (n : Notice) (s : State) (c : Lane) :
    (queueNotice n s).lane c = s.lane c := rfl
@[simp] theorem queueNotice_prov (n : Notice) (s : State) : (queueNotice n s).prov = s.prov := rfl
@[simp] theorem queueNotice_store (n : Notice) (s : State) : (queueNotice n s).store = s.store := rfl
@[simp] theorem queueNotice_time (n : Notice) (s : State) : (queueNotice n s).time = s.time := rfl
@[simp] theorem queueNotice_held (n : Notice) (s : State) : (queueNotice n s).held = s.held := rfl
@[simp] theorem queueNotice_pins (n : Notice) (s : State) : (queueNotice n s).pins = s.pins := rfl
@[simp] theorem queueNotice_freeDraws (n : Notice) (s : State) : (queueNotice n s).freeDraws = s.freeDraws := rfl
@[simp] theorem queueNotice_pending (n : Notice) (s : State) : (queueNotice n s).pending = s.pending := rfl
@[simp] theorem queued_rx (n : Notice) (l : LinkPort) : (l.queued n).rx = l.rx := by rw [queued_eq]
@[simp] theorem queued_buffer (n : Notice) (l : LinkPort) : (l.queued n).buffer = l.buffer := by rw [queued_eq]
@[simp] theorem queued_frameError (n : Notice) (l : LinkPort) : (l.queued n).frameError = l.frameError := by rw [queued_eq]
@[simp] theorem queued_overrun (n : Notice) (l : LinkPort) : (l.queued n).overrun = l.overrun := by rw [queued_eq]
@[simp] theorem queued_armed (n : Notice) (l : LinkPort) : (l.queued n).armed = l.armed := by rw [queued_eq]
@[simp] theorem queued_period (n : Notice) (l : LinkPort) : (l.queued n).period = l.period := by rw [queued_eq]
@[simp] theorem queued_watchdog (n : Notice) (l : LinkPort) : (l.queued n).watchdog = l.watchdog := by rw [queued_eq]
@[simp] theorem queued_mode (n : Notice) (l : LinkPort) : (l.queued n).mode = l.mode := by rw [queued_eq]
@[simp] theorem queued_lockdown (n : Notice) (l : LinkPort) : (l.queued n).lockdown = l.lockdown := by rw [queued_eq]
@[simp] theorem queued_rate (n : Notice) (l : LinkPort) : (l.queued n).rate = l.rate := by rw [queued_eq]
@[simp] theorem queued_lineRate (n : Notice) (l : LinkPort) : (l.queued n).lineRate = l.lineRate := by rw [queued_eq]
@[simp] theorem queued_sending (n : Notice) (l : LinkPort) : (l.queued n).sending = l.sending := by rw [queued_eq]

/-! ### Probes and qualification steps begun -/

@[simp] theorem newProbe_probe (r : BayRec) (now : Nat) : (r.newProbe now).probe = some ⟨r.probes, now⟩ := rfl
@[simp] theorem newProbe_probes (r : BayRec) (now : Nat) : (r.newProbe now).probes = r.probes + 1 := rfl
@[simp] theorem newProbe_state (r : BayRec) (now : Nat) : (r.newProbe now).state = r.state := rfl
@[simp] theorem newProbe_grant (r : BayRec) (now : Nat) : (r.newProbe now).grant = r.grant := rfl
@[simp] theorem newProbe_presence (r : BayRec) (now : Nat) : (r.newProbe now).presence = r.presence := rfl
@[simp] theorem moved_invalidRun (r : BayRec) (new : BayState) :
    (r.moved new).invalidRun = if r.state = .charging ∧ new ≠ .charging then 0 else r.invalidRun := rfl
theorem moved_invalidRun_leaves {r : BayRec} {new : BayState} (h : r.state = .charging) (h' : new ≠ .charging) :
    (r.moved new).invalidRun = 0 := by simp [h, h']
@[simp] theorem moved_probes (r : BayRec) (new : BayState) : (r.moved new).probes = r.probes := rfl
@[simp] theorem bay_cleared_probes (r : BayRec) : r.cleared.probes = r.probes := rfl
@[simp] theorem qualify_state (r : LaneRec) (e : Entry) (now : Nat) :
    (r.qualify e now).state = .qualifying e (.lineCheck r.checks now) := rfl
@[simp] theorem qualify_checks (r : LaneRec) (e : Entry) (now : Nat) : (r.qualify e now).checks = r.checks + 1 := rfl
@[simp] theorem qualify_strikes (r : LaneRec) (e : Entry) (now : Nat) : (r.qualify e now).strikes = r.strikes := rfl
@[simp] theorem checkPattern_state (r : LaneRec) (e : Entry) (now : Nat) :
    (r.checkPattern e now).state = .qualifying e (.patternCheck r.checks now) := rfl
@[simp] theorem checkPattern_checks (r : LaneRec) (e : Entry) (now : Nat) :
    (r.checkPattern e now).checks = r.checks + 1 := rfl
@[simp] theorem checkPattern_strikes (r : LaneRec) (e : Entry) (now : Nat) :
    (r.checkPattern e now).strikes = r.strikes := rfl
@[simp] theorem lane_cleared_checks (r : LaneRec) : r.cleared.checks = r.checks := rfl
@[simp] theorem lane_blank_checks (r : LaneRec) : r.blank.checks = r.checks := rfl

/-! ### The samples of a round -/

/-- R23: a sample writes the working round, with its time, and the latest-reading table, and nothing else. -/
theorem writeSample_eq (b : Bay) (draw : Byte) (reading : Option Byte) (s : State) :
    writeSample b draw reading s = { s with scan := { s.scan with
      working := { s.scan.working with
        draws := s.scan.working.draws.set b (some draw)
        temps := if reading.isSome then s.scan.working.temps.set b reading else s.scan.working.temps
        times := s.scan.working.times.set b (some s.time.ms) }
      latestDraw := s.scan.latestDraw.set b draw
      latestTemp := reading.elim s.scan.latestTemp fun t => s.scan.latestTemp.set b t } } := by
  cases reading <;> rfl

end Sys2Proof.Machine
end

