-- ==== Sys2Proof/Laws/Touch.lean ====
section
/-! SUPPORT. What each shared operation of the lanes, the custody records and the latches can change: one lemma per
operation, cited by every later proof instead of unfolding it. -/

namespace Sys2Proof.Machine

/-! ### Folds over bays and lanes -/

theorem foldl_rel {α : Type} {R : State → State → Prop} (refl : ∀ s, R s s)
    (trans : ∀ {s t u}, R s t → R t u → R s u) {f : α → State → State} (h : ∀ a s, R s (f a s)) (l : List α)
    (s : State) : R s (l.foldl (fun s a => f a s) s) := by
  induction l generalizing s with
  | nil => exact refl s
  | cons a l ih => exact trans (h a s) (ih _)

/-- A relation that one bay's work keeps is kept by the work over all bays. -/
theorem eachBay_rel {R : State → State → Prop} (refl : ∀ s, R s s) (trans : ∀ {s t u}, R s t → R t u → R s u)
    {f : Bay → State → State} (h : ∀ b s, R s (f b s)) (s : State) : R s (eachBay f s) :=
  foldl_rel refl trans h allBays s

/-- A relation that one lane's work keeps is kept by the work over all lanes. -/
theorem eachLane_rel {R : State → State → Prop} (refl : ∀ s, R s s) (trans : ∀ {s t u}, R s t → R t u → R s u)
    {f : Lane → State → State} (h : ∀ l s, R s (f l s)) (s : State) : R s (eachLane f s) :=
  foldl_rel refl trans h allLanes s

/-! ### Queued notices -/

@[simp] theorem queueAll_nil (l : LinkPort) : l.queueAll [] = l := rfl
@[simp] theorem queueAll_one (n : Notice) (l : LinkPort) : l.queueAll [n] = l.queued n := rfl
@[simp] theorem queueAll_queueAll (ms ns : List Notice) (l : LinkPort) :
    (l.queueAll ms).queueAll ns = l.queueAll (ms ++ ns) := by simp [LinkPort.queueAll, List.foldl_append]

/-- Queuing notices changes the notice queue and the overflow flag and nothing else. -/
theorem queueAll_eq (ns : List Notice) (l : LinkPort) :
    l.queueAll ns = { l with notices := (l.queueAll ns).notices, overflow := (l.queueAll ns).overflow } := by
  induction ns generalizing l with
  | nil => rfl
  | cons n ns ih =>
    have h : l.queueAll (n :: ns) = (l.queued n).queueAll ns := rfl
    rw [h, ih, queued_eq]

@[simp] theorem queueAll_rx (ns : List Notice) (l : LinkPort) : (l.queueAll ns).rx = l.rx := by rw [queueAll_eq]
@[simp] theorem queueAll_buffer (ns : List Notice) (l : LinkPort) : (l.queueAll ns).buffer = l.buffer := by
  rw [queueAll_eq]
@[simp] theorem queueAll_sending (ns : List Notice) (l : LinkPort) : (l.queueAll ns).sending = l.sending := by
  rw [queueAll_eq]
@[simp] theorem queueAll_frameError (ns : List Notice) (l : LinkPort) :
    (l.queueAll ns).frameError = l.frameError := by rw [queueAll_eq]
@[simp] theorem queueAll_overrun (ns : List Notice) (l : LinkPort) : (l.queueAll ns).overrun = l.overrun := by
  rw [queueAll_eq]
@[simp] theorem queueAll_armed (ns : List Notice) (l : LinkPort) : (l.queueAll ns).armed = l.armed := by
  rw [queueAll_eq]
@[simp] theorem queueAll_period (ns : List Notice) (l : LinkPort) : (l.queueAll ns).period = l.period := by
  rw [queueAll_eq]
@[simp] theorem queueAll_watchdog (ns : List Notice) (l : LinkPort) : (l.queueAll ns).watchdog = l.watchdog := by
  rw [queueAll_eq]
@[simp] theorem queueAll_mode (ns : List Notice) (l : LinkPort) : (l.queueAll ns).mode = l.mode := by
  rw [queueAll_eq]
@[simp] theorem queueAll_lockdown (ns : List Notice) (l : LinkPort) : (l.queueAll ns).lockdown = l.lockdown := by
  rw [queueAll_eq]
@[simp] theorem queueAll_rate (ns : List Notice) (l : LinkPort) : (l.queueAll ns).rate = l.rate := by
  rw [queueAll_eq]
@[simp] theorem queueAll_lineRate (ns : List Notice) (l : LinkPort) : (l.queueAll ns).lineRate = l.lineRate := by
  rw [queueAll_eq]

/-! ### The lanes -/

theorem OnlyLanes.refl (s : State) : OnlyLanes s s := ⟨s.lanes, s.prov.queue, s.prov.pointer, [], rfl⟩

theorem OnlyLanes.trans {s t u : State} (h : OnlyLanes s t) (h' : OnlyLanes t u) : OnlyLanes s u := by
  obtain ⟨_, _, _, ns, rfl⟩ := h
  obtain ⟨a, b, c, ms, rfl⟩ := h'
  exact ⟨a, b, c, ns ++ ms, by simp⟩

theorem setLane_touch (s : State) (l : Lane) (r : LaneRec) : OnlyLanes s (s.setLane l r) :=
  ⟨_, s.prov.queue, s.prov.pointer, [], rfl⟩

theorem setQueue_touch (s : State) (q : List Entry) : OnlyLanes s (s.setQueue q) :=
  ⟨s.lanes, q, s.prov.pointer, [], rfl⟩

theorem note_touch (k : NoticeKind) (b d1 d2 d3 d4 : Byte) (s : State) : OnlyLanes s (note k b d1 d2 d3 d4 s) :=
  ⟨s.lanes, s.prov.queue, s.prov.pointer, [_], rfl⟩

theorem provNote_touch (k : NoticeKind) (b d1 d2 : Byte) (j : Word16) (s : State) :
    OnlyLanes s (provNote k b d1 d2 j s) := note_touch _ _ _ _ _ _ _

theorem takeEntry_touch (l : Lane) (e : Entry) (p : Nat) (s : State) : OnlyLanes s (takeEntry l e p s) :=
  ⟨_, dropEntry e.bay s.prov.queue, p, [], rfl⟩

theorem assignLanes_touch (ls : List Lane) (s : State) : OnlyLanes s (assignLanes ls s) := by
  induction ls generalizing s with
  | nil => exact .refl s
  | cons l ls ih =>
    simp only [assignLanes]
    split
    · split
      · exact .refl s
      · exact (takeEntry_touch _ _ _ _).trans (ih _)
    · exact ih s

theorem assignmentRun_touch (s : State) : OnlyLanes s (assignmentRun s) := assignLanes_touch _ _

theorem releaseNotices_touch (l : Lane) (c : ReleaseCause) (e : Entry) (s : State) :
    OnlyLanes s (releaseNotices l c e s) := by
  unfold releaseNotices
  dsimp only
  split <;> split <;> split <;>
    first
      | exact .refl s
      | exact provNote_touch _ _ _ _ _ _
      | exact (provNote_touch _ _ _ _ _ _).trans (provNote_touch _ _ _ _ _ _)
      | exact ((provNote_touch _ _ _ _ _ _).trans (provNote_touch _ _ _ _ _ _)).trans (provNote_touch _ _ _ _ _ _)

theorem letGo_touch (l : Lane) (c : ReleaseCause) (e : Entry) (s : State) : OnlyLanes s (letGo l c e s) := by
  simp only [letGo]
  split
  · exact setLane_touch _ _ _
  · exact (setLane_touch _ _ _).trans (setQueue_touch _ _)

/-- R162: a release changes the lanes, the provisioning queue and pointer, and queues notices. -/
theorem release_touch (l : Lane) (c : ReleaseCause) (s : State) : OnlyLanes s (release l c s) := by
  unfold release
  split
  · exact .refl s
  · exact ((letGo_touch _ _ _ _).trans (releaseNotices_touch _ _ _ _)).trans (assignmentRun_touch _)

theorem removeQueued_touch (b : Bay) (r : Byte) (s : State) : OnlyLanes s (removeQueued b r s) := by
  unfold removeQueued
  split
  · exact .refl s
  · exact (setQueue_touch _ _).trans (provNote_touch _ _ _ _ _ _)

/-- R163: a change of bay state does at the Scheduler what a release or a removal does. -/
theorem schedChange_touch (b : Bay) (o n : BayState) (s : State) : OnlyLanes s (schedChange b o n s) := by
  have h1 : OnlyLanes s
      (if o = .charging ∧ n ≠ .charging then
        match s.laneOf b with
        | some l => release l (causeOfState n) s
        | none => if n = .empty then removeQueued b 1 s else s
      else s) := by
    split
    · split
      · exact release_touch _ _ _
      · split
        · exact removeQueued_touch _ _ _
        · exact .refl s
    · exact .refl s
  unfold schedChange
  dsimp only
  split
  · exact h1.trans (removeQueued_touch _ _ _)
  · exact h1

theorem schedDetach_touch (b : Bay) (s : State) : OnlyLanes s (schedDetach b s) := by
  unfold schedDetach
  split
  · exact release_touch _ _ _
  · exact removeQueued_touch _ _ _

theorem schedLeftLocked_touch (b : Bay) (s : State) : OnlyLanes s (schedLeftLocked b s) := by
  unfold schedLeftLocked
  split
  · exact release_touch _ _ _
  · exact .refl s

theorem schedAutonomous_touch (s : State) : OnlyLanes s (schedAutonomous s) :=
  eachLane_rel .refl .trans (fun l s => release_touch l _ s) s

theorem powerTest_touch (l : Lane) (s : State) : OnlyLanes s (powerTest l s) := by
  unfold powerTest
  split
  · exact .refl s
  · split
    · exact release_touch _ _ _
    · exact .refl s

/-- R164: the handling of a pass result at the Scheduler. -/
theorem schedPassResult_touch (before : Bay → Bool) (s : State) : OnlyLanes s (schedPassResult before s) :=
  ((setQueue_touch s _).trans (eachLane_rel .refl .trans powerTest_touch _)).trans (assignmentRun_touch _)

/-! ### The custody records -/

theorem OnlyCustody.refl (s : State) : OnlyCustody s s :=
  ⟨s.custody, s.lanes, s.prov.queue, s.prov.pointer, [], rfl⟩

theorem OnlyCustody.trans {s t u : State} (h : OnlyCustody s t) (h' : OnlyCustody t u) : OnlyCustody s u := by
  obtain ⟨_, _, _, _, ns, rfl⟩ := h
  obtain ⟨a, b, c, d, ms, rfl⟩ := h'
  exact ⟨a, b, c, d, ns ++ ms, by simp⟩

theorem OnlyLanes.custody {s t : State} (h : OnlyLanes s t) : OnlyCustody s t := by
  obtain ⟨a, b, c, ns, rfl⟩ := h
  exact ⟨s.custody, a, b, c, ns, rfl⟩

theorem setCust_touch (s : State) (b : Bay) (r : CustodyRec) : OnlyCustody s (s.setCust b r) :=
  ⟨_, s.lanes, s.prov.queue, s.prov.pointer, [], rfl⟩

theorem noteCustody_touch (k : NoticeKind) (b d1 d2 d3 d4 : Byte) (s : State) :
    OnlyCustody s (note k b d1 d2 d3 d4 s) := (note_touch _ _ _ _ _ _ _).custody

theorem endReservation_touch (b : Bay) (s : State) : OnlyCustody s (endReservation b s) := by
  unfold endReservation
  split
  · exact .refl s
  · exact (setCust_touch _ _ _).trans (assignmentRun_touch _).custody

theorem testHorizon_touch (b : Bay) (s : State) : OnlyCustody s (testHorizon b s) := by
  unfold testHorizon
  split
  · exact .refl s
  · dsimp only
    split
    · exact .refl s
    · split
      · exact setCust_touch _ _ _
      · exact (setCust_touch _ _ _).trans (assignmentRun_touch _).custody

theorem testExpiry_touch (b : Bay) (s : State) : OnlyCustody s (testExpiry b s) := by
  unfold testExpiry
  split
  · exact .refl s
  · split
    · exact (noteCustody_touch _ _ _ _ _ _ _).trans (endReservation_touch _ _)
    · exact .refl s

theorem testOverdue_touch (b : Bay) (s : State) : OnlyCustody s (testOverdue b s) := by
  unfold testOverdue
  split
  · split
    · exact .refl s
    · split
      · exact (setCust_touch _ _ _).trans (noteCustody_touch _ _ _ _ _ _ _)
      · exact .refl s
  · exact .refl s

theorem lapsePurpose_touch (b : Bay) (s : State) : OnlyCustody s (lapsePurpose b s) := by
  unfold lapsePurpose
  split
  · exact .refl s
  · unfold lapseNote
    dsimp only
    split
    · exact (setCust_touch _ _ _).trans (noteCustody_touch _ _ _ _ _ _ _)
    · exact (setCust_touch _ _ _).trans (noteCustody_touch _ _ _ _ _ _ _)
    · exact setCust_touch _ _ _

theorem minuteTests_touch (b : Bay) (s : State) : OnlyCustody s (minuteTests b s) := by
  unfold minuteTests
  have h := ((testExpiry_touch b s).trans (testHorizon_touch b _)).trans (testOverdue_touch b _)
  dsimp only
  split
  · exact h.trans (lapsePurpose_touch _ _)
  · exact h

/-- R143: an advance of the minute counter at the Custody Table. -/
theorem custodyMinute_touch (s : State) : OnlyCustody s (custodyMinute s) :=
  eachBay_rel .refl .trans minuteTests_touch s

theorem custodyAttach_touch (b : Bay) (s : State) : OnlyCustody s (custodyAttach b s) := by
  unfold custodyAttach
  dsimp only
  split
  · exact (setCust_touch _ _ _).trans (noteCustody_touch _ _ _ _ _ _ _)
  · exact .refl s
  · exact setCust_touch _ _ _
  · exact setCust_touch _ _ _

theorem custodyDetach_touch (b : Bay) (s : State) : OnlyCustody s (custodyDetach b s) := by
  have unlent : OnlyCustody s
      (match takenCause (s.latch b) with
      | some cause =>
        endReservation b
          (note .taken (bayNumber b) cause (latchCode (s.latch b).state) (groupByte (s.cust b).reservation) 0
            (s.setCust b { s.cust b with status := .taken }))
      | none => note .detachedLocked (bayNumber b) (latchCode (s.latch b).state) 0 0 0 s) := by
    split
    · refine OnlyCustody.trans ?_ (endReservation_touch b _)
      exact (setCust_touch _ _ _).trans (noteCustody_touch _ _ _ _ _ _ _)
    · exact noteCustody_touch _ _ _ _ _ _ _
  rw [custodyDetach.eq_1]
  rcases h : (s.cust b).purpose with _ | ⟨_ | _ | _⟩
  · dsimp only at unlent; rw [h] at unlent; exact unlent
  · refine OnlyCustody.trans ?_ (endReservation_touch b _)
    exact (setCust_touch _ _ _).trans (noteCustody_touch _ _ _ _ _ _ _)
  · dsimp only at unlent; rw [h] at unlent; exact unlent
  · refine OnlyCustody.trans ?_ (endReservation_touch b _)
    exact setCust_touch _ _ _

theorem custodyRelocked_touch (b : Bay) (s : State) : OnlyCustody s (custodyRelocked b s) := by
  unfold custodyRelocked
  dsimp only
  split
  · exact ((lapsePurpose_touch b s).trans (setCust_touch _ _ _)).trans (endReservation_touch _ _)
  · exact lapsePurpose_touch b s

/-- R123: a latch event handed on. -/
theorem handOn_touch (b : Bay) (ev : LatchEvent) (s : State) : OnlyCustody s (handOn b ev s) := by
  cases ev with
  | released => exact .refl s
  | doorOpen => exact .refl s
  | releaseFailed => exact setCust_touch _ _ _
  | leftLocked => exact (schedLeftLocked_touch _ _).custody
  | relocked => exact (custodyRelocked_touch _ _).trans (assignmentRun_touch _).custody

/-! ### The latches -/

theorem OnlyLatches.refl (s : State) : OnlyLatches s s :=
  ⟨s.latches, s.latchUnit.queue, s.custody, s.lanes, s.prov.queue, s.prov.pointer, [], s.budget.derate,
    s.budget.computed, s.alloc.passAsked, rfl⟩

theorem OnlyLatches.trans {s t u : State} (h : OnlyLatches s t) (h' : OnlyLatches t u) : OnlyLatches s u := by
  obtain ⟨_, _, _, _, _, _, ns, _, _, _, rfl⟩ := h
  obtain ⟨a, b, c, d, e, f, ms, g, i, j, rfl⟩ := h'
  exact ⟨a, b, c, d, e, f, ns ++ ms, g, i, j, by simp⟩

theorem OnlyCustody.latches {s t : State} (h : OnlyCustody s t) : OnlyLatches s t := by
  obtain ⟨a, b, c, d, ns, rfl⟩ := h
  exact ⟨s.latches, s.latchUnit.queue, a, b, c, d, ns, s.budget.derate, s.budget.computed, s.alloc.passAsked, rfl⟩

theorem setLatch_touch (s : State) (b : Bay) (r : LatchRec) : OnlyLatches s (s.setLatch b r) :=
  ⟨_, s.latchUnit.queue, s.custody, s.lanes, s.prov.queue, s.prov.pointer, [], s.budget.derate, s.budget.computed,
    s.alloc.passAsked, rfl⟩

theorem setMotions_touch (s : State) (q : List (Bay × Motion)) : OnlyLatches s (s.setMotions q) :=
  ⟨s.latches, q, s.custody, s.lanes, s.prov.queue, s.prov.pointer, [], s.budget.derate, s.budget.computed,
    s.alloc.passAsked, rfl⟩

theorem dropMotion_touch (b : Bay) (s : State) : OnlyLatches s (dropMotion b s) := setMotions_touch _ _

theorem queueMotion_touch (b : Bay) (m : Motion) (s : State) : OnlyLatches s (queueMotion b m s) :=
  setMotions_touch _ _

theorem latchNote_touch (k : NoticeKind) (b : Bay) (d1 d2 : Byte) (s : State) :
    OnlyLatches s (latchNote k b d1 d2 s) := (noteCustody_touch _ _ _ _ _ _ _).latches

theorem handOnLatches_touch (b : Bay) (ev : LatchEvent) (s : State) : OnlyLatches s (handOn b ev s) :=
  (handOn_touch b ev s).latches

/-- R42: a computation of the budget stores D and B and may ask for a pass. -/
theorem recompute_touch (s : State) : OnlyLatches s (recompute s) := by
  unfold recompute
  dsimp only
  split
  · exact ⟨s.latches, s.latchUnit.queue, s.custody, s.lanes, s.prov.queue, s.prov.pointer, [], _, _, true, rfl⟩
  · exact ⟨s.latches, s.latchUnit.queue, s.custody, s.lanes, s.prov.queue, s.prov.pointer, [], _, _,
      s.alloc.passAsked, rfl⟩

theorem enterReleased_touch (b : Bay) (s : State) : OnlyLatches s (enterReleased b s) := by
  unfold enterReleased
  dsimp only
  exact ((setLatch_touch _ _ _).trans (latchNote_touch _ _ _ _ _)).trans (handOnLatches_touch _ _ _)

theorem enterLocked_touch (b : Bay) (s : State) : OnlyLatches s (enterLocked b s) := by
  unfold enterLocked
  exact (setLatch_touch _ _ _).trans (handOnLatches_touch _ _ _)

theorem enterOpen_touch (b : Bay) (s : State) : OnlyLatches s (enterOpen b s) := by
  unfold enterOpen
  exact ((setLatch_touch _ _ _).trans (dropMotion_touch _ _)).trans (handOnLatches_touch _ _ _)

theorem enterClosing_touch (b : Bay) (s : State) : OnlyLatches s (enterClosing b s) := setLatch_touch _ _ _

theorem enterClosingExtend_touch (b : Bay) (s : State) : OnlyLatches s (enterClosingExtend b s) :=
  (setLatch_touch _ _ _).trans (queueMotion_touch _ _ _)

theorem ite_touch {R : State → State → Prop} (refl : ∀ s, R s s) {p : Prop} [Decidable p] {s t : State} (h : R s t) :
    R s (if p then t else s) := by
  split
  · exact h
  · exact refl s

theorem enterForced_touch (b : Bay) (l : LatchState) (s : State) : OnlyLatches s (enterForced b l s) := by
  unfold enterForced
  dsimp only
  exact ((((((setLatch_touch _ _ _).trans (dropMotion_touch _ _)).trans
    (ite_touch .refl (latchNote_touch _ _ _ _ _))).trans (latchNote_touch _ _ _ _ _)).trans
    (ite_touch .refl (handOnLatches_touch _ _ _))).trans (ite_touch .refl (handOnLatches_touch _ _ _))).trans
    (handOnLatches_touch _ _ _)

theorem enterSensorFault_touch (b : Bay) (l : LatchState) (s : State) : OnlyLatches s (enterSensorFault b l s) := by
  unfold enterSensorFault
  dsimp only
  exact (((((setLatch_touch _ _ _).trans (dropMotion_touch _ _)).trans
    (ite_touch .refl (latchNote_touch _ _ _ _ _))).trans (latchNote_touch _ _ _ _ _)).trans
    (ite_touch .refl (handOnLatches_touch _ _ _))).trans (ite_touch .refl (handOnLatches_touch _ _ _))

theorem grantExtend_touch (b : Bay) (s : State) : OnlyLatches s (grantExtend b s) := by
  unfold grantExtend
  dsimp only
  exact (setLatch_touch _ _ _).trans (ite_touch .refl (enterLocked_touch _ _))

theorem grantRetract_touch (b : Bay) (s : State) : OnlyLatches s (grantRetract b s) := by
  unfold grantRetract
  dsimp only
  exact ((setLatch_touch _ _ _).trans (ite_touch .refl (handOnLatches_touch _ _ _))).trans
    (ite_touch .refl (enterReleased_touch _ _))

theorem grantMotions_touch (fuel : Nat) (s : State) : OnlyLatches s (grantMotions fuel s) := by
  induction fuel generalizing s with
  | zero => exact .refl s
  | succ n ih =>
    simp only [grantMotions]
    split
    · split
      · exact .refl s
      · rename_i b m _
        cases m
        · exact ((dropMotion_touch b s).trans (grantRetract_touch b _)).trans (ih _)
        · exact ((dropMotion_touch b s).trans (grantExtend_touch b _)).trans (ih _)
    · exact .refl s

/-- R119: an arbitration step. -/
theorem arbitrate_touch (s : State) : OnlyLatches s (arbitrate s) := grantMotions_touch _ _

theorem moverFreed_touch (before s : State) : OnlyLatches s (moverFreed before s) :=
  (ite_touch .refl (recompute_touch s)).trans (arbitrate_touch _)

theorem boltSlipped_touch (b : Bay) (s : State) : OnlyLatches s (boltSlipped b s) := by
  unfold boltSlipped
  split
  · exact .refl s
  · exact ((enterClosingExtend_touch _ _).trans (handOnLatches_touch _ _ _)).trans (arbitrate_touch _)

theorem sensorFaultTest_touch (b : Bay) (s : State) : OnlyLatches s (sensorFaultTest b s) := by
  unfold sensorFaultTest
  dsimp only
  split
  · exact .refl s
  split
  · exact enterOpen_touch _ _
  split
  · exact enterLocked_touch _ _
  split
  · exact (enterClosingExtend_touch _ _).trans (arbitrate_touch _)
  · exact .refl s

theorem doorOpened_touch (b : Bay) (st : LatchState) (s : State) : OnlyLatches s (doorOpened b st s) := by
  cases st <;> simp only [doorOpened]
  case locked => exact enterForced_touch _ _ _
  case retracting =>
    exact ((((setLatch_touch _ _ _).trans (latchNote_touch _ _ _ _ _)).trans (handOnLatches_touch _ _ _)).trans
      (handOnLatches_touch _ _ _)).trans (moverFreed_touch _ _)
  case released => exact enterOpen_touch _ _
  case opened => exact .refl s
  case closing => exact enterOpen_touch _ _
  case extending => exact (enterOpen_touch _ _).trans (moverFreed_touch _ _)
  case jammed =>
    split
    · exact enterForced_touch _ _ _
    · exact enterOpen_touch _ _
  case sensorFault => exact .refl s
  case forced => exact .refl s

theorem doorShut_touch (b : Bay) (st : LatchState) (s : State) : OnlyLatches s (doorShut b st s) := by
  cases st <;> simp only [doorShut]
  case opened => exact enterClosing_touch _ _
  case forced =>
    split
    · exact enterLocked_touch _ _
    · exact enterClosing_touch _ _
  all_goals exact .refl s

theorem boltMoved_touch (b : Bay) (st : LatchState) (c : Contact) (a : Bool) (s : State) :
    OnlyLatches s (boltMoved b st c a s) := by
  unfold boltMoved
  split
  · exact (enterReleased_touch _ _).trans (moverFreed_touch _ _)
  split
  · exact (enterLocked_touch _ _).trans (moverFreed_touch _ _)
  split
  · exact boltSlipped_touch _ _
  · exact .refl s

/-- R110 to R117: a contact event at the latch machine. -/
theorem machineEvent_touch (b : Bay) (st : LatchState) (c : Contact) (a : Bool) (s : State) :
    OnlyLatches s (machineEvent b st c a s) := by
  unfold machineEvent
  dsimp only
  split
  · exact sensorFaultTest_touch _ _
  split
  · split
    · exact (enterSensorFault_touch _ _ _).trans (moverFreed_touch _ _)
    · exact enterSensorFault_touch _ _ _
  cases c
  · exact boltMoved_touch _ _ _ _ _
  · exact boltMoved_touch _ _ _ _ _
  · dsimp only
    split
    · exact doorShut_touch _ _ _
    · exact doorOpened_touch _ _ _

theorem startMachine_touch (b : Bay) (s : State) : OnlyLatches s (startMachine b s) := by
  unfold startMachine
  dsimp only
  split
  · exact (setLatch_touch _ _ _).trans (latchNote_touch _ _ _ _ _)
  split
  · exact setLatch_touch _ _ _
  split
  · exact setLatch_touch _ _ _
  split
  · exact enterClosing_touch _ _
  · exact enterClosingExtend_touch _ _

theorem startIfReady_touch (b : Bay) (s : State) : OnlyLatches s (startIfReady b s) :=
  ite_touch .refl (startMachine_touch b s)

theorem acceptLevel_touch (b : Bay) (c : Contact) (a : Bool) (s : State) : OnlyLatches s (acceptLevel b c a s) := by
  unfold acceptLevel
  dsimp only
  split
  · exact setLatch_touch _ _ _
  · exact setLatch_touch _ _ _
  · split
    · exact .refl s
    · exact (setLatch_touch _ _ _).trans (machineEvent_touch _ _ _ _ _)

theorem endWindow_touch (b : Bay) (s : State) : OnlyLatches s (endWindow b s) := by
  unfold endWindow
  dsimp only
  split
  · exact (setLatch_touch _ _ _).trans (queueMotion_touch _ _ _)
  · exact .refl s

/-- R121: lockdown set, at the Latch Controller. -/
theorem latchLockdown_touch (s : State) : OnlyLatches s (latchLockdown s) :=
  (eachBay_rel .refl .trans endWindow_touch s).trans (arbitrate_touch _)

theorem reverseLatch_touch (b : Bay) (s : State) : OnlyLatches s (reverseLatch b s) :=
  ite_touch .refl (setLatch_touch s b _)

theorem removeRetract_touch (b : Bay) (s : State) : OnlyLatches s (removeRetract b s) := by
  unfold removeRetract
  dsimp only
  split
  · exact (setMotions_touch _ _).trans (ite_touch .refl (handOnLatches_touch _ _ _))
  · exact .refl s

/-- R122: entry to AUTONOMOUS mode, at the Latch Controller. -/
theorem latchAutonomous_touch (s : State) : OnlyLatches s (latchAutonomous s) :=
  (((eachBay_rel .refl .trans reverseLatch_touch s).trans (eachBay_rel .refl .trans removeRetract_touch _)).trans
    (eachBay_rel .refl .trans endWindow_touch _)).trans (arbitrate_touch _)

/-- R109: a release request. -/
theorem releaseRequest_touch (b : Bay) (s : State) : OnlyLatches s (releaseRequest b s) :=
  ite_touch .refl ((queueMotion_touch b _ s).trans (arbitrate_touch _))

end Sys2Proof.Machine
end

