-- ==== Sys2Proof/Laws/Pass.lean ====
section
/-! SUPPORT. What an allocation pass and the end of an event can change, and what they keep: one lemma per operation. -/

namespace Sys2Proof.Machine

/-! ### The relation -/

theorem BayKept.refl (r : BayRec) : BayKept r r :=
  ⟨rfl, rfl, rfl, rfl, rfl, rfl, rfl, rfl, rfl, .inl rfl, rfl, rfl, fun _ => rfl, id⟩

theorem BayKept.trans {r r' r'' : BayRec} (h : BayKept r r') (h' : BayKept r' r'') : BayKept r r'' where
  presence := h'.presence.trans h.presence
  attachRun := h'.attachRun.trans h.attachRun
  absenceRun := h'.absenceRun.trans h.absenceRun
  lastFault := h'.lastFault.trans h.lastFault
  retries := h'.retries.trans h.retries
  energy := h'.energy.trans h.energy
  residue := h'.residue.trans h.residue
  prevSample := h'.prevSample.trans h.prevSample
  dataLine := h'.dataLine.trans h.dataLine
  invalidRun := h'.invalidRun.elim (fun e => h.invalidRun.imp e.trans e.trans) .inr
  prevGrant := h'.prevGrant.trans h.prevGrant
  probes := h'.probes.trans h.probes
  outside e := by
    have := h.outside e
    subst this
    exact h'.outside e
  inside e := h'.inside (h.inside e)

theorem ChargeKept.refl (c : ChargeRec) : ChargeKept c c := ⟨rfl, rfl, rfl⟩

theorem ChargeKept.trans {c c' c'' : ChargeRec} (h : ChargeKept c c') (h' : ChargeKept c' c'') : ChargeKept c c'' :=
  ⟨h'.phase.trans h.phase, h'.dynCeiling.trans h.dynCeiling, h'.profile.trans h.profile⟩

theorem OnlyPass.refl (s : State) : OnlyPass s s :=
  ⟨s.bays, s.charge, s.alloc.rotation, s.alloc.settleTimer, s.alloc.remainder, s.alloc.passAsked, s.budget.lastPass,
    s.lanes, s.prov.queue, s.prov.pointer, [], rfl, fun _ => .refl _, fun _ => .refl _⟩

theorem OnlyPass.trans {s t u : State} (h : OnlyPass s t) (h' : OnlyPass t u) : OnlyPass s u := by
  obtain ⟨_, _, _, _, _, _, _, _, _, _, ns, rfl, hb, hc⟩ := h
  obtain ⟨a, b, c, d, e, f, g, i, j, k, ms, rfl, hb', hc'⟩ := h'
  exact ⟨a, b, c, d, e, f, g, i, j, k, ns ++ ms, by simp, fun x => (hb x).trans (hb' x), fun x => (hc x).trans (hc' x)⟩

theorem OnlyLanes.pass {s t : State} (h : OnlyLanes s t) : OnlyPass s t := by
  obtain ⟨a, b, c, ns, rfl⟩ := h
  exact ⟨s.bays, s.charge, s.alloc.rotation, s.alloc.settleTimer, s.alloc.remainder, s.alloc.passAsked,
    s.budget.lastPass, a, b, c, ns, rfl, fun _ => .refl _, fun _ => .refl _⟩

theorem setBay_pass (s : State) (b : Bay) (r : BayRec) (h : BayKept (s.bay b) r) : OnlyPass s (s.setBay b r) := by
  refine ⟨_, s.charge, s.alloc.rotation, s.alloc.settleTimer, s.alloc.remainder, s.alloc.passAsked,
    s.budget.lastPass, s.lanes, s.prov.queue, s.prov.pointer, [], rfl, fun c => ?_, fun _ => .refl _⟩
  rw [bay_setBay]
  split
  · subst_vars; exact h
  · exact .refl _

theorem setChg_pass (s : State) (b : Bay) (r : ChargeRec) (h : ChargeKept (s.chg b) r) : OnlyPass s (s.setChg b r) := by
  refine ⟨s.bays, _, s.alloc.rotation, s.alloc.settleTimer, s.alloc.remainder, s.alloc.passAsked,
    s.budget.lastPass, s.lanes, s.prov.queue, s.prov.pointer, [], rfl, fun _ => .refl _, fun c => ?_⟩
  rw [chg_setChg]
  split
  · subst_vars; exact h
  · exact .refl _

theorem askPass_pass (s : State) : OnlyPass s (askPass s) :=
  ⟨s.bays, s.charge, s.alloc.rotation, s.alloc.settleTimer, s.alloc.remainder, true, s.budget.lastPass, s.lanes,
    s.prov.queue, s.prov.pointer, [], rfl, fun _ => .refl _, fun _ => .refl _⟩

/-! ### The stages of a pass -/

/-- R67: a new pass drops what the one before it left undone. -/
theorem supersede_pass (s : State) : OnlyPass s (supersede s) := by
  have h : OnlyPass s { s with alloc := { s.alloc with settleTimer := none } } :=
    ⟨s.bays, s.charge, s.alloc.rotation, none, s.alloc.remainder, s.alloc.passAsked, s.budget.lastPass, s.lanes,
      s.prov.queue, s.prov.pointer, [], rfl, fun _ => .refl _, fun _ => .refl _⟩
  unfold supersede
  refine h.trans (eachBay_rel .refl .trans (fun b s => ?_) _)
  exact setChg_pass s b _ ⟨rfl, rfl, rfl⟩

theorem storeTargets_pass (xs : List Share) (s : State) : OnlyPass s (storeTargets xs s) := by
  refine eachBay_rel .refl .trans (fun b s => ?_) s
  dsimp only
  split
  · exact setChg_pass _ _ _ ⟨rfl, rfl, rfl⟩
  · exact .refl s

theorem note_pass (k : NoticeKind) (b d1 d2 d3 d4 : Byte) (s : State) : OnlyPass s (note k b d1 d2 d3 d4 s) :=
  (note_touch k b d1 d2 d3 d4 s).pass

/-- R45: the budget divided becomes the budget of the last pass. -/
theorem markBudget_pass (s : State) : OnlyPass s (markBudget s) := by
  have h : OnlyPass s { s with budget := { s.budget with lastPass := some s.budget.computed } } :=
    ⟨s.bays, s.charge, s.alloc.rotation, s.alloc.settleTimer, s.alloc.remainder, s.alloc.passAsked, _, s.lanes,
      s.prov.queue, s.prov.pointer, [], rfl, fun _ => .refl _, fun _ => .refl _⟩
  unfold markBudget
  dsimp only
  split
  · exact h
  · exact h.trans (note_pass _ _ _ _ _ _ _)

theorem markRemainder_pass (r : Nat) (s : State) : OnlyPass s (markRemainder r s) :=
  ⟨s.bays, s.charge, _, s.alloc.settleTimer, r, s.alloc.passAsked, s.budget.lastPass, s.lanes,
    s.prov.queue, s.prov.pointer, [], rfl, fun _ => .refl _, fun _ => .refl _⟩

theorem BayKept.grant {r r' : BayRec} (h : r.state.eligible = true) (h' : r'.state.eligible = true)
    (run : r'.invalidRun = r.invalidRun ∨ r'.invalidRun = 0)
    (e : r' = { r with state := r'.state, grant := r'.grant, cleanTimer := r'.cleanTimer, probe := r'.probe,
                       backoff := r'.backoff, invalidRun := r'.invalidRun }) : BayKept r r' := by
  constructor
  case invalidRun => exact run
  any_goals (rw [e])
  · intro k; rw [h] at k; cases k
  · intro; exact h'

/-- R7, R64: a bay takes its target. -/
theorem applyTarget_pass (b : Bay) (t : Nat) (s : State) : OnlyPass s (applyTarget b t s) := by
  unfold applyTarget
  dsimp only
  split
  · rename_i h
    exact setBay_pass _ _ _ (.grant (by simp [h.1, BayState.eligible]) rfl (.inl rfl) rfl)
  split
  · rename_i h
    have h1 := setBay_pass s b ((s.bay b).moved .waiting)
      (.grant (by simp [h.1, BayState.eligible]) rfl (.inr (moved_invalidRun_leaves h.1 (by decide))) rfl)
    refine OnlyPass.trans ?_ (schedChange_touch b .charging .waiting _).pass
    refine h1.trans ?_
    exact setChg_pass _ b _ ⟨rfl, rfl, rfl⟩
  split
  · rename_i h
    exact setBay_pass _ _ _ 
      (.grant (by simp [h.1, BayState.eligible]) (by simp [h.1, BayState.eligible]) (.inl rfl) rfl)
  · exact .refl s

theorem applyTargets_pass (xs : List Share) (s : State) : OnlyPass s (applyTargets xs s) := by
  unfold applyTargets
  refine eachBay_rel .refl .trans (fun b s => ?_) s
  split
  · exact applyTarget_pass _ _ _
  · exact .refl s

theorem recordIncrease_pass (b : Bay) (s : State) : OnlyPass s (recordIncrease b s) := by
  unfold recordIncrease
  split
  · exact setChg_pass _ _ _ ⟨rfl, rfl, rfl⟩
  · exact .refl s

theorem applyIncrease_pass (b : Bay) (s : State) : OnlyPass s (applyIncrease b s) := by
  unfold applyIncrease
  split
  · exact .refl s
  · dsimp only
    split
    · rename_i h
      have e : (s.bay b).state.eligible = true := by simp [h, BayState.eligible]
      refine (setBay_pass s b _ ?_).trans (setChg_pass _ _ _ ⟨rfl, rfl, rfl⟩)
      exact .grant e e (.inl rfl) rfl
    · exact setChg_pass _ _ _ ⟨rfl, rfl, rfl⟩

theorem applyIncreases_pass (s : State) : OnlyPass s (applyIncreases s) :=
  eachBay_rel .refl .trans applyIncrease_pass s

theorem stageIncreases_pass (lowered : Bool) (s : State) : OnlyPass s (stageIncreases lowered s) := by
  have h := eachBay_rel OnlyPass.refl OnlyPass.trans recordIncrease_pass s
  unfold stageIncreases
  generalize eachBay recordIncrease s = u at h ⊢
  dsimp only
  split
  · exact h.trans ⟨u.bays, u.charge, u.alloc.rotation, _, u.alloc.remainder, u.alloc.passAsked, u.budget.lastPass,
      u.lanes, u.prov.queue, u.prov.pointer, [], rfl, fun _ => .refl _, fun _ => .refl _⟩
  · exact h.trans (applyIncreases_pass _)

/-- R63: one allocation pass. -/
theorem runPass_pass (s : State) : OnlyPass s (runPass s) := by
  unfold runPass
  dsimp only
  exact ((((((supersede_pass s).trans (storeTargets_pass _ _)).trans (markBudget_pass _)).trans
    (markRemainder_pass _ _)).trans (applyTargets_pass _ _)).trans (stageIncreases_pass _ _)).trans
    (schedPassResult_touch _ _).pass

/-- R66: the expiry of the settle timer, when it is due, applies the increases that the pass left pending. -/
theorem settleIfDue_pass (s : State) : OnlyPass s (settleIfDue s) := by
  unfold settleIfDue
  split
  · unfold settleExpires
    split
    · exact .refl s
    · have h := applyIncreases_pass s
      generalize applyIncreases s = u at h ⊢
      exact h.trans ⟨u.bays, u.charge, u.alloc.rotation, none, u.alloc.remainder, u.alloc.passAsked, u.budget.lastPass,
        u.lanes, u.prov.queue, u.prov.pointer, [], rfl, fun _ => .refl _, fun _ => .refl _⟩
  · exact .refl s

theorem runAsked_pass (s : State) : OnlyPass s (runAsked s) := by
  have h : OnlyPass s { s with alloc := { s.alloc with passAsked := false } } :=
    ⟨s.bays, s.charge, s.alloc.rotation, s.alloc.settleTimer, s.alloc.remainder, false, s.budget.lastPass, s.lanes,
      s.prov.queue, s.prov.pointer, [], rfl, fun _ => .refl _, fun _ => .refl _⟩
  unfold runAsked
  dsimp only
  split
  · exact (h.trans (runPass_pass _)).trans (settleIfDue_pass _)
  · exact h

theorem retier_pass (b : Bay) (s : State) : OnlyPass s (retier b s) := by
  unfold retier
  split
  · exact (setChg_pass s b { s.chg b with tier := s.tierOf b } ⟨rfl, rfl, rfl⟩).trans (askPass_pass _)
  · exact .refl s

theorem retierAll_pass (s : State) : OnlyPass s (retierAll s) := eachBay_rel .refl .trans retier_pass s

theorem settle_pass (n : Nat) (s : State) : OnlyPass s (settle n s) := by
  induction n generalizing s with
  | zero => exact retierAll_pass s
  | succ n ih =>
    unfold settle
    dsimp only
    split
    · exact ((retierAll_pass s).trans (runAsked_pass _)).trans (ih _)
    · exact retierAll_pass s

/-- The end of an event changes what passes change and nothing else (R53, R63, R158). -/
theorem finish_pass (s : State) : OnlyPass s (finish s) := settle_pass _ s

/-! ### When no pass runs -/

theorem mem_allBays (b : Bay) : b ∈ allBays := by
  revert b
  decide

theorem mem_allLanes (l : Lane) : l ∈ allLanes := by
  revert l
  decide

theorem foldl_fixed {α : Type} (f : α → State → State) (s : State) (l : List α) (h : ∀ a ∈ l, f a s = s) :
    l.foldl (fun s a => f a s) s = s := by
  induction l with
  | nil => rfl
  | cons a l ih => rw [List.foldl_cons, h a (.head _)]; exact ih fun a ha => h a (.tail _ ha)

theorem eachBay_fixed (f : Bay → State → State) (s : State) (h : ∀ b, f b s = s) : eachBay f s = s :=
  foldl_fixed f s allBays fun b _ => h b

theorem eachLane_fixed (f : Lane → State → State) (s : State) (h : ∀ l, f l s = s) : eachLane f s = s :=
  foldl_fixed f s allLanes fun l _ => h l

theorem retierAll_settled (s : State) (h : ∀ b, (s.bay b).state.eligible = true → (s.chg b).tier = s.tierOf b) :
    retierAll s = s := by
  refine eachBay_fixed _ s fun b => ?_
  unfold retier
  split
  · rename_i h'; exact absurd (h b h'.1) h'.2
  · rfl

/-- R55, R56: an event that leaves every tier as its conditions say, and asks for no pass, brings none. -/
theorem finish_settled (s : State) (h : Settled s) : finish s = s := by
  have := retierAll_settled s h.2
  simp [finish, Config.passesPerEvent, settle, this, h.1]

/-! ### What passes keep of each part -/

section Kept
variable {s t : State} (h : OnlyPass s t)
include h

theorem OnlyPass.presence (b : Bay) : (t.bay b).presence = (s.bay b).presence := by
  obtain ⟨_, _, _, _, _, _, _, _, _, _, _, _, hb, _⟩ := h
  exact (hb b).presence

theorem OnlyPass.bayKept (b : Bay) : BayKept (s.bay b) (t.bay b) := by
  obtain ⟨_, _, _, _, _, _, _, _, _, _, _, _, hb, _⟩ := h
  exact hb b

theorem OnlyPass.chargeKept (b : Bay) : ChargeKept (s.chg b) (t.chg b) := by
  obtain ⟨_, _, _, _, _, _, _, _, _, _, _, _, _, hc⟩ := h
  exact hc b

theorem OnlyPass.custody : t.custody = s.custody := by
  obtain ⟨_, _, _, _, _, _, _, _, _, _, _, rfl, _⟩ := h; rfl
theorem OnlyPass.cust (b : Bay) : t.cust b = s.cust b := by simp only [State.cust, h.custody]
theorem OnlyPass.latches : t.latches = s.latches := by
  obtain ⟨_, _, _, _, _, _, _, _, _, _, _, rfl, _⟩ := h; rfl
theorem OnlyPass.latch (b : Bay) : t.latch b = s.latch b := by simp only [State.latch, h.latches]
theorem OnlyPass.latchUnit : t.latchUnit = s.latchUnit := by
  obtain ⟨_, _, _, _, _, _, _, _, _, _, _, rfl, _⟩ := h; rfl
theorem OnlyPass.scan : t.scan = s.scan := by obtain ⟨_, _, _, _, _, _, _, _, _, _, _, rfl, _⟩ := h; rfl
theorem OnlyPass.store : t.store = s.store := by obtain ⟨_, _, _, _, _, _, _, _, _, _, _, rfl, _⟩ := h; rfl
theorem OnlyPass.time : t.time = s.time := by obtain ⟨_, _, _, _, _, _, _, _, _, _, _, rfl, _⟩ := h; rfl
theorem OnlyPass.held : t.held = s.held := by obtain ⟨_, _, _, _, _, _, _, _, _, _, _, rfl, _⟩ := h; rfl
theorem OnlyPass.pins : t.pins = s.pins := by obtain ⟨_, _, _, _, _, _, _, _, _, _, _, rfl, _⟩ := h; rfl
theorem OnlyPass.pending : t.pending = s.pending := by obtain ⟨_, _, _, _, _, _, _, _, _, _, _, rfl, _⟩ := h; rfl
theorem OnlyPass.superv : t.superv = s.superv := by obtain ⟨_, _, _, _, _, _, _, _, _, _, _, rfl, _⟩ := h; rfl
theorem OnlyPass.custodySet : t.custodySet = s.custodySet := by
  obtain ⟨_, _, _, _, _, _, _, _, _, _, _, rfl, _⟩ := h; rfl
theorem OnlyPass.freeDraws : t.freeDraws = s.freeDraws := by
  obtain ⟨_, _, _, _, _, _, _, _, _, _, _, rfl, _⟩ := h; rfl
theorem OnlyPass.mode : t.link.mode = s.link.mode := by
  obtain ⟨_, _, _, _, _, _, _, _, _, _, _, rfl, _⟩ := h; simp
theorem OnlyPass.sending : t.link.sending = s.link.sending := by
  obtain ⟨_, _, _, _, _, _, _, _, _, _, _, rfl, _⟩ := h; simp
theorem OnlyPass.buffer : t.link.buffer = s.link.buffer := by
  obtain ⟨_, _, _, _, _, _, _, _, _, _, _, rfl, _⟩ := h; simp

theorem OnlyPass.profile (b : Bay) : t.profile b = s.profile b := by
  have hc := (h.chargeKept b).profile
  obtain ⟨_, _, _, _, _, _, _, _, _, _, _, rfl, _⟩ := h
  simp only [State.profile, hc]

end Kept

end Sys2Proof.Machine
end

