-- ==== Sys2Proof/Laws/Requests.lean ====
section
/-! SUPPORT. How commands reach the blocks: a request that is taken or waits, an event in or out of reset, and answers as
they commute with what the blocks and the passes do. -/

namespace Sys2Proof.Machine

theorem live_of_free (f : State → State) {s : State} (h : s.held = none) : live f s = f s := by
  simp [live, h]

theorem live_of_held (f : State → State) {s : State} (h : s.held ≠ none) : live f s = s := by
  simp [live, Option.isSome_iff_ne_none, h]

/-- R175: with no answer being sent a request is taken at once. -/
theorem request_taken (i : Instr) (take : State → State) {s : State} (h : CanTake s) : request i take s = take s := by
  simp [request, live, h.1, h.2]

/-- R175, entry 1: behind an answer a request's frame goes to the buffer. -/
theorem request_waits (i : Instr) (take : State → State) {s : State} {f : Frame} (h : s.held = none)
    (a : s.link.sending ≠ none) (e : encodeRequest i = some f) : request i take s = bufferFrame f s := by
  simp [request, live, h, a, e]

theorem request_of_held (i : Instr) (take : State → State) {s : State} (h : s.held ≠ none) :
    request i take s = s := live_of_held _ h

theorem reply_answer (k t : Byte) (r : Result) (fs : List Byte) (s : State) :
    reply k t r fs s = s.answer (k + 0x80) t (r.code :: fs) := rfl

theorem refuse_answer (k t : Byte) (r : Reason) (s : State) :
    refuse k t r s = s.answer (k + 0x80) t [0x10, r.code] := rfl

theorem note_notices (k : NoticeKind) (b d1 d2 d3 d4 : Byte) (s : State) :
    note k b d1 d2 d3 d4 s = s.notices [⟨k, b, s.time.minute, d1, d2, d3, d4⟩] := rfl

@[simp] theorem answer_link_notices (k t : Byte) (p : List Byte) (s : State) :
    (s.answer k t p).link.notices = s.link.notices := rfl
@[simp] theorem answer_held (k t : Byte) (p : List Byte) (s : State) : (s.answer k t p).held = s.held := rfl
@[simp] theorem bay_answer (k t : Byte) (p : List Byte) (s : State) (b : Bay) : (s.answer k t p).bay b = s.bay b := rfl
@[simp] theorem chg_answer (k t : Byte) (p : List Byte) (s : State) (b : Bay) : (s.answer k t p).chg b = s.chg b := rfl
@[simp] theorem cust_answer (k t : Byte) (p : List Byte) (s : State) (b : Bay) : (s.answer k t p).cust b = s.cust b := rfl
@[simp] theorem latch_answer (k t : Byte) (p : List Byte) (s : State) (b : Bay) :
    (s.answer k t p).latch b = s.latch b := rfl
@[simp] theorem lane_answer (k t : Byte) (p : List Byte) (s : State) (l : Lane) :
    (s.answer k t p).lane l = s.lane l := rfl

/-- Queuing notices commutes with loading an answer. -/
theorem queueAll_answer (ns : List Notice) (l : LinkPort) (a : Option Sending) :
    ({ l with sending := a } : LinkPort).queueAll ns = { l.queueAll ns with sending := a } := by
  induction ns generalizing l with
  | nil => rfl
  | cons n ns ih =>
    simp only [LinkPort.queueAll, List.foldl_cons] at ih ⊢
    have : ({ l with sending := a } : LinkPort).queued n = { l.queued n with sending := a } := by
      simp only [LinkPort.queued]
      split
      · rfl
      · split <;> rfl
    rw [this, ih]

theorem OnlyLanes.answer {s t : State} (h : OnlyLanes s t) (k g : Byte) (p : List Byte) :
    OnlyLanes (s.answer k g p) (t.answer k g p) := by
  obtain ⟨a, b, c, ns, rfl⟩ := h
  exact ⟨a, b, c, ns, by simp [State.answer, queueAll_answer]⟩

theorem OnlyCustody.answer {s t : State} (h : OnlyCustody s t) (k g : Byte) (p : List Byte) :
    OnlyCustody (s.answer k g p) (t.answer k g p) := by
  obtain ⟨a, b, c, d, ns, rfl⟩ := h
  exact ⟨a, b, c, d, ns, by simp [State.answer, queueAll_answer]⟩

theorem OnlyLatches.answer {s t : State} (h : OnlyLatches s t) (k g : Byte) (p : List Byte) :
    OnlyLatches (s.answer k g p) (t.answer k g p) := by
  obtain ⟨a, b, c, d, e, f, ns, x, y, z, rfl⟩ := h
  exact ⟨a, b, c, d, e, f, ns, x, y, z, by simp [State.answer, queueAll_answer]⟩

theorem OnlyPass.answer {s t : State} (h : OnlyPass s t) (k g : Byte) (p : List Byte) :
    OnlyPass (s.answer k g p) (t.answer k g p) := by
  obtain ⟨a, b, c, d, e, f, x, l, q, r, ns, rfl, hb, hc⟩ := h
  exact ⟨a, b, c, d, e, f, x, l, q, r, ns, by simp [State.answer, queueAll_answer], hb, hc⟩

/-- Work at the latches and the passes after it. -/
theorem OnlyLatches.pass {s t u : State} (h : OnlyLatches s t) (h' : OnlyPass t u) : OnlyLatchesPass s u := ⟨t, h, h'⟩

end Sys2Proof.Machine
end

