-- ==== Sys2Proof/Tests/Slice0.lean ====
section
/-! SUPPORT. Tests of the model on cases worked out in the manual or by hand from its rules, each of one step on a small
state, and for every obligation with hypotheses a named witness: a concrete state and operands that meet them together. -/

namespace Sys2Proof.Tests

open Sys2Proof Sys2Proof.Machine

set_option Elab.async false

/-! ### Well-formed commands: each check refuses an ill-formed term -/

theorem test_wellFormed_slotTable_fits : (Instr.slotTable 1 239 (List.replicate 239 0)).wellFormed = true := by
  decide +kernel
theorem test_wellFormed_slotTable_tooLong : (Instr.slotTable 1 240 (List.replicate 240 0)).wellFormed = false := by
  decide +kernel
theorem test_wellFormed_unknownKind_listed : (Instr.unknownKind 1 0x44).wellFormed = false := by decide +kernel
theorem test_wellFormed_unknownKind : (Instr.unknownKind 1 0x11).wellFormed = true := by decide +kernel
theorem test_wellFormed_patternCheck : (Instr.patternCheckEnd 0 0 256).wellFormed = false := by decide
theorem test_tableWords : decodeTableWord 8 1 = none := rfl

/-! ### Frames -/

/-- The check value of this cyclic check over the digits 1 to 9 in ASCII, as it is published for the polynomial and start
value of R173 with no reflection and no inversion. -/
theorem test_crc : crc16 [0x31, 0x32, 0x33, 0x34, 0x35, 0x36, 0x37, 0x38, 0x39] = 0x29B1 := by decide +kernel
/-- R172: a STATUS with tag 7, its check computed by hand from R173. -/
theorem test_wire_status : (⟨0x01, 7, []⟩ : Frame).wire = [0xA5, 0, 0x01, 7, 0x8F, 0x4A] := by decide +kernel
theorem test_parse : parseFrame [0, 0x01, 7, 0x8F, 0x4A] = some ⟨0x01, 7, []⟩ := by decide +kernel
theorem test_parse_wrongCheck : parseFrame [0, 0x01, 7, 0x8F, 0x4B] = none := by decide +kernel
/-- R153: PROV-ADD carries bay, class, job tag high byte first, attempts. -/
theorem test_decode_provAdd :
    decodeRequest ⟨0x40, 9, [3, 1, 0x01, 0xF5, 3]⟩ = .request (.provAdd 9 3 1 501 3) := by decide +kernel
/-- R133: CHECKOUT carries bay, holder, group, due time, flags. -/
theorem test_decode_checkout :
    decodeRequest ⟨0x30, 2, [0, 0, 210, 5, 0, 90, 4]⟩ = .request (.checkout 2 0 210 5 90 4) := by decide +kernel
/-- R48: BUDGET-SET carries six 16-bit numbers in the order of the settings table. -/
theorem test_decode_budgetSet :
    decodeRequest ⟨0x10, 1, [0x04, 0xB0, 0x03, 0x70, 0, 160, 0, 40, 0, 60, 0, 16]⟩ =
      .request (.budgetSet 1 1200 880 160 40 60 16) := by decide +kernel
theorem test_decode_bayEnable : decodeRequest ⟨0x14, 1, [5, 2]⟩ = .outOfRange := by decide +kernel
theorem test_decode_length : decodeRequest ⟨0x31, 1, [5]⟩ = .malformed := by decide +kernel
theorem test_decode_unknown : decodeRequest ⟨0x81, 1, [5]⟩ = .request (.unknownKind 1 0x81) := by decide +kernel

/-! ### Small states -/

/-- The state after a command. -/
def after (c : Instr) (s : State) : State :=
  match exec c s with
  | .next t => t
  | .fault _ => s
  | .refused _ => s

/-- A started latch machine with these accepted levels. -/
def latchIn (st : LatchState) (out inn shut : Bool) : LatchRec :=
  let f := fun level : Bool => (⟨some level, 0, some level⟩ : Filter)
  { LatchRec.initial with state := some st, boltOut := f out, boltIn := f inn, door := f shut }

/-- No round in flight, and an established budget of `b` qW. -/
def base (b : Nat) : State :=
  { State.reset with
    scan := { State.reset.scan with round := none }
    budget := { State.reset.budget with established := true, computed := b, lastPass := some b } }

/-- A seated tablet in CHARGING with this applied grant and target, its latch LOCKED. -/
def seated (b : Bay) (grant : Nat) (s : State) : State :=
  (((s.setBay b { BayRec.initial with
      presence := true, state := .charging, grant := grant, prevGrant := grant, cleanTimer := some 600000 }).setChg b
    { s.chg b with target := grant }).setCust b { CustodyRec.initial with status := .inCart }).setLatch b
    (latchIn .locked true false true)

/-- The round in flight awaits this reading. -/
def awaits (r : Reading) (thermal : Bool) (s : State) : State :=
  { s with scan := { s.scan with round := some ⟨thermal, false, some r, s.time.ms + 20⟩ } }

/-- What the first notice in the queue says: kind code, subject and data bytes. -/
def firstNotice (s : State) : List Byte :=
  (s.link.notices.head?.map fun n => [n.kind.code, n.subject, n.d1, n.d2, n.d3, n.d4]).getD []

/-- The payload of the answer being sent. -/
def answered (s : State) : List Byte := (s.link.sending.map fun a => a.frame.payload).getD []

/-! ### The bays -/

/-- Chapter 1, one bay over five rounds, sample 1: 640 + 80 × 100 = 8,640. -/
def bay5 (energy residue before : Nat) : State :=
  let s := { awaits (.bay 4) false (seated 4 80 (base 1000)) with time := ⟨before + 100, 0, 0⟩ }
  s.setBay 4 { s.bay 4 with energy := energy, residue := residue, prevSample := some before }

theorem test_sample_energy :
    let r := (after (.sample 4 80 255) (bay5 1000 640 200)).bay 4
    (r.energy, r.residue, r.prevSample) = (1008, 640, some 300) := by decide +kernel
/-- Sample 3 of that case: 640 + 77 × 100 = 8,340. -/
theorem test_sample_residue :
    let r := (after (.sample 4 77 255) (bay5 1008 640 400)).bay 4
    (r.energy, r.residue) = (1016, 340) := by decide +kernel
/-- R130, R8, R3: an attach of an empty bay. -/
theorem test_attach :
    let t := after (.attach 11) (base 1000)
    ((t.bay 11).state, (t.bay 11).probe, (t.cust 11).status, firstNotice t) =
      (.qualifying, some ⟨0, 0⟩, .inCart, [1, 12, 1, 0, 0, 0]) := by decide +kernel
/-- R131: a tablet gone behind a locked door: DETACHED, then DETACHED_LOCKED, the record kept. -/
theorem test_detach :
    let t := after (.detach 11) (seated 11 40 (base 1000))
    ((t.bay 11).state, (t.cust 11).status, t.link.notices.map fun n => n.kind.code) =
      (.empty, .inCart, [2, 3]) := by decide +kernel
/-- R9: a probe that finds no short brings the bay to WAITING, and the pass to CHARGING with its ceiling. -/
theorem test_probe :
    let t := after (.probeComplete 11 0 false) (after (.attach 11) (base 1000))
    ((t.bay 11).state, (t.bay 11).grant) = (.charging, 100) := by decide +kernel
/-- R9: a probe abandoned by BAY-ENABLE(off) and one started by BAY-ENABLE(on) in the same ms. -/
theorem test_probe_abandoned :
    let again := fun s : State => { s with link := State.reset.link }
    let s := after (.bayEnableOn 1 12) (again (after (.bayEnableOff 1 12) (after (.attach 11) (base 1000))))
    ((after (.probeComplete 11 0 true) s).bay 11).state = .qualifying ∧
      ((after (.probeComplete 11 1 false) s).bay 11).state = .charging := by decide +kernel
theorem test_probe_short :
    let t := after (.probeComplete 11 0 true) (after (.attach 11) (base 1000))
    ((t.bay 11).state, (t.bay 11).lastFault) = (.latched, some .probe) := by decide +kernel
/-- Chapter 6, retries to LATCHED: the SHORT at 0 s. -/
theorem test_short_hold :
    let t := after (.shortEvent 17) (seated 17 60 (base 1000))
    ((t.bay 17).state, (t.bay 17).backoff, (t.bay 17).grant, firstNotice t) =
      (.hold, .running 30000, 0, [5, 18, 1, 4, 0, 0]) := by decide +kernel
/-- The OVERDRAW of that case: 77 is above the allowance of 60 + 8. -/
theorem test_sample_overdraw :
    firstNotice (after (.sample 17 77 255) (awaits (.bay 17) false (seated 17 60 (base 1000)))) =
      [5, 18, 2, 4, 0, 77] := by decide +kernel
theorem test_sample_allowance :
    ((after (.sample 17 68 255) (awaits (.bay 17) false (seated 17 60 (base 1000)))).bay 17).state = .charging := by
  decide +kernel
/-- A bay in HOLD after a SHORT, its backoff running. -/
def holding (fault : FaultKind) : State :=
  let s := seated 17 0 (base 1000)
  s.setBay 17 { s.bay 17 with
    state := .hold, lastFault := some fault, backoff := .running 30000, cleanTimer := none }

theorem test_backoff :
    let r := (after (.backoffExpiry 17) (holding .short)).bay 17
    (r.state, r.retries, r.backoff) = (.qualifying, 1, .stopped) := by decide +kernel
/-- R97: after a HOT fault, with no valid connector reading, the bay waits to cool. -/
theorem test_backoff_hot : ((after (.backoffExpiry 17) (holding .hot)).bay 17).backoff = .coolDown := by decide +kernel
theorem test_faultClear :
    let t := after (.faultClear 1 18) (holding .hot)
    ((t.bay 17).state, (t.bay 17).lastFault, answered t) = (.qualifying, none, [0, 18, 1]) := by decide +kernel
theorem test_bayEnableOff :
    let t := after (.bayEnableOff 1 18) (holding .hot)
    ((t.bay 17).state, (t.bay 17).lastFault, answered t) = (.disabled, some .hot, [0, 6]) := by decide +kernel
theorem test_bayEnableOn_range : answered (after (.bayEnableOn 1 33) (base 0)) = [0x10, 1] := by decide +kernel

/-! ### The budget -/

/-- Chapter 3, case A, with zones 130, 132, 255 and 128. -/
theorem test_cabinet : cabinet #v[130, 132, 255, 128] = some 92 := by decide +kernel
theorem test_cabinet_none : cabinet #v[255, 255, 255, 255] = none := by decide +kernel
theorem test_derate : [92, 80, 81, 119, 120].map (fun h : Int => derateFactor 40 60 (some h)) = [179, 256, 249, 6, 0] := by
  decide +kernel
theorem test_derate_limits : (derateFactor 40 45 (some 81), derateFactor 40 60 none) = (230, 128) := by decide +kernel
/-- Case A's cabinet. -/
def warm : State := { base 2697 with budget := { (base 2697).budget with h := some 92, derate := 179 } }

theorem test_budget_caseA : budgetNow warm = 2697 := by decide +kernel
/-- Case B: SHED is asserted. -/
theorem test_shedChange : (after (.shedChange true) warm).budget.computed = 1220 := by decide +kernel
/-- The sequence of chapter 3: an overhead of 150 after the first thermal completion at h = 84 gives 3,549, below the last
pass's 3,539 and the hysteresis, so no pass follows. -/
theorem test_budgetSet :
    let s : State := { base 3539 with budget := { (base 3539).budget with h := some 84, derate := 230 } }
    let t := after (.budgetSet 1 1200 880 150 40 60 16) s
    (t.budget.computed, t.budget.lastPass, (answered t).take 3) = (3549, some 3539, [0, 0x04, 0xB0]) := by
  decide +kernel
theorem test_budgetSet_clamped : answered (after (.budgetSet 1 9999 100 900 90 10 999) (base 0)) =
    [2, 0x09, 0x60, 0x01, 0xF4, 0x03, 0x20, 0, 70, 0, 75, 0, 200] := by decide +kernel

/-! ### Passes -/

/-- A bay of the worked passes of chapter 4. -/
def member (b : Bay) (tier : Tier) (phase : Phase) (dyn grant : Nat) (s : State) : State :=
  let t := seated b grant s
  t.setChg b { t.chg b with tier := tier, phase := phase, dynCeiling := dyn }

/-- Chapter 4, seven bays with the pointer at bay 10. -/
def sevenBays : State :=
  let s := member 20 .topping .full 100 4 (member 19 .topping .taper 100 20 (member 14 .normal .bulk 100 30
    (member 11 .normal .bulk 100 30 (member 7 .normal .bulk 36 36 (member 6 .reserved .bulk 100 60
      (member 2 .lane .bulk 100 40 (base 300)))))))
  { s with alloc := { s.alloc with rotation := 9 } }

theorem test_pass_targets :
    ([2, 6, 7, 11, 14, 19, 20] : List Bay).map (fun b => ((runPass sevenBays).chg b).target) =
      [100, 100, 25, 26, 25, 20, 4] := by decide +kernel
theorem test_pass_grants :
    ([2, 6, 7, 11, 14, 19, 20] : List Bay).map (fun b => ((runPass sevenBays).bay b).grant) =
      [40, 60, 25, 26, 25, 20, 4] := by decide +kernel
theorem test_settleExpiry :
    let t := after .settleExpiry (runPass sevenBays)
    (([2, 6] : List Bay).map (fun b => (t.bay b).grant), t.alloc.settleTimer) = ([100, 100], none) := by decide +kernel
/-- Chapter 4, first fit in a tight budget: bays 2, 5, 9, 14 and 22. -/
def tight : State :=
  let s := member 21 .topping .full 100 4 (member 13 .normal .bulk 100 8 (member 8 .normal .bulk 100 30
    (member 4 .normal .bulk 100 20 (member 1 .lane .bulk 100 40 (base 70)))))
  let p : Profile := defaultSettings.profiles[0]
  let s := { s with alloc := { s.alloc with
    profiles := (s.alloc.profiles.set 1 { p with floor := 30 }).set 2 { p with floor := 8 } } }
  (s.setChg 8 { s.chg 8 with profile := 1 }).setChg 13 { s.chg 13 with profile := 2 }

theorem test_pass_firstFit :
    ([1, 4, 8, 13, 21] : List Bay).map (fun b => ((runPass tight).chg b).target) = [42, 20, 0, 8, 0] := by
  decide +kernel
/-- R92: two invalid draws before the pass that defers bay 9; the run of bay 5, which stays in CHARGING, goes on. -/
def twoInvalid : State :=
  let s := tight.setBay 8 { tight.bay 8 with invalidRun := 2 }
  s.setBay 4 { s.bay 4 with invalidRun := 2 }

theorem test_pass_endsTheRun :
    ([8, 4] : List Bay).map (fun b => (((runPass twoInvalid).bay b).state, ((runPass twoInvalid).bay b).invalidRun)) =
      [(.waiting, 0), (.charging, 2)] := by decide +kernel
theorem test_pass_rotation : ((runPass tight).alloc.rotation, (runPass tight).alloc.remainder) = (1, 0) := by
  decide +kernel

/-! ### Phases and ceilings -/

/-- Chapter 5, reclaim then press: bay 9 before sample 5. -/
theorem test_sample_reclaim :
    let s := awaits (.bay 8) false (seated 8 100 (base 1000))
    let t := after (.sample 8 59 255) (s.setChg 8 { s.chg 8 with reclaim := 3 })
    ((t.chg 8).dynCeiling, (t.chg 8).target, (t.bay 8).grant, (t.chg 8).reclaim) = (67, 67, 67, 0) := by decide +kernel
/-- Sample 9 of the same case: press. -/
theorem test_sample_press :
    let s := awaits (.bay 8) false (seated 8 67 (base 1000))
    let t := after (.sample 8 66 255) (s.setChg 8 { s.chg 8 with dynCeiling := 67, press := 3 })
    ((t.chg 8).dynCeiling, (t.bay 8).grant, (t.chg 8).press) = (75, 75, 0) := by decide +kernel
theorem test_chargeSet_clamped : answered (after (.chargeSet 1 161 501 0 41 41 0 61 0 0) (base 0)) =
    [2, 0, 160, 0x01, 0xF4, 0, 1, 0, 40, 0, 40, 0, 1, 0, 60, 0, 1, 0, 1] := by decide +kernel
/-- R76: a lowered ceiling caps the grant and the dynamic ceiling. -/
theorem test_profileSet :
    let t := after (.profileSet 1 0 90 50 4 32 4 150) (seated 8 80 (base 0))
    ((t.chg 8).dynCeiling, t.alloc.profiles[0].floor, (answered t).take 2) = (50, 50, [2, 0]) := by decide +kernel
theorem test_bayProfile :
    let s := seated 8 80 (base 1000)
    let t := after (.bayProfile 1 9 3) (s.setChg 8 { s.chg 8 with dynCeiling := 20, press := 2 })
    ((t.chg 8).profile, (t.chg 8).dynCeiling, (t.chg 8).press, answered t) = (3, 100, 0, [0, 9, 3, 100]) := by
  decide +kernel

/-! ### Rounds -/

/-- Chapter 2, section 2.7, at time 0: ON_REQUEST, round 40 published and read, index 3. -/
def onRequest : State :=
  { base 1000 with scan := { (base 1000).scan with
    mode := .onRequest, periodCode := 2, number := 40, index := 3, fresh := .stale } }

theorem test_measure :
    let t := after (.measure 1) onRequest
    (t.scan.round.map fun r => (r.thermal, r.mark), answered t) = (some (false, true), [1, 0, 41]) := by decide +kernel
theorem test_measure_joins :
    answered (after (.measure 1) { (after (.measure 1) onRequest) with link := State.reset.link }) = [3, 0, 41] := by
  decide +kernel
/-- The completion at 90 ms: round 41, not thermal, no draw invalid (none was recorded as 255). -/
theorem test_roundComplete :
    let t := after .roundComplete { onRequest with scan := { onRequest.scan with
      round := some ⟨false, true, none, 0⟩
      working := { Working.cleared with draws := Vector.replicate 32 (some 10) } } }
    (t.scan.number, t.scan.index, t.scan.fresh, firstNotice t) = (41, 4, .valid, [19, 0, 0, 41, 0, 0]) := by
  decide +kernel
/-- R24, R39, R43: the first thermal completion establishes the budget. With h = 92 it is case A's. -/
theorem test_roundComplete_thermal :
    let s := { State.reset with scan := { State.reset.scan with
      round := some ⟨true, false, none, 0⟩
      working := { Working.cleared with zones := #v[some 130, some 132, some 255, some 128] } } }
    let t := after .roundComplete s
    (t.budget.established, t.budget.computed, t.budget.lastPass, firstNotice t) =
      (true, 2697, some 2697, [18, 0, 0x0A, 0x89, 0, 0]) := by decide +kernel
/-- SCAN-SET at 200 ms: CONTINUOUS with no round in flight starts one. -/
theorem test_scanSet :
    let t := after (.scanSet 1 0 2) { onRequest with scan := { onRequest.scan with index := 4 } }
    (t.scan.round.map fun r => (r.thermal, r.mark), answered t) = (some (false, false), [0, 0, 2]) := by decide +kernel
theorem test_scanSet_clamped : answered (after (.scanSet 1 1 9) onRequest) = [2, 1, 3] := by decide +kernel
theorem test_periodExpiry :
    let t := after .periodExpiry { base 0 with scan := { (base 0).scan with wait := some 780, index := 0 } }
    (t.scan.round.map fun r => r.thermal, t.scan.wait) = (some true, none) := by decide +kernel
theorem test_readingDeadline :
    let t := after .readingDeadline (awaits (.bay 31) true (base 0))
    (t.scan.latestDraw[31], awaited t) = (255, some (.zone 0)) := by decide +kernel
theorem test_zoneReading :
    let t := after (.zoneReading 3 130) (awaits (.zone 3) true (base 0))
    (t.scan.latestZone[3], awaited t) = (130, none) := by decide +kernel
/-- R30: before the first publication the readings are 255 and the rest is 0. -/
theorem test_snapshot :
    let t := after (.snapshot 1) (base 0)
    ((answered t).take 15, (answered t).length) =
      ([0, 0, 0, 0, 0, 0, 0, 255, 255, 255, 255, 0, 0, 0, 0], 207) := by decide +kernel
theorem test_snapshot_stale :
    (after (.snapshot 1) { base 0 with scan := { (base 0).scan with fresh := .valid } }).scan.fresh = .stale := by
  decide +kernel
/-- R185: the 27 bytes of the BAY-QUERY answer, for a bay in CHARGING with 216,000 qJ, 15 Wh. -/
theorem test_bayQuery :
    let s := seated 4 40 (base 0)
    answered (after (.bayQuery 1 5) (s.setBay 4 { s.bay 4 with energy := 216000, residue := 640 })) =
      [0, 5, 1, 3, 0, 0, 0, 0, 0, 40, 40, 0, 2, 0, 100, 0, 0, 0x03, 0x4B, 0xC0, 0x02, 0x80, 0, 150, 255, 255, 0] := by
  decide +kernel

/-! ### The link -/

/-- R179, R185: the reset state: nothing armed, D = 256, h none, no flags. -/
theorem test_status :
    answered (after (.status 1) State.reset) =
      [0, 0, 0, 0, 0, 0, 0, 0, 0, 0, 0, 0, 0x01, 0x00, 255, 0, 0, 0, 0] := by decide +kernel
theorem test_notices :
    let s := (base 0).notices [⟨.budget, 0, 5, 1, 2, 3, 4⟩]
    let t := after (.notices 1) s
    (answered t, t.link.notices, s.attnLow, t.attnLow) = ([0, 0, 1, 0, 18, 0, 0, 5, 1, 2, 3, 4], [], true, false) := by
  decide +kernel
theorem test_watchdogArm :
    let t := after (.watchdogArm 1 5) (base 0)
    (t.link.watchdog, answered t) = (some 5000, [0, 5]) := by decide +kernel
theorem test_watchdogArm_clamped : answered (after (.watchdogArm 1 0) (base 0)) = [2, 1] := by decide +kernel
theorem test_linkSet :
    let t := after (.linkSet 1 1) (base 0)
    (t.link.rate, t.link.lineRate, (after .answerSent t).link.lineRate) = (1, 0, 1) := by decide +kernel
theorem test_byteReceived :
    (after (.byteReceived 0xA5 true) (base 0)).link.rx = .inside [] 0 := by decide
theorem test_gap :
    let t := after .interbyteGapTimeout (after (.byteReceived 0xA5 true) (base 0))
    (t.link.rx, t.link.frameError) = (.hunting, true) := by decide
/-- R173, R175: the last byte of a STATUS frame with tag 7. -/
theorem test_frameReceived :
    let s : State := { base 0 with link := { (base 0).link with rx := .inside [0, 0x01, 7, 0x8F] 0 } }
    (after (.frameReceived 0x4A) s).link.sending.map (fun a => (a.frame.kind, a.frame.tag)) = some (0x81, 7) := by
  decide +kernel
theorem test_frameReceived_wrong :
    let s : State := { base 0 with link := { (base 0).link with rx := .inside [0, 0x01, 7, 0x8F] 0 } }
    (after (.frameReceived 0x4B) s).link.frameError = true := by decide +kernel
theorem test_unknownKind :
    (after (.unknownKind 3 0x90) (base 0)).link.sending = some ⟨⟨0xFF, 3, [0x12]⟩, false⟩ := by decide +kernel
theorem test_supervisionSet : answered (after (.supervisionSet 1 8 1 41 86) (base 0)) =
    [2, 0, 7, 0, 5, 0, 40, 0, 85] := by decide +kernel
theorem test_provSet : answered (after (.provSet 1 4 0) (base 0)) = [2, 0, 4, 0, 1] := by decide +kernel

/-! ### Latches -/

/-- One latch record in the place of bay 3's. -/
def oneLatch (r : LatchRec) : State := (base 1000).setLatch 2 r

/-- Section 7.10, 310 ms: BOLT_IN of bay 3 while R7, E9 and E12 wait with two movers: the oldest EXTEND is granted. -/
theorem test_contact_boltIn :
    let m := latchIn .retracting false false true
    let s := (((oneLatch { m with travel := some 800 }).setLatch 3 { m with travel := some 810 }).setLatch 6
      (latchIn .locked true false true)).setLatch 8 (latchIn .closing false true true)
    let s : State := { s with latchUnit :=
      { settings := { s.latchUnit.settings with movers := 2 }, queue := [(6, .retract), (8, .extend)] } }
    let t := after (.contactEvent 2 .boltIn true) s
    ((t.latch 2).state, (t.latch 8).state, t.latchUnit.queue, firstNotice t) =
      (some .released, some .extending, [(6, .retract)], [6, 3, 0, 2, 0, 0]) := by decide +kernel
/-- R115: a door opened behind a thrown bolt. -/
theorem test_contact_forced :
    let t := after (.contactEvent 2 .doorClosed false) (oneLatch (latchIn .locked true false true))
    ((t.latch 2).state, firstNotice t) = (some .forced, [12, 3, 0, 0, 0, 0]) := by decide +kernel
/-- R126: both bolt contacts asserted at the start. -/
theorem test_latchStart :
    let t := after (.latchMachineStart 2 true true true) (base 0)
    ((t.latch 2).state, firstNotice t) = (some .sensorFault, [13, 3, 2, 255, 0, 0]) := by decide +kernel
theorem test_travelTimeout :
    let t := after (.travelTimeout 2) (oneLatch { latchIn .retracting false false true with travel := some 800 })
    ((t.latch 2).state, firstNotice t) = (some .jammed, [7, 3, 1, 6, 0, 0]) := by decide +kernel
/-- R113: the first timeout of EXTENDING starts the pause of 2,000 ms. -/
theorem test_travelTimeout_extend :
    let l := (after (.travelTimeout 2) (oneLatch { latchIn .extending false false true with travel := some 800 })).latch 2
    (l.pause, l.retryUsed) = (some 2000, true) := by decide +kernel
theorem test_retryPause :
    let r := { latchIn .extending false false true with pause := some 2000, retryUsed := true }
    ((after (.retryPauseExpiry 2) (oneLatch r)).latch 2).travel = some 800 := by decide +kernel
theorem test_windowExpiry :
    ((after (.windowExpiry 2) (oneLatch { latchIn .released false true true with window := some 9 })).latch 2).state =
      some .extending := by decide +kernel
theorem test_closeSettle :
    ((after (.closeSettleExpiry 2) (oneLatch { latchIn .closing false true true with settle := some 9 })).latch 2).state =
      some .extending := by decide +kernel
theorem test_latchSet : answered (after (.latchSet 1 200 0 50 5000 0 90) (base 1000)) =
    [2, 0, 127, 0, 1, 0, 100, 0x0B, 0xB8, 0, 1, 0, 80, 0, 0] := by decide +kernel
/-- R120: the rise of lockdown ends the window of a RELEASED latch. -/
theorem test_lockdownOn :
    let t := after (.lockdownOn 1) (oneLatch { latchIn .released false true true with window := some 9 })
    ((t.latch 2).state, answered t) = (some .extending, [0, 1]) := by decide +kernel
theorem test_lockdownOff : answered (after (.lockdownOff 1) (base 0)) = [0, 0] := by decide +kernel
/-- Section 7.11, step 1: at the watchdog's expiry a bay in RETRACTING turns. -/
theorem test_watchdogExpiry :
    let s := oneLatch { latchIn .retracting false false true with travel := some 800 }
    let t := after .watchdogExpiry { s with link := { s.link with watchdog := some 0, armed := true, period := 5 } }
    ((t.latch 2).state, t.link.mode, firstNotice t) = (some .extending, .autonomous, [21, 0, 5, 0, 0, 0]) := by
  decide +kernel
theorem test_resume :
    let t := after (.resume 1) { base 0 with link := { (base 0).link with mode := .autonomous } }
    (t.link.mode, answered t) = (.normal, [0, 0]) := by decide +kernel

/-! ### Custody -/

/-- Section 8.13 at minute 600: bay 3 OUT to holder 101, bay 4 OUT to 102 due at 660; bays 7 and 8 in FULL and TAPER
reserved for group 5, bay 11 in FULL with no reservation. -/
def classEnd : State :=
  let s := seated 10 4 (seated 7 20 (seated 6 4 (base 1000)))
  let s := ((s.setChg 6 { s.chg 6 with phase := .full }).setChg 7 { s.chg 7 with phase := .taper }).setChg 10
    { s.chg 10 with phase := .full }
  let r : CustodyRec := { CustodyRec.initial with status := .inCart, reservation := some ⟨5, 640, true⟩ }
  let s := (((s.setCust 6 r).setCust 7 r).setCust 2
    { CustodyRec.initial with status := .out ⟨101, 500, some 590, true⟩ }).setCust 3
    { CustodyRec.initial with status := .out ⟨102, 500, some 660, false⟩ }
  { s.setLatch 2 (latchIn .locked true false true) with time := ⟨0, 600, 0⟩ }

theorem test_return :
    let t := after (.returnTablet 1 101) classEnd
    ((t.cust 2).purpose, answered t) = (some (.returning 101), [1, 3]) := by decide +kernel
theorem test_checkout_chooses :
    let t := after (.checkout 1 0 210 5 90 0) classEnd
    ((t.cust 6).purpose, (t.cust 6).reservation, (t.latch 6).state, answered t) =
      (some (.checkout 210 5 (some 690)), none, some .retracting, [1, 7, 0, 90]) := by decide +kernel
theorem test_checkout_holderLimit :
    answered (after (.checkout 1 11 102 0 90 0) classEnd) = [0x10, 9] := by decide +kernel
/-- R142: bay 4's tablet, due at minute 660, is reported at the advance to minute 660. -/
theorem test_minute_overdue :
    let t := after .minuteAdvance { classEnd with time := ⟨0, 659, 0⟩ }
    (t.time.minute, (t.link.notices.map fun n => (n.kind.code, n.subject)).contains (14, 4)) = (660, true) := by
  decide +kernel
/-- R141: the reservations due at 640 expire at minute 650, and not at 649. -/
theorem test_minute_expiry :
    ((after .minuteAdvance { classEnd with time := ⟨0, 649, 0⟩ }).cust 6).reservation = none := by decide +kernel
theorem test_minute_kept :
    (((after .minuteAdvance { classEnd with time := ⟨0, 648, 0⟩ }).cust 6).reservation).isSome = true := by
  decide +kernel
/-- R132: Relocked ends a RETURN purpose with RETURN_LAPSED. -/
theorem test_contact_relocked :
    let s := oneLatch { latchIn .extending false false true with travel := some 800 }
    let t := after (.contactEvent 2 .boltOut true)
      (s.setCust 2 { status := .out ⟨101, 0, none, false⟩, reservation := none, purpose := some (.returning 101) })
    ((t.cust 2).purpose, firstNotice t) = (none, [11, 3, 0, 101, 0, 0]) := by decide +kernel
/-- R139, R138: the best free bay in the cart is bay 11, the due minute 600 + 30. -/
theorem test_reserve :
    let t := after (.reserve 1 6 2 30) classEnd
    ((t.cust 10).reservation, answered t) = (some ⟨6, 630, true⟩, [0, 1, 0x02, 0x76, 11]) := by decide +kernel
theorem test_reserveCancel : answered (after (.reserveCancel 1 5) classEnd) = [0, 2] := by decide +kernel
theorem test_custodyLoad : answered (after (.custodyLoad 1 20 300 0) classEnd) = [0, 20, 0x02, 0x58, 0, 0] := by
  decide +kernel
theorem test_custodySet_inUse : answered (after (.custodySet 1 2 45 10) classEnd) = [0x10, 18] := by decide +kernel
/-- R147: a horizon of 30 takes a reservation due in 40 minutes out of it. -/
theorem test_custodySet :
    let t := after (.custodySet 1 1 30 10) classEnd
    ((t.cust 6).reservation, answered t) = (some ⟨5, 640, false⟩, [0, 0, 1, 0, 30, 0, 10]) := by decide +kernel
theorem test_serviceOpen :
    let t := after (.serviceOpen 1 3 0) (oneLatch (latchIn .jammed false false true))
    ((t.cust 2).purpose, answered t) = (some .service, [1, 3, 6]) := by decide +kernel

/-! ### The lanes -/

/-- Section 9.11 at minute 1200, with two of its entries: the lanes' strikes, the pointer at the first slot. -/
def night : State :=
  let s := seated 13 60 (seated 8 40 (base 1000))
  { s with prov := { s.prov with
    queue := [⟨8, .verify, 601, 2, 13, 0⟩, ⟨13, .urgent, 701, 3, 14, 0⟩], stamp := 17 } }

/-- The entry of bay 14 in that night. -/
def entry14 : Entry := ⟨13, .urgent, 701, 3, 14, 0⟩

/-- Lane 2 with 2 strikes holds bay 14 in this state. -/
def lane2 (st : LaneState) : State :=
  { night.setLane 1 ⟨st, 2, 0, 6⟩ with prov := { night.prov with queue := [] } }

theorem test_assignment :
    let t := assignmentRun night
    ((t.lane 0).state.held.map Entry.bay, (t.lane 1).state.held.map Entry.bay, t.prov.queue, t.prov.pointer) =
      (some 13, some 8, [], 0) := by decide +kernel
/-- R153: attempts of 9 are taken as 7. -/
theorem test_provAdd : answered (after (.provAdd 1 9 1 504 9) (seated 8 30 (base 30))) = [2, 9, 7, 1] := by
  decide +kernel
theorem test_provAdd_duplicate : answered (after (.provAdd 1 9 1 504 9) night) = [0x10, 12] := by decide +kernel
theorem test_provCancel :
    let t := after (.provCancel 1 14) night
    (t.prov.queue.map Entry.bay, answered t) = ([8], [0, 14, 1, 0]) := by decide +kernel
theorem test_provDone :
    let t := after (.provDone 1 2 14 701 0) (lane2 (.active entry14 100))
    ((t.lane 1).state, firstNotice t, answered t) = (.free, [16, 14, 0, 2, 2, 189], [0]) := by decide +kernel
theorem test_provDone_late : answered (after (.provDone 1 2 14 702 0) (lane2 (.active entry14 100))) = [0x10, 15] := by
  decide +kernel
/-- Lane 2's pattern check ends with 9 errors: its third strike. -/
theorem test_patternCheck_third :
    let t := after (.patternCheckEnd 1 5 9) (lane2 (.qualifying entry14 (.patternCheck 5 0)))
    ((t.lane 1).state, (t.lane 1).strikes, t.link.notices.map fun n => n.kind.code) =
      (.outOfService, 3, [24, 17]) := by decide +kernel
theorem test_patternCheck_ready :
    let t := after (.patternCheckEnd 1 5 4) (lane2 (.qualifying entry14 (.patternCheck 5 0)))
    ((t.lane 1).state, (t.lane 1).strikes, firstNotice t) =
      (.active entry14 1800000, 0, [23, 14, 2, 0, 2, 189]) := by decide +kernel
theorem test_lineCheck :
    ((after (.lineCheckResult 1 5 .clear) (lane2 (.qualifying entry14 (.lineCheck 5 0)))).lane 1).state =
      .qualifying entry14 (.patternCheck 6 0) := by decide +kernel
/-- R159: lane 1 lets bay 14 go and takes it again in the same ms; the abandoned check's result is discarded. -/
theorem test_lineCheck_abandoned :
    let s := release 0 .enteredDisabled (assignmentRun night)
    let late := after (.lineCheckResult 0 0 .clear) s
    let own := after (.lineCheckResult 0 1 .clear) s
    ((s.lane 0).state.step, (late.lane 0).state.step, (own.lane 0).state.step) = (some 1, some 1, some 2) := by
  decide +kernel
theorem test_lineCheck_fault :
    let t := after (.lineCheckResult 1 5 .dataOpen) (lane2 (.qualifying entry14 (.lineCheck 5 0)))
    ((t.bay 13).dataLine, (t.lane 1).strikes, firstNotice t) = (.dataOpen, 2, [16, 14, 3, 2, 2, 189]) := by
  decide +kernel
theorem test_lineCheckDeadline :
    ((after (.lineCheckDeadline 1) (lane2 (.qualifying entry14 (.lineCheck 5 0)))).lane 1).state = .outOfService := by
  decide +kernel
/-- R160: a TIMEOUT release gives no strike, and the requeued entry is taken again. -/
theorem test_sessionExpiry :
    let t := after (.sessionExpiry 1) (lane2 (.active entry14 100))
    ((t.lane 0).state.held.map Entry.attempts, (t.lane 1).strikes, (firstNotice t).take 4) =
      (some 2, 2, [24, 14, 8, 2]) := by decide +kernel
theorem test_laneServiceOut :
    let t := after (.laneServiceOut 1 2) (lane2 (.active entry14 100))
    ((t.lane 1).state, answered t) = (.outOfService, [0, 3, 2, 0, 0, 0, 0]) := by decide +kernel
theorem test_laneServiceIn : answered (after (.laneServiceIn 1 2) (lane2 .outOfService)) = [0, 0, 0, 0, 0, 0, 0] := by
  decide +kernel
theorem test_slotTable :
    let t := after (.slotTable 1 2 [2, 1]) (lane2 .free)
    (t.prov.slots, answered t) = ([.verify, .bulk], [0, 2, 2, 1]) := by decide +kernel
theorem test_slotTable_range : answered (after (.slotTable 1 1 [3]) (base 0)) = [0x10, 1] := by decide +kernel

/-! ### The store, reset and restart -/

theorem test_defaultWords : defaultWords = Vector.ofFn (savedWord defaultSettings) := by decide +kernel
theorem test_load_defaults : loadSettings defaultWords = defaultSettings := by decide +kernel
theorem test_storeSave :
    let t := after (.storeSave 1) (base 0)
    (t.store.save.map fun v => (v.next, v.minute), answered t) = (some (0, 0), [1]) := by decide +kernel
theorem test_storeSave_busy :
    answered (after (.storeSave 1) { after (.storeSave 1) (base 0) with link := State.reset.link }) = [0x11] := by
  decide +kernel
theorem test_storeWordWrite :
    ((after .storeWordWrite (after (.storeSave 1) (base 0))).store.save.map fun v => v.next) = some 1 := by
  decide +kernel
theorem test_saveComplete :
    let s := { base 0 with store := { (base 0).store with save := some ⟨defaultSettings, 7, 64⟩ } }
    let t := after .saveComplete { s with budget := { s.budget with storedInlet := 500 } }
    (t.store.save, t.budget.storedInlet, firstNotice t) = (none, 1200, [20, 0, 0, 7, 64, 0]) := by decide +kernel
theorem test_fullReset : (after (.fullReset .rstLow) classEnd).held = some .rstLow := by decide +kernel
theorem test_resetEnd :
    let t := after .resetEnd (after (.fullReset .powerOn) State.reset)
    (t.held, t.scan.round.map fun r => r.thermal) = (none, some true) := by decide +kernel
/-- R191: RESTART(FULL) comes at the end of its answer. -/
theorem test_restartFull :
    let t := after (.restartFull 1) classEnd
    (answered t, (after .answerSent t).custody) = ([0, 0], State.reset.custody) := by decide +kernel
/-- R150, R192: a warm restart keeps the custody records and the minute. -/
theorem test_restartWarm :
    let t := after (.restartWarm 1) classEnd
    ((t.cust 2).status, t.time.minute, (t.bay 6).state, answered t) =
      (.out ⟨101, 500, some 590, true⟩, 600, .empty, [0, 1]) := by decide +kernel
theorem test_tick_idle : (tick State.reset).time = ⟨1, 0, 1⟩ := by decide +kernel

/-! ### Witnesses: states and operands that meet the hypotheses of the obligations

The request statements hold from every state that can take a request; the event statements from every state out of reset.
`State.reset`, `base` and the states above meet both. -/

theorem witness_canTake : CanTake State.reset ∧ CanTake (base 1000) ∧ CanTake classEnd ∧ CanTake night := by
  unfold CanTake; decide +kernel
theorem witness_held : State.reset.held = none ∧ (after (.fullReset .rstLow) State.reset).held ≠ none := by
  decide +kernel
theorem witness_StepRunsTheFrontCommand :
    ({ State.reset with pending := [.attach 0, .status 1] } : State).pending = .attach 0 :: [.status 1] := rfl
/-- The clauses' boundary: 59,999 ticks counted, and one less. -/
theorem witness_EmptyQueueStepIsOneTick :
    let s : State := { State.reset with time := ⟨59999, 0, 59999⟩ }
    let u : State := { State.reset with time := ⟨59998, 65535, 59998⟩ }
    (s.pending = [] ∧ s.held = none ∧ 60000 ≤ s.time.minuteTicks + 1) ∧
      (u.pending = [] ∧ u.held = none ∧ u.time.minuteTicks + 1 < 60000) ∧
      (after (.fullReset .rstLow) State.reset).pending = [] := by decide +kernel
/-- A seated tablet whose signature has been gone for 49 samples, and SHED asserted for 19, at the counts' boundary; a
DOOR_CLOSED line that differs for the tenth sample; and an attach signature for the 499th, one short of it. -/
def lifted : State :=
  let s := (seated 11 40 (base 1000)).setBay 11 { (seated 11 40 (base 1000)).bay 11 with absenceRun := 49 }
  let s := (s.setBay 3 { s.bay 3 with attachRun := 498 }).setLatch 11
    ((s.latch 11).setFilter .doorClosed ⟨some true, 9, some false⟩)
  { s with
    budget := { s.budget with shedRun := 19 }
    pins :=
      { signature := Vector.ofFn fun b => b = 3, shedLine := true
        contacts := s.pins.contacts.set 11 ⟨true, false, false⟩ } }

/-- R2, R37, R107: each filter takes its event at its count, and one sample before it counts on. -/
theorem test_tick_filters :
    let t := samplePresence 3 (sampleContact 11 .doorClosed (sampleShed (samplePresence 11 lifted)))
    ((t.bay 11).presence, t.budget.shed, (t.latch 11).state, (t.bay 3).attachRun, (t.bay 3).presence) =
      (false, true, some .forced, 499, false) := by decide +kernel
theorem witness_EmptyQueue_filters :
    lifted.held = none ∧ lifted.pins.signature[(11 : Bay)] ≠ (lifted.bay 11).presence ∧
      50 ≤ (lifted.bay 11).absenceRun + 1 ∧ lifted.pins.signature[(3 : Bay)] ≠ (lifted.bay 3).presence ∧
      (lifted.bay 3).attachRun + 1 < 500 ∧ lifted.pins.signature[(0 : Bay)] = (lifted.bay 0).presence ∧
      lifted.pins.shedLine ≠ lifted.budget.shed ∧ 20 ≤ lifted.budget.shedRun + 1 ∧
      ((lifted.latch 11).filter .doorClosed).level = some (!(lifted.pins.contacts[(11 : Bay)].get .doorClosed)) ∧
      lifted.latchUnit.settings.noise ≤ ((lifted.latch 11).filter .doorClosed).run + 1 ∧
      (lifted.latch 11).state ≠ none ∧ ((lifted.latch 0).filter .boltOut).level = none ∧
      ∀ b, readyToStart (lifted.latch b) = false := by decide +kernel
/-- A bay whose three levels have been accepted and whose machine has not started. -/
theorem witness_EmptyQueue_start :
    let r := { latchIn .locked true false true with state := none }
    let s := oneLatch r
    let u : State := { s with pins := { s.pins with contacts := s.pins.contacts.set 2 ⟨true, false, true⟩ } }
    u.held = none ∧ u.pins.contacts[(2 : Bay)] = ⟨true, false, true⟩ ∧
      u.latch 2 = { u.latch 2 with
        boltOut := ⟨some true, 0, some true⟩, boltIn := ⟨some false, 0, some false⟩, door := ⟨some true, 0, some true⟩
        state := none } ∧
      ∀ b, b ≠ 2 → readyToStart (u.latch b) = false := by decide +kernel
/-- A reading at its deadline and one ms before it, and a settle timer due. -/
theorem witness_EmptyQueue_timers :
    let s : State := { State.reset with time := ⟨20, 0, 20⟩ }
    s.held = none ∧ (∃ r, s.scan.round = some r ∧ r.deadline ≤ s.time.ms) ∧
      ¬ (∃ r, (tick State.reset).scan.round = some r ∧ r.deadline ≤ (tick State.reset).time.ms) ∧
      ({ runPass sevenBays with time := ⟨20, 0, 20⟩ } : State).alloc.settleTimer = some 20 := by
  refine ⟨rfl, ⟨_, rfl, by decide⟩, ?_, by decide +kernel⟩
  rintro ⟨r, h, d⟩
  have : (tick State.reset).scan.round = State.reset.scan.round := by decide +kernel
  rw [this] at h
  cases h
  revert d
  decide +kernel
theorem witness_EveryCommandGoesOn :
    (after (.fullReset .rstLow) State.reset).held ≠ none ∧ Instr.attach 0 ≠ .resetEnd ∧
      ∀ cause, Instr.attach 0 ≠ .fullReset cause := ⟨by decide +kernel, by decide, fun _ => by nofun⟩
theorem witness_RequestFramesReadBack :
    (Instr.slotTable 1 239 (List.replicate 239 0)).wellFormed = true ∧
      (encodeRequest (.slotTable 1 239 (List.replicate 239 0))).isSome = true ∧
      (Instr.checkout 1 0 210 5 90 7).wellFormed = true ∧
      encodeRequest (.checkout 1 0 210 5 90 7) = some ⟨0x30, 1, [0, 0, 210, 5, 0, 90, 7]⟩ := by decide +kernel
theorem witness_FrameBytesReadBack :
    (⟨0x44, 1, List.replicate 240 0⟩ : Frame).payload.length ≤ 240 ∧
      (0 : Word16) ≠ crc16 (⟨0x01, 1, []⟩ : Frame).checked := by decide +kernel
theorem witness_KindAndLengthAreChecked :
    kindListed 0x11 = false ∧ kindListed 0x81 = false ∧ (0x31, some 2) ∈ requestKinds ∧ CanTake (base 0) ∧
      1 < (2 : Byte).toNat ∧ (⟨0x14, 1, [5, 2]⟩ : Frame).payload = [5, 2] ∧
      (⟨0x53, 1, [2]⟩ : Frame).payload = [2] := by
  unfold CanTake; decide +kernel
theorem witness_RequestBytesHaveTheRequestsEffect :
    (Instr.status 7).wellFormed = true ∧ encodeRequest (.status 7) = some ⟨0x01, 7, []⟩ ∧ State.reset.held = none ∧
      State.reset.link.rx = .hunting ∧ State.reset.link.sending = none ∧ State.reset.link.buffer = [] := by
  decide +kernel
/-- A receiver inside a frame, with the last byte at time 0. -/
def inFrame (bytes : List Byte) (now : Nat) : State :=
  { base 0 with link := { (base 0).link with rx := .inside bytes 0 }, time := ⟨now, 0, 0⟩ }

/-- Each clause at a boundary: a gap of 20 ms and of 21 ms; a first byte, a byte inside, and the last byte with a wrong
check. -/
theorem witness_ReceiverTakesBytes :
    (inFrame [] 20).link.rx = .inside [] 0 ∧ (inFrame [] 20).time.ms - 0 ≤ 20 ∧ 20 < (inFrame [] 21).time.ms - 0 ∧
      (inFrame [0, 1, 7] 20).link.rx = .inside (0 :: [1, 7]) 0 ∧ ([1] : List Byte).length + 2 < (0 : Byte).toNat + 5 ∧
      ([1, 7, 0x8F] : List Byte).length + 2 = (0 : Byte).toNat + 5 ∧ parseFrame ([0, 1, 7, 0x8F] ++ [0x4B]) = none ∧
      (base 0).link.rx = .hunting ∧ (base 0).held = none ∧ (inFrame [] 20).held = none := by decide +kernel
/-- A valid STATUS frame, one with a wrong length, and a BAY-ENABLE with action 2, as the bytes after SYNC. -/
theorem witness_ValidFrameIsBufferedOrTaken :
    (inFrame [0, 1, 7, 0x8F] 0).held = none ∧ (inFrame [0, 1, 7, 0x8F] 0).link.rx = .inside (0 :: [1, 7, 0x8F]) 0 ∧
      ([1, 7, 0x8F] : List Byte).length + 2 = (0 : Byte).toNat + 5 ∧
      parseFrame (0 :: [1, 7, 0x8F] ++ [0x4A]) = some ⟨0x01, 7, []⟩ ∧
      decodeRequest ⟨0x01, 7, []⟩ = .request (.status 7) ∧ (inFrame [0, 1, 7, 0x8F] 0).link.sending = none ∧
      (inFrame [0, 1, 7, 0x8F] 0).link.buffer = [] ∧ decodeRequest ⟨0x01, 7, [1]⟩ = .malformed ∧
      decodeRequest ⟨0x14, 7, [1, 2]⟩ = .outOfRange := by decide +kernel
/-- An answer being sent, with room for one more frame in the buffer. -/
def busy : State :=
  { base 0 with link := { (base 0).link with sending := some ⟨⟨0x81, 1, [0]⟩, false⟩, buffer := [⟨0x01, 7, []⟩] } }

theorem witness_RequestWaitsBehindAnAnswer :
    encodeRequest (.status 7) = some ⟨0x01, 7, []⟩ ∧ busy.held = none ∧
      busy.link.sending = some ⟨⟨0x81, 1, [0]⟩, false⟩ := by decide +kernel
theorem witness_AnswerEndTakesTheNextFrame :
    busy.held = none ∧ busy.link.sending = some ⟨⟨0x81, 1, [0]⟩, false⟩ ∧ busy.link.buffer = ⟨0x01, 7, []⟩ :: [] ∧
      (after (.restartFull 1) (base 0)).link.sending = some ⟨⟨0xD3, 1, [0, 0]⟩, true⟩ ∧
      (base 0).link.sending = none := by decide +kernel
/-- A queue that holds a notice of each replaced kind, and full queues with and without a notice to replace. -/
theorem witness_NoticeReplacesJoinsOrIsDiscarded :
    let n : Notice := ⟨.budget, 0, 1, 2, 3, 4, 5⟩
    let o : Notice := ⟨.attached, 1, 0, 0, 0, 0, 0⟩
    (o :: [n] = [o] ++ n :: []) ∧ n.kind = .budget ∧ o.kind ≠ .budget ∧ (List.replicate 47 o).length < 48 ∧
      48 ≤ (List.replicate 48 o).length := by decide +kernel
/-- Watchdog expiry in each mode, and with no count running. -/
theorem witness_WatchdogExpiryEntersAutonomous :
    let s : State := { oneLatch { latchIn .retracting false false true with travel := some 800 } with
      link := { State.reset.link with watchdog := some 0 } }
    s.held = none ∧ s.link.watchdog ≠ none ∧ s.link.mode = .normal ∧ (s.latch 2).state = some .retracting ∧
      (∀ m ∈ s.latchUnit.queue, m.1 ≠ (2 : Bay)) ∧ State.reset.link.watchdog = none := by decide +kernel
theorem witness_WatchdogExpiry_retractWaits :
    let s : State := { oneLatch (latchIn .locked true false true) with
      latchUnit := { State.reset.latchUnit with queue := [(2, .retract)] } }
    s.held = none ∧ (s.latch 2).state = some .locked ∧ ((2, Motion.retract) ∈ s.latchUnit.queue) := by decide +kernel
/-- Work of every kind at the watchdog's expiry: lane 2 holds bay 14; bay 3 is RELEASED with its window running; bay 4's
checkout waits to be granted. -/
def atExpiry : State :=
  let s := (((lane2 (.active entry14 100)).setLatch 2 { latchIn .released false true true with window := some 9 }).setLatch 3
    (latchIn .locked true false true)).setCust 3 { CustodyRec.initial with purpose := some (.checkout 102 0 none) }
  { s with
    latchUnit := { s.latchUnit with queue := [(3, .retract)] }
    link := { s.link with watchdog := some 0, armed := true, period := 5 } }

/-- R181, R166, R122, R132: AUTONOMOUS_ENTERED, PROV_ABORTED with reason 9, CHECKOUT_LAPSED; the entry back in the queue
with its attempts, the EXTEND of bay 3 granted. -/
theorem test_watchdog_atWork :
    let t := after .watchdogExpiry atExpiry
    (((t.link.notices.take 3).map fun n => (n.kind.code, n.subject, n.d1)), t.prov.queue, (t.lane 1).state,
      (t.latch 2).state, (t.cust 3).purpose) =
      ([(21, 0, 5), (24, 14, 9), (9, 4, 0)], [entry14], .free, some .extending, none) := by decide +kernel
theorem witness_WatchdogExpiry_atWork :
    atExpiry.held = none ∧ atExpiry.link.watchdog ≠ none ∧ atExpiry.link.mode = .normal ∧
      heldEntries atExpiry = [entry14] ∧ (atExpiry.latch 2).window ≠ none ∧ (3, Motion.retract) ∈ atExpiry.latchUnit.queue ∧
      atExpiry.budget.established = true ∧ atExpiry.budget.lastPass = some 1000 ∧ 1000 < budgetNow atExpiry := by
  decide +kernel
theorem witness_ResumeReturnsToNormal :
    let on := fun s : State => ({ s with link := { s.link with mode := .autonomous } } : State)
    let s := on (base 0)
    let b := budgetNow (base 0)
    (s.held = none ∧ s.link.sending = none ∧ s.link.mode = .autonomous ∧ s.alloc.passAsked = false ∧
        s.budget.lastPass = some 0 ∧ 0 < b ∧ 0 + s.budget.settings.hysteresis ≤ b ∧ s.budget.established = true) ∧
      ((on (base b)).budget.lastPass = some b ∧ (on State.reset).budget.established = false) ∧
      (base 0).link.mode = .normal := by decide +kernel
/-- The sample of bay 32 in a thermal round, with a fault to find (R92) and one that finds none. -/
theorem witness_SampleIsRecordedAndCounted :
    let s := awaits (.bay 31) true (seated 31 60 (base 1000))
    s.held = none ∧ s.scan.round = some ⟨true, false, some (.bay 31), 20⟩ ∧
      let u := awaits (.bay 2) false (runPass sevenBays)
      u.held = none ∧ u.scan.round = some ⟨false, false, some (.bay 2), 20⟩ ∧ (u.chg 2).pendingInc ≠ none := by
  decide +kernel
theorem witness_SampleFaultChecks :
    let s := awaits (.bay 31) true (seated 31 60 (base 1000))
    s.held = none ∧ s.scan.round = some ⟨true, false, some (.bay 31), 20⟩ ∧ (s.bay 31).state = .charging ∧
      max (s.bay 31).grant (s.bay 31).prevGrant + s.superv.tolerance < (69 : Byte).toNat ∧
      2 * (s.superv.hotLimit + 20) ≤ (180 : Byte).toNat ∧ (s.bay 31).state ≠ .hold := by decide +kernel
/-- A bay that waits to cool, and readings on both sides of the cool-down condition. -/
theorem witness_SampleFaultChecks_cool :
    let s := (holding .hot).setBay 17 { (holding .hot).bay 17 with backoff := .coolDown }
    let u := awaits (.bay 17) true s
    u.held = none ∧ u.scan.round = some ⟨true, false, some (.bay 17), 20⟩ ∧ (u.bay 17).state = .hold ∧
      (u.bay 17).backoff = .coolDown ∧ (u.bay 17).lastFault = some .hot ∧
      (169 : Byte).toNat < 2 * (u.superv.hotLimit - 5 + 20) ∧ ¬ (170 : Byte).toNat < 2 * (u.superv.hotLimit - 5 + 20) := by
  decide +kernel
/-- R97: the sample at 64.5 °C ends HOLD with a retry spent. -/
theorem test_sample_cooled :
    let s := (holding .hot).setBay 17 { (holding .hot).bay 17 with backoff := .coolDown }
    let r := (after (.sample 17 0 169) (awaits (.bay 17) true s)).bay 17
    (r.state, r.retries, r.backoff) = (.qualifying, 1, .stopped) := by decide +kernel
/-- Reclaim at its fourth sample in a row, which finds no fault (R80). -/
theorem witness_CountedSampleMovesPhaseAndCeiling :
    let s := awaits (.bay 8) false (seated 8 100 (base 1000))
    let s := s.setChg 8 { s.chg 8 with reclaim := 3 }
    s.held = none ∧ s.scan.round = some ⟨false, false, some (.bay 8), 20⟩ ∧ (s.bay 8).state = .charging ∧
      (59 : Byte) ≠ 255 ∧ (s.chg 8).pendingInc = none ∧
      (59 : Byte).toNat ≤ max (s.bay 8).grant (s.bay 8).prevGrant + s.superv.tolerance ∧
      (59 : Byte).toNat + s.alloc.settings.reclaimMargin < (s.chg 8).target ∧
      s.alloc.settings.reclaimCount ≤ (s.chg 8).reclaim + 1 ∧ s.budget.established = true := by decide +kernel
theorem witness_ZoneAndMissedReadingsAreRecorded :
    let s := awaits (.zone 3) true (base 0)
    s.held = none ∧ s.scan.round = some ⟨true, false, some (.zone 3), 20⟩ ∧ awaited s = some (.zone 3) ∧
      awaited (awaits (.bay 31) true (base 0)) = some (.bay 31) ∧ awaited (base 0) = none := by decide +kernel
/-- A thermal round before the budget is established, and a marked round in ON_REQUEST mode. -/
theorem witness_RoundCompletionPublishes :
    let s := { State.reset with scan := { State.reset.scan with round := some ⟨true, false, none, 0⟩ } }
    let u := { onRequest with scan := { onRequest.scan with round := some ⟨false, true, none, 0⟩ } }
    (s.held = none ∧ s.scan.round = some ⟨true, false, none, 0⟩ ∧ s.budget.established = false) ∧
      (u.held = none ∧ u.scan.round = some ⟨false, true, none, 0⟩ ∧ u.scan.mode = .onRequest) := by decide +kernel
/-- A later thermal round whose B is above the budget of the last pass by the hysteresis, and one whose B is below. -/
theorem witness_RoundCompletion_asks :
    let s := fun last => { base last with scan := { (base last).scan with round := some ⟨true, false, none, 0⟩ } }
    let b := fun last => (after .roundComplete (s last)).budget.computed
    (s 0).held = none ∧ (s 0).scan.round = some ⟨true, false, none, 0⟩ ∧ (s 0).budget.lastPass = some 0 ∧
      (0 < b 0 ∧ 0 + (s 0).budget.settings.hysteresis ≤ b 0) ∧ (s 9000).budget.lastPass = some 9000 ∧ b 9000 < 9000 := by
  decide +kernel
/-- Modes 1 and 2 are the two clauses' boundary; a wait whose moved expiry has passed, and one whose has not. -/
theorem witness_RoundsStartAsTheSettingsSay :
    CanTake onRequest ∧ (1 : Byte).toNat ≤ 1 ∧ 1 < (2 : Byte).toNat ∧
      ({ base 0 with scan := { (base 0).scan with wait := some 780 } } : State).held = none := by
  unfold CanTake; decide +kernel
/-- Bay numbers 0 and 33 name no bay, 1 and 32 do. -/
theorem witness_SnapshotAndBayQueryReport :
    CanTake (base 0) ∧ bayOf 0 = none ∧ bayOf 33 = none ∧ bayOf 1 = some 0 ∧ bayOf 32 = some 31 := by
  unfold CanTake; decide +kernel
theorem witness_AttachSeatsATablet :
    (classEnd.held = none ∧ (classEnd.bay 2).presence = false ∧
      (classEnd.cust 2).status = .out ⟨101, 500, some 590, true⟩) ∧ (classEnd.bay 6).presence = true := by
  decide +kernel
/-- A tablet under a CHECKOUT purpose, and one that a pass serves. -/
theorem witness_DetachTakesATablet :
    let s := after (.checkout 1 0 210 5 90 0) classEnd
    s.held = none ∧ (s.bay 6).presence = true ∧ (s.cust 6).purpose = some (.checkout 210 5 (some 690)) ∧
      (s.bay 6).state.eligible = true ∧ s.budget.established = true ∧ (s.bay 0).presence = false := by decide +kernel
theorem witness_ProbeCompletionEndsQualifying :
    let s := after (.attach 11) (base 1000)
    s.held = none ∧ (s.bay 11).state = .qualifying ∧ (s.bay 11).probe.map Probe.number = some 0 ∧ s.budget.established = true ∧
      (s.bay 11).probe.map Probe.number ≠ some 1 := by decide +kernel
theorem witness_ShortEventIsATransientFault :
    (seated 17 60 (base 1000)).held = none ∧ ((seated 17 60 (base 1000)).bay 17).state = .charging ∧
      ((seated 17 60 (base 1000)).bay 17).retries < (seated 17 60 (base 1000)).superv.retryLimit ∧
      ((base 1000).bay 17).state = .empty := by decide +kernel
theorem witness_BackoffAndCleanChargeExpire :
    (holding .short).held = none ∧ ((holding .short).bay 17).state = .hold ∧
      ((holding .short).bay 17).backoff = .running 30000 ∧ ((holding .hot).bay 17).lastFault = some .hot ∧
      (holding .hot).scan.latestTemp[(17 : Bay)] = 255 := by decide +kernel
theorem witness_BayEnableAndFaultClearMoveTheBay :
    CanTake (holding .hot) ∧ bayOf 18 = some 17 ∧ bayOf 0 = none ∧ bayOf 33 = none := by
  unfold CanTake; decide +kernel

/-- The built-in defaults lie in their ranges (R186). -/
theorem witness_SettingsInRange : SettingsInRange defaultSettings := by unfold SettingsInRange; decide +kernel
/-- What the built-in settings meet (R36, R70, R74, R102, R125, R147, R169, R180, R184). -/
theorem witness_SettingsLaw : SettingsLaw State.reset := by
  obtain ⟨rate, period, budget, latch, charge, superv, custody, prov, slots, profiles⟩ := witness_SettingsInRange
  exact ⟨budget, charge, profiles, superv, latch, custody, prov, slots, period, rate, by decide, nofun⟩
/-- A valid reading among invalid ones, and a knee, cut and temperature of each row of R40's table (chapter 3, limit
cases). The built-in settings meet `SettingsLaw` above. -/
theorem witness_BudgetComesInSevenStages :
    (#v[255, 132, 255, 255] : Vector Byte 4)[(1 : Fin 4)] ≠ 255 ∧ (40 : Nat) + 5 ≤ 45 ∧ (2 * 40 : Int) < 81 ∧
      (81 : Int) < 2 * 45 ∧ (80 : Int) ≤ 2 * 40 ∧ (2 * 45 : Int) ≤ 90 := by decide
theorem witness_BudgetSetAndShedRecompute :
    CanTake warm ∧ warm.held = none ∧ warm.budget.shed ≠ true ∧ warm.budget.shed = false := by
  unfold CanTake; decide +kernel
theorem witness_PassDividesTheBudget :
    ((base 1000).bay 0).state.eligible = false ∧ (sevenBays.bay 2).state.eligible = true ∧
      0 < (runPass (seated 0 40 (base 1000))).alloc.remainder := by decide +kernel
/-- A bay in CHARGING with tier LANE that no lane holds, under an established budget; and a state that is settled. -/
theorem witness_PassDivides_tiers :
    (sevenBays.budget.established = true ∧ (sevenBays.bay 2).state.eligible = true ∧
      (sevenBays.chg 2).tier ≠ sevenBays.tierOf 2) ∧ Settled State.reset := by unfold Settled; decide +kernel

/-- The worked pass starts from grants within their ceilings, in CHARGING alone. -/
theorem witness_GrantLaw : GrantLaw sevenBays := by unfold GrantLaw; decide +kernel
theorem witness_PassStagesItsIncreases :
    (sevenBays.bay 7).state = .charging ∧ ((runPass sevenBays).chg 7).target < (sevenBays.bay 7).grant ∧
      let s := seated 0 40 (base 1000)
      ¬ ∃ b, (s.bay b).state = .charging ∧ ((runPass s).chg b).target < (s.bay b).grant := by decide +kernel
/-- A bay in CHARGING with a run begun that the pass defers. -/
theorem witness_PassStages_deferred :
    GrantLaw twoInvalid ∧ (twoInvalid.bay 8).state = .charging ∧ (twoInvalid.bay 8).invalidRun = 2 ∧
      ((runPass twoInvalid).chg 8).target = 0 := by unfold GrantLaw; decide +kernel
/-- R99: the pass takes a WAITING bay 5 into CHARGING with its clean-charge timer started, and stops that of bay 9. -/
def fifthWaits : State :=
  tight.setBay 4 { tight.bay 4 with state := .waiting, grant := 0, prevGrant := 0, cleanTimer := none }

theorem test_pass_cleanTimer :
    ([4, 8, 1] : List Bay).map (fun b => (((runPass fifthWaits).bay b).state, ((runPass fifthWaits).bay b).cleanTimer)) =
      [(.charging, some 600000), (.waiting, none), (.charging, some 600000)] := by decide +kernel
theorem witness_PassStages_enters :
    GrantLaw fifthWaits ∧ (fifthWaits.bay 4).state = .waiting ∧ ((runPass fifthWaits).chg 4).target ≠ 0 := by
  unfold GrantLaw; decide +kernel
theorem witness_GrantLaw_noneLowered : GrantLaw (seated 0 40 (base 1000)) := by unfold GrantLaw; decide +kernel
theorem witness_SettleExpiryAppliesTheIncreases :
    (runPass sevenBays).held = none ∧ (runPass sevenBays).alloc.settleTimer ≠ none ∧
      ((runPass sevenBays).chg 2).pendingInc = some 100 := by decide +kernel
/-- The worked pass asked for with no settle interval, and with the interval of the defaults. -/
theorem witness_SettleExpiry_atOnce :
    let asked : State := { sevenBays with alloc := { sevenBays.alloc with passAsked := true } }
    let s : State := { asked with alloc := { asked.alloc with settings := { asked.alloc.settings with settle := 0 } } }
    let u := runPass { s with alloc := { s.alloc with passAsked := false } }
    (s.held = none ∧ s.alloc.passAsked = true ∧ s.budget.established = true ∧ s.alloc.settings.settle = 0 ∧
      u.alloc.settleTimer ≠ none) ∧ asked.alloc.settings.settle ≠ 0 ∧ (runAsked s).alloc.settleTimer = none := by
  decide +kernel
theorem witness_ChargeSetBringsAPass : CanTake (base 0) ∧ (base 0).budget.established = true := by
  unfold CanTake; decide +kernel
/-- Indexes 7 and 8 are the two clauses' boundary. -/
theorem witness_ProfileSetAndBayProfileMoveTheBays :
    CanTake (seated 8 80 (base 1000)) ∧ 7 < (8 : Byte).toNat ∧ (7 : Fin 8).val = (7 : Byte).toNat ∧
      ((seated 8 80 (base 1000)).chg 8).profile = 0 ∧ ((seated 8 80 (base 1000)).bay 8).presence = true ∧
      (∀ b, ((seated 8 80 (base 1000)).chg b).profile ≠ 7) ∧ bayOf 9 = some 8 ∧ bayOf 33 = none := by unfold CanTake; decide +kernel

/-- The laws of grants, targets and power at the worked pass's start: 220 qW of grants under a budget of 300. -/
theorem witness_TargetLaw : TargetLaw sevenBays := by
  intro b
  have h : ∀ b : Bay, (sevenBays.bay b).grant ≤ (sevenBays.chg b).target ∧
      ((sevenBays.bay b).state.eligible = false → (sevenBays.chg b).target = 0) ∧
      (sevenBays.chg b).pendingInc = none := by decide +kernel
  exact ⟨(h b).1, (h b).2.1, fun inc hi => by simp [(h b).2.2] at hi⟩
theorem witness_PowerLaw : PowerLaw sevenBays :=
  ⟨witness_GrantLaw, show (allBays.map (committed sevenBays)).sum ≤ 300 by decide +kernel⟩
theorem witness_step : step State.reset = .next (tick State.reset) ∧ step sevenBays = .next (tick sevenBays) := ⟨rfl, rfl⟩
theorem witness_RangesAndQueuesAreKept :
    CeilingLaw State.reset ∧ BudgetLaw State.reset ∧ NoticeLaw State.reset ∧ BufferLaw State.reset := by
  unfold CeilingLaw BudgetLaw NoticeLaw BufferLaw; decide +kernel

/-- A latch in RETRACTING at BOLT_IN, one in LOCKED whose door opens, one whose level stands, and no motion waiting. -/
theorem witness_ContactEventMovesTheLatch :
    let s := oneLatch { latchIn .retracting false false true with travel := some 800 }
    let u := oneLatch (latchIn .locked true false true)
    (s.held = none ∧ (s.latch 2).state = some .retracting ∧ ((s.latch 2).filter .boltIn).level = some (!true) ∧
        ∀ m ∈ s.latchUnit.queue, m.1 ≠ (2 : Bay)) ∧
      ((u.latch 2).state = some .locked ∧ ((u.latch 2).filter .doorClosed).level = some (!false) ∧
        (((u.latch 2).setFilter .doorClosed ⟨some false, 0, some false⟩).boltOut.level = some true)) ∧
      ((u.latch 2).filter .boltOut).level = some true := by decide +kernel
/-- A motion waiting: an EXTEND of a RELEASED latch whose door opens, and a RETRACT of a LOCKED one whose door opens
behind the bolt or whose bolt slips. -/
theorem witness_ContactEvent_motionWaits :
    let s : State := { oneLatch (latchIn .released false true true) with
      latchUnit := { State.reset.latchUnit with queue := [(2, .extend)] } }
    let u : State := { oneLatch (latchIn .locked true false true) with
      latchUnit := { State.reset.latchUnit with queue := [(2, .retract)] } }
    (s.held = none ∧ (s.latch 2).state = some .released ∧ s.pendingMotion 2 = some .extend ∧
        ((s.latch 2).filter .doorClosed).level = some (!false)) ∧
      (u.held = none ∧ (u.latch 2).state = some .locked ∧ u.pendingMotion 2 = some .retract ∧
        (((u.latch 2).setFilter .doorClosed ⟨some false, 0, some false⟩).boltOut.level = some true) ∧
        let l := (u.latch 2).setFilter .boltOut ⟨some false, 0, some false⟩
        l.boltIn.level ≠ some true ∧ l.door.level = some true) := by decide +kernel
/-- R119: an EXTEND younger than a RETRACT, and a RETRACT alone, with a mover free. -/
theorem witness_ContactEvent_arbitrates :
    let u : State := { oneLatch (latchIn .locked true false true) with
      latchUnit := { State.reset.latchUnit with queue := [(6, .retract), (2, .extend)] } }
    u.latchUnit.queue = [(6, .retract)] ++ (2, .extend) :: [] ∧ u.moving < u.latchUnit.settings.movers ∧
      (∀ x ∈ ([(6, .retract)] : List (Bay × Motion)) ++ [], x.1 ≠ (2 : Bay) ∧ x.2 = .retract) ∧
      (base 0).latchUnit.queue = [] ∧ ((u.extendGranted 2).latch 2).state = some .locked := by decide +kernel
theorem witness_LatchMachineStartsFromItsContacts :
    (base 0).held = none ∧ ((base 0).latch 2).state = none ∧ (∀ m ∈ (base 0).latchUnit.queue, m.1 ≠ (2 : Bay)) ∧
      (((base 0).latch 2).filter .boltOut).level = none ∧
      let r := (latchIn .locked true false true)
      (oneLatch { r with state := none, boltIn := Filter.initial }).latch 2 =
        { r with state := none, boltIn := Filter.initial } := by decide +kernel
/-- Each timer running in a state that runs it. -/
theorem witness_LatchTimersExpire :
    let s := oneLatch { latchIn .retracting false false true with travel := some 800 }
    let e := oneLatch { latchIn .extending false false true with travel := some 800, retryUsed := true }
    let w := oneLatch { latchIn .released false true true with window := some 9 }
    let c := oneLatch { latchIn .closing false true true with settle := some 9 }
    (s.held = none ∧ (∀ m ∈ s.latchUnit.queue, m.1 ≠ (2 : Bay)) ∧ (s.latch 2).travel ≠ none ∧
        (s.latch 2).state = some .retracting) ∧
      ((e.latch 2).travel ≠ none ∧ (e.latch 2).state = some .extending ∧ (e.latch 2).retryUsed = true) ∧
      ((w.latch 2).window ≠ none ∧ (w.latch 2).state = some .released ∧ (w.latch 2).boltOut.level ≠ some true) ∧
      ((c.latch 2).settle ≠ none ∧ (c.latch 2).state = some .closing ∧ (c.latch 2).boltOut.level ≠ some true) := by
  decide +kernel
/-- Bays 3 and 4 in RETRACTING under a movers limit of 1, and an established budget far from what the inputs give. -/
def twoMove : State :=
  let r := { latchIn .retracting false false true with travel := some 800 }
  let s := (oneLatch r).setLatch 3 r
  { s with latchUnit := { s.latchUnit with settings := { s.latchUnit.settings with movers := 1 } } }

/-- R46, R120: the mover freed recomputes the budget with one mover fewer, and B asks for a pass. -/
theorem test_moverFreed :
    let t := after (.travelTimeout 2) twoMove
    (t.moving, decide (t.budget.computed = budgetNow t), decide (t.budget.lastPass = some (budgetNow t)),
      decide (1000 < budgetNow t)) = (1, true, true, true) := by decide +kernel
theorem witness_BudgetTold :
    twoMove.held = none ∧ NoMotion twoMove 2 ∧ (twoMove.latch 2).state = some .retracting ∧
      twoMove.latchUnit.settings.movers < twoMove.moving ∧ ((twoMove.latch 2).filter .boltIn).level = some (!true) ∧
      twoMove.budget.established = true ∧ NewBudgetAsks twoMove (budgetNow (after (.travelTimeout 2) twoMove)) := by
  refine ⟨rfl, by unfold NoMotion; decide +kernel, rfl, by decide +kernel, rfl, rfl, ?_⟩
  show _ ∨ _
  decide +kernel
/-- A raised M with a RETRACT waiting: the budget of the new M asks for a pass, or, standing already, does not. -/
theorem witness_LatchSet_asks :
    let new := fun s : State =>
      ({ s with latchUnit := { s.latchUnit with settings := { s.latchUnit.settings with movers := 8 } } } : State)
    CanTake (base 1000) ∧ (base 1000).budget.established = true ∧ NewBudgetAsks (base 1000) (budgetNow (new (base 1000))) ∧
      (base 1000).latchUnit.settings.movers < 8 ∧ (base 1000).alloc.passAsked = false ∧
      ¬ NewBudgetAsks (base (budgetNow (new (base 0)))) (budgetNow (new (base 0))) := by
  unfold CanTake
  refine ⟨by decide +kernel, rfl, ?_, by decide +kernel, rfl, ?_⟩ <;> simp only [NewBudgetAsks, base] <;> decide +kernel
theorem witness_LatchSetAndLockdownAreTaken :
    let w := oneLatch { latchIn .released false true true with window := some 9 }
    w.held = none ∧ w.link.sending = none ∧ w.link.lockdown = false ∧
      (∀ m ∈ w.latchUnit.queue, m.1 ≠ (2 : Bay)) ∧ (w.latch 2).window ≠ none ∧ (w.latch 2).state = some .released ∧
      (w.latch 2).boltOut.level ≠ some true := by decide +kernel

/-- The law of the latches where four of them are LOCKED and the rest have not started. -/
theorem witness_LatchLaw : LatchLaw classEnd := by
  refine ⟨by decide +kernel, fun b => ?_⟩
  have h : ∀ b : Bay, classEnd.latch b = LatchRec.initial ∨ classEnd.latch b = latchIn .locked true false true := by
    decide +kernel
  have q : classEnd.pendingMotion b = none := rfl
  rcases h b with h | h <;> simp [h, q, LatchRec.initial, latchIn]
theorem witness_AutonomousLaw :
    AutonomousLaw { classEnd with link := { classEnd.link with mode := .autonomous } } := by
  intro _
  exact ⟨by decide +kernel, by decide +kernel, by decide +kernel⟩

/-- A named bay that passes every check, bay 0 with candidates, and each refusal's condition for one bay. -/
theorem witness_CheckoutIsCheckedAndReleases :
    CanTake classEnd ∧ classEnd.link.mode = .normal ∧ classEnd.link.lockdown = false ∧ (210 : Word16) ≠ 0 ∧
      bayOf 11 = some 10 ∧ (classEnd.bay 10).presence = true ∧ (classEnd.cust 10).status = .inCart ∧
      (classEnd.latch 10).state = some .locked ∧ classEnd.pendingMotion 10 = none ∧
      (classEnd.cust 10).purpose = none ∧ (classEnd.cust 10).reservation = none ∧ classEnd.laneOf 10 = none ∧
      (classEnd.chg 10).phase ≠ .bulk ∧ ((classEnd.latch 10).boltIn.level ≠ some true) ∧
      ¬ classEnd.custodySet.holderLimit ≤ holderCount classEnd 210 ∧
      classEnd.custodySet.holderLimit ≤ holderCount classEnd 102 := by unfold CanTake; decide +kernel
theorem witness_ReturnAndServiceOpenAskForReleases :
    CanTake classEnd ∧ classEnd.link.mode = .normal ∧ classEnd.link.lockdown = false ∧ (101 : Word16) ≠ 0 ∧
      (classEnd.cust 2).status = .out ⟨101, 500, some 590, true⟩ ∧ (classEnd.cust 2).purpose = none ∧
      (∀ c : Bay, c < 2 → (classEnd.cust c).status = .vacant) ∧ (classEnd.latch 2).state = some .locked ∧
      classEnd.pendingMotion 2 = none ∧ bayOf 3 = some 2 := by unfold CanTake; decide +kernel
/-- Counts 0, 1, 32 and 33 are the boundaries of RESERVE's range; group 5 holds reservations and group 6 none. -/
theorem witness_ReserveGivesAndCancelRemoves :
    CanTake classEnd ∧ 32 < (33 : Byte).toNat ∧ ¬ 32 < (32 : Byte).toNat ∧
      (classEnd.cust 6).reservation = some ⟨5, 640, true⟩ ∧
      (∀ b, (classEnd.cust b).reservation = none ∨ (classEnd.cust b).reservation = some ⟨5, 640, true⟩) ∧
      (classEnd.bay 10).presence = true := by unfold CanTake; decide +kernel
theorem witness_CustodyLoadAndCustodySetAreTaken :
    CanTake classEnd ∧ bayOf 20 = some 19 ∧ (300 : Word16) ≠ 0 ∧ (classEnd.bay 19).presence = false ∧
      (classEnd.cust 19).status = .vacant ∧ (classEnd.cust 19).purpose = none ∧
      ¬ classEnd.custodySet.holderLimit ≤ holderCount classEnd 300 ∧
      (classEnd.bay 6).presence = true ∧ classEnd.custodySet.holderLimit ≤ holderCount classEnd 102 ∧
      (classEnd.cust 2).status = .out ⟨101, 500, some 590, true⟩ := by unfold CanTake; decide +kernel
theorem witness_MinuteAdvanceTestsTheRecords : classEnd.held = none := by decide +kernel
theorem witness_CustodyLaw : CustodyLaw classEnd := by unfold CustodyLaw; decide +kernel
theorem witness_HolderLaw : HolderLaw State.reset := by
  intro holder
  have h : ∀ b, State.reset.cust b = CustodyRec.initial := by decide +kernel
  have z : (fun b => (State.reset.cust b).counts holder) = fun _ => 0 := by
    funext b
    rw [h b]
    rfl
  rw [holderCount, z]
  decide +kernel

/-- Two entries whose classes have slots, an older and a younger stamp, and every lane FREE. -/
theorem witness_AssignmentServesTheSlotsInTurn :
    SlotLaw night ∧ (night.lane 0).state = .free ∧ 0 < night.prov.slots.length ∧ entry14 ∈ night.prov.queue ∧
      (night.bay 13).state = .charging ∧
      min night.alloc.settings.provFloor (night.profile 13).ceiling ≤ (night.chg 13).target ∧
      (night.latch 13).state = some .locked ∧ night.pendingMotion 13 = none ∧ (night.bay 13).dataLine = .clear ∧
      (night.cust 13).reservation = none ∧ night.link.mode = .normal ∧ entry14.hold = 0 ∧
      night.prov.slots[(night.prov.pointer + 0) % night.prov.slots.length]? = some entry14.cls ∧
      (∀ e ∈ night.prov.queue, e.cls = entry14.cls → e = entry14) := by unfold SlotLaw; decide +kernel
/-- R158: bay 14's entry is barred by a reservation within the horizon until RESERVE-CANCEL ends it; then lane 1 takes it. -/
def barred : State :=
  (night.setCust 13 { night.cust 13 with reservation := some ⟨5, 640, true⟩ }).setQueue [entry14]

theorem test_reserveCancel_assigns :
    (((runPass barred).lane 0).state, ((after (.reserveCancel 1 5) barred).lane 0).state.held) =
      (.free, some entry14) := by decide +kernel
theorem witness_LanesServed :
    SlotLaw barred ∧ SlotLaw sevenBays ∧ SlotLaw classEnd ∧ CanTake barred ∧
      (barred.cust 13).reservation = some ⟨5, 640, true⟩ ∧
      (classEnd.cust 6).reservation = some ⟨5, 640, true⟩ ∧ past 651 (640 + 10) = true := by
  unfold SlotLaw CanTake; decide +kernel
/-- A latch in EXTENDING that comes to BOLT_OUT. -/
theorem witness_ContactEvent_relocks :
    let s := oneLatch { latchIn .extending false false true with travel := some 800 }
    s.held = none ∧ SlotLaw s ∧ NoMotion s 2 ∧ ((s.latch 2).filter .boltOut).level = some (!true) := by
  unfold SlotLaw NoMotion; decide +kernel
/-- Lane 2 holds bay 14, whose latch can leave LOCKED at its door. -/
theorem witness_ReleaseLetsTheBayGo :
    let s := lane2 (.active entry14 100)
    s.held = none ∧ LaneLaw s ∧ (s.lane 1).state.held = some entry14 ∧ entry14.bay = 13 ∧ s.link.sending = none ∧
      ((after (.contactEvent 13 .doorClosed false) s).latch 13).state ≠ some .locked := by unfold LaneLaw; decide +kernel
/-- A queued entry of a bay in CHARGING with retries left, and with none; and of one in QUALIFYING. -/
theorem witness_Release_queued :
    let u := night.setBay 13 { night.bay 13 with retries := night.superv.retryLimit }
    let q : State := { after (.attach 13) (base 1000) with prov := { night.prov with queue := [entry14] } }
    (night.held = none ∧ LaneLaw night ∧ night.queued 13 = some entry14 ∧ (night.bay 13).state = .charging ∧
        ¬ night.superv.retryLimit ≤ (night.bay 13).retries) ∧
      (LaneLaw u ∧ u.queued 13 = some entry14 ∧ (u.bay 13).state = .charging) ∧
      (q.held = none ∧ LaneLaw q ∧ q.queued 13 = some entry14 ∧ (q.bay 13).state = .qualifying ∧
        (q.bay 13).probe = some ⟨0, 0⟩) := by unfold LaneLaw; decide +kernel
/-- A pass over a queued entry with a power hold, and one that leaves a held bay below its lane level. -/
theorem witness_Release_power :
    let s : State := { night with prov := { night.prov with queue := [{ entry14 with hold := 1 }] } }
    let u : State := { lane2 (.active entry14 100) with budget := (base 0).budget }
    LaneLaw s ∧ LaneLaw u ∧ (u.lane 1).state.held = some entry14 ∧
      ((runPass u).chg 13).target < min u.alloc.settings.provFloor (u.profile 13).ceiling := by
  unfold LaneLaw; decide +kernel
/-- Lane numbers 0 and 5 name no lane, 1 and 4 do; results 2 and 3, and classes 2 and 3, are the boundaries. -/
theorem witness_ProvisioningRequestsAreTaken :
    let s := lane2 (.active entry14 100)
    CanTake s ∧ CanTake night ∧ laneOfByte 0 = none ∧ laneOfByte 5 = none ∧ laneOfByte 4 = some 3 ∧
      laneOfByte 2 = some 1 ∧ (s.lane 1).state = .active entry14 100 ∧ bayNumber entry14.bay = 14 ∧
      s.laneOf 13 = some 1 ∧ night.laneOf 13 = none ∧ night.queued 13 ≠ none ∧ bayOf 9 = some 8 ∧
      ProvClass.bulk.code = 1 ∧ s.queued 8 = none ∧ s.laneOf 8 = none ∧ (s.bay 8).presence = true ∧
      (s.bay 8).dataLine = .clear ∧ (s.bay 8).state ≠ .latched := by unfold CanTake; decide +kernel
theorem witness_LaneServiceAndSlotTableAreTaken :
    CanTake (lane2 .free) ∧ laneOfByte 2 = some 1 ∧ ([2, 1] : List Byte) = [ProvClass.verify, .bulk].map ProvClass.code ∧
      [ProvClass.verify, .bulk].length = (2 : Byte).toNat ∧ (2 : Byte) ≠ 0 ∧ ([] : List Byte).length ≠ (1 : Byte).toNat ∧
      16 < (17 : Byte).toNat := by unfold CanTake; decide +kernel
theorem witness_LaneStepsEnd :
    let s := lane2 (.qualifying entry14 (.lineCheck 5 0))
    let u := lane2 (.qualifying entry14 (.patternCheck 5 0))
    s.held = none ∧ (s.lane 1).state = .qualifying entry14 (.lineCheck 5 0) ∧
      (u.lane 1).state = .qualifying entry14 (.patternCheck 5 0) ∧ min 255 4 ≤ u.prov.settings.threshold ∧
      u.prov.settings.threshold < min 255 5 ∧ ((lane2 (.active entry14 100)).lane 1).state = .active entry14 100 := by
  decide +kernel
/-- Lane 2 holds bay 14, of tier LANE. -/
def laneServed : State := (lane2 (.active entry14 100)).setChg 13 { (lane2 .free).chg 13 with tier := .lane }

/-- The laws of seats, lanes and tiers where lane 2 holds bay 14 and bay 9's tablet is seated. -/
theorem witness_BayAndLaneLawsAreKept : SeatLaw laneServed ∧ LaneLaw laneServed ∧ SlotLaw laneServed ∧ TierLaw laneServed := by
  unfold SeatLaw LaneLaw SlotLaw TierLaw; decide +kernel
theorem witness_BayAndLaneLaws_latches : LatchLaw laneServed := by
  refine ⟨by decide +kernel, fun b => ?_⟩
  have h : ∀ b : Bay, laneServed.latch b = LatchRec.initial ∨ laneServed.latch b = latchIn .locked true false true := by
    decide +kernel
  have q : laneServed.pendingMotion b = none := rfl
  rcases h b with h | h <;> simp [h, q, LatchRec.initial, latchIn]

/-- A save whose last word has been written, one in flight, and none. -/
theorem witness_StoreSaveWritesItsCopy :
    CanTake (base 0) ∧ (base 0).store.save = none ∧ (base 0).held = none ∧
      (after (.storeSave 1) (base 0)).store.save = some ⟨(after (.storeSave 1) (base 0)).store.save.elim defaultSettings
        Save.copy, 0, 0⟩ := by unfold CanTake; decide +kernel
/-- The built-in defaults, as a save writes them, with one wrong bit in the first word. -/
theorem witness_LoadReadsWhatASaveWrote :
    let words := (Vector.ofFn (savedWord defaultSettings)).set 0 { savedWord defaultSettings 0 with wrong := .one }
    ∀ i : Fin 64, words[i].wrong ≠ .two ∧ { words[i] with wrong := .zero } = savedWord defaultSettings i := by
  decide +kernel
theorem witness_FullResetLeavesItsValues :
    classEnd.held = none ∧ (after (.fullReset .rstLow) classEnd).held ≠ none ∧ classEnd.store.save = none ∧
      ResetCause.rstLow ≠ .restartFull := by decide +kernel
/-- A restart while a save is in flight. -/
theorem witness_RestartKeepsWhatItMust :
    let s := { after (.storeSave 1) classEnd with link := classEnd.link }
    CanTake s ∧ CanTake classEnd ∧ s.store.save.isSome = true ∧ classEnd.store.save = none := by
  unfold CanTake; decide +kernel

end Sys2Proof.Tests
end

