-- ==== Sys2Proof/Proofs/LaneWork.lean ====
section
/-! PROOF. The lanes and the provisioning queue as one invariant over two fixed conditions on bays, and what the work of
the Provisioning Scheduler and of the Custody Table keeps of it. -/

namespace Sys2Proof.Machine

/-! ### The invariant of the lanes and the queue -/

/-- R163: a bay that a lane may hold. -/
def CanHold (s : State) (b : Bay) : Prop :=
  (s.bay b).presence = true ∧ (s.bay b).state = .charging ∧ (s.latch b).state = some .locked

/-- R152: a bay that may have a queued entry. -/
def CanQueue (s : State) (b : Bay) : Prop := (s.bay b).presence = true ∧ (s.bay b).state ≠ .latched

/-- The lane law with its two conditions on bays left open: `P` for the held bays, `Q` for the queued ones. While an event
is under way they exempt the bay it acts on. -/
structure LaneInv (P Q : Bay → Prop) (s : State) : Prop where
  queueOnce : (s.prov.queue.map Entry.bay).Nodup
  heldOnce : ∀ l m e f, (s.lane l).state.held = some e → (s.lane m).state.held = some f → e.bay = f.bay → l = m
  apart : ∀ e ∈ s.prov.queue, ∀ l f, (s.lane l).state.held = some f → e.bay ≠ f.bay
  queueOk : ∀ e ∈ s.prov.queue, Q e.bay ∧ e.hold ≤ 2 ∧ 1 ≤ e.attempts ∧ e.attempts ≤ 7
  heldOk : ∀ l e, (s.lane l).state.held = some e → P e.bay ∧ 1 ≤ e.attempts ∧ e.attempts ≤ 7
  strikes : ∀ l, (s.lane l).strikes ≤ 3

theorem LaneInv.mono {P Q P' Q' : Bay → Prop} {s : State} (h : LaneInv P Q s) (hP : ∀ b, P b → P' b)
    (hQ : ∀ b, Q b → Q' b) : LaneInv P' Q' s :=
  { h with
    queueOk := fun e he => ⟨hQ _ (h.queueOk e he).1, (h.queueOk e he).2⟩
    heldOk := fun l e he => ⟨hP _ (h.heldOk l e he).1, (h.heldOk l e he).2⟩ }

/-- The invariant speaks of the lanes and the queue alone. -/
theorem LaneInv.congr {P Q : Bay → Prop} {s t : State} (h : LaneInv P Q s) (lanes : t.lanes = s.lanes)
    (queue : t.prov.queue = s.prov.queue) : LaneInv P Q t := by
  have lane : ∀ l, t.lane l = s.lane l := fun l => by simp only [State.lane, lanes]
  constructor <;> simp only [lane, queue]
  exacts [h.queueOnce, h.heldOnce, h.apart, h.queueOk, h.heldOk, h.strikes]

theorem mem_heldEntries (s : State) (e : Entry) : e ∈ heldEntries s ↔ ∃ l, (s.lane l).state.held = some e := by
  simp [heldEntries, mem_allLanes]

theorem heldEntries_nodup_iff (s : State) :
    ((heldEntries s).map Entry.bay).Nodup ↔
      ∀ l m e f, (s.lane l).state.held = some e → (s.lane m).state.held = some f → e.bay = f.bay → l = m := by
  simp only [List.Nodup, heldEntries, List.pairwise_map, List.pairwise_filterMap]
  constructor
  · intro h l m e f he hf same
    by_contra ne
    have sym : Std.Symm fun l m : Lane => ∀ e, (s.lane l).state.held = some e → ∀ f,
        (s.lane m).state.held = some f → e.bay ≠ f.bay := ⟨fun l m h e he f hf => (h f hf e he).symm⟩
    exact List.Pairwise.forall h (mem_allLanes l) (mem_allLanes m) ne e he f hf same
  · intro h
    refine List.Pairwise.imp (R := fun l m : Lane => l ≠ m) ?_ (by decide)
    exact fun {l m} ne e he f hf same => ne (h l m e f he hf same)

/-- The lane law is the invariant with no bay exempted. -/
theorem laneLaw_iff (s : State) : LaneLaw s ↔ LaneInv (CanHold s) (CanQueue s) s := by
  simp only [LaneLaw, List.map_append, List.nodup_append, heldEntries_nodup_iff]
  constructor
  · rintro ⟨⟨hq, hh, hd⟩, queue, held, attempts, strikes⟩
    refine ⟨hq, hh, ?_, ?_, ?_, strikes⟩
    · exact fun e he l f hf => hd _ (List.mem_map_of_mem he) _
        (List.mem_map_of_mem ((mem_heldEntries s f).2 ⟨l, hf⟩))
    · intro e he
      obtain ⟨pres, lat, hold⟩ := queue e he
      exact ⟨⟨pres, lat⟩, hold, attempts e (List.mem_append_left _ he)⟩
    · intro l e he
      have mem := (mem_heldEntries s e).2 ⟨l, he⟩
      exact ⟨held e mem, attempts e (List.mem_append_right _ mem)⟩
  · intro h
    refine ⟨⟨h.queueOnce, h.heldOnce, ?_⟩, ?_, ?_, ?_, h.strikes⟩
    · intro _ ha _ hb
      obtain ⟨e, he, rfl⟩ := List.mem_map.1 ha
      obtain ⟨f, hf, rfl⟩ := List.mem_map.1 hb
      obtain ⟨l, hl⟩ := (mem_heldEntries s f).1 hf
      exact h.apart e he l f hl
    · intro e he
      obtain ⟨⟨pres, lat⟩, hold, _⟩ := h.queueOk e he
      exact ⟨pres, lat, hold⟩
    · intro e he
      obtain ⟨l, hl⟩ := (mem_heldEntries s e).1 he
      exact (h.heldOk l e hl).1
    · intro e he
      rcases List.mem_append.1 he with he | he
      · exact (h.queueOk e he).2.2
      · obtain ⟨l, hl⟩ := (mem_heldEntries s e).1 he
        exact (h.heldOk l e hl).2

theorem LaneInv.setLane_same {P Q : Bay → Prop} {s : State} (h : LaneInv P Q s) (l : Lane) (r : LaneRec)
    (held : r.state.held = (s.lane l).state.held) (strikes : r.strikes ≤ 3) : LaneInv P Q (s.setLane l r) := by
  have same : ∀ m, ((s.setLane l r).lane m).state.held = (s.lane m).state.held := fun m => by
    rw [lane_setLane]; split
    · subst_vars; exact held
    · rfl
  refine ⟨h.queueOnce, ?_, ?_, h.queueOk, ?_, fun m => ?_⟩
  · simpa only [same] using h.heldOnce
  · simpa only [same, setLane_prov] using h.apart
  · simpa only [same] using h.heldOk
  · rw [lane_setLane]; split
    · exact strikes
    · exact h.strikes m

/-- A lane that lets its bay go leaves the bay unheld. -/
theorem LaneInv.setLane_none {P Q : Bay → Prop} {s : State} (h : LaneInv P Q s) (l : Lane) (r : LaneRec) (b : Bay)
    (held : r.state.held = none) (strikes : r.strikes ≤ 3)
    (only : ∀ m e, (s.lane m).state.held = some e → e.bay = b → m = l) :
    LaneInv (fun c => P c ∧ c ≠ b) Q (s.setLane l r) := by
  have still : ∀ m e, ((s.setLane l r).lane m).state.held = some e → (s.lane m).state.held = some e ∧ m ≠ l := by
    intro m e; rw [lane_setLane]; split
    · simp [held]
    · exact fun h => ⟨h, ‹_›⟩
  refine ⟨h.queueOnce, ?_, ?_, h.queueOk, ?_, fun m => ?_⟩
  · exact fun m n e f he hf => h.heldOnce m n e f (still m e he).1 (still n f hf).1
  · exact fun e he m f hf => h.apart e he m f (still m f hf).1
  · intro m e he
    obtain ⟨he, ne⟩ := still m e he
    exact ⟨⟨(h.heldOk m e he).1, fun same => ne (only m e he same)⟩, (h.heldOk m e he).2⟩
  · rw [lane_setLane]; split
    · exact strikes
    · exact h.strikes m

/-- An entry joins the queue. -/
theorem LaneInv.append {P Q : Bay → Prop} {s : State} (h : LaneInv P Q s) {t : State} (e : Entry)
    (lanes : t.lanes = s.lanes) (queue : t.prov.queue = s.prov.queue ++ [e])
    (new : ∀ x ∈ s.prov.queue, x.bay ≠ e.bay) (unheld : ∀ l f, (s.lane l).state.held = some f → e.bay ≠ f.bay)
    (ok : Q e.bay ∧ e.hold ≤ 2 ∧ 1 ≤ e.attempts ∧ e.attempts ≤ 7) : LaneInv P Q t := by
  have lane : ∀ l, t.lane l = s.lane l := fun l => by simp only [State.lane, lanes]
  constructor <;> simp only [lane, queue, List.mem_append, List.mem_singleton]
  case queueOnce =>
    simp only [List.map_append, List.map_cons, List.map_nil, List.nodup_append]
    exact ⟨h.queueOnce, by simp, by simpa using new⟩
  case heldOnce => exact h.heldOnce
  case apart =>
    rintro x (hx | rfl)
    · exact h.apart x hx
    · exact unheld
  case queueOk =>
    rintro x (hx | rfl)
    · exact h.queueOk x hx
    · exact ok
  case heldOk => exact h.heldOk
  case strikes => exact h.strikes

/-- The queue without the entry of a bay has no entry of that bay. -/
theorem LaneInv.drop {P Q : Bay → Prop} {s : State} (h : LaneInv P Q s) (b : Bay) {t : State}
    (lanes : t.lanes = s.lanes) (queue : t.prov.queue = dropEntry b s.prov.queue) :
    LaneInv P (fun c => Q c ∧ c ≠ b) t := by
  have lane : ∀ l, t.lane l = s.lane l := fun l => by simp only [State.lane, lanes]
  have mem : ∀ e, e ∈ t.prov.queue ↔ e ∈ s.prov.queue ∧ e.bay ≠ b := fun e => by
    rw [queue]; simp [dropEntry]
  constructor
  case queueOnce => rw [queue]; exact h.queueOnce.sublist (List.filter_sublist.map _)
  case heldOnce => simpa only [lane] using h.heldOnce
  case apart => simpa only [lane] using fun e he => h.apart e ((mem e).1 he).1
  case queueOk =>
    intro e he
    obtain ⟨he, ne⟩ := (mem e).1 he
    exact ⟨⟨(h.queueOk e he).1, ne⟩, (h.queueOk e he).2⟩
  case heldOk => simpa only [lane] using h.heldOk
  case strikes => simpa only [lane] using h.strikes

/-! ### The search of an assignment run -/

theorem oldest_mem {l : List Entry} {e : Entry} (h : oldest l = some e) : e ∈ l := by
  induction l generalizing e with
  | nil => cases h
  | cons x xs ih =>
    unfold oldest at h
    split at h
    · cases h; exact .head _
    · rename_i y hy
      split at h <;> cases h
      · exact .tail _ (ih hy)
      · exact .head _

theorem classCandidate_mem {s : State} {c : ProvClass} {e : Entry} (h : classCandidate s c = some e) :
    e ∈ s.prov.queue ∧ eligibleEntry s e = true := by
  have := oldest_mem h
  simp only [List.mem_filter, decide_eq_true_eq] at this
  exact ⟨this.1, this.2.2⟩

theorem searchFrom_some {s : State} {n p : Nat} {e : Entry} {q : Nat} (h : searchFrom s n p = some (e, q)) :
    e ∈ s.prov.queue ∧ eligibleEntry s e = true ∧ q < s.prov.slots.length := by
  induction n generalizing p with
  | zero => cases h
  | succ n ih =>
    unfold searchFrom at h
    split at h
    · cases h
    · rename_i c hc
      split at h
      · rename_i x hx
        cases h
        have := (List.getElem?_eq_some_iff.1 hc).1
        exact ⟨(classCandidate_mem hx).1, (classCandidate_mem hx).2, Nat.mod_lt _ (by omega)⟩
      · exact ih h

/-- R156: an eligible entry's bay is CHARGING and its latch LOCKED. -/
theorem eligibleEntry_bay {s : State} {e : Entry} (h : eligibleEntry s e = true) :
    (s.bay e.bay).state = .charging ∧ (s.latch e.bay).state = some .locked := by
  simp only [eligibleEntry, decide_eq_true_eq] at h
  exact ⟨h.1, h.2.2.1⟩

/-! ### Work at the lanes and at the custody records -/

/-- R159 (entry 27): the qualification steps begun take new numbers. -/
def LaneFresh (s t : State) : Prop :=
  ∀ l, (s.lane l).checks ≤ (t.lane l).checks ∧ ∀ n, (t.lane l).state.step = some n →
    (s.lane l).state.step = some n ∨ ((s.lane l).checks ≤ n ∧ n < (t.lane l).checks)

theorem LaneFresh.trans {s t u : State} (h : LaneFresh s t) (h' : LaneFresh t u) : LaneFresh s u := by
  intro l
  obtain ⟨le, new⟩ := h l
  obtain ⟨le', new'⟩ := h' l
  refine ⟨le.trans le', fun n hn => ?_⟩
  rcases new' n hn with old | fresh
  · exact (new n old).imp_right fun fresh => ⟨fresh.1, by omega⟩
  · exact .inr ⟨by omega, fresh.2⟩

theorem LaneFresh.of_eq {s t : State} (h : t.lanes = s.lanes) : LaneFresh s t := fun l => by
  simp only [State.lane, h]; exact ⟨le_rfl, fun _ h => .inl h⟩

theorem LaneFresh.setLane {s : State} (l : Lane) (r : LaneRec) (le : (s.lane l).checks ≤ r.checks)
    (step : ∀ n, r.state.step = some n →
      (s.lane l).state.step = some n ∨ ((s.lane l).checks ≤ n ∧ n < r.checks)) : LaneFresh s (s.setLane l r) := by
  intro m
  rw [lane_setLane]; split
  · subst_vars; exact ⟨le, step⟩
  · exact ⟨le_rfl, fun _ h => .inl h⟩

/-- Two conditions on bays between which the lanes may work: an eligible bay that may be queued may be held, and a held one
may be queued again. -/
def Admits (P Q : Bay → Prop) (s : State) : Prop :=
  (∀ b, Q b → (s.bay b).state = .charging → (s.latch b).state = some .locked → P b) ∧ ∀ b, P b → Q b

theorem Admits.congr {P Q : Bay → Prop} {s t : State} (h : Admits P Q s) (bays : t.bays = s.bays)
    (latches : t.latches = s.latches) : Admits P Q t := by
  simpa only [Admits, State.bay, State.latch, bays, latches] using h

/-- What the lane law and its neighbours read of a state. -/
def lawView (s : State) :=
  (s.bays, s.latches, s.latchUnit.queue, s.lanes, s.prov.queue, s.prov.slots, s.prov.pointer)

/-- Work of the Provisioning Scheduler or the Custody Table that leaves bays and latches: new steps have new numbers, the
slot pointer stays in the table, and the lane invariant is kept under every pair of conditions it may work between. -/
structure LaneWork (s t : State) : Prop where
  bays : t.bays = s.bays
  latches : t.latches = s.latches
  motions : t.latchUnit.queue = s.latchUnit.queue
  fresh : LaneFresh s t
  slot : SlotLaw s → SlotLaw t
  inv : ∀ {P Q}, Admits P Q s → LaneInv P Q s → LaneInv P Q t

theorem LaneWork.of_view {s t : State} (h : lawView t = lawView s) : LaneWork s t := by
  simp only [lawView, Prod.mk.injEq] at h
  obtain ⟨bays, latches, motions, lanes, queue, slots, pointer⟩ := h
  exact ⟨bays, latches, motions, .of_eq lanes, by simp only [SlotLaw, slots, pointer]; exact id,
    fun _ inv => inv.congr lanes queue⟩

theorem LaneWork.refl (s : State) : LaneWork s s := .of_view rfl

theorem LaneWork.trans {s t u : State} (h : LaneWork s t) (h' : LaneWork t u) : LaneWork s u where
  bays := h'.bays.trans h.bays
  latches := h'.latches.trans h.latches
  motions := h'.motions.trans h.motions
  fresh := h.fresh.trans h'.fresh
  slot := h'.slot ∘ h.slot
  inv ad inv := h'.inv (ad.congr h.bays h.latches) (h.inv ad inv)

theorem LaneWork.bay {s t : State} (h : LaneWork s t) (b : Bay) : t.bay b = s.bay b := by simp only [State.bay, h.bays]

theorem LaneWork.latch {s t : State} (h : LaneWork s t) (b : Bay) : t.latch b = s.latch b := by
  simp only [State.latch, h.latches]

theorem note_work (k : NoticeKind) (b d1 d2 d3 d4 : Byte) (s : State) : LaneWork s (note k b d1 d2 d3 d4 s) :=
  .of_view rfl

theorem setCust_work (s : State) (b : Bay) (r : CustodyRec) : LaneWork s (s.setCust b r) := .of_view rfl

theorem takeEntry_work (l : Lane) (e : Entry) (p : Nat) (s : State) (free : (s.lane l).state = .free)
    (mem : e ∈ s.prov.queue) (ok : eligibleEntry s e = true) (slot : p < s.prov.slots.length) :
    LaneWork s (takeEntry l e p s) := by
  refine ⟨rfl, rfl, rfl, ?_, fun _ => slot, fun {P Q} ad h => ?_⟩
  · refine LaneFresh.setLane (s := { s with prov := _ }) l _ (Nat.le_succ _) fun n hn => .inr ?_
    cases hn
    exact ⟨le_rfl, Nat.lt_succ_self _⟩
  have inQueue : ∀ x, x ∈ (takeEntry l e p s).prov.queue ↔ x ∈ s.prov.queue ∧ x.bay ≠ e.bay := fun x => by
    simp [takeEntry, dropEntry]
  have heldBy : ∀ m f, ((takeEntry l e p s).lane m).state.held = some f →
      (m = l ∧ f = e) ∨ (m ≠ l ∧ (s.lane m).state.held = some f) := fun m f => by
    simp only [takeEntry, lane_setLane]
    split
    · simp only [qualify_state, LaneState.held, Option.some.injEq]
      exact fun same => .inl ⟨‹_›, same.symm⟩
    · exact fun hf => .inr ⟨‹_›, hf⟩
  refine ⟨h.queueOnce.sublist (List.filter_sublist.map _), ?_, ?_, ?_, ?_, ?_⟩
  · intro m n f g hf hg same
    rcases heldBy m f hf with ⟨rfl, rfl⟩ | ⟨_, hf'⟩ <;> rcases heldBy n g hg with ⟨rfl, rfl⟩ | ⟨_, hg'⟩
    · rfl
    · exact absurd same (h.apart _ mem n g hg')
    · exact absurd same.symm (h.apart _ mem m f hf')
    · exact h.heldOnce m n f g hf' hg' same
  · intro x hx m f hf
    obtain ⟨hx, ne⟩ := (inQueue x).1 hx
    rcases heldBy m f hf with ⟨rfl, rfl⟩ | ⟨_, hf⟩
    · exact ne
    · exact h.apart x hx m f hf
  · exact fun x hx => h.queueOk x ((inQueue x).1 hx).1
  · intro m f hf
    rcases heldBy m f hf with ⟨rfl, rfl⟩ | ⟨_, hf⟩
    · obtain ⟨q, _, att⟩ := h.queueOk f mem
      exact ⟨ad.1 _ q (eligibleEntry_bay ok).1 (eligibleEntry_bay ok).2, att⟩
    · exact h.heldOk m f hf
  · intro m
    simp only [takeEntry, lane_setLane]
    split
    · exact h.strikes l
    · exact h.strikes m

theorem assignLanes_work (ls : List Lane) (s : State) : LaneWork s (assignLanes ls s) := by
  induction ls generalizing s with
  | nil => exact .refl s
  | cons l ls ih =>
    unfold assignLanes
    split
    · rename_i free
      split
      · exact .refl s
      · rename_i e p found
        obtain ⟨mem, ok, slot⟩ := searchFrom_some found
        exact (takeEntry_work l e p s free mem ok slot).trans (ih _)
    · exact ih s

theorem assignmentRun_work (s : State) : LaneWork s (assignmentRun s) := assignLanes_work _ s

/-! ### A lane release -/

theorem strikesAfter_le {c : ReleaseCause} {n : Nat} (h : n ≤ 3) : strikesAfter c n ≤ 3 := by
  unfold strikesAfter Config.strikeLimit; split <;> omega

/-- R162: an entry requeued has 1 to 7 attempts and a power hold of at most 2. -/
theorem requeued_ok {c : ReleaseCause} {e : Entry} (h : 1 ≤ e.attempts ∧ e.attempts ≤ 7) (x : ¬ exhausts c e = true) :
    (requeued c e).hold ≤ 2 ∧ 1 ≤ (requeued c e).attempts ∧ (requeued c e).attempts ≤ 7 := by
  simp only [exhausts, decide_eq_true_eq, not_and, not_le] at x
  simp only [requeued, Config.powerHold]
  refine ⟨by split <;> omega, ?_⟩
  split
  · have := x ‹_›; omega
  · exact h

@[simp] theorem requeued_bay (c : ReleaseCause) (e : Entry) : (requeued c e).bay = e.bay := rfl

theorem releaseNotices_work (l : Lane) (c : ReleaseCause) (e : Entry) (s : State) :
    LaneWork s (releaseNotices l c e s) := by
  have first : LaneWork s
      (match c.reason with
      | some r => provNote .provAborted (bayNumber e.bay) r (laneNumber l) e.jobTag s
      | none => s) := by
    split
    · exact note_work _ _ _ _ _ _ s
    · exact .refl s
  have second : ∀ s, LaneWork s
      (match c.finished (exhausts c e) with
      | some r => provNote .provFinished (bayNumber e.bay) r (laneNumber l) e.jobTag s
      | none => s) := by
    intro s
    split
    · exact note_work _ _ _ _ _ _ s
    · exact .refl s
  exact (first.trans (second _)).trans (ite_touch .refl (note_work _ _ _ _ _ _ _))

theorem letGo_fresh (l : Lane) (c : ReleaseCause) (e : Entry) (s : State) : LaneFresh s (letGo l c e s) := by
  have set : ∀ r : LaneRec, r.checks = (s.lane l).checks → r.state.step = none → LaneFresh s (s.setLane l r) :=
    fun r checks step => .setLane l r checks.ge (by simp [step])
  simp only [letGo]
  split
  · exact set _ rfl (by split <;> rfl)
  · have freed := set { s.lane l with
        state := if leavesService c (s.lane l).strikes then LaneState.outOfService else LaneState.free
        strikes := strikesAfter c (s.lane l).strikes } rfl (by dsimp only; split <;> rfl)
    exact freed.trans (.of_eq rfl)

/-- R162, steps 1 to 3: the bay let go is held no more; its entry goes back to the queue unless the cause drops it. -/
theorem letGo_inv {P Q : Bay → Prop} {s : State} {l : Lane} {e : Entry} (c : ReleaseCause)
    (held : (s.lane l).state.held = some e) (h : LaneInv P Q s) (back : c.drops = false → Q e.bay) :
    LaneInv (fun b => P b ∧ b ≠ e.bay) Q (letGo l c e s) := by
  have freed := h.setLane_none l
    { s.lane l with
      state := if leavesService c (s.lane l).strikes then LaneState.outOfService else LaneState.free
      strikes := strikesAfter c (s.lane l).strikes } e.bay
    (by dsimp only; split <;> rfl) (strikesAfter_le (h.strikes l))
    (fun m f hf same => h.heldOnce m l f e hf held same)
  simp only [letGo]
  split
  · exact freed
  · rename_i stays
    obtain ⟨keeps, left⟩ := not_or.1 stays
    refine freed.append (requeued c e) rfl rfl (fun x hx => h.apart x hx l e held) (fun m f hf same => ?_) ?_
    · exact (freed.heldOk m f hf).1.2 same.symm
    · exact ⟨back (by simpa using keeps), requeued_ok (h.heldOk l e held).2 left⟩

theorem letGo_dropped {P Q : Bay → Prop} {s : State} {l : Lane} {e : Entry} {c : ReleaseCause} (drops : c.drops = true)
    (held : (s.lane l).state.held = some e) (h : LaneInv P Q s) :
    LaneInv (fun b => P b ∧ b ≠ e.bay) (fun b => Q b ∧ b ≠ e.bay) (letGo l c e s) := by
  have inv := letGo_inv c held h (fun k => absurd drops (by simp [k]))
  have queue : (letGo l c e s).prov.queue = s.prov.queue := by simp [letGo, drops]
  refine { inv with queueOk := fun x hx => ?_ }
  exact ⟨⟨(inv.queueOk x hx).1, h.apart x (queue ▸ hx) l e held⟩, (inv.queueOk x hx).2⟩

/-- A release leaves everything the lane law reads but the lanes, the queue and the slot pointer. -/
theorem letGo_view (l : Lane) (c : ReleaseCause) (e : Entry) (s : State) :
    (letGo l c e s).bays = s.bays ∧ (letGo l c e s).latches = s.latches ∧
      (letGo l c e s).latchUnit.queue = s.latchUnit.queue ∧ (letGo l c e s).prov.slots = s.prov.slots ∧
      (letGo l c e s).prov.pointer = s.prov.pointer := by
  simp only [letGo]; split <;> exact ⟨rfl, rfl, rfl, rfl, rfl⟩

theorem letGo_work {s : State} {l : Lane} {e : Entry} (c : ReleaseCause) (held : (s.lane l).state.held = some e) :
    LaneWork s (letGo l c e s) := by
  obtain ⟨bays, latches, motions, slots, pointer⟩ := letGo_view l c e s
  refine ⟨bays, latches, motions, letGo_fresh l c e s, ?_, fun {P Q} ad h => ?_⟩
  · simp only [SlotLaw, slots, pointer]; exact id
  · exact (letGo_inv c held h fun _ => ad.2 _ (h.heldOk l e held).1).mono (fun _ p => p.1) fun _ => id

/-- R162: what follows the letting go. -/
theorem afterLetGo_work (l : Lane) (c : ReleaseCause) (e : Entry) (s : State) :
    LaneWork s (assignmentRun (releaseNotices l c e s)) :=
  (releaseNotices_work l c e s).trans (assignmentRun_work _)

theorem release_eq {s : State} {l : Lane} {e : Entry} (c : ReleaseCause) (held : (s.lane l).state.held = some e) :
    release l c s = assignmentRun (releaseNotices l c e (letGo l c e s)) := by simp [release, held]

theorem release_work (l : Lane) (c : ReleaseCause) (s : State) : LaneWork s (release l c s) := by
  cases held : (s.lane l).state.held with
  | none => simpa [release, held] using LaneWork.refl s
  | some e => rw [release_eq c held]; exact (letGo_work c held).trans (afterLetGo_work l c e _)

/-- A release of a bay that is not eligible leaves it unheld. -/
theorem release_inv {P Q : Bay → Prop} {s : State} {l : Lane} {e : Entry} (c : ReleaseCause)
    (held : (s.lane l).state.held = some e) (h : LaneInv P Q s) (ad : Admits P Q s)
    (out : ¬ ((s.bay e.bay).state = .charging ∧ (s.latch e.bay).state = some .locked)) :
    LaneInv (fun b => P b ∧ b ≠ e.bay) Q (release l c s) := by
  rw [release_eq c held]
  have work := letGo_work c held
  refine (afterLetGo_work l c e _).inv (Admits.congr ⟨?_, fun b p => ad.2 b p.1⟩ work.bays work.latches)
    (letGo_inv c held h fun _ => ad.2 _ (h.heldOk l e held).1)
  exact fun b q chg lck => ⟨ad.1 b q chg lck, fun same => out (same ▸ ⟨chg, lck⟩)⟩

/-- A release that drops the entry leaves the bay with none. -/
theorem release_dropped {P Q : Bay → Prop} {s : State} {l : Lane} {e : Entry} {c : ReleaseCause} (drops : c.drops = true)
    (held : (s.lane l).state.held = some e) (h : LaneInv P Q s) (ad : Admits P Q s) :
    LaneInv (fun b => P b ∧ b ≠ e.bay) (fun b => Q b ∧ b ≠ e.bay) (release l c s) := by
  rw [release_eq c held]
  have work := letGo_work c held
  refine (afterLetGo_work l c e _).inv (Admits.congr ?_ work.bays work.latches) (letGo_dropped drops held h)
  exact ⟨fun b q chg lck => ⟨ad.1 b q.1 chg lck, q.2⟩, fun b p => ⟨ad.2 b p.1, p.2⟩⟩

/-! ### The other works of the Scheduler -/

theorem drop_work (s : State) (b : Bay) : LaneWork s (s.setQueue (dropEntry b s.prov.queue)) :=
  ⟨rfl, rfl, rfl, .of_eq rfl, id, fun _ h =>
    (h.drop b (t := s.setQueue (dropEntry b s.prov.queue)) rfl rfl).mono (fun _ => id) fun _ q => q.1⟩

theorem removeQueued_work (b : Bay) (r : Byte) (s : State) : LaneWork s (removeQueued b r s) := by
  unfold removeQueued
  split
  · exact .refl s
  · exact (drop_work s b).trans (note_work _ _ _ _ _ _ _)

theorem queued_none {s : State} {b : Bay} (h : s.queued b = none) : ∀ e ∈ s.prov.queue, e.bay ≠ b := by
  simpa [State.queued] using h

theorem removeQueued_inv {P Q : Bay → Prop} {s : State} (h : LaneInv P Q s) (b : Bay) (r : Byte) :
    LaneInv P (fun c => Q c ∧ c ≠ b) (removeQueued b r s) := by
  unfold removeQueued
  split
  · rename_i none
    exact { h with queueOk := fun e he => ⟨⟨(h.queueOk e he).1, queued_none none e he⟩, (h.queueOk e he).2⟩ }
  · exact (h.drop b (t := s.setQueue (dropEntry b s.prov.queue)) rfl rfl).congr rfl rfl

theorem laneOf_some {s : State} {b : Bay} {l : Lane} (h : s.laneOf b = some l) :
    ∃ e, (s.lane l).state.held = some e ∧ e.bay = b := by
  have := List.find?_some h
  simpa using this

theorem laneOf_none {s : State} {b : Bay} (h : s.laneOf b = none) :
    ∀ l e, (s.lane l).state.held = some e → e.bay ≠ b := by
  intro l e he same
  simp only [State.laneOf, List.find?_eq_none] at h
  exact h l (mem_allLanes l) (by simp [he, same])

theorem laneOf_isSome_iff (s : State) (b : Bay) :
    (s.laneOf b).isSome = true ↔ ∃ l, (s.lane l).state.held.map Entry.bay = some b := by
  simp [State.laneOf, mem_allLanes]

theorem LaneInv.unheld {P Q : Bay → Prop} {s : State} (h : LaneInv P Q s) {b : Bay} (none : s.laneOf b = none) :
    LaneInv (fun c => P c ∧ c ≠ b) Q s :=
  { h with heldOk := fun l e he => ⟨⟨(h.heldOk l e he).1, laneOf_none none l e he⟩, (h.heldOk l e he).2⟩ }

theorem schedChange_work (b : Bay) (o n : BayState) (s : State) : LaneWork s (schedChange b o n s) := by
  have first : LaneWork s
      (if o = .charging ∧ n ≠ .charging then
        match s.laneOf b with
        | some l => release l (causeOfState n) s
        | none => if n = .empty then removeQueued b 1 s else s
      else s) := by
    refine ite_touch .refl ?_
    split
    · exact release_work _ _ _
    · exact ite_touch .refl (removeQueued_work _ _ _)
  exact first.trans (ite_touch .refl (removeQueued_work _ _ _))

/-- R163: a bay that has left CHARGING is held by no lane once the Scheduler knows, and one that has entered LATCHED has no
queued entry. -/
theorem schedChange_inv {P Q : Bay → Prop} {s : State} {b : Bay} {o n : BayState} (h : LaneInv P Q s)
    (ad : Admits P Q s) (now : (s.bay b).state = n) (left : o = .charging → n ≠ .charging)
    (was : o ≠ .charging → s.laneOf b = none) (entered : n = .latched → o ≠ .latched) :
    LaneInv (fun c => P c ∧ c ≠ b) (fun c => Q c ∧ (n = .latched → c ≠ b)) (schedChange b o n s) := by
  have out : o = .charging → ¬ ((s.bay b).state = .charging ∧ (s.latch b).state = some .locked) :=
    fun k c => left k (now.symm.trans c.1)
  have first : LaneInv (fun c => P c ∧ c ≠ b) Q
      (if o = .charging ∧ n ≠ .charging then
        match s.laneOf b with
        | some l => release l (causeOfState n) s
        | none => if n = .empty then removeQueued b 1 s else s
      else s) := by
    split
    · rename_i leaves
      split
      · rename_i l hl
        obtain ⟨e, held, rfl⟩ := laneOf_some hl
        exact release_inv _ held h ad (out leaves.1)
      · rename_i none
        split
        · exact (removeQueued_inv (h.unheld none) b 1).mono (fun _ => id) fun _ q => q.1
        · exact h.unheld none
    · rename_i stays
      exact h.unheld (was fun k => stays ⟨k, left k⟩)
  unfold schedChange
  dsimp only
  split
  · exact (removeQueued_inv first b 3).mono (fun _ => id) fun _ q => ⟨q.1, fun _ => q.2⟩
  · rename_i no
    exact first.mono (fun _ => id) fun _ q => ⟨q, fun k => absurd ⟨k, entered k⟩ no⟩

theorem schedDetach_work (b : Bay) (s : State) : LaneWork s (schedDetach b s) := by
  unfold schedDetach
  split
  · exact release_work _ _ _
  · exact removeQueued_work _ _ _

/-- R163: a detach leaves the bay with no entry. -/
theorem schedDetach_inv {P Q : Bay → Prop} {s : State} (b : Bay) (h : LaneInv P Q s) (ad : Admits P Q s) :
    LaneInv (fun c => P c ∧ c ≠ b) (fun c => Q c ∧ c ≠ b) (schedDetach b s) := by
  unfold schedDetach
  split
  · rename_i l hl
    obtain ⟨e, held, rfl⟩ := laneOf_some hl
    exact release_dropped rfl held h ad
  · exact removeQueued_inv (h.unheld ‹_›) b 1

theorem schedLeftLocked_work (b : Bay) (s : State) : LaneWork s (schedLeftLocked b s) := by
  unfold schedLeftLocked
  split
  · exact release_work _ _ _
  · exact .refl s

/-- R165: a bay whose latch has left LOCKED is held by no lane once the Scheduler knows. -/
theorem schedLeftLocked_inv {P Q : Bay → Prop} {s : State} (b : Bay) (h : LaneInv P Q s) (ad : Admits P Q s)
    (left : (s.latch b).state ≠ some .locked) : LaneInv (fun c => P c ∧ c ≠ b) Q (schedLeftLocked b s) := by
  unfold schedLeftLocked
  split
  · rename_i l hl
    obtain ⟨e, held, rfl⟩ := laneOf_some hl
    exact release_inv _ held h ad fun c => left c.2
  · exact h.unheld ‹_›

theorem schedAutonomous_work (s : State) : LaneWork s (schedAutonomous s) :=
  eachLane_rel .refl .trans (fun l s => release_work l _ s) s

theorem powerTest_work (l : Lane) (s : State) : LaneWork s (powerTest l s) := by
  unfold powerTest
  split
  · exact .refl s
  · exact ite_touch .refl (release_work _ _ _)

theorem countHolds_work (before : Bay → Bool) (s : State) : LaneWork s (countHolds before s) := by
  refine ⟨rfl, rfl, rfl, .of_eq rfl, id, fun {P Q} _ h => ?_⟩
  have of : ∀ e ∈ (countHolds before s).prov.queue, ∃ x ∈ s.prov.queue,
      e.bay = x.bay ∧ e.hold ≤ x.hold ∧ e.attempts = x.attempts := by
    intro e he
    obtain ⟨x, hx, rfl⟩ := List.mem_map.1 he
    refine ⟨x, hx, ?_⟩
    split
    · exact ⟨rfl, Nat.sub_le _ _, rfl⟩
    · exact ⟨rfl, le_rfl, rfl⟩
  refine ⟨?_, h.heldOnce, ?_, ?_, h.heldOk, h.strikes⟩
  · have bays : (countHolds before s).prov.queue.map Entry.bay = s.prov.queue.map Entry.bay := by
      simp only [countHolds, setQueue_queue, List.map_map]
      refine List.map_congr_left fun e _ => ?_
      simp only [Function.comp]; split <;> rfl
    rw [bays]; exact h.queueOnce
  · intro e he l f hf
    obtain ⟨x, hx, same, _⟩ := of e he
    exact same ▸ h.apart x hx l f hf
  · intro e he
    obtain ⟨x, hx, bay, hold, att⟩ := of e he
    obtain ⟨q, hold', att'⟩ := h.queueOk x hx
    exact ⟨bay ▸ q, hold.trans hold', att ▸ att'⟩

/-- R164: the Scheduler's handling of a pass result. -/
theorem schedPassResult_work (before : Bay → Bool) (s : State) : LaneWork s (schedPassResult before s) :=
  ((countHolds_work before s).trans (eachLane_rel .refl .trans powerTest_work _)).trans (assignmentRun_work _)

/-! ### The Custody Table -/

theorem endReservation_work (b : Bay) (s : State) : LaneWork s (endReservation b s) := by
  unfold endReservation
  split
  · exact .refl s
  · exact (setCust_work _ _ _).trans (assignmentRun_work _)

theorem testHorizon_work (b : Bay) (s : State) : LaneWork s (testHorizon b s) := by
  unfold testHorizon
  split
  · exact .refl s
  · dsimp only
    split
    · exact .refl s
    · split
      · exact setCust_work _ _ _
      · exact (setCust_work _ _ _).trans (assignmentRun_work _)

theorem testExpiry_work (b : Bay) (s : State) : LaneWork s (testExpiry b s) := by
  unfold testExpiry
  split
  · exact .refl s
  · exact ite_touch .refl ((note_work _ _ _ _ _ _ _).trans (endReservation_work _ _))

theorem testOverdue_work (b : Bay) (s : State) : LaneWork s (testOverdue b s) := by
  unfold testOverdue
  split
  · split
    · exact .refl s
    · exact ite_touch .refl ((setCust_work _ _ _).trans (note_work _ _ _ _ _ _ _))
  · exact .refl s

theorem lapsePurpose_work (b : Bay) (s : State) : LaneWork s (lapsePurpose b s) := by
  unfold lapsePurpose
  split
  · exact .refl s
  · unfold lapseNote
    dsimp only
    split
    · exact (setCust_work _ _ _).trans (note_work _ _ _ _ _ _ _)
    · exact (setCust_work _ _ _).trans (note_work _ _ _ _ _ _ _)
    · exact setCust_work _ _ _

theorem minuteTests_work (b : Bay) (s : State) : LaneWork s (minuteTests b s) := by
  have tests := ((testExpiry_work b s).trans (testHorizon_work b _)).trans (testOverdue_work b _)
  unfold minuteTests
  dsimp only
  split
  · exact tests.trans (lapsePurpose_work _ _)
  · exact tests

theorem custodyMinute_work (s : State) : LaneWork s (custodyMinute s) := eachBay_rel .refl .trans minuteTests_work s

theorem custodyAttach_work (b : Bay) (s : State) : LaneWork s (custodyAttach b s) := by
  unfold custodyAttach
  dsimp only
  split
  · exact (setCust_work _ _ _).trans (note_work _ _ _ _ _ _ _)
  · exact .refl s
  · exact setCust_work _ _ _
  · exact setCust_work _ _ _

/-- R131: the record of a bay whose tablet goes with no purpose behind it. -/
def goneUnlent (b : Bay) (s : State) : State :=
  match takenCause (s.latch b) with
  | some cause =>
    endReservation b
      (note .taken (bayNumber b) cause (latchCode (s.latch b).state) (groupByte (s.cust b).reservation) 0
        (s.setCust b { s.cust b with status := .taken }))
  | none => note .detachedLocked (bayNumber b) (latchCode (s.latch b).state) 0 0 0 s

/-- R131: a detach fulfils a CHECKOUT. -/
theorem custodyDetach_checkout {b : Bay} {s : State} {holder : Word16} {group : Byte} {due : Option Word16}
    (h : (s.cust b).purpose = some (.checkout holder group due)) :
    custodyDetach b s = endReservation b
      (note .checkedOut (bayNumber b) (hiByte holder) (loByte holder) (hiByte (checkedOutDue s.time.minute due))
        (loByte (checkedOutDue s.time.minute due))
        (s.setCust b { s.cust b with status := .out ⟨holder, s.time.minute, due, false⟩, purpose := none })) := by
  simp [custodyDetach, h]

/-- R131: a detach under a SERVICE purpose. -/
theorem custodyDetach_service {b : Bay} {s : State} (h : (s.cust b).purpose = some .service) :
    custodyDetach b s = endReservation b (s.setCust b { s.cust b with status := .vacant }) := by
  simp [custodyDetach, h]

/-- R131: a detach that no CHECKOUT and no SERVICE stands behind. -/
theorem custodyDetach_unlent {b : Bay} {s : State} (h : ∀ holder group due, (s.cust b).purpose ≠
    some (.checkout holder group due)) (h' : (s.cust b).purpose ≠ some .service) :
    custodyDetach b s = goneUnlent b s := by
  rcases p : (s.cust b).purpose with _ | ⟨_ | _ | _⟩
  · simp [custodyDetach, goneUnlent, p] <;> rfl
  · exact absurd p (h _ _ _)
  · simp [custodyDetach, goneUnlent, p] <;> rfl
  · exact absurd p h'

theorem custodyDetach_work (b : Bay) (s : State) : LaneWork s (custodyDetach b s) := by
  rcases p : (s.cust b).purpose with _ | ⟨holder, group, due⟩ | holder | _
  case some.checkout =>
    rw [custodyDetach_checkout p]
    refine LaneWork.trans ?_ (endReservation_work b _)
    exact (setCust_work _ _ _).trans (note_work _ _ _ _ _ _ _)
  case some.service =>
    rw [custodyDetach_service p]
    exact (setCust_work _ _ _).trans (endReservation_work b _)
  all_goals
    rw [custodyDetach_unlent (by simp [p]) (by simp [p])]
    unfold goneUnlent
    split
    · refine LaneWork.trans ?_ (endReservation_work b _)
      exact (setCust_work _ _ _).trans (note_work _ _ _ _ _ _ _)
    · exact note_work _ _ _ _ _ _ _

theorem custodyRelocked_work (b : Bay) (s : State) : LaneWork s (custodyRelocked b s) := by
  unfold custodyRelocked
  dsimp only
  split
  · exact ((lapsePurpose_work b s).trans (setCust_work _ _ _)).trans (endReservation_work _ _)
  · exact lapsePurpose_work b s

/-- R123: a latch event handed on. -/
theorem handOn_work (b : Bay) (ev : LatchEvent) (s : State) : LaneWork s (handOn b ev s) := by
  cases ev with
  | released => exact .refl s
  | doorOpen => exact .refl s
  | releaseFailed => exact setCust_work _ _ _
  | leftLocked => exact schedLeftLocked_work _ _
  | relocked => exact (custodyRelocked_work _ _).trans (assignmentRun_work _)

end Sys2Proof.Machine
end

