-- ==== Sys2Proof/Proofs/SeatWork.lean ====
section
/-! PROOF. The laws of seats, lanes and waiting motions as one condition that the work of the bays and the allocation
passes keep. -/

namespace Sys2Proof.Machine

/-! ### The laws together -/

/-- R118: an EXTEND waits only for a latch in RELEASED or CLOSING. Of the latch law this is what keeps a LOCKED latch from
being driven out unreported. -/
def ExtendLaw (s : State) : Prop :=
  ∀ b, (b, Motion.extend) ∈ s.latchUnit.queue →
    (s.latch b).state = some .released ∨ (s.latch b).state = some .closing

theorem LatchLaw.extendLaw {s : State} (h : LatchLaw s) : ExtendLaw s := by
  intro b mem
  obtain ⟨nodup, latch⟩ := h
  have pending : s.pendingMotion b = some .extend := by
    obtain ⟨m, hm⟩ := Option.isSome_iff_exists.1
      (List.find?_isSome (p := fun m : Bay × Motion => m.1 == b).2 ⟨_, mem, by simp⟩)
    have key : m.1 = b := by simpa using List.find?_some hm
    have same := List.inj_on_of_nodup_map nodup (List.mem_of_find?_eq_some hm) mem key
    simp [State.pendingMotion, hm, same]
  have law := latch b
  simp only [pending] at law
  split at law <;> simp_all

/-- What the seat law says of one bay record (R5, R8, R90, R98, R99). -/
def SeatOk (r : BayRec) : Prop :=
  (r.presence = false → r.state = .empty ∨ r.state = .latched ∨ r.state = .disabled) ∧
  (r.presence = true → r.state ≠ .empty) ∧ (r.probe ≠ none ↔ r.state = .qualifying) ∧
  (r.backoff ≠ .stopped ↔ r.state = .hold) ∧ (r.cleanTimer ≠ none → r.state = .charging)

theorem seatLaw_iff (s : State) : SeatLaw s ↔ ∀ b, SeatOk (s.bay b) := Iff.rfl

theorem SeatOk.present {r : BayRec} (h : SeatOk r)
    (st : r.state ≠ .empty ∧ r.state ≠ .latched ∧ r.state ≠ .disabled) : r.presence = true := by
  by_contra none
  rcases h.1 (by simpa using none) with e | e | e
  exacts [st.1 e, st.2.1 e, st.2.2 e]

/-- R9 (entry 27): a probe in flight in `r'` was in flight in `r` or has a new number. -/
def ProbeOk (r r' : BayRec) : Prop :=
  r.probes ≤ r'.probes ∧ ∀ p, r'.probe = some p →
    r.probe = some p ∨ (r.probes ≤ p.number ∧ p.number < r'.probes)

theorem ProbeOk.refl (r : BayRec) : ProbeOk r r := ⟨le_rfl, fun _ h => .inl h⟩

theorem ProbeOk.trans {r r' r'' : BayRec} (h : ProbeOk r r') (h' : ProbeOk r' r'') : ProbeOk r r'' := by
  obtain ⟨le, new⟩ := h
  obtain ⟨le', new'⟩ := h'
  refine ⟨le.trans le', fun p hp => ?_⟩
  rcases new' p hp with old | fresh
  · exact (new p old).imp_right fun fresh => ⟨fresh.1, by omega⟩
  · exact .inr ⟨by omega, fresh.2⟩

theorem ProbeOk.ended {r r' : BayRec} (none : r'.probe = none) (probes : r'.probes = r.probes) : ProbeOk r r' :=
  ⟨probes.ge, by simp [none]⟩

/-- The laws that the steps keep together. -/
structure Good (s : State) : Prop where
  extend : ExtendLaw s
  seat : SeatLaw s
  lane : LaneInv (CanHold s) (CanQueue s) s

/-- What a work that begins in a good state leaves. -/
structure Kept (s t : State) : Prop where
  good : Good t
  probes : ∀ b, ProbeOk (s.bay b) (t.bay b)
  steps : LaneFresh s t
  slot : SlotLaw s → SlotLaw t

/-- The work from `s` to `t` keeps the laws. -/
structure Keeps (s t : State) : Prop where
  kept : Good s → Kept s t

theorem Keeps.refl (s : State) : Keeps s s := ⟨fun h => ⟨h, fun _ => .refl _, .of_eq rfl, id⟩⟩

theorem Keeps.trans {s t u : State} (h : Keeps s t) (h' : Keeps t u) : Keeps s u where
  kept good :=
    have first := h.kept good
    have second := h'.kept first.good
    ⟨second.good, fun b => (first.probes b).trans (second.probes b), first.steps.trans second.steps,
      second.slot ∘ first.slot⟩

theorem admits_laws (s : State) : Admits (CanHold s) (CanQueue s) s :=
  ⟨fun _ q chg lck => ⟨q.1, chg, lck⟩, fun _ p => ⟨p.1, by rw [p.2.1]; decide⟩⟩

theorem canHold_congr {s t : State} (bays : t.bays = s.bays) (latches : t.latches = s.latches) :
    CanHold t = CanHold s := by
  funext b; simp only [CanHold, State.bay, State.latch, bays, latches]

theorem canQueue_congr {s t : State} (bays : t.bays = s.bays) : CanQueue t = CanQueue s := by
  funext b; simp only [CanQueue, State.bay, bays]

theorem ExtendLaw.congr {s t : State} (h : ExtendLaw s) (latches : t.latches = s.latches)
    (motions : t.latchUnit.queue = s.latchUnit.queue) : ExtendLaw t := by
  simpa only [ExtendLaw, State.latch, latches, motions] using h

theorem LaneWork.keeps {s t : State} (h : LaneWork s t) : Keeps s t := .mk fun good => by
  refine ⟨⟨good.extend.congr h.latches h.motions, ?_, ?_⟩, fun b => ?_, h.fresh, h.slot⟩
  · intro b; rw [h.bay]; exact good.seat b
  · rw [canHold_congr h.bays h.latches, canQueue_congr h.bays]
    exact h.inv (admits_laws s) good.lane
  · rw [h.bay]; exact .refl _

/-- Work on other fields than those the laws read. -/
theorem Keeps.of_view {s t : State} (h : lawView t = lawView s) : Keeps s t := (LaneWork.of_view h).keeps

/-! ### The bay records -/

/-- What the seat law and the probes' numbers read of a bay record. -/
def seatView (r : BayRec) := (r.presence, r.state, r.probe, r.probes, r.backoff, r.cleanTimer)

theorem setBay_kept {s t : State} {b : Bay} {r : BayRec} (good : Good s) (bay : ∀ c, t.bay c = (s.setBay b r).bay c)
    (latches : t.latches = s.latches) (motions : t.latchUnit.queue = s.latchUnit.queue)
    (lane : LaneInv (CanHold t) (CanQueue t) t) (seat : SeatOk r) (probe : ProbeOk (s.bay b) r) (steps : LaneFresh s t)
    (slot : SlotLaw s → SlotLaw t) : Kept s t := by
  refine ⟨⟨good.extend.congr latches motions, fun c => ?_, lane⟩, fun c => ?_, steps, slot⟩
  · rw [bay, bay_setBay]; split
    · exact seat
    · exact good.seat c
  · rw [bay, bay_setBay]; split
    · subst_vars; exact probe
    · exact .refl _

/-- A bay record changes; a bay that a lane holds stays one that it may hold, and so with the queue. -/
theorem setBay_keeps (s : State) (b : Bay) (r : BayRec) (seat : SeatOk (s.bay b) → SeatOk r)
    (probe : ProbeOk (s.bay b) r)
    (hold : (s.bay b).presence = true → (s.bay b).state = .charging → r.presence = true ∧ r.state = .charging)
    (queue : (s.bay b).presence = true → (s.bay b).state ≠ .latched → r.presence = true ∧ r.state ≠ .latched) :
    Keeps s (s.setBay b r) := .mk fun good => by
  refine setBay_kept good (fun _ => rfl) rfl rfl ?_ (seat (good.seat b)) probe (.of_eq rfl) id
  refine LaneInv.mono (P := CanHold s) (Q := CanQueue s) (good.lane.congr rfl rfl) (fun c p => ?_) fun c q => ?_
  · obtain ⟨pres, chg, lck⟩ := p
    simp only [CanHold, bay_setBay, latch_setBay]
    split
    · subst_vars; exact ⟨(hold pres chg).1, (hold pres chg).2, lck⟩
    · exact ⟨pres, chg, lck⟩
  · obtain ⟨pres, lat⟩ := q
    simp only [CanQueue, bay_setBay]
    split
    · subst_vars; exact queue pres lat
    · exact ⟨pres, lat⟩

theorem setBay_keeps_same (s : State) (b : Bay) (r : BayRec) (h : seatView r = seatView (s.bay b)) :
    Keeps s (s.setBay b r) := by
  simp only [seatView, Prod.mk.injEq] at h
  obtain ⟨presence, state, probe, probes, backoff, clean⟩ := h
  refine setBay_keeps s b r ?_ ?_ ?_ ?_
  · simp only [SeatOk, presence, state, probe, backoff, clean]; exact id
  · simp only [ProbeOk, probe, probes]; exact ProbeOk.refl _
  · rw [presence, state]; exact fun p c => ⟨p, c⟩
  · rw [presence, state]; exact fun p l => ⟨p, l⟩

/-! ### Changes of bay state reported -/

theorem allocChange_view (b : Bay) (o n : BayState) (s : State) : lawView (allocChange b o n s) = lawView s := by
  unfold allocChange
  dsimp only
  split
  · rfl
  · split <;> rfl

theorem allocChange_work (b : Bay) (o n : BayState) (s : State) : LaneWork s (allocChange b o n s) :=
  .of_view (allocChange_view b o n s)

theorem reportChange_work (b : Bay) (o n : BayState) (s : State) : LaneWork s (reportChange b o n s) := by
  unfold reportChange
  split
  · exact .refl s
  · exact (allocChange_work b o n s).trans (schedChange_work b o n _)

theorem admits_setBay {s : State} {b : Bay} {r : BayRec} (out : r.state ≠ .charging) :
    Admits (CanHold s) (CanQueue s) (s.setBay b r) := by
  refine ⟨fun c q chg lck => ?_, (admits_laws s).2⟩
  rw [bay_setBay] at chg
  split at chg
  · exact absurd chg out
  · exact ⟨q.1, chg, lck⟩

/-- R163: what is left of the lane invariant once the Scheduler knows that a bay has left its state for another than
CHARGING. -/
theorem schedChange_left {s v : State} {b : Bay} {r : BayRec} (good : Good s) (w : LaneWork (s.setBay b r) v)
    (out : r.state ≠ .charging) (changed : (s.bay b).state ≠ r.state) :
    LaneInv (fun c => CanHold s c ∧ c ≠ b) (fun c => CanQueue s c ∧ (c = b → r.state ≠ .latched))
      (schedChange b (s.bay b).state r.state v) := by
  have ad := admits_setBay (s := s) (b := b) out
  have inv : LaneInv (CanHold s) (CanQueue s) v := w.inv ad (good.lane.congr rfl rfl)
  refine (schedChange_inv inv (ad.congr w.bays w.latches) ?_ ?_ ?_ ?_).mono (fun _ => id) ?_
  · rw [w.bay, bay_setBay_self]
  · exact fun _ => out
  · intro ne
    by_contra some
    obtain ⟨l, hl⟩ := Option.ne_none_iff_exists'.1 some
    obtain ⟨e, held, rfl⟩ := laneOf_some hl
    exact ne (inv.heldOk l e held).1.2.1
  · exact fun e k => changed (k.trans e.symm)
  · exact fun c q => ⟨q.1, fun e k => q.2 k e⟩

theorem reportChange_inv {s v : State} {b : Bay} {r : BayRec} (good : Good s) (w : LaneWork (s.setBay b r) v)
    (out : r.state ≠ .charging) :
    LaneInv (fun c => CanHold s c ∧ c ≠ b) (fun c => CanQueue s c ∧ (c = b → r.state ≠ .latched))
      (reportChange b (s.bay b).state r.state v) := by
  unfold reportChange
  split
  · rename_i same
    have inv := w.inv (admits_setBay (s := s) (b := b) out) (good.lane.congr rfl rfl)
    refine inv.mono (fun c p => ⟨p, fun k => out ?_⟩) fun c q => ⟨q, fun k => ?_⟩
    · rw [← same, ← k]; exact p.2.1
    · rw [← same, ← k]; exact q.2
  · exact schedChange_left good (w.trans (allocChange_work b _ _ v)) out ‹_›

/-- A bay has changed to another state than CHARGING, and the lanes and the queue have followed. -/
theorem left_kept {s u : State} {b : Bay} {r : BayRec} (good : Good s) (all : LaneWork (s.setBay b r) u)
    (inv : LaneInv (fun c => CanHold s c ∧ c ≠ b)
      (fun c => CanQueue s c ∧ (c = b → r.presence = true ∧ r.state ≠ .latched)) u)
    (seat : SeatOk r) (probe : ProbeOk (s.bay b) r) : Kept s u := by
  refine setBay_kept good (fun c => all.bay c) all.latches all.motions ?_ seat probe all.fresh all.slot
  refine inv.mono (fun c p => ?_) fun c q => ?_
  · obtain ⟨p, ne⟩ := p
    simpa only [CanHold, all.bay, all.latch, bay_setBay_ne _ _ _ _ ne, latch_setBay] using p
  · simp only [CanQueue, all.bay, bay_setBay]
    split
    · subst_vars; exact q.2 rfl
    · exact q.1

/-- A bay changes to another state than CHARGING, and the change is reported after other work has been done. -/
theorem reportChange_keeps {s v : State} {b : Bay} {r : BayRec} (w : LaneWork (s.setBay b r) v)
    (out : r.state ≠ .charging) (seat : Good s → SeatOk r) (probe : ProbeOk (s.bay b) r)
    (pres : (s.bay b).presence = true → r.presence = true) :
    Keeps s (reportChange b (s.bay b).state r.state v) := .mk fun good =>
  left_kept good (w.trans (reportChange_work b _ _ v))
    ((reportChange_inv good w out).mono (fun _ => id) fun _ q => ⟨q.1, fun e => ⟨pres (e ▸ q.1.1), q.2 e⟩⟩)
    (seat good) probe

theorem moved_probe {r : BayRec} {new : BayState} : ProbeOk r (r.moved new) := by
  refine ⟨le_rfl, fun p hp => .inl ?_⟩
  simp only [BayRec.moved] at hp
  split at hp
  · exact hp
  · cases hp

/-- A bay record moved to a state that runs no probe, no backoff and no charge. -/
theorem moved_seat {r : BayRec} {new : BayState} (out : new ≠ .qualifying ∧ new ≠ .hold ∧ new ≠ .charging)
    (pres : r.presence = false → new = .empty ∨ new = .latched ∨ new = .disabled)
    (full : r.presence = true → new ≠ .empty) : SeatOk (r.moved new) := by
  obtain ⟨q, h, c⟩ := out
  refine ⟨pres, full, ?_, ?_, ?_⟩ <;> simp [BayRec.moved, q, h, c]

theorem changeBay_keeps (b : Bay) (new : BayState) (s : State)
    (out : new ≠ .qualifying ∧ new ≠ .hold ∧ new ≠ .charging)
    (pres : Good s → (s.bay b).presence = false → new = .empty ∨ new = .latched ∨ new = .disabled)
    (full : (s.bay b).presence = true → new ≠ .empty) : Keeps s (changeBay b new s) := by
  refine reportChange_keeps (b := b) (r := (s.bay b).moved new) (.refl _) out.2.2 (fun good => ?_) moved_probe id
  exact moved_seat out (pres good) full

theorem newProbe_ok {r r' : BayRec} {now : Nat} (same : r'.probes = r.probes) : ProbeOk r (r'.newProbe now) := by
  refine ⟨by simp [same], fun p hp => .inr ?_⟩
  simp only [newProbe_probe, Option.some.injEq] at hp
  subst hp
  simp [same]

theorem newProbe_seat {r : BayRec} {now : Nat} (pres : r.presence = true) : SeatOk ((r.moved .qualifying).newProbe now) := by
  refine ⟨?_, ?_, ?_, ?_, ?_⟩ <;> simp [BayRec.moved, BayRec.newProbe, pres]

theorem enterQualifying_keeps (b : Bay) (s : State) (pres : Good s → (s.bay b).presence = true) :
    Keeps s (enterQualifying b s) :=
  reportChange_keeps (b := b) (r := ((s.bay b).moved .qualifying).newProbe s.time.ms) (.refl _) (by simp [BayRec.moved])
    (fun good => newProbe_seat (pres good)) (newProbe_ok rfl) id

theorem faultState_cases (n limit : Nat) : faultState n limit = .hold ∨ faultState n limit = .latched := by
  unfold faultState; split
  · exact .inl rfl
  · exact .inr rfl

theorem transientFault_keeps (b : Bay) (kind : FaultKind) (detail : Byte) (s : State)
    (pres : Good s → (s.bay b).presence = true) : Keeps s (transientFault b kind detail s) := by
  unfold transientFault
  dsimp only
  have w := note_work .bayFault (bayNumber b) (faultCode (some kind))
    (faultState (s.bay b).retries s.superv.retryLimit).code (byte (s.bay b).retries) detail
  rcases faultState_cases (s.bay b).retries s.superv.retryLimit with e | e <;> rw [e] at w ⊢
  · refine reportChange_keeps (b := b) (r := { (s.bay b).moved .hold with
      lastFault := some kind, invalidRun := 0, backoff := _ }) (w _) (by simp [BayRec.moved]) ?_ (.ended rfl rfl) id
    exact fun good => by simp [SeatOk, BayRec.moved, pres good]
  · refine reportChange_keeps (b := b) (r := { (s.bay b).moved .latched with
      lastFault := some kind, invalidRun := 0, backoff := _ }) (w _) (by simp [BayRec.moved]) ?_ (.ended rfl rfl) id
    exact fun good => by simp [SeatOk, BayRec.moved, pres good]

theorem probeFault_keeps (b : Bay) (s : State) : Keeps s (probeFault b s) := by
  refine reportChange_keeps (b := b) (r := { (s.bay b).moved .latched with lastFault := some .probe })
    (note_work _ _ _ _ _ _ _) (by simp [BayRec.moved]) (fun good => ?_) (.ended rfl rfl) id
  have := moved_seat (r := s.bay b) (new := .latched) (by decide) (by simp) (by simp)
  exact this

theorem leaveHold_keeps (b : Bay) (s : State) (h : (s.bay b).state = .hold) : Keeps s (leaveHold b s) := by
  refine (setBay_keeps_same s b { s.bay b with retries := (s.bay b).retries + 1 } rfl).trans
    (enterQualifying_keeps b _ fun good => ?_)
  exact SeatOk.present (good.seat b) (by simp [h])

/-! ### The passes -/

theorem setChg_keeps (s : State) (b : Bay) (r : ChargeRec) : Keeps s (s.setChg b r) := .of_view rfl

theorem setGrant_keeps (s : State) (b : Bay) (n : Nat) : Keeps s (s.setBay b { s.bay b with grant := n }) :=
  setBay_keeps_same s b _ rfl

/-- R7: a bay with a target above 0 enters CHARGING; its tablet is seated and no lane holds it. -/
theorem toCharging_keeps (s : State) (b : Bay) (n : Nat) (t : Timer) (h : (s.bay b).state = .waiting) :
    Keeps s (s.setBay b { s.bay b with state := .charging, grant := n, cleanTimer := t }) := by
  refine setBay_keeps s b _ (fun ok => ?_) (.refl _) (by simp [h]) (fun pres _ => ⟨pres, by simp⟩)
  have pres := ok.present (by simp [h])
  obtain ⟨_, _, probe, backoff, _⟩ := ok
  simp only [h] at probe backoff
  simp [SeatOk, pres, probe, backoff]

theorem applyTarget_keeps (b : Bay) (t : Nat) (s : State) : Keeps s (applyTarget b t s) := by
  unfold applyTarget
  dsimp only
  split
  · exact toCharging_keeps s b _ _ (‹_ ∧ _› : _ ∧ _).1
  split
  · rename_i h
    refine .mk fun good => ?_
    have pres : (s.bay b).presence = true := SeatOk.present (good.seat b) (by simp [h.1])
    have w : LaneWork (s.setBay b ((s.bay b).moved .waiting))
        ((s.setBay b ((s.bay b).moved .waiting)).setChg b { (s.chg b).zeroCounts with pendingInc := none }) := .of_view rfl
    have left := schedChange_left good w (by simp [BayRec.moved]) (by simp [BayRec.moved, h.1])
    rw [h.1] at left
    refine left_kept good (w.trans (schedChange_work b .charging .waiting _))
      (left.mono (fun _ => id) fun _ q => ⟨q.1, fun e => ⟨pres, q.2 e⟩⟩)
      (moved_seat (by decide) (by simp [pres]) (by simp)) moved_probe
  split
  · exact setGrant_keeps s b _
  · exact .refl s

theorem eachBay_keeps {f : Bay → State → State} (h : ∀ b s, Keeps s (f b s)) (s : State) : Keeps s (eachBay f s) :=
  eachBay_rel (R := Keeps) .refl .trans h s

theorem eachLane_keeps {f : Lane → State → State} (h : ∀ l s, Keeps s (f l s)) (s : State) : Keeps s (eachLane f s) :=
  eachLane_rel (R := Keeps) .refl .trans h s

theorem ite_keeps {p : Prop} [Decidable p] {s t : State} (h : p → Keeps s t) : Keeps s (if p then t else s) := by
  split
  · exact h ‹_›
  · exact .refl s

theorem supersede_keeps (s : State) : Keeps s (supersede s) :=
  Keeps.trans (t := { s with alloc := { s.alloc with settleTimer := none } }) (.of_view rfl)
    (eachBay_keeps (fun b s => setChg_keeps s b _) _)

theorem storeTargets_keeps (xs : List Share) (s : State) : Keeps s (storeTargets xs s) := by
  refine eachBay_keeps (fun b s => ?_) s
  dsimp only
  split
  · exact setChg_keeps s b _
  · exact .refl s

theorem markBudget_keeps (s : State) : Keeps s (markBudget s) := by
  refine .of_view ?_
  unfold markBudget
  dsimp only
  split <;> rfl

theorem applyTargets_keeps (xs : List Share) (s : State) : Keeps s (applyTargets xs s) := by
  refine eachBay_keeps (fun b s => ?_) s
  split
  · exact applyTarget_keeps b _ s
  · exact .refl s

theorem recordIncrease_keeps (b : Bay) (s : State) : Keeps s (recordIncrease b s) :=
  ite_keeps fun _ => setChg_keeps s b _

theorem applyIncrease_keeps (b : Bay) (s : State) : Keeps s (applyIncrease b s) := by
  unfold applyIncrease
  split
  · exact .refl s
  · exact (ite_keeps fun _ => setGrant_keeps s b _).trans (setChg_keeps _ b _)

theorem applyIncreases_keeps (s : State) : Keeps s (applyIncreases s) := eachBay_keeps applyIncrease_keeps s

theorem setSettle_keeps (s : State) (t : Timer) : Keeps s { s with alloc := { s.alloc with settleTimer := t } } :=
  .of_view rfl

theorem markRemainder_keeps (r : Nat) (s : State) : Keeps s (markRemainder r s) := .of_view rfl

theorem stageIncreases_keeps (lowered : Bool) (s : State) : Keeps s (stageIncreases lowered s) := by
  unfold stageIncreases
  refine (eachBay_keeps recordIncrease_keeps s).trans ?_
  split
  · exact setSettle_keeps _ _
  · exact applyIncreases_keeps _

/-- R63: one allocation pass. -/
theorem runPass_keeps (s : State) : Keeps s (runPass s) := by
  unfold runPass
  dsimp only
  refine Keeps.trans ?_ (schedPassResult_work _ _).keeps
  refine Keeps.trans ?_ (stageIncreases_keeps _ _)
  refine Keeps.trans ?_ (applyTargets_keeps _ _)
  refine Keeps.trans ?_ (markRemainder_keeps _ _)
  refine Keeps.trans ?_ (markBudget_keeps _)
  exact (supersede_keeps s).trans (storeTargets_keeps _ _)

theorem settleExpires_keeps (s : State) : Keeps s (settleExpires s) := by
  unfold settleExpires
  split
  · exact .refl s
  · exact (applyIncreases_keeps s).trans (setSettle_keeps _ none)

theorem settleIfDue_keeps (s : State) : Keeps s (settleIfDue s) := ite_keeps fun _ => settleExpires_keeps s

theorem runAsked_keeps (s : State) : Keeps s (runAsked s) := by
  have clear : Keeps s { s with alloc := { s.alloc with passAsked := false } } := .of_view rfl
  unfold runAsked
  dsimp only
  split
  · exact (clear.trans (runPass_keeps _)).trans (settleIfDue_keeps _)
  · exact clear

theorem retierAll_keeps (s : State) : Keeps s (retierAll s) := by
  refine eachBay_keeps (fun b s => ite_keeps fun _ => ?_) s
  exact .of_view rfl

theorem settle_keeps (n : Nat) (s : State) : Keeps s (settle n s) := by
  induction n generalizing s with
  | zero => exact retierAll_keeps s
  | succ n ih =>
    unfold settle
    dsimp only
    split
    · exact ((retierAll_keeps s).trans (runAsked_keeps _)).trans (ih _)
    · exact retierAll_keeps s

/-- The end of an event keeps the laws. -/
theorem finish_keeps (s : State) : Keeps s (finish s) := settle_keeps _ s

/-! ### The tiers -/

theorem tierLaw_iff (s : State) :
    TierLaw s ↔ ∀ b, (s.bay b).state.eligible = true → (s.chg b).tier = s.tierOf b := by
  have reserved : ∀ b, s.reservedNow b = (s.cust b).reservation.any fun r => r.within := fun b => by
    unfold State.reservedNow; split <;> simp [*]
  simp only [TierLaw, State.tierOf, laneOf_isSome_iff, reserved]

/-- What the tier law reads of a state. -/
def tierView (s : State) := (s.bays, s.charge, s.custody, s.lanes)

/-- The tier of a bay depends on the lanes, its reservation and its phase. -/
theorem tierOf_congr {s t : State} {b : Bay} (lanes : ∀ l, (t.lane l).state.held = (s.lane l).state.held)
    (cust : (t.cust b).reservation = (s.cust b).reservation) (phase : (t.chg b).phase = (s.chg b).phase) :
    t.tierOf b = s.tierOf b := by
  have reserved : t.reservedNow b = s.reservedNow b := by simp only [State.reservedNow, cust]
  have lane : t.laneOf b = s.laneOf b := by simp only [State.laneOf, lanes]
  simp only [State.tierOf, lane, reserved, phase]

theorem tierLaw_congr {s t : State} (state : ∀ b, (t.bay b).state = (s.bay b).state)
    (tier : ∀ b, (t.chg b).tier = (s.chg b).tier) (lanes : ∀ l, (t.lane l).state.held = (s.lane l).state.held)
    (cust : ∀ b, (t.cust b).reservation = (s.cust b).reservation) (phase : ∀ b, (t.chg b).phase = (s.chg b).phase)
    (law : TierLaw s) : TierLaw t := by
  rw [tierLaw_iff] at law ⊢
  intro b
  rw [state, tier, tierOf_congr lanes (cust b) (phase b)]
  exact law b

theorem tierLaw_of_view {s t : State} (h : tierView t = tierView s) : TierLaw s → TierLaw t := by
  simp only [tierView, Prod.mk.injEq] at h
  obtain ⟨bays, charge, custody, lanes⟩ := h
  refine tierLaw_congr ?_ ?_ ?_ ?_ ?_ <;> intro _ <;> simp only [State.bay, State.chg, State.cust, State.lane, *]

/-- A recomputation of one tier leaves what the tiers depend on. -/
theorem retier_leaves (b : Bay) (s : State) (c : Bay) :
    ((retier b s).bay c).state = (s.bay c).state ∧ (retier b s).tierOf c = s.tierOf c ∧
      ((retier b s).chg c).tier = if c = b ∧ (s.bay c).state.eligible = true then s.tierOf c else (s.chg c).tier := by
  unfold retier
  split
  · rename_i h
    refine ⟨rfl, tierOf_congr (fun _ => rfl) rfl ?_, ?_⟩
    · rw [chg_askPass, chg_setChg]; split
      · subst_vars; rfl
      · rfl
    · rw [chg_askPass, chg_setChg]
      by_cases same : c = b
      · subst same; simp [h.1]
      · simp [same]
  · rename_i h
    refine ⟨rfl, rfl, ?_⟩
    split
    · rename_i k
      obtain ⟨rfl, elig⟩ := k
      by_contra ne
      exact h ⟨elig, ne⟩
    · rfl

theorem retierAll_tierLaw (s : State) : TierLaw (retierAll s) := by
  have folded : ∀ (l : List Bay) (s : State) (c : Bay),
      ((l.foldl (fun s b => retier b s) s).bay c).state = (s.bay c).state ∧
      (l.foldl (fun s b => retier b s) s).tierOf c = s.tierOf c ∧
      ((l.foldl (fun s b => retier b s) s).chg c).tier =
        if c ∈ l ∧ (s.bay c).state.eligible = true then s.tierOf c else (s.chg c).tier := by
    intro l
    induction l with
    | nil => simp
    | cons b l ih =>
      intro s c
      obtain ⟨state, tierOf, tier⟩ := retier_leaves b s c
      obtain ⟨state', tierOf', tier'⟩ := ih (retier b s) c
      simp only [List.foldl_cons, state', tierOf', tier', state, tierOf, tier, List.mem_cons, true_and]
      grind
  rw [tierLaw_iff]
  intro b
  obtain ⟨state, tierOf, tier⟩ := folded allBays s b
  intro elig
  change (((retierAll s).bay b).state = _) at state
  rw [state] at elig
  exact tier.trans ((if_pos ⟨mem_allBays b, elig⟩).trans tierOf.symm)

/-- R56: every event ends with the tiers as their conditions say. -/
theorem finish_tierLaw (s : State) : TierLaw (finish s) := by
  have ends : ∀ n s, TierLaw (settle n s) := by
    intro n
    induction n with
    | zero => exact retierAll_tierLaw
    | succ n ih =>
      intro s
      unfold settle
      dsimp only
      split
      · exact ih _
      · exact retierAll_tierLaw s
  exact ends _ s

/-! ### Whole events -/

/-- A whole event keeps the laws, the tier law among them. -/
structure EventKeeps (s t : State) : Prop where
  keeps : Keeps s t
  tier : TierLaw s → TierLaw t

theorem EventKeeps.refl (s : State) : EventKeeps s s := ⟨.refl s, id⟩

theorem EventKeeps.trans {s t u : State} (h : EventKeeps s t) (h' : EventKeeps t u) : EventKeeps s u :=
  ⟨h.keeps.trans h'.keeps, h'.tier ∘ h.tier⟩

theorem Keeps.finish {s t : State} (h : Keeps s t) : EventKeeps s (finish t) :=
  ⟨h.trans (finish_keeps t), fun _ => finish_tierLaw t⟩

/-- Work on other fields than those that any of the laws reads. -/
theorem EventKeeps.of_view {s t : State} (h : lawView t = lawView s) (h' : tierView t = tierView s) : EventKeeps s t :=
  ⟨.of_view h, tierLaw_of_view h'⟩

theorem EventKeeps.ite {p : Prop} [Decidable p] {s t u : State} (h : p → EventKeeps s t) (h' : ¬ p → EventKeeps s u) :
    EventKeeps s (if p then t else u) := by
  split
  · exact h ‹_›
  · exact h' ‹_›

end Sys2Proof.Machine
end

