-- ==== Sys2Proof/Proofs/LatchWork.lean ====
section
/-! PROOF. What the work of the Latch Controller keeps of the laws: a latch leaves LOCKED only with a report that frees
the lane of its bay. -/

namespace Sys2Proof.Machine

/-! ### A latch record and the motion queue changed together -/

theorem relatch_extendLaw {s : State} {b : Bay} {r : LatchRec} {q : List (Bay × Motion)} (good : Good s)
    (own : (b, Motion.extend) ∈ q → r.state = some .released ∨ r.state = some .closing)
    (others : ∀ c, c ≠ b → (c, Motion.extend) ∈ q → (c, Motion.extend) ∈ s.latchUnit.queue) :
    ExtendLaw ((s.setLatch b r).setMotions q) := by
  intro c mem
  change ((s.setLatch b r).latch c).state = _ ∨ ((s.setLatch b r).latch c).state = _
  rw [latch_setLatch]
  split
  · subst_vars; exact own mem
  · exact good.extend c (others c ‹_› mem)

/-- A latch changes state, but not out of LOCKED. -/
theorem relatch_keeps (s : State) (b : Bay) (r : LatchRec) (q : List (Bay × Motion))
    (lock : (s.latch b).state = some .locked → r.state = some .locked)
    (own : Good s → (b, Motion.extend) ∈ q → r.state = some .released ∨ r.state = some .closing)
    (others : ∀ c, c ≠ b → (c, Motion.extend) ∈ q → (c, Motion.extend) ∈ s.latchUnit.queue) :
    Keeps s ((s.setLatch b r).setMotions q) := .mk fun good => by
  refine ⟨⟨relatch_extendLaw good (own good) others, good.seat, ?_⟩, fun _ => .refl _, .of_eq rfl, id⟩
  refine LaneInv.mono (P := CanHold s) (Q := CanQueue s) (good.lane.congr rfl rfl) (fun c p => ?_) fun c q => q
  obtain ⟨pres, chg, lck⟩ := p
  refine ⟨pres, chg, ?_⟩
  change ((s.setLatch b r).latch c).state = _
  rw [latch_setLatch]
  split
  · subst_vars; exact lock lck
  · exact lck

theorem setLatch_keeps (s : State) (b : Bay) (r : LatchRec)
    (lock : (s.latch b).state = some .locked → r.state = some .locked)
    (own : Good s → (b, Motion.extend) ∈ s.latchUnit.queue → r.state = some .released ∨ r.state = some .closing) :
    Keeps s (s.setLatch b r) := relatch_keeps s b r s.latchUnit.queue lock own fun _ _ => id

/-- A latch leaves LOCKED and the Scheduler is told. -/
theorem unlock_keeps {s v : State} {b : Bay} {r : LatchRec} {q : List (Bay × Motion)}
    (w : LaneWork ((s.setLatch b r).setMotions q) v) (out : r.state ≠ some .locked)
    (own : Good s → (b, Motion.extend) ∈ q → r.state = some .released ∨ r.state = some .closing)
    (others : ∀ c, c ≠ b → (c, Motion.extend) ∈ q → (c, Motion.extend) ∈ s.latchUnit.queue) :
    Keeps s (schedLeftLocked b v) := .mk fun good => by
  have left := schedLeftLocked_work b v
  have all := w.trans left
  have latch : ∀ c, ((s.setLatch b r).setMotions q).latch c = if c = b then r else s.latch c := fun c =>
    latch_setLatch s b c r
  have ad : Admits (CanHold s) (CanQueue s) ((s.setLatch b r).setMotions q) := by
    refine ⟨fun c q chg lck => ?_, (admits_laws s).2⟩
    rw [latch] at lck
    split at lck
    · exact absurd lck out
    · exact ⟨q.1, chg, lck⟩
  refine ⟨⟨(relatch_extendLaw good (own good) others).congr all.latches all.motions, fun c => ?_, ?_⟩, fun c => ?_,
    all.fresh, all.slot⟩
  · rw [all.bay]; exact good.seat c
  · refine (schedLeftLocked_inv b (w.inv ad (good.lane.congr rfl rfl)) (ad.congr w.bays w.latches) ?_).mono
      (fun c p => ?_) fun c q => ?_
    · rw [w.latch, latch, if_pos rfl]; exact out
    · obtain ⟨⟨pres, chg, lck⟩, ne⟩ := p
      simp only [CanHold, all.bay, all.latch, latch, if_neg ne]
      exact ⟨pres, chg, lck⟩
    · simp only [CanQueue, all.bay]; exact q
  · rw [all.bay]; exact .refl _

theorem setMotions_keeps (s : State) (q : List (Bay × Motion))
    (sub : ∀ c, (c, Motion.extend) ∈ q → (c, Motion.extend) ∈ s.latchUnit.queue) : Keeps s (s.setMotions q) := by
  refine .mk fun good => ⟨⟨fun c mem => good.extend c (sub c mem), good.seat, ?_⟩, fun _ => .refl _, .of_eq rfl, id⟩
  exact LaneInv.mono (P := CanHold s) (Q := CanQueue s) (good.lane.congr rfl rfl) (fun _ => id) fun _ => id

theorem dropMotion_keeps (b : Bay) (s : State) : Keeps s (dropMotion b s) :=
  setMotions_keeps s _ fun _ mem => (List.mem_filter.1 mem).1

theorem queueRetract_keeps (b : Bay) (s : State) : Keeps s (queueMotion b .retract s) :=
  setMotions_keeps s _ (by simp)

/-- No EXTEND waits for a latch in another state than RELEASED or CLOSING. -/
theorem Good.noExtend {s : State} (good : Good s) {b : Bay} (h : (s.latch b).state ≠ some .released)
    (h' : (s.latch b).state ≠ some .closing) : (b, Motion.extend) ∉ s.latchUnit.queue :=
  fun mem => (good.extend b mem).elim h h'

theorem latchNote_keeps (k : NoticeKind) (b : Bay) (d1 d2 : Byte) (s : State) : Keeps s (latchNote k b d1 d2 s) :=
  (note_work _ _ _ _ _ _ s).keeps

theorem handOn_keeps (b : Bay) (ev : LatchEvent) (s : State) : Keeps s (handOn b ev s) := (handOn_work b ev s).keeps

theorem recompute_view (s : State) : lawView (recompute s) = lawView s := by
  unfold recompute
  dsimp only
  split <;> rfl

theorem recompute_keeps (s : State) : Keeps s (recompute s) := .of_view (recompute_view s)

/-! ### The latch states entered -/

/-- A latch takes a state other than LOCKED, its motion removed from the queue. -/
theorem dropLatch_keeps (s : State) (b : Bay) (r : LatchRec) (h : (s.latch b).state ≠ some .locked) :
    Keeps s (dropMotion b (s.setLatch b r)) :=
  relatch_keeps s b r _ (fun k => absurd k h) (by simp) (fun c _ mem => (List.mem_filter.1 mem).1)

theorem enterReleased_keeps (b : Bay) (s : State) (h : (s.latch b).state ≠ some .locked) :
    Keeps s (enterReleased b s) := by
  unfold enterReleased
  dsimp only
  exact ((setLatch_keeps s b _ (fun k => absurd k h) fun _ _ => .inl rfl).trans (latchNote_keeps _ _ _ _ _)).trans
    (handOn_keeps _ _ _)

theorem enterLocked_keeps (b : Bay) (s : State) (h : Good s → (b, Motion.extend) ∉ s.latchUnit.queue) :
    Keeps s (enterLocked b s) :=
  (setLatch_keeps s b _ (fun _ => rfl) fun good mem => absurd mem (h good)).trans (handOn_keeps _ _ _)

theorem enterOpen_keeps (b : Bay) (s : State) (h : (s.latch b).state ≠ some .locked) : Keeps s (enterOpen b s) :=
  (dropLatch_keeps s b _ h).trans (handOn_keeps _ _ _)

theorem enterClosing_keeps (b : Bay) (s : State) (h : (s.latch b).state ≠ some .locked) : Keeps s (enterClosing b s) :=
  setLatch_keeps s b _ (fun k => absurd k h) fun _ _ => .inr rfl

theorem enterClosingExtend_keeps (b : Bay) (s : State) (h : (s.latch b).state ≠ some .locked) :
    Keeps s (enterClosingExtend b s) :=
  relatch_keeps s b _ _ (fun k => absurd k h) (fun _ _ => .inr rfl) fun c ne mem => by
    simpa [ne] using mem

theorem enterForced_keeps (b : Bay) (st : LatchState) (s : State) (h : (s.latch b).state = some st) :
    Keeps s (enterForced b st s) := by
  have noted : ∀ (p : Prop) [Decidable p] (u : State), LaneWork u
      (if p then handOn b .releaseFailed (latchNote .forced b st.code 0
          (if p then latchNote .releaseFailed b 2 LatchState.forced.code u else u))
        else latchNote .forced b st.code 0 (if p then latchNote .releaseFailed b 2 LatchState.forced.code u else u)) :=
    fun p _ u => ((ite_touch .refl (note_work _ _ _ _ _ _ _)).trans (note_work _ _ _ _ _ _ _)).trans
      (ite_touch .refl (handOn_work _ _ _))
  unfold enterForced
  dsimp only
  by_cases locked : st = .locked
  · rw [if_pos locked]
    exact unlock_keeps (q := s.latchUnit.queue.filter fun m => m.1 ≠ b) (noted _ _) (by simp) (by simp)
      fun c _ mem => (List.mem_filter.1 mem).1
  · rw [if_neg locked]
    exact (dropLatch_keeps s b _ (by simp [h, locked])).trans (noted _ _).keeps

theorem enterSensorFault_keeps (b : Bay) (st : LatchState) (s : State) (h : (s.latch b).state = some st) :
    Keeps s (enterSensorFault b st s) := by
  have noted : ∀ (p : Prop) [Decidable p] (u : State), LaneWork u
      (if p then handOn b .releaseFailed (latchNote .latchFault b 2 st.code
          (if p then latchNote .releaseFailed b 3 LatchState.sensorFault.code u else u))
        else latchNote .latchFault b 2 st.code
          (if p then latchNote .releaseFailed b 3 LatchState.sensorFault.code u else u)) :=
    fun p _ u => ((ite_touch .refl (note_work _ _ _ _ _ _ _)).trans (note_work _ _ _ _ _ _ _)).trans
      (ite_touch .refl (handOn_work _ _ _))
  unfold enterSensorFault
  dsimp only
  by_cases locked : st = .locked
  · rw [if_pos locked]
    exact unlock_keeps (q := s.latchUnit.queue.filter fun m => m.1 ≠ b) (noted _ _) (by simp) (by simp)
      fun c _ mem => (List.mem_filter.1 mem).1
  · rw [if_neg locked]
    exact (dropLatch_keeps s b _ (by simp [h, locked])).trans (noted _ _).keeps

/-! ### Motions granted -/

theorem grantExtend_keeps (b : Bay) (s : State) (h : (s.latch b).state ≠ some .locked)
    (none : (b, Motion.extend) ∉ s.latchUnit.queue) : Keeps s (grantExtend b s) := by
  unfold grantExtend
  dsimp only
  refine Keeps.trans ?_ (ite_keeps fun _ => enterLocked_keeps b _ fun _ => none)
  exact setLatch_keeps s b _ (fun k => absurd k h) fun _ mem => absurd mem none

theorem grantRetract_keeps (b : Bay) (s : State) (none : (b, Motion.extend) ∉ s.latchUnit.queue) :
    Keeps s (grantRetract b s) := by
  unfold grantRetract
  dsimp only
  by_cases locked : (s.latch b).state = some .locked
  · rw [if_pos locked]
    refine Keeps.trans (unlock_keeps (q := s.latchUnit.queue) (.refl _) (by simp) (fun _ mem => absurd mem none)
      fun _ _ => id) (ite_keeps fun _ => ?_)
    refine enterReleased_keeps b _ ?_
    rw [(schedLeftLocked_work b _).latch]
    change ((s.setLatch b _).latch b).state ≠ _
    simp
  · rw [if_neg locked]
    refine Keeps.trans ?_ (ite_keeps fun _ => enterReleased_keeps b _ (by simp))
    exact setLatch_keeps s b _ (fun k => absurd k locked) fun _ mem => absurd mem none

theorem nextMotion_mem {q : List (Bay × Motion)} {m : Bay × Motion} (h : nextMotion q = some m) : m ∈ q := by
  unfold nextMotion at h
  split at h
  · rename_i found
    cases h
    exact List.mem_of_find?_eq_some found
  · exact List.mem_of_mem_head? h

theorem grantMotions_keeps (fuel : Nat) (s : State) : Keeps s (grantMotions fuel s) := by
  induction fuel generalizing s with
  | zero => exact .refl s
  | succ n ih =>
    simp only [grantMotions]
    split
    · split
      · exact .refl s
      · rename_i b m next
        have mem := nextMotion_mem next
        have dropped : (b, Motion.extend) ∉ (dropMotion b s).latchUnit.queue := by simp [dropMotion]
        refine .mk fun good => ?_
        cases m with
        | extend =>
          have out : ((dropMotion b s).latch b).state ≠ some .locked := by
            rcases good.extend b mem with e | e <;> simp [dropMotion, e]
          exact (((dropMotion_keeps b s).trans (grantExtend_keeps b _ out dropped)).trans (ih _)).kept good
        | retract =>
          exact (((dropMotion_keeps b s).trans (grantRetract_keeps b _ dropped)).trans (ih _)).kept good
    · exact .refl s

/-- R119: an arbitration step keeps the laws. -/
theorem arbitrate_keeps (s : State) : Keeps s (arbitrate s) := grantMotions_keeps _ s

theorem moverFreed_keeps (before s : State) : Keeps s (moverFreed before s) :=
  (ite_keeps fun _ => recompute_keeps s).trans (arbitrate_keeps _)

/-! ### Contact events -/

theorem boltSlipped_keeps (b : Bay) (s : State) : Keeps s (boltSlipped b s) := by
  unfold boltSlipped
  split
  · exact .refl s
  · refine Keeps.trans ?_ (arbitrate_keeps _)
    exact unlock_keeps (q := s.latchUnit.queue ++ [(b, .extend)]) (.refl _) (by simp) (fun _ _ => .inr rfl)
      fun c ne mem => by simpa [ne] using mem

theorem sensorFaultTest_keeps (b : Bay) (s : State) (h : (s.latch b).state = some .sensorFault) :
    Keeps s (sensorFaultTest b s) := by
  unfold sensorFaultTest
  dsimp only
  split
  · exact .refl s
  split
  · exact enterOpen_keeps b s (by simp [h])
  split
  · exact enterLocked_keeps b s fun good => good.noExtend (by simp [h]) (by simp [h])
  split
  · exact (enterClosingExtend_keeps b s (by simp [h])).trans (arbitrate_keeps _)
  · exact .refl s

theorem doorOpened_keeps (b : Bay) (st : LatchState) (s : State) (h : (s.latch b).state = some st) :
    Keeps s (doorOpened b st s) := by
  cases st <;> simp only [doorOpened]
  case locked => exact enterForced_keeps b .locked s h
  case retracting =>
    refine (((setLatch_keeps s b _ (by simp [h]) fun good mem => ?_).trans (latchNote_keeps _ _ _ _ _)).trans
      ((handOn_keeps _ _ _).trans (handOn_keeps _ _ _))).trans (moverFreed_keeps _ _)
    exact absurd mem (good.noExtend (by simp [h]) (by simp [h]))
  case released => exact enterOpen_keeps b s (by simp [h])
  case opened => exact .refl s
  case closing => exact enterOpen_keeps b s (by simp [h])
  case extending => exact (enterOpen_keeps b s (by simp [h])).trans (moverFreed_keeps _ _)
  case jammed =>
    split
    · exact enterForced_keeps b .jammed s h
    · exact enterOpen_keeps b s (by simp [h])
  case sensorFault => exact .refl s
  case forced => exact .refl s

theorem doorShut_keeps (b : Bay) (st : LatchState) (s : State) (h : (s.latch b).state = some st) :
    Keeps s (doorShut b st s) := by
  cases st <;> simp only [doorShut]
  case opened => exact enterClosing_keeps b s (by simp [h])
  case forced =>
    split
    · exact enterLocked_keeps b s fun good => good.noExtend (by simp [h]) (by simp [h])
    · exact enterClosing_keeps b s (by simp [h])
  all_goals exact .refl s

theorem boltMoved_keeps (b : Bay) (st : LatchState) (c : Contact) (a : Bool) (s : State)
    (h : (s.latch b).state = some st) : Keeps s (boltMoved b st c a s) := by
  unfold boltMoved
  split
  · rename_i k
    exact (enterReleased_keeps b s (by simp [h, k.1])).trans (moverFreed_keeps _ _)
  split
  · rename_i k
    exact (enterLocked_keeps b s fun good => good.noExtend (by simp [h, k.1]) (by simp [h, k.1])).trans
      (moverFreed_keeps _ _)
  split
  · exact boltSlipped_keeps b s
  · exact .refl s

theorem machineEvent_keeps (b : Bay) (st : LatchState) (c : Contact) (a : Bool) (s : State)
    (h : (s.latch b).state = some st) : Keeps s (machineEvent b st c a s) := by
  unfold machineEvent
  dsimp only
  split
  · exact sensorFaultTest_keeps b s (by simp [*])
  split
  · split
    · exact (enterSensorFault_keeps b st s h).trans (moverFreed_keeps _ _)
    · exact enterSensorFault_keeps b st s h
  cases c
  · exact boltMoved_keeps b st _ a s h
  · exact boltMoved_keeps b st _ a s h
  · dsimp only
    split
    · exact doorShut_keeps b st s h
    · exact doorOpened_keeps b st s h

theorem startMachine_keeps (b : Bay) (s : State) (h : (s.latch b).state = none) : Keeps s (startMachine b s) := by
  have set : ∀ r, Keeps s (s.setLatch b r) := fun r => setLatch_keeps s b r (by simp [h]) fun good mem =>
    absurd mem (good.noExtend (by simp [h]) (by simp [h]))
  unfold startMachine
  dsimp only
  split
  · exact (set _).trans (latchNote_keeps _ _ _ _ _)
  split
  · exact set _
  split
  · exact set _
  split
  · exact enterClosing_keeps b s (by simp [h])
  · exact enterClosingExtend_keeps b s (by simp [h])

theorem readyToStart_state {l : LatchRec} (h : readyToStart l = true) : l.state = none := by
  simp only [readyToStart, decide_eq_true_eq] at h
  exact h.1

theorem startIfReady_keeps (b : Bay) (s : State) : Keeps s (startIfReady b s) :=
  ite_keeps fun h => startMachine_keeps b s (readyToStart_state h)

@[simp] theorem setFilter_state (l : LatchRec) (c : Contact) (f : Filter) : (l.setFilter c f).state = l.state := by
  cases c <;> rfl

theorem setFilter_keeps (s : State) (b : Bay) (c : Contact) (f : Filter) :
    Keeps s (s.setLatch b ((s.latch b).setFilter c f)) :=
  setLatch_keeps s b _ (by simp) fun good mem => by simpa using good.extend b mem

theorem acceptLevel_keeps (b : Bay) (c : Contact) (a : Bool) (s : State) : Keeps s (acceptLevel b c a s) := by
  unfold acceptLevel
  dsimp only
  split
  · exact setFilter_keeps s b c _
  · exact setFilter_keeps s b c _
  · split
    · exact .refl s
    · exact (setFilter_keeps s b c _).trans (machineEvent_keeps b _ c a _ (by simp [*]))

/-! ### Windows, reversals and requests -/

/-- An EXTEND is queued for a latch that stands in RELEASED or CLOSING. -/
theorem extendQueued_keeps (s : State) (b : Bay) (r : LatchRec) (same : r.state = (s.latch b).state)
    (h : r.state = some .released ∨ r.state = some .closing) : Keeps s (queueMotion b .extend (s.setLatch b r)) :=
  relatch_keeps s b r (s.latchUnit.queue ++ [(b, Motion.extend)]) (fun k => same.trans k) (fun _ _ => h) fun c ne mem => by
    simpa [ne] using mem

theorem endWindow_keeps (b : Bay) (s : State) : Keeps s (endWindow b s) := by
  unfold endWindow
  dsimp only
  split
  · rename_i released
    exact extendQueued_keeps s b _ rfl (.inl released)
  · exact .refl s

theorem latchLockdown_keeps (s : State) : Keeps s (latchLockdown s) :=
  (eachBay_keeps endWindow_keeps s).trans (arbitrate_keeps _)

theorem reverseLatch_keeps (b : Bay) (s : State) : Keeps s (reverseLatch b s) := by
  refine ite_keeps fun h => setLatch_keeps s b _ (by simp [h]) fun good mem => ?_
  exact absurd mem (good.noExtend (by simp [h]) (by simp [h]))

theorem removeRetract_keeps (b : Bay) (s : State) : Keeps s (removeRetract b s) := by
  unfold removeRetract
  dsimp only
  refine ite_keeps fun _ => ?_
  exact (setMotions_keeps s _ fun _ mem => (List.mem_filter.1 mem).1).trans (ite_keeps fun _ => handOn_keeps b _ _)

theorem latchAutonomous_keeps (s : State) : Keeps s (latchAutonomous s) :=
  (((eachBay_keeps reverseLatch_keeps s).trans (eachBay_keeps removeRetract_keeps _)).trans
    (eachBay_keeps endWindow_keeps _)).trans (arbitrate_keeps _)

theorem releaseRequest_keeps (b : Bay) (s : State) : Keeps s (releaseRequest b s) :=
  ite_keeps fun _ => (queueRetract_keeps b s).trans (arbitrate_keeps _)

end Sys2Proof.Machine
end

