-- ==== Sys2Proof/Proofs/EventWork.lean ====
section
/-! PROOF. Every event, request and tick of the part keeps the laws of seats, lanes and tiers. -/

namespace Sys2Proof.Machine

/-! ### The tier law under changes of one record -/

theorem tierLaw_setBay (s : State) (b : Bay) (r : BayRec) (h : r.state = (s.bay b).state) :
    TierLaw s → TierLaw (s.setBay b r) := by
  refine tierLaw_congr (fun c => ?_) (fun _ => rfl) (fun _ => rfl) (fun _ => rfl) fun _ => rfl
  rw [bay_setBay]; split
  · subst_vars; exact h
  · rfl

theorem tierLaw_setChg (s : State) (b : Bay) (r : ChargeRec) (tier : r.tier = (s.chg b).tier)
    (phase : r.phase = (s.chg b).phase) : TierLaw s → TierLaw (s.setChg b r) := by
  refine tierLaw_congr (fun _ => rfl) (fun c => ?_) (fun _ => rfl) (fun _ => rfl) fun c => ?_ <;>
    (rw [chg_setChg]; split)
  · subst_vars; exact tier
  · rfl
  · subst_vars; exact phase
  · rfl

theorem tierLaw_setCust (s : State) (b : Bay) (r : CustodyRec) (h : r.reservation = (s.cust b).reservation) :
    TierLaw s → TierLaw (s.setCust b r) := by
  refine tierLaw_congr (fun _ => rfl) (fun _ => rfl) (fun _ => rfl) (fun c => ?_) fun _ => rfl
  rw [cust_setCust]; split
  · subst_vars; exact h
  · rfl

theorem tierLaw_setLane (s : State) (l : Lane) (r : LaneRec) (h : r.state.held = (s.lane l).state.held) :
    TierLaw s → TierLaw (s.setLane l r) := by
  refine tierLaw_congr (fun _ => rfl) (fun _ => rfl) (fun m => ?_) (fun _ => rfl) fun _ => rfl
  rw [lane_setLane]; split
  · subst_vars; exact h
  · rfl

/-- R66: increases applied leave the tiers as they are. -/
theorem applyIncreases_tierLaw (s : State) : TierLaw s → TierLaw (applyIncreases s) := by
  refine eachBay_rel (R := fun s t => TierLaw s → TierLaw t) (fun _ => id) (fun h h' => h' ∘ h) (fun b s law => ?_) s
  unfold applyIncrease
  split
  · exact law
  · refine tierLaw_setChg _ b _ rfl rfl ?_
    split
    · exact tierLaw_setBay s b _ rfl law
    · exact law

/-- A lane record changes with the entry it holds kept. -/
theorem setLane_work (s : State) (l : Lane) (r : LaneRec) (held : r.state.held = (s.lane l).state.held)
    (strikes : (s.lane l).strikes ≤ 3 → r.strikes ≤ 3) (checks : (s.lane l).checks ≤ r.checks)
    (step : ∀ n, r.state.step = some n →
      (s.lane l).state.step = some n ∨ ((s.lane l).checks ≤ n ∧ n < r.checks)) : LaneWork s (s.setLane l r) :=
  ⟨rfl, rfl, rfl, .setLane l r checks step, id, fun _ inv => inv.setLane_same l r held (strikes (inv.strikes l))⟩

/-! ### Events of the bays -/

theorem settleExpires_event (s : State) : EventKeeps s (settleExpires s) := by
  refine ⟨settleExpires_keeps s, fun law => ?_⟩
  unfold settleExpires
  split
  · exact law
  · have stopped : ∀ u : State, TierLaw u → TierLaw { u with alloc := { u.alloc with settleTimer := none } } :=
      fun u => tierLaw_of_view rfl
    exact stopped _ (applyIncreases_tierLaw s law)

theorem reply_event (k t : Byte) (r : Result) (l : List Byte) (s : State) : EventKeeps s (reply k t r l s) :=
  .of_view rfl rfl

theorem refuse_event (k t : Byte) (r : Reason) (s : State) : EventKeeps s (refuse k t r s) := .of_view rfl rfl

theorem reply_keeps (k t : Byte) (r : Result) (l : List Byte) (s : State) : Keeps s (reply k t r l s) := .of_view rfl

theorem askPass_keeps (s : State) : Keeps s (askPass s) := .of_view rfl

/-- A command's own work, then its answer, then the end of the event. -/
theorem Keeps.answered {s t : State} (h : Keeps s t) (k g : Byte) (r : Result) (l : List Byte) :
    EventKeeps s (Machine.finish (reply k g r l t)) := (h.trans (reply_keeps k g r l t)).finish

theorem attached_empty {r : BayRec} (now : Nat) (h : r.state = .empty) :
    r.attached now = (({ r with
      presence := true, attachRun := 0, energy := 0, residue := 0, dataLine := .clear } : BayRec).moved
        .qualifying).newProbe now := by simp [BayRec.attached, h]

theorem attached_seated {r : BayRec} (now : Nat) (h : r.state ≠ .empty) :
    r.attached now = { r with presence := true, attachRun := 0, energy := 0, residue := 0, dataLine := .clear } := by
  simp [BayRec.attached, h]

theorem attach_event (b : Bay) (s : State) (absent : (s.bay b).presence = false) : EventKeeps s (attach b s) := by
  refine Keeps.finish (.mk fun good => ?_)
  have seat := good.seat b
  have w := fun r => (((LaneWork.refl (s.setBay b r)).trans
    (note_work .attached (bayNumber b) r.state.code 0 0 0 _)).trans (custodyAttach_work b _)).trans
    (LaneWork.of_view (t := allocAttach b _) rfl)
  by_cases empty : (s.bay b).state = .empty
  · refine (reportChange_keeps (b := b) (w _) ?_ (fun _ => ?_) ?_ ?_).kept good <;> rw [attached_empty _ empty]
    · simp [BayRec.moved]
    · exact newProbe_seat rfl
    · exact newProbe_ok rfl
    · simp [BayRec.moved]
  · obtain ⟨out, full, probe, backoff, clean⟩ := seat
    have state : (s.bay b).state = .latched ∨ (s.bay b).state = .disabled := (out absent).resolve_left empty
    refine (reportChange_keeps (b := b) (w _) ?_ (fun _ => ?_) ?_ ?_).kept good <;> rw [attached_seated _ empty]
    · rcases state with e | e <;> simp [e]
    · exact ⟨by simp, fun _ => empty, probe, backoff, clean⟩
    · exact .refl _
    · simp

theorem setSignature_event (b : Bay) (level : Bool) (s : State) : EventKeeps s (setSignature b level s) :=
  .of_view rfl rfl

theorem attachEvent_event (b : Bay) (s : State) : EventKeeps s (attachEvent b s) :=
  .ite (fun _ => .refl s) fun h => (setSignature_event b true s).trans
    (attach_event b _ ((Bool.not_eq_true _).mp h))

theorem afterDetach_cases (st : BayState) :
    st.afterDetach = .empty ∨ st.afterDetach = .latched ∨ st.afterDetach = .disabled := by
  cases st <;> simp [BayState.afterDetach]

theorem detached_seat (r : BayRec) : SeatOk r.detached := by
  have cases := afterDetach_cases r.state
  refine ⟨fun _ => cases, by simp [BayRec.detached], ?_, ?_, ?_⟩ <;>
    rcases cases with e | e | e <;> simp [BayRec.detached, BayRec.moved, e]

theorem detach_event (b : Bay) (s : State) : EventKeeps s (detach b s) := by
  refine Keeps.finish (.mk fun good => ?_)
  have w := (((LaneWork.refl (s.setBay b (s.bay b).detached)).trans
    (note_work .detached (bayNumber b) (s.bay b).state.code (s.bay b).detached.state.code
      (hiByte (word (energyReport (s.bay b).detached.energy)))
      (loByte (word (energyReport (s.bay b).detached.energy))) _)).trans (custodyDetach_work b _)).trans
    (LaneWork.of_view (t := allocDetach b _) rfl)
  have out : (s.bay b).detached.state ≠ .charging := by
    rcases afterDetach_cases (s.bay b).state with e | e | e <;> simp [BayRec.detached, BayRec.moved, e]
  have report := w.trans (reportChange_work b (s.bay b).state (s.bay b).detached.state _)
  have inv := schedDetach_inv b (reportChange_inv good w out) (Admits.congr ?_ report.bays report.latches)
  · refine left_kept good (report.trans (schedDetach_work b _))
      (inv.mono (fun _ p => p.1) fun c q => ⟨q.1.1, fun e => absurd e q.2⟩) (detached_seat _) (.ended ?_ rfl)
    rcases afterDetach_cases (s.bay b).state with e | e | e <;> simp [BayRec.detached, BayRec.moved, e]
  · refine ⟨fun c q chg lck => ?_, fun c p => ⟨(admits_laws s).2 c p.1, fun e => absurd e p.2⟩⟩
    have ne : c ≠ b := by
      rintro rfl
      rw [bay_setBay_self] at chg
      exact out chg
    rw [bay_setBay_ne _ _ _ _ ne] at chg
    exact ⟨⟨q.1.1, chg, lck⟩, ne⟩

theorem detachEvent_event (b : Bay) (s : State) : EventKeeps s (detachEvent b s) :=
  .ite (fun _ => (setSignature_event b false s).trans (detach_event b _)) fun _ => .refl s

theorem probeCompletes_event (b : Bay) (n : Nat) (short : Bool) (s : State) :
    EventKeeps s (probeCompletes b n short s) := by
  refine .ite (fun h => Keeps.finish ?_) fun _ => .refl s
  split
  · exact probeFault_keeps b s
  · refine changeBay_keeps b .waiting s (by decide) (fun good none => ?_) (by simp)
    exact absurd (SeatOk.present (good.seat b) (by simp [h.1])) (by simp [none])

theorem shortTrip_event (b : Bay) (s : State) : EventKeeps s (shortTrip b s) := by
  refine .ite (fun h => (transientFault_keeps b .short 0 s fun good => ?_).finish) fun _ => .refl s
  refine SeatOk.present (good.seat b) ⟨?_, ?_, ?_⟩ <;> (intro e; simp [e, BayState.shortFaults] at h)

theorem backoffExpires_event (b : Bay) (s : State) : EventKeeps s (backoffExpires b s) := by
  unfold backoffExpires
  dsimp only
  split
  · rename_i hold running
    refine .ite (fun _ => (leaveHold_keeps b s hold).finish) fun _ => ⟨?_, tierLaw_setBay s b _ rfl⟩
    refine setBay_keeps s b _ (fun ok => ?_) (.refl _) (fun p c => ⟨p, c⟩) fun p l => ⟨p, l⟩
    obtain ⟨out, full, probe, _, clean⟩ := ok
    exact ⟨out, full, probe, by simp [hold], clean⟩
  · exact .refl s

theorem cleanChargeExpires_event (b : Bay) (s : State) : EventKeeps s (cleanChargeExpires b s) := by
  unfold cleanChargeExpires
  dsimp only
  split
  · exact .refl s
  · refine ⟨setBay_keeps s b _ (fun ok => ?_) (.refl _) (fun p c => ⟨p, c⟩) fun p l => ⟨p, l⟩, tierLaw_setBay s b _ rfl⟩
    obtain ⟨out, full, probe, backoff, _⟩ := ok
    exact ⟨out, full, probe, backoff, by simp⟩

theorem disableBay_keeps (b : Bay) (s : State) : Keeps s (disableBay b s) := by
  unfold disableBay
  split
  · exact .refl s
  · exact changeBay_keeps b .disabled s (by decide) (by simp) (by simp)

theorem enableBay_keeps (b : Bay) (s : State) : Keeps s (enableBay b s) := by
  unfold enableBay
  split
  · split
    · exact enterQualifying_keeps b s fun _ => ‹_›
    · rename_i absent
      exact changeBay_keeps b .empty s (by decide) (by simp) fun p => absurd p absent
  · exact .refl s

theorem clearFault_keeps (b : Bay) (s : State) : Keeps s (clearFault b s) := by
  unfold clearFault
  refine (setBay_keeps_same s b { s.bay b with retries := 0, lastFault := none } rfl).trans ?_
  generalize s.setBay b { s.bay b with retries := 0, lastFault := none } = u
  dsimp only
  split
  · split
    · exact enterQualifying_keeps b u fun _ => ‹_›
    · rename_i absent
      exact changeBay_keeps b .empty u (by decide) (by simp) fun p => absurd p absent
  · rename_i hold
    exact enterQualifying_keeps b u fun good => SeatOk.present (good.seat b) (by simp [hold])
  all_goals exact .refl u

/-! ### Rounds and samples -/

/-- R92: the fault checks of a sample find a fault only in a bay that qualifies, waits or charges. -/
theorem sampleFault_state {v : SupervSettings} {r : BayRec} {d : Byte} {t : Option Byte} {x : FaultKind × Byte}
    (h : sampleFault v r d t = some x) : r.state = .charging ∨ r.state = .waiting ∨ r.state = .qualifying := by
  unfold sampleFault at h
  split at h
  · rename_i run
    unfold senseRunAfter at run
    split at run
    · rename_i c; exact .inl c.1
    · simp [Config.senseRun] at run
  split at h
  · rename_i c; exact c.1.elim .inl (.inr ∘ .inl)
  split at h
  · cases h
  split at h
  · rename_i c; exact c.1
  · cases h

theorem faultChecks_keeps (b : Bay) (d : Byte) (t : Option Byte) (s : State) : Keeps s (faultChecks b d t s) := by
  have checked : Keeps s
      (match sampleFault s.superv (s.bay b) d t with
      | some (kind, detail) => transientFault b kind detail s
      | none => s.setBay b { s.bay b with invalidRun := senseRunAfter (s.bay b) d }) := by
    split
    · rename_i found
      refine transientFault_keeps b _ _ s fun good => SeatOk.present (good.seat b) ?_
      rcases sampleFault_state found with e | e | e <;> simp [e]
    · exact setBay_keeps_same s b _ rfl
  exact checked.trans (setBay_keeps_same _ b _ rfl)

theorem coolDownSample_keeps (b : Bay) (t : Option Byte) (s : State) : Keeps s (coolDownSample b t s) := by
  unfold coolDownSample
  split
  · exact .refl s
  · exact ite_keeps fun h => leaveHold_keeps b s h.1

theorem energySample_view (now : Nat) (d : Byte) (r : BayRec) : seatView (energySample now d r) = seatView r := by
  unfold energySample
  dsimp only
  split <;> rfl

theorem baySample_keeps (b : Bay) (d : Byte) (t : Option Byte) (s : State) : Keeps s (baySample b d t s) :=
  ((setBay_keeps_same s b _ (energySample_view _ d _)).trans (faultChecks_keeps b d t _)).trans
    (coolDownSample_keeps b t _)

theorem allocSample_view (b : Bay) (d : Byte) (s : State) : lawView (allocSample b d s) = lawView s := by
  unfold allocSample
  split
  · unfold takeAction
    split <;> rfl
  · rfl

theorem askNext_view (s : State) : lawView (askNext s) = lawView s ∧ tierView (askNext s) = tierView s := by
  unfold askNext
  split <;> exact ⟨rfl, rfl⟩

theorem writeSample_view (b : Bay) (d : Byte) (t : Option Byte) (s : State) :
    lawView (writeSample b d t s) = lawView s := by rw [writeSample_eq]; rfl

theorem recordSample_event (b : Bay) (d t : Byte) (s : State) : EventKeeps s (recordSample b d t s) := by
  unfold recordSample
  refine Keeps.finish ?_
  refine Keeps.trans ?_ (Keeps.of_view (allocSample_view b d _))
  refine Keeps.trans ?_ (baySample_keeps b d _ _)
  exact .of_view ((askNext_view _).1.trans (writeSample_view b d _ s))

theorem sampleArrives_event (b : Bay) (d t : Byte) (s : State) : EventKeeps s (sampleArrives b d t s) :=
  .ite (fun _ => recordSample_event b d t s) fun _ => .refl s

theorem recordZone_event (z : Zone) (v : Byte) (s : State) : EventKeeps s (recordZone z v s) := by
  obtain ⟨law, tier⟩ := askNext_view { s with scan := { s.scan with
    working := { s.scan.working with zones := s.scan.working.zones.set z (some v) }
    latestZone := s.scan.latestZone.set z v } }
  exact .of_view law tier

theorem zoneArrives_event (z : Zone) (v : Byte) (s : State) : EventKeeps s (zoneArrives z v s) :=
  .ite (fun _ => recordZone_event z v s) fun _ => .refl s

theorem readingMissed_event (s : State) : EventKeeps s (readingMissed s) := by
  unfold readingMissed
  split
  · exact .refl s
  · exact recordSample_event _ _ _ s
  · exact recordZone_event _ _ s

theorem startRound_event (m : Bool) (s : State) : EventKeeps s (startRound m s) := .of_view rfl rfl

theorem stopWait_event (s : State) : EventKeeps s (stopWait s) := .of_view rfl rfl

theorem afterRound_keeps (s : State) : Keeps s (afterRound s) := by
  unfold afterRound
  split
  · exact .refl s
  · split
    · exact (startRound_event false s).keeps
    · exact .of_view rfl

theorem thermalCompletion_keeps (z : Vector Byte 4) (s : State) : Keeps s (thermalCompletion z s) := by
  unfold thermalCompletion
  dsimp only
  refine Keeps.trans (t := recompute _) ?_ (ite_keeps fun _ => askPass_keeps _)
  refine Keeps.trans ?_ (recompute_keeps _)
  exact .of_view rfl

theorem completeRound_event (r : Round) (s : State) : EventKeeps s (completeRound r s) := by
  have published : Keeps s (publish r.thermal s) := .of_view rfl
  unfold completeRound
  dsimp only
  refine Keeps.finish (Keeps.trans ?_ (afterRound_keeps _))
  refine Keeps.trans ?_ (ite_keeps fun _ => (note_work _ _ _ _ _ _ _).keeps)
  exact published.trans (ite_keeps fun _ => (thermalCompletion_keeps _ _).trans (runAsked_keeps _))

theorem roundCompletes_event (s : State) : EventKeeps s (roundCompletes s) := by
  unfold roundCompletes
  split
  · exact .refl s
  · exact .ite (fun _ => completeRound_event _ s) fun _ => .refl s

theorem periodExpires_event (s : State) : EventKeeps s (periodExpires s) := by
  unfold periodExpires
  split
  · exact .of_view rfl rfl
  · exact .refl s

theorem takeMeasure_event (t : Byte) (s : State) : EventKeeps s (takeMeasure t s) := by
  unfold takeMeasure
  dsimp only
  split <;> exact .of_view rfl rfl

theorem applyScan_event (m : ScanMode) (c : Fin 4) (s : State) : EventKeeps s (applyScan m c s) := by
  unfold applyScan
  dsimp only
  split
  · exact .of_view rfl rfl
  · exact .of_view rfl rfl
  · split
    · exact .of_view rfl rfl
    · split <;> exact .of_view rfl rfl

theorem takeScanSet_event (t m p : Byte) (s : State) : EventKeeps s (takeScanSet t m p s) := by
  unfold takeScanSet
  split
  · exact refuse_event _ _ _ s
  · exact (applyScan_event _ _ s).trans (reply_event _ _ _ _ _)

/-! ### Requests of the Allocator and the bays -/

theorem takeChargeSet_event (t : Byte) (a : ChargeSettings) (s : State) : EventKeeps s (takeChargeSet t a s) :=
  Keeps.finish (.of_view rfl)

theorem takeBudgetSet_event (t : Byte) (a : BudgetSettings) (s : State) : EventKeeps s (takeBudgetSet t a s) := by
  unfold takeBudgetSet
  dsimp only
  refine Keeps.finish (Keeps.trans ?_ (recompute_keeps _))
  exact .of_view rfl

theorem shedAccepts_event (a : Bool) (s : State) : EventKeeps s (shedAccepts a s) := by
  unfold shedAccepts
  dsimp only
  split
  · exact .of_view rfl rfl
  · refine Keeps.finish (Keeps.trans ?_ (recompute_keeps _))
    exact .of_view rfl

theorem capGrant_keeps (b : Bay) (s : State) : Keeps s (capGrant b s) := setGrant_keeps s b _

theorem followProfile_keeps (i : Fin 8) (old : Nat) (b : Bay) (s : State) : Keeps s (followProfile i old b s) :=
  ite_keeps fun _ => (setChg_keeps s b _).trans (capGrant_keeps b _)

theorem takeProfileSet_event (t i : Byte) (a : Profile) (s : State) : EventKeeps s (takeProfileSet t i a s) := by
  unfold takeProfileSet
  split
  · exact refuse_event _ _ _ s
  · refine Keeps.finish (Keeps.trans ?_ (ite_keeps fun _ => askPass_keeps _))
    refine Keeps.trans ?_ (reply_keeps _ _ _ _ _)
    refine Keeps.trans ?_ (eachBay_keeps (followProfile_keeps _ _) _)
    exact .of_view rfl

theorem takeBayProfile_event (t b i : Byte) (s : State) : EventKeeps s (takeBayProfile t b i s) := by
  unfold takeBayProfile
  split
  · refine Keeps.finish (Keeps.trans ?_ (askPass_keeps _))
    refine Keeps.trans ?_ (reply_keeps _ _ _ _ _)
    exact (setChg_keeps s _ _).trans (capGrant_keeps _ _)
  · exact refuse_event _ _ _ s

theorem takeBayEnableOff_event (t b : Byte) (s : State) : EventKeeps s (takeBayEnableOff t b s) := by
  unfold takeBayEnableOff
  split
  · exact refuse_event _ _ _ s
  · exact (disableBay_keeps _ s).answered _ _ _ _

theorem takeBayEnableOn_event (t b : Byte) (s : State) : EventKeeps s (takeBayEnableOn t b s) := by
  unfold takeBayEnableOn
  split
  · exact refuse_event _ _ _ s
  · exact (enableBay_keeps _ s).answered _ _ _ _

theorem takeFaultClear_event (t b : Byte) (s : State) : EventKeeps s (takeFaultClear t b s) := by
  unfold takeFaultClear
  split
  · exact refuse_event _ _ _ s
  · exact (clearFault_keeps _ s).answered _ _ _ _

theorem takeBayQuery_event (t b : Byte) (s : State) : EventKeeps s (takeBayQuery t b s) := by
  unfold takeBayQuery
  split
  · exact refuse_event _ _ _ s
  · exact reply_event _ _ _ _ s

/-! ### Events of the latches -/

theorem contactEvent_event (b : Bay) (c : Contact) (a : Bool) (s : State) : EventKeeps s (contactEvent b c a s) := by
  unfold contactEvent
  have pin : Keeps s (setContactPin b c a s) := .of_view rfl
  have accepted := pin.trans (acceptLevel_keeps b c a _)
  exact (accepted.trans (ite_keeps fun h =>
    (startMachine_keeps b _ (readyToStart_state h)).trans (arbitrate_keeps _))).finish

theorem latchMachineStart_event (b : Bay) (o i d : Bool) (s : State) : EventKeeps s (latchMachineStart b o i d s) := by
  unfold latchMachineStart
  refine .ite (fun _ => .refl s) fun h => Keeps.finish (Keeps.trans ?_ (arbitrate_keeps _))
  have unstarted : (s.latch b).state = none := by simpa using h
  refine Keeps.trans ?_ (startMachine_keeps b _ (by rw [latch_setLatch_self]; exact unstarted))
  refine Keeps.trans (t := setContactPin b .boltOut o (setContactPin b .boltIn i (setContactPin b .doorClosed d s)))
    (.of_view rfl) (setLatch_keeps _ b _ id fun good => good.extend b)

theorem travelTimeout_event (b : Bay) (s : State) : EventKeeps s (travelTimeout b s) := by
  have jams : ∀ r : LatchRec, (s.latch b).state ≠ some .locked → (s.latch b).state ≠ some .released →
      (s.latch b).state ≠ some .closing → Keeps s (s.setLatch b r) := fun r lck rel clo =>
    setLatch_keeps s b r (fun k => absurd k lck) fun good mem => absurd mem (good.noExtend rel clo)
  unfold travelTimeout
  dsimp only
  split
  · rename_i state
    refine Keeps.finish (Keeps.trans ?_ (moverFreed_keeps _ _))
    exact ((jams _ (by simp [state]) (by simp [state]) (by simp [state])).trans (latchNote_keeps _ _ _ _ _)).trans
      (handOn_keeps _ _ _)
  · rename_i state
    refine .ite (fun _ => Keeps.finish (Keeps.trans ?_ (moverFreed_keeps _ _))) fun _ => ⟨?_, tierLaw_of_view rfl⟩
    · exact (jams _ (by simp [state]) (by simp [state]) (by simp [state])).trans (latchNote_keeps _ _ _ _ _)
    · exact jams _ (by simp [state]) (by simp [state]) (by simp [state])
  · exact .refl s

theorem retryPauseExpires_event (b : Bay) (s : State) : EventKeeps s (retryPauseExpires b s) := by
  unfold retryPauseExpires
  dsimp only
  split
  · exact ⟨setLatch_keeps s b _ id fun good => good.extend b, tierLaw_of_view rfl⟩
  · exact .refl s

theorem windowExpires_event (b : Bay) (s : State) : EventKeeps s (windowExpires b s) := by
  unfold windowExpires
  split
  · exact ((endWindow_keeps b s).trans (arbitrate_keeps _)).finish
  · exact .refl s

theorem closeSettleExpires_event (b : Bay) (s : State) : EventKeeps s (closeSettleExpires b s) := by
  unfold closeSettleExpires
  dsimp only
  split
  · rename_i closing
    refine Keeps.finish (Keeps.trans ?_ (arbitrate_keeps _))
    exact extendQueued_keeps s b _ rfl (.inr closing)
  · exact .refl s

theorem takeLatchSet_event (t : Byte) (a : LatchSettings) (s : State) : EventKeeps s (takeLatchSet t a s) := by
  have set : Keeps s { s with latchUnit := { s.latchUnit with settings := clampLatch a } } := .of_view rfl
  unfold takeLatchSet
  dsimp only
  refine Keeps.answered ?_ _ _ _ _
  refine Keeps.trans ?_ (ite_keeps fun _ => arbitrate_keeps _)
  exact set.trans (ite_keeps fun _ => (recompute_keeps _).trans (runAsked_keeps _))

theorem takeLockdownOn_event (t : Byte) (s : State) : EventKeeps s (takeLockdownOn t s) := by
  have set : Keeps s { s with link := { s.link with lockdown := true } } := .of_view rfl
  unfold takeLockdownOn
  dsimp only
  refine Keeps.answered ?_ _ _ _ _
  split
  · exact set
  · exact set.trans (latchLockdown_keeps _)

theorem enterAutonomous_event (s : State) : EventKeeps s (enterAutonomous s) := by
  unfold enterAutonomous
  refine Keeps.finish (Keeps.trans ?_ (recompute_keeps _))
  refine Keeps.trans ?_ (latchAutonomous_keeps _)
  refine Keeps.trans ?_ (schedAutonomous_work _).keeps
  exact .of_view rfl

theorem watchdogExpires_event (s : State) : EventKeeps s (watchdogExpires s) := by
  unfold watchdogExpires
  split
  · exact .refl s
  · have stopped : EventKeeps s { s with link := { s.link with watchdog := none } } := .of_view rfl rfl
    dsimp only
    split
    · exact stopped.trans (enterAutonomous_event _)
    · exact stopped

theorem takeResume_event (t : Byte) (s : State) : EventKeeps s (takeResume t s) := by
  unfold takeResume
  split
  · exact reply_event _ _ _ _ s
  · refine Keeps.answered (Keeps.trans ?_ (assignmentRun_work _).keeps) _ _ _ _
    exact Keeps.trans (t := setMode .normal s) (.of_view rfl) (recompute_keeps _)

/-! ### The Custody Table's requests -/

theorem setPurpose_work (b : Bay) (p : Purpose) (s : State) : LaneWork s (setPurpose b p s) := setCust_work s b _

theorem abortForCheckout_work (b : Bay) (s : State) : LaneWork s (abortForCheckout b s) := by
  unfold abortForCheckout
  dsimp only
  refine LaneWork.trans ?_ (removeQueued_work b 5 _)
  split
  · exact release_work _ _ _
  · exact .refl s

theorem acceptCheckout_event (t : Byte) (b : Bay) (h : Word16) (g : Byte) (d : Nat) (s : State) :
    EventKeeps s (acceptCheckout t b h g d s) := by
  unfold acceptCheckout
  dsimp only
  refine Keeps.answered (Keeps.trans ?_ (releaseRequest_keeps b _)) _ _ _ _
  exact ((abortForCheckout_work b s).trans (endReservation_work b _)).keeps.trans (setPurpose_work b _ _).keeps

theorem takeCheckout_event (t b : Byte) (h : Word16) (g : Byte) (d : Word16) (f : Byte) (s : State) :
    EventKeeps s (takeCheckout t b h g d f s) := by
  unfold takeCheckout
  refine .ite (fun _ => refuse_event _ _ _ s) fun _ => .ite (fun _ => refuse_event _ _ _ s) fun _ =>
    .ite (fun _ => refuse_event _ _ _ s) fun _ => ?_
  split
  · refine .ite (fun _ => refuse_event _ _ _ s) fun _ => ?_
    split
    · exact refuse_event _ _ _ s
    · exact acceptCheckout_event _ _ _ _ _ s
  · split
    · exact refuse_event _ _ _ s
    · exact .ite (fun _ => refuse_event _ _ _ s) fun _ => acceptCheckout_event _ _ _ _ _ s

theorem takeReturn_event (t : Byte) (h : Word16) (s : State) : EventKeeps s (takeReturn t h s) := by
  unfold takeReturn
  refine .ite (fun _ => refuse_event _ _ _ s) fun _ => .ite (fun _ => refuse_event _ _ _ s) fun _ =>
    .ite (fun _ => refuse_event _ _ _ s) fun _ => ?_
  split
  · exact refuse_event _ _ _ s
  · refine .ite (fun _ => refuse_event _ _ _ s) fun _ => .ite (fun _ => refuse_event _ _ _ s) fun _ => ?_
    exact ((setPurpose_work _ _ s).keeps.trans (releaseRequest_keeps _ _)).answered _ _ _ _

theorem acceptService_event (t : Byte) (b : Bay) (s : State) : EventKeeps s (acceptService t b s) := by
  have freed : LaneWork s (match s.laneOf b with | some l => release l .service s | none => s) := by
    split
    · exact release_work _ _ _
    · exact .refl s
  unfold acceptService
  dsimp only
  refine Keeps.answered (Keeps.trans ?_ (releaseRequest_keeps b _)) _ _ _ _
  exact ((freed.trans (ite_touch .refl (lapsePurpose_work b _))).trans (setPurpose_work b _ _)).keeps

theorem takeServiceOpen_event (t b f : Byte) (s : State) : EventKeeps s (takeServiceOpen t b f s) := by
  unfold takeServiceOpen
  refine .ite (fun _ => refuse_event _ _ _ s) fun _ => ?_
  split
  · exact refuse_event _ _ _ s
  · exact .ite (fun _ => refuse_event _ _ _ s) fun _ => .ite (fun _ => refuse_event _ _ _ s) fun _ =>
      .ite (fun _ => refuse_event _ _ _ s) fun _ => acceptService_event _ _ s

theorem takeReserve_event (t g c : Byte) (d : Word16) (s : State) : EventKeeps s (takeReserve t g c d s) := by
  unfold takeReserve
  refine .ite (fun _ => refuse_event _ _ _ s) fun _ => .ite (fun _ => refuse_event _ _ _ s) fun _ => ?_
  unfold acceptReserve
  dsimp only
  refine Keeps.answered (Keeps.trans ?_ (eachBay_keeps (fun b s => ite_keeps fun _ => (testHorizon_work b s).keeps) _))
    _ _ _ _
  exact foldl_rel (R := Keeps) .refl .trans (fun b s => (setCust_work s b _).keeps) _ s

theorem takeReserveCancel_event (t g : Byte) (s : State) : EventKeeps s (takeReserveCancel t g s) := by
  unfold takeReserveCancel
  refine .ite (fun _ => refuse_event _ _ _ s) fun _ => ?_
  exact (eachBay_keeps (fun b s => ite_keeps fun _ => (endReservation_work b s).keeps) s).answered _ _ _ _

theorem takeCustodyLoad_event (t b : Byte) (h d : Word16) (s : State) : EventKeeps s (takeCustodyLoad t b h d s) := by
  unfold takeCustodyLoad
  split
  · exact refuse_event _ _ _ s
  · refine .ite (fun _ => refuse_event _ _ _ s) fun _ => .ite (fun _ => refuse_event _ _ _ s) fun _ =>
      .ite (fun _ => refuse_event _ _ _ s) fun _ => EventKeeps.trans ?_ (reply_event _ _ _ _ _)
    exact ⟨(setCust_work s _ _).keeps, tierLaw_setCust s _ _ rfl⟩

theorem takeCustodySet_event (t : Byte) (a : CustodySettings) (s : State) : EventKeeps s (takeCustodySet t a s) := by
  unfold takeCustodySet
  refine .ite (fun _ => refuse_event _ _ _ s) fun _ => ?_
  have set : Keeps s { s with custodySet := clampCustody a } := .of_view rfl
  exact (set.trans (eachBay_keeps (fun b s => ((testExpiry_work b s).trans (testHorizon_work b _)).keeps) _)).answered
    _ _ _ _

theorem advanceMinute_event (s : State) : EventKeeps s (advanceMinute s) := by
  unfold advanceMinute
  refine Keeps.finish (Keeps.trans ?_ (custodyMinute_work _).keeps)
  exact .of_view rfl

/-! ### The lanes' requests and events -/

theorem provAddCheck_none {s : State} {b : Bay} (h : provAddCheck s b = none) :
    (s.bay b).presence = true ∧ s.queued b = none ∧ s.laneOf b = none ∧ (s.bay b).state ≠ .latched := by
  unfold provAddCheck at h
  repeat' split at h
  all_goals simp_all

theorem addEntry_keeps (b : Bay) (c : ProvClass) (j : Word16) (n : Nat) (s : State) (h : provAddCheck s b = none)
    (att : 1 ≤ n ∧ n ≤ 7) : Keeps s (addEntry b c j n s) := by
  obtain ⟨pres, unqueued, unheld, lat⟩ := provAddCheck_none h
  refine .mk fun good => ⟨⟨good.extend, good.seat, ?_⟩, fun _ => .refl _, .of_eq rfl, id⟩
  exact good.lane.append (P := CanHold s) (Q := CanQueue s) ⟨b, c, j, n, s.prov.stamp, 0⟩ rfl rfl
    (queued_none unqueued) (fun l f hf same => laneOf_none unheld l f hf same.symm) ⟨⟨pres, lat⟩, by simp, att⟩

theorem takeProvAdd_event (t b c : Byte) (j : Word16) (a : Byte) (s : State) : EventKeeps s (takeProvAdd t b c j a s) := by
  unfold takeProvAdd
  split
  · split
    · exact refuse_event _ _ _ s
    · rename_i bay cls _ _ _ ok
      refine Keeps.answered (Keeps.trans ?_ (assignmentRun_work _).keeps) _ _ _ _
      exact addEntry_keeps bay cls j _ s ok (by unfold clamp; omega)
  · exact refuse_event _ _ _ s

theorem takeProvCancel_event (t b : Byte) (s : State) : EventKeeps s (takeProvCancel t b s) := by
  unfold takeProvCancel
  split
  · exact refuse_event _ _ _ s
  · split
    · exact (release_work _ _ s).keeps.answered _ _ _ _
    · split
      · exact EventKeeps.trans ⟨(drop_work s _).keeps, tierLaw_of_view rfl⟩ (reply_event _ _ _ _ _)
      · exact reply_event _ _ _ _ s

theorem takeProvDone_event (t l b : Byte) (j : Word16) (r : Byte) (s : State) :
    EventKeeps s (takeProvDone t l b j r s) := by
  unfold takeProvDone
  split
  · exact .ite (fun _ => (release_work _ _ s).keeps.answered _ _ _ _) fun _ => refuse_event _ _ _ s
  · exact refuse_event _ _ _ s

/-- A lane that holds nothing changes between FREE and OUT OF SERVICE. -/
theorem setLane_unheld_work (s : State) (l : Lane) (r : LaneRec) (was : (s.lane l).state.held = none)
    (now : r.state.held = none) (strikes : (s.lane l).strikes ≤ 3 → r.strikes ≤ 3) (checks : r.checks = (s.lane l).checks)
    (step : r.state.step = none) : LaneWork s (s.setLane l r) :=
  setLane_work s l r (now.trans was.symm) strikes checks.ge (by simp [step])

theorem laneOut_work (l : Lane) (s : State) : LaneWork s (laneOut l s) := by
  unfold laneOut
  split
  · rename_i free
    exact setLane_unheld_work s l _ (by simp [free, LaneState.held]) rfl id rfl rfl
  · exact release_work _ _ _
  · exact release_work _ _ _
  · exact .refl s

theorem laneIn_work (l : Lane) (s : State) : LaneWork s (laneIn l s) := by
  have clears : LaneWork s (s.setLane l { s.lane l with strikes := 0 }) :=
    setLane_work s l _ rfl (fun _ => Nat.zero_le _) le_rfl fun _ h => .inl h
  unfold laneIn
  split
  · rename_i out
    refine LaneWork.trans ?_ (assignmentRun_work _)
    exact setLane_unheld_work s l _ (by simp [out, LaneState.held]) rfl (fun _ => Nat.zero_le _) rfl rfl
  all_goals exact clears

theorem takeLaneServiceOut_event (t l : Byte) (s : State) : EventKeeps s (takeLaneServiceOut t l s) := by
  unfold takeLaneServiceOut
  split
  · exact refuse_event _ _ _ s
  · exact (laneOut_work _ s).keeps.answered _ _ _ _

theorem takeLaneServiceIn_event (t l : Byte) (s : State) : EventKeeps s (takeLaneServiceIn t l s) := by
  unfold takeLaneServiceIn
  split
  · exact refuse_event _ _ _ s
  · exact (laneIn_work _ s).keeps.answered _ _ _ _

theorem slotClasses_length {l : List Byte} {xs : List ProvClass} (h : slotClasses l = some xs) :
    xs.length = l.length := by
  induction l generalizing xs with
  | nil => cases h; rfl
  | cons c cs ih =>
    unfold slotClasses at h
    split at h
    · cases h; rename_i found; simp [ih found]
    · cases h

/-- The laws but that of the slot pointer do not read the slot table. -/
theorem putSlots_keeps (slots : List ProvClass) (s : State) (h : 0 < slots.length) : Keeps s (putSlots slots s) := by
  refine Keeps.trans (.mk fun good => ?_) (assignmentRun_work _).keeps
  refine ⟨⟨good.extend, good.seat, ?_⟩, fun _ => .refl _, .of_eq rfl, fun _ => h⟩
  exact LaneInv.congr (P := CanHold s) (Q := CanQueue s) good.lane rfl rfl

theorem takeSlotTable_event (t n : Byte) (cs : List Byte) (s : State) : EventKeeps s (takeSlotTable t n cs s) := by
  unfold takeSlotTable
  refine .ite (fun _ => reply_event _ _ _ _ s) fun length => .ite (fun _ => refuse_event _ _ _ s) fun range => ?_
  split
  · exact refuse_event _ _ _ s
  · rename_i slots found
    refine (putSlots_keeps slots s ?_).answered _ _ _ _
    have : n.toNat ≠ 0 := fun zero => range (.inl (BitVec.eq_of_toNat_eq (by simpa using zero)))
    rw [slotClasses_length found]
    have := not_not.1 length
    omega

theorem lineCheckReturns_event (l : Lane) (n : Nat) (d : DataLine) (s : State) :
    EventKeeps s (lineCheckReturns l n d s) := by
  unfold lineCheckReturns
  split
  · rename_i e _ _ state
    refine .ite (fun _ => .ite (fun _ => ?_) fun _ => ?_) fun _ => .refl s
    · have held : ((s.lane l).checkPattern e s.time.ms).state.held = (s.lane l).state.held := by
        simp [state, LaneState.held]
      refine ⟨(setLane_work s l _ held id (by simp) fun k hk => .inr ?_).keeps, tierLaw_setLane s l _ held⟩
      cases hk
      simp
    · refine Keeps.finish (Keeps.trans ?_ (release_work _ _ _).keeps)
      exact setBay_keeps_same s e.bay { s.bay e.bay with dataLine := d } rfl
  · exact .refl s

theorem lineCheckMissed_event (l : Lane) (s : State) : EventKeeps s (lineCheckMissed l s) := by
  unfold lineCheckMissed
  split
  · exact (release_work _ _ s).keeps.finish
  · exact .refl s

theorem enterActive_work (l : Lane) (e : Entry) (s : State) (held : (s.lane l).state.held = some e) :
    LaneWork s (enterActive l e s) := by
  refine LaneWork.trans ?_ (note_work _ _ _ _ _ _ _)
  exact setLane_work s l _ held.symm (fun _ => Nat.zero_le _) le_rfl (by simp [LaneState.step])

theorem patternEnds_event (l : Lane) (k n : Nat) (s : State) : EventKeeps s (patternEnds l k n s) := by
  unfold patternEnds
  split
  · rename_i e _ _ state
    refine .ite (fun _ => ?_) fun _ => .refl s
    have counted : LaneWork s (s.setLane l { s.lane l with lastErrors := min 255 n }) :=
      setLane_work s l _ rfl id le_rfl fun _ h => .inl h
    have held : ((s.setLane l { s.lane l with lastErrors := min 255 n }).lane l).state.held = some e := by
      simp [state, LaneState.held]
    refine .ite (fun _ => ⟨(counted.trans (enterActive_work l e _ held)).keeps, fun law => ?_⟩) fun _ =>
      (counted.trans (release_work _ _ _)).keeps.finish
    refine tierLaw_of_view (s := (s.setLane l { s.lane l with lastErrors := min 255 n }).setLane l _) rfl
      (tierLaw_setLane _ l _ ?_ (tierLaw_setLane s l _ rfl law))
    exact held.symm
  · exact .refl s

theorem sessionExpires_event (l : Lane) (s : State) : EventKeeps s (sessionExpires l s) := by
  unfold sessionExpires
  split
  · exact (release_work _ _ s).keeps.finish
  · exact .refl s

/-! ### The store and the resets -/

/-- R189: abandoning a save touches the store alone. -/
theorem abandonSave_eq (s : State) : ∃ st n, abandonSave s = { s with store := st, freeDraws := n } := by
  unfold abandonSave
  split
  · exact ⟨s.store, s.freeDraws, rfl⟩
  · split
    · exact ⟨_, _, rfl⟩
    · exact ⟨_, s.freeDraws, rfl⟩

@[simp] theorem bay_clearBlocks (s : State) (b : Bay) : (clearBlocks s).bay b = (s.bay b).cleared := by
  simp [State.bay, clearBlocks]

@[simp] theorem lane_clearBlocks (s : State) (l : Lane) : (clearBlocks s).lane l = (s.lane l).cleared := by
  simp [State.lane, clearBlocks]

theorem lane_cleared_held (r : LaneRec) : r.cleared.state.held = none ∧ r.cleared.state.step = none := by
  simp only [LaneRec.cleared]; split <;> exact ⟨rfl, rfl⟩

/-- A reset leaves every bay without a tablet, every lane without an entry and no motion waiting. -/
theorem clearBlocks_event {s u : State} (bays : ∀ b, (u.bay b).probes = (s.bay b).probes)
    (checks : ∀ l, (u.lane l).checks = (s.lane l).checks)
    (strikes : (∀ l, (s.lane l).strikes ≤ 3) → ∀ l, (u.lane l).strikes ≤ 3)
    (slots : SlotLaw s → 0 < u.prov.slots.length) : EventKeeps s (clearBlocks u) := by
  refine ⟨.mk fun good => ⟨⟨?_, fun b => ?_, ?_⟩, fun b => ?_, fun l => ?_, slots⟩, fun _ b elig => ?_⟩
  · exact fun b mem => absurd mem List.not_mem_nil
  · rw [bay_clearBlocks]; simp [BayRec.cleared, BayRec.initial]
  · refine ⟨List.nodup_nil, ?_, fun e mem => absurd mem List.not_mem_nil, fun e mem => absurd mem List.not_mem_nil, ?_,
      fun l => ?_⟩
    · simp [lane_cleared_held]
    · simp [lane_cleared_held]
    · rw [lane_clearBlocks]; exact strikes good.lane.strikes l
  · rw [bay_clearBlocks]; exact .ended rfl (bays b)
  · rw [lane_clearBlocks]
    exact ⟨(checks l).ge, by simp [lane_cleared_held]⟩
  · rw [bay_clearBlocks] at elig; cases elig

theorem loadSettings_slots (words : Vector StoreWord 64) : 0 < (loadSettings words).slots.length := by
  simp only [loadSettings, loadedSlots, List.length_take, clamp]
  simp

theorem resetPart_event (s : State) : EventKeeps s (resetPart s) := by
  obtain ⟨st, n, e⟩ := abandonSave_eq s
  simp only [resetPart, e]
  refine clearBlocks_event (fun b => rfl) (fun l => ?_) (fun _ l => ?_) fun _ => loadSettings_slots _
  · simp [State.lane, takeSettings, clearAll]
  · simp [State.lane, takeSettings, clearAll, LaneRec.blank, LaneRec.initial]

theorem endReset_event (s : State) : EventKeeps s (endReset s) := .of_view rfl rfl

theorem fullReset_event (c : ResetCause) (s : State) : EventKeeps s (fullReset c s) := by
  have held : ∀ h, EventKeeps s { resetPart s with held := h } := fun h =>
    (resetPart_event s).trans (.of_view rfl rfl)
  cases c
  · exact held _
  · exact held _
  · exact .ite (fun _ => .refl s) fun _ => (resetPart_event s).trans (endReset_event _)

theorem resetEnds_event (s : State) : EventKeeps s (resetEnds s) := by
  unfold resetEnds
  split
  · exact .refl s
  · exact endReset_event s

theorem warmRestart_event (s : State) : EventKeeps s (warmRestart s) := by
  obtain ⟨st, n, e⟩ := abandonSave_eq s
  simp only [warmRestart, e]
  refine EventKeeps.trans ?_ (startRound_event false _)
  exact clearBlocks_event (fun _ => rfl) (fun _ => rfl) id fun slot => Nat.zero_lt_of_lt slot

theorem takeStoreSave_event (t : Byte) (s : State) : EventKeeps s (takeStoreSave t s) := by
  unfold takeStoreSave
  split <;> exact .of_view rfl rfl

theorem saveCompletes_event (s : State) : EventKeeps s (saveCompletes s) := by
  unfold saveCompletes
  split
  · exact .refl s
  · exact .of_view rfl rfl

/-! ### The link -/

theorem takeLinkSet_event (t c : Byte) (s : State) : EventKeeps s (takeLinkSet t c s) :=
  .ite (fun _ => refuse_event _ _ _ s) fun _ => .of_view rfl rfl

/-- R175: a request that its owning block serves keeps the laws. -/
theorem serve_event (i : Instr) (s : State) : EventKeeps s (serve i s) := by
  cases i <;> simp only [serve]
  case status => exact .of_view rfl rfl
  case notices => exact .of_view rfl rfl
  case snapshot => exact .of_view rfl rfl
  case bayQuery => exact takeBayQuery_event _ _ s
  case measure => exact takeMeasure_event _ s
  case scanSet => exact takeScanSet_event _ _ _ s
  case budgetSet => exact takeBudgetSet_event _ _ s
  case profileSet => exact takeProfileSet_event _ _ _ s
  case bayProfile => exact takeBayProfile_event _ _ _ s
  case bayEnableOff => exact takeBayEnableOff_event _ _ s
  case bayEnableOn => exact takeBayEnableOn_event _ _ s
  case chargeSet => exact takeChargeSet_event _ _ s
  case supervisionSet => exact .of_view rfl rfl
  case faultClear => exact takeFaultClear_event _ _ s
  case latchSet => exact takeLatchSet_event _ _ s
  case serviceOpen => exact takeServiceOpen_event _ _ _ s
  case lockdownOn => exact takeLockdownOn_event _ s
  case lockdownOff => exact .of_view rfl rfl
  case checkout => exact takeCheckout_event _ _ _ _ _ _ s
  case returnTablet => exact takeReturn_event _ _ s
  case reserve => exact takeReserve_event _ _ _ _ s
  case reserveCancel => exact takeReserveCancel_event _ _ s
  case custodyLoad => exact takeCustodyLoad_event _ _ _ _ s
  case custodySet => exact takeCustodySet_event _ _ s
  case provAdd => exact takeProvAdd_event _ _ _ _ _ s
  case provCancel => exact takeProvCancel_event _ _ s
  case provDone => exact takeProvDone_event _ _ _ _ _ s
  case laneServiceOut => exact takeLaneServiceOut_event _ _ s
  case laneServiceIn => exact takeLaneServiceIn_event _ _ s
  case slotTable => exact takeSlotTable_event _ _ _ s
  case provSet => exact .of_view rfl rfl
  case watchdogArm => exact .of_view rfl rfl
  case resume => exact takeResume_event _ s
  case storeSave => exact takeStoreSave_event _ s
  case restartFull => exact .of_view rfl rfl
  case restartWarm => exact (warmRestart_event s).trans (reply_event _ _ _ _ _)
  case linkSet => exact takeLinkSet_event _ _ s
  case unknownKind => exact .of_view rfl rfl
  all_goals exact .refl s

theorem takeFrame_event (f : Frame) (s : State) : EventKeeps s (takeFrame f s) := by
  unfold takeFrame
  split
  · exact serve_event _ s
  · exact reply_event _ _ _ _ s
  · exact refuse_event _ _ _ s

theorem takeNext_event (s : State) : EventKeeps s (takeNext s) := by
  unfold takeNext
  split
  · refine EventKeeps.trans ?_ (takeFrame_event _ _)
    exact .of_view rfl rfl
  · exact .refl s

theorem bufferFrame_event (f : Frame) (s : State) : EventKeeps s (bufferFrame f s) :=
  .ite (fun _ => .of_view rfl rfl) fun _ => .of_view rfl rfl

theorem discardFrame_event (s : State) : EventKeeps s (discardFrame s) := .of_view rfl rfl

theorem setRx_event (r : Receiver) (s : State) : EventKeeps s (setRx r s) := .of_view rfl rfl

theorem frameCompletes_event (bytes : List Byte) (s : State) : EventKeeps s (frameCompletes bytes s) := by
  unfold frameCompletes
  split
  · exact discardFrame_event s
  · unfold frameValid
    refine EventKeeps.trans ?_ (takeNext_event _)
    refine EventKeeps.trans ?_ (bufferFrame_event _ _)
    exact (setRx_event _ s).trans (.ite (fun _ => .of_view rfl rfl) fun _ => .refl _)

theorem huntByte_event (v : Byte) (g : Bool) (s : State) : EventKeeps s (huntByte v g s) :=
  .ite (fun _ => setRx_event _ s) fun _ => .refl s

theorem byteArrives_event (v : Byte) (g : Bool) (s : State) : EventKeeps s (byteArrives v g s) := by
  unfold byteArrives
  split
  · exact huntByte_event _ _ s
  · refine .ite (fun _ => (discardFrame_event s).trans (huntByte_event _ _ _)) fun _ =>
      .ite (fun _ => ?_) fun _ => discardFrame_event s
    exact .ite (fun _ => discardFrame_event s) fun _ =>
      .ite (fun _ => frameCompletes_event _ s) fun _ => setRx_event _ s

theorem gapExpires_event (s : State) : EventKeeps s (gapExpires s) := by
  unfold gapExpires
  split
  · exact .refl s
  · exact discardFrame_event s

theorem answerEnds_event (s : State) : EventKeeps s (answerEnds s) := by
  unfold answerEnds
  split
  · exact .refl s
  · refine .ite (fun _ => fullReset_event _ s) fun _ => EventKeeps.trans ?_ (takeNext_event _)
    exact .of_view rfl rfl

/-! ### The tick -/

theorem eachBay_event {f : Bay → State → State} (h : ∀ b s, EventKeeps s (f b s)) (s : State) :
    EventKeeps s (eachBay f s) := eachBay_rel (R := EventKeeps) .refl .trans h s

theorem eachLane_event {f : Lane → State → State} (h : ∀ l s, EventKeeps s (f l s)) (s : State) :
    EventKeeps s (eachLane f s) := eachLane_rel (R := EventKeeps) .refl .trans h s

theorem samplePresence_event (b : Bay) (s : State) : EventKeeps s (samplePresence b s) := by
  have run : ∀ r, seatView r = seatView (s.bay b) → EventKeeps s (s.setBay b r) := fun r h =>
    ⟨setBay_keeps_same s b r h, tierLaw_setBay s b r (congrArg (fun x => x.2.1) h)⟩
  refine .ite (fun _ => .ite (fun _ => run _ rfl) fun _ => .ite (fun _ => detach_event b s) fun _ => run _ rfl)
    fun absent => .ite (fun _ => run _ rfl) fun _ => .ite (fun _ => attach_event b s ?_) fun _ => run _ rfl
  simpa using absent

theorem sampleShed_event (s : State) : EventKeeps s (sampleShed s) :=
  .ite (fun _ => .of_view rfl rfl) fun _ => .ite (fun _ => shedAccepts_event _ s) fun _ => .of_view rfl rfl

theorem sampleContact_event (b : Bay) (c : Contact) (s : State) : EventKeeps s (sampleContact b c s) :=
  .ite (fun _ => (acceptLevel_keeps b c _ s).finish) fun _ => ⟨setFilter_keeps s b c _, tierLaw_of_view rfl⟩

theorem startMachines_event (s : State) : EventKeeps s (startMachines s) :=
  .ite (fun _ => ((eachBay_keeps startIfReady_keeps s).trans (arbitrate_keeps _)).finish) fun _ => .refl s

theorem tickFilters_event (s : State) : EventKeeps s (tickFilters s) :=
  (((eachBay_event samplePresence_event s).trans (sampleShed_event _)).trans (eachBay_event (fun b s =>
    ((sampleContact_event b _ s).trans (sampleContact_event b _ _)).trans (sampleContact_event b _ _)) _)).trans
    (startMachines_event _)

theorem tickCharge_event (s : State) : EventKeeps s (tickCharge s) := by
  have settle : EventKeeps s (settleIfDue s) := .ite (fun _ => settleExpires_event s) fun _ => .refl s
  have reading : ∀ s, EventKeeps s (tickReading s) := fun s => by
    unfold tickReading
    split
    · exact .refl s
    · exact .ite (fun _ => readingMissed_event s) fun _ => .refl s
  have wait : ∀ s, EventKeeps s (tickWait s) := fun s => .ite (fun _ => periodExpires_event s) fun _ => .refl s
  have backoff : ∀ b s, EventKeeps s (tickBackoff b s) := fun b s => by
    unfold tickBackoff
    split
    · exact .ite (fun _ => backoffExpires_event b s) fun _ => .refl s
    · exact .refl s
    · exact .refl s
  have clean : ∀ b s, EventKeeps s (tickClean b s) := fun b s =>
    .ite (fun _ => cleanChargeExpires_event b s) fun _ => .refl s
  exact ((((settle.trans (reading _)).trans (roundCompletes_event _)).trans (wait _)).trans
    (eachBay_event backoff _)).trans (eachBay_event clean _)

theorem tickLatches_event (s : State) : EventKeeps s (tickLatches s) := by
  have travel : ∀ b s, EventKeeps s (tickTravel b s) := fun b s =>
    .ite (fun _ => travelTimeout_event b s) fun _ => .refl s
  have pause : ∀ b s, EventKeeps s (tickPause b s) := fun b s =>
    .ite (fun _ => retryPauseExpires_event b s) fun _ => .refl s
  have window : ∀ b s, EventKeeps s (tickWindow b s) := fun b s =>
    .ite (fun _ => windowExpires_event b s) fun _ => .refl s
  have close : ∀ b s, EventKeeps s (tickCloseSettle b s) := fun b s =>
    .ite (fun _ => closeSettleExpires_event b s) fun _ => .refl s
  exact (((eachBay_event travel s).trans (eachBay_event pause _)).trans (eachBay_event window _)).trans
    (eachBay_event close _)

theorem tickLink_event (s : State) : EventKeeps s (tickLink s) := by
  have line : ∀ l s, EventKeeps s (tickLineCheck l s) := fun l s => by
    unfold tickLineCheck
    split
    · exact .ite (fun _ => lineCheckMissed_event l s) fun _ => .refl s
    · exact .refl s
  have session : ∀ l s, EventKeeps s (tickSession l s) := fun l s => by
    unfold tickSession
    split
    · exact .ite (fun _ => sessionExpires_event l s) fun _ => .refl s
    · exact .refl s
  have watchdog : ∀ s, EventKeeps s (tickWatchdog s) := fun s =>
    .ite (fun _ => watchdogExpires_event s) fun _ => .refl s
  have gap : ∀ s, EventKeeps s (tickGap s) := fun s => by
    unfold tickGap
    split
    · exact .refl s
    · exact .ite (fun _ => gapExpires_event s) fun _ => .refl s
  exact (((eachLane_event line s).trans (eachLane_event session _)).trans (watchdog _)).trans (gap _)

theorem live_event {f : State → State} {s : State} (h : EventKeeps s (f s)) : EventKeeps s (live f s) :=
  .ite (fun _ => .refl s) fun _ => h

/-- R193: a tick keeps the laws. -/
theorem tick_event (s : State) : EventKeeps s (tick s) := by
  have count : EventKeeps s (countTick s) := .of_view rfl rfl
  have minute : ∀ s, EventKeeps s (tickMinute s) := fun s => .ite (fun _ => advanceMinute_event s) fun _ => .refl s
  exact live_event (((((count.trans (minute _)).trans (tickFilters_event _)).trans (tickCharge_event _)).trans
    (tickLatches_event _)).trans (tickLink_event _))

/-! ### Every command -/

theorem request_event (i : Instr) (s : State) : EventKeeps s (request i (serve i) s) := by
  refine live_event (.ite (fun _ => serve_event i s) fun _ => ?_)
  split
  · exact bufferFrame_event _ s
  · exact .refl s

/-- Every command answers a state in which the laws still hold. -/
theorem exec_event (i : Instr) (s : State) : ∃ t, exec i s = .next t ∧ EventKeeps s t := by
  cases i
  case frameReceived v => exact ⟨_, rfl, live_event (byteArrives_event v true s)⟩
  case interbyteGapTimeout => exact ⟨_, rfl, live_event (gapExpires_event s)⟩
  case answerSent => exact ⟨_, rfl, live_event (answerEnds_event s)⟩
  case attach b => exact ⟨_, rfl, live_event (attachEvent_event b s)⟩
  case detach b => exact ⟨_, rfl, live_event (detachEvent_event b s)⟩
  case probeComplete b n f => exact ⟨_, rfl, live_event (probeCompletes_event b n f s)⟩
  case shortEvent b => exact ⟨_, rfl, live_event (shortTrip_event b s)⟩
  case sample b d t => exact ⟨_, rfl, live_event (sampleArrives_event b d t s)⟩
  case readingDeadline => exact ⟨_, rfl, live_event (readingMissed_event s)⟩
  case zoneReading z v => exact ⟨_, rfl, live_event (zoneArrives_event z v s)⟩
  case roundComplete => exact ⟨_, rfl, live_event (roundCompletes_event s)⟩
  case periodExpiry => exact ⟨_, rfl, live_event (periodExpires_event s)⟩
  case backoffExpiry b => exact ⟨_, rfl, live_event (backoffExpires_event b s)⟩
  case cleanChargeExpiry b => exact ⟨_, rfl, live_event (cleanChargeExpires_event b s)⟩
  case shedChange a => exact ⟨_, rfl, live_event (shedAccepts_event a s)⟩
  case settleExpiry => exact ⟨_, rfl, live_event (settleExpires_event s)⟩
  case contactEvent b c a => exact ⟨_, rfl, live_event (contactEvent_event b c a s)⟩
  case latchMachineStart b o i d => exact ⟨_, rfl, live_event (latchMachineStart_event b o i d s)⟩
  case travelTimeout b => exact ⟨_, rfl, live_event (travelTimeout_event b s)⟩
  case retryPauseExpiry b => exact ⟨_, rfl, live_event (retryPauseExpires_event b s)⟩
  case windowExpiry b => exact ⟨_, rfl, live_event (windowExpires_event b s)⟩
  case closeSettleExpiry b => exact ⟨_, rfl, live_event (closeSettleExpires_event b s)⟩
  case minuteAdvance => exact ⟨_, rfl, live_event (advanceMinute_event s)⟩
  case lineCheckResult l n d => exact ⟨_, rfl, live_event (lineCheckReturns_event l n d s)⟩
  case lineCheckDeadline l => exact ⟨_, rfl, live_event (lineCheckMissed_event l s)⟩
  case patternCheckEnd l k n => exact ⟨_, rfl, live_event (patternEnds_event l k n s)⟩
  case sessionExpiry l => exact ⟨_, rfl, live_event (sessionExpires_event l s)⟩
  case watchdogExpiry => exact ⟨_, rfl, live_event (watchdogExpires_event s)⟩
  case storeWordWrite => exact ⟨_, rfl, live_event (.of_view rfl rfl)⟩
  case saveComplete => exact ⟨_, rfl, live_event (saveCompletes_event s)⟩
  case fullReset c => exact ⟨_, rfl, fullReset_event c s⟩
  case byteReceived v g => exact ⟨_, rfl, live_event (byteArrives_event v g s)⟩
  case resetEnd => exact ⟨_, rfl, resetEnds_event s⟩
  all_goals exact ⟨_, rfl, request_event _ s⟩

/-- Every step keeps the laws. -/
theorem step_event {s t : State} (h : step s = .next t) : EventKeeps s t := by
  unfold step at h
  split at h
  · cases h; exact tick_event s
  · rename_i c rest _
    obtain ⟨u, run, keeps⟩ := exec_event c { s with pending := rest }
    rw [run] at h
    cases h
    have next : EventKeeps s { s with pending := rest } := .of_view rfl rfl
    exact next.trans keeps

/-- Settles O55: what the laws need of the latches is that no EXTEND waits for a LOCKED one; with that each of the events
keeps them together. -/
theorem bayAndLaneLawsAreKept : Obligations.BayAndLaneLawsAreKept := by
  intro s t latch seat lane h
  obtain ⟨keeps, tier⟩ := step_event h
  have kept := keeps.kept ⟨latch.extendLaw, seat, (laneLaw_iff s).1 lane⟩
  exact ⟨kept.good.seat, (laneLaw_iff t).2 kept.good.lane, kept.slot, tier, kept.probes, kept.steps⟩

end Sys2Proof.Machine
end

