-- ==== Sys2Proof/Proofs/LaneSteps.lean ====
section
/-! PROOF. The ends of the qualification steps and of a session. -/

namespace Sys2Proof.Machine

/-- An event out of reset has its effect and the end of the event after it. -/
theorem completes_live {f : State → State} {s u : State} (free : s.held = none) (h : f s = finish u) :
    Completes (.next (live f s)) u := by
  rw [live_of_free f free, h]
  exact ⟨rfl, finish_pass u⟩

theorem setLane_setLane (s : State) (l : Lane) (r r' : LaneRec) : (s.setLane l r).setLane l r' = s.setLane l r' := by
  simp [State.setLane]

section LineCheck
variable {l : Lane} {s : State} {e : Entry} {number started : Nat}

/-- R159: a clear line check starts the pattern check. -/
theorem lineCheckReturns_clear (h : (s.lane l).state = .qualifying e (.lineCheck number started)) :
    lineCheckReturns l number .clear s = s.setLane l ((s.lane l).checkPattern e s.time.ms) := by
  simp [lineCheckReturns, h]

/-- R16, R159: a fault found sets the bay's flag and releases the lane. -/
theorem lineCheckReturns_fault (h : (s.lane l).state = .qualifying e (.lineCheck number started)) {found : DataLine}
    (fault : found ≠ .clear) :
    lineCheckReturns l number found s = finish (release l .lineFault (setDataLine e.bay found s)) := by
  simp [lineCheckReturns, h, fault]

theorem lineCheckReturns_other (h : ∀ e started, (s.lane l).state ≠ .qualifying e (.lineCheck number started))
    (found : DataLine) : lineCheckReturns l number found s = s := by
  unfold lineCheckReturns
  split
  · rename_i e k started state
    refine if_neg fun same => h e started ?_
    rw [state, same]
  · rfl

theorem lineCheckMissed_due (h : (s.lane l).state = .qualifying e (.lineCheck number started)) :
    lineCheckMissed l s = finish (release l .pattern s) := by
  simp [lineCheckMissed, h]

theorem lineCheckMissed_other (h : ∀ e number started, (s.lane l).state ≠ .qualifying e (.lineCheck number started)) :
    lineCheckMissed l s = s := by
  unfold lineCheckMissed
  split
  · exact absurd ‹_› (h _ _ _)
  · rfl

/-- R159: errors up to the threshold let the lane enter ACTIVE. -/
theorem patternEnds_good (h : (s.lane l).state = .qualifying e (.patternCheck number started)) {errors : Nat}
    (few : min 255 errors ≤ s.prov.settings.threshold) :
    patternEnds l number errors s = provNote .laneReady (bayNumber e.bay) (laneNumber l) e.cls.code e.jobTag
      (s.setLane l { s.lane l with
        state := .active e (s.time.ms + s.prov.settings.sessionLimit * Config.minute), strikes := 0
        lastErrors := min 255 errors }) := by
  simp [patternEnds, h, few, enterActive, setLane_setLane]

theorem patternEnds_bad (h : (s.lane l).state = .qualifying e (.patternCheck number started)) {errors : Nat}
    (many : s.prov.settings.threshold < min 255 errors) :
    patternEnds l number errors s =
      finish (release l .pattern (s.setLane l { s.lane l with lastErrors := min 255 errors })) := by
  simp only [patternEnds, h, if_pos]
  exact if_neg (not_le.2 many)

theorem patternEnds_other (h : ∀ e started, (s.lane l).state ≠ .qualifying e (.patternCheck number started))
    (errors : Nat) : patternEnds l number errors s = s := by
  unfold patternEnds
  split
  · rename_i e k started state
    refine if_neg fun same => h e started ?_
    rw [state, same]
  · rfl

theorem sessionExpires_due {expiry : Nat} (h : (s.lane l).state = .active e expiry) :
    sessionExpires l s = finish (release l .timeout s) := by
  simp [sessionExpires, h]

theorem sessionExpires_other (h : ∀ e expiry, (s.lane l).state ≠ .active e expiry) : sessionExpires l s = s := by
  unfold sessionExpires
  split
  · exact absurd ‹_› (h _ _)
  · rfl

end LineCheck

/-- Settles O54, one end of a step after another. -/
theorem laneStepsEnd : Obligations.LaneStepsEnd := by
  intro l s free
  have run : ∀ f : State → State, live f s = f s := fun f => live_of_free f free
  refine ⟨fun e number started h => ⟨?_, fun found fault => ?_, ?_⟩, fun e number started errors h => ⟨fun few => ?_,
    fun many => ?_⟩, fun e expiry h => ?_, fun number found errors => ⟨fun h => ?_, fun h => ?_⟩, fun h => ?_, fun h => ?_⟩
  · exact congrArg _ ((run _).trans (lineCheckReturns_clear h))
  · exact completes_live free (lineCheckReturns_fault h fault)
  · exact completes_live free (lineCheckMissed_due h)
  · exact congrArg _ ((run _).trans (patternEnds_good h few))
  · exact completes_live free (patternEnds_bad h many)
  · exact completes_live free (sessionExpires_due h)
  · exact congrArg _ ((run _).trans (lineCheckReturns_other h found))
  · exact congrArg _ ((run _).trans (patternEnds_other h errors))
  · exact congrArg _ ((run _).trans (lineCheckMissed_other h))
  · exact congrArg _ ((run _).trans (sessionExpires_other h))

end Sys2Proof.Machine
end

