-- ==== Sys2Proof/Proofs/KindsAndLengths.lean ====
section
/-! PROOF. The checks of kind and length that the Link Port makes of a frame. -/

namespace Sys2Proof.Machine

theorem length_succ_iff {α : Type} {l : List α} {n : Nat} : l.length = n + 1 ↔ ∃ a t, l = a :: t ∧ t.length = n := by
  cases l <;> simp

/-- R176, check 2: a length other than the kind's is malformed. Row by row of the request kind table, the payload is
taken apart byte by byte. -/
theorem decodeRequest_wrongLength : ∀ row ∈ requestKinds, ∀ (tag : Byte) (payload : List Byte) (n : Nat),
    row.2 = some n → payload.length ≠ n → decodeRequest ⟨row.1, tag, payload⟩ = .malformed := by
  simp only [requestKinds, List.forall_mem_append, List.forall_mem_cons, List.not_mem_nil, false_implies, implies_true,
    and_true]
  constructorm* _ ∧ _
  all_goals
    intro tag payload n given length
    cases given
  all_goals
    repeat
      rcases payload with _ | ⟨_, payload⟩
      · rfl
    rcases payload with _ | ⟨_, payload⟩
    · exact absurd rfl length
    · rfl

/-- R176: a frame of a listed kind and of its length picks a request or is out of range. -/
theorem decodeRequest_rightLength : ∀ row ∈ requestKinds, ∀ (tag : Byte) (payload : List Byte) (n : Nat),
    row.2 = some n → payload.length = n → decodeRequest ⟨row.1, tag, payload⟩ ≠ .malformed := by
  have oneOf : ∀ (p q : Prop) [Decidable p] [Decidable q] (i j : Instr),
      (if p then Decoded.request i else if q then Decoded.request j else Decoded.outOfRange) ≠ .malformed := by
    intro p q _ _ i j
    split_ifs <;> nofun
  simp only [requestKinds, List.forall_mem_append, List.forall_mem_cons, List.not_mem_nil, false_implies, implies_true,
    and_true]
  constructorm* _ ∧ _
  all_goals
    intro tag payload n given length
    cases given
  all_goals
    repeat
      obtain ⟨_, payload, rfl, rest⟩ := length_succ_iff.1 length
      clear length
      rename' rest => length
    obtain rfl := List.length_eq_zero_iff.1 length
  any_goals exact oneOf _ _ _ _
  all_goals nofun

theorem one_lt_toNat {v : Byte} (h : 1 < v.toNat) : v ≠ 0 ∧ v ≠ 1 := by
  constructor <;> (rintro rfl; simp at h)

/-- Settles O6. -/
theorem kindAndLengthAreChecked : Obligations.KindAndLengthAreChecked := by
  refine ⟨fun f => ⟨fun unlisted => ?_, fun n row => ?_, fun n row => ?_, ?_, fun v high => ⟨?_, ?_⟩⟩, ?_⟩
  · simp [decodeRequest, unlisted]
  · exact decodeRequest_wrongLength _ row f.tag f.payload n rfl
  · exact decodeRequest_rightLength _ row f.tag f.payload n rfl
  · obtain ⟨kind, tag, payload⟩ := f
    rintro rfl rfl
    rfl
  · obtain ⟨kind, tag, payload⟩ := f
    obtain ⟨ne, ne'⟩ := one_lt_toNat high
    rintro (rfl | rfl) x rfl <;> exact (if_neg ne).trans (if_neg ne')
  · obtain ⟨kind, tag, payload⟩ := f
    obtain ⟨ne, ne'⟩ := one_lt_toNat high
    rintro (rfl | rfl) rfl <;> exact (if_neg ne).trans (if_neg ne')
  · intro tag kind s free
    exact congrArg Host.Outcome.next (request_taken _ _ free)

end Sys2Proof.Machine
end

