-- ==== Sys2Proof/Proofs/Reports.lean ====
section
/-! PROOF. The answers of SNAPSHOT and BAY-QUERY. -/

namespace Sys2Proof.Machine

theorem freshness_read (f : Freshness) : f.read = if f = .never then .never else .stale := by
  cases f <;> rfl

/-- R185: the bytes of a bay record of the snapshot, with the presence bit as the last thing joined. -/
theorem snapBay_bytes (b : SnapBay) : b.bytes =
    (if b.presence then (b.state.code ||| BitVec.shiftLeft b.phase.code 4) ||| 0x80
      else b.state.code ||| BitVec.shiftLeft b.phase.code 4) :: b.draw :: byte b.grant :: b.temp :: num16 b.energy := by
  cases h : b.presence <;> simp [SnapBay.bytes, h]

theorem flagByte_eq (f : Bool) : flagByte f = if f then 1 else 0 := rfl

theorem snapshot_fields (fresh : Freshness) (p : Snapshot) : p.fields fresh =
    fresh.code :: ((bytes16 p.number ++ bytes16 p.minute ++ [if p.thermal then 1 else 0] ++ p.zones.toList ++
      num16 p.budget ++ num16 p.remainder) ++ p.bays.toList.flatMap SnapBay.bytes) := by
  simp [Snapshot.fields, flagByte_eq]

theorem length_bytes16 (w : Word16) : (bytes16 w).length = 2 := rfl

theorem length_num16 (n : Nat) : (num16 n).length = 2 := rfl

theorem snapBay_length (b : SnapBay) : b.bytes.length = 6 := rfl

/-- R185: 13 bytes of head and 32 records of 6 bytes. -/
theorem snapshot_length (p : Snapshot) :
    ((bytes16 p.number ++ bytes16 p.minute ++ [if p.thermal then 1 else 0] ++ p.zones.toList ++
      num16 p.budget ++ num16 p.remainder) ++ p.bays.toList.flatMap SnapBay.bytes).length = 205 := by
  simp [length_bytes16, length_num16, List.length_flatMap, snapBay_length]

/-- R18: the rounding of the backoff remaining is down or up. -/
theorem backoffSeconds_running (now expiry : Nat) :
    backoffSeconds now (.running expiry) = (expiry - now) / 1000 ∨
      backoffSeconds now (.running expiry) = (expiry - now + 999) / 1000 := by
  simp only [backoffSeconds]
  split <;> omega

theorem bayNumber_of_bayOf {n : Byte} {b : Bay} (h : bayOf n = some b) : bayNumber b = n := by
  unfold bayOf at h
  split at h
  · rename_i range
    cases h
    apply BitVec.eq_of_toNat_eq
    simp only [bayNumber, BitVec.toNat_ofNat]
    omega
  · cases h

theorem reportedTier_code (s : State) (b : Bay) :
    (reportedTier s b).code = if (s.bay b).state = .waiting ∨ (s.bay b).state = .charging then (s.chg b).tier.code
      else 2 := by
  unfold reportedTier
  cases (s.bay b).state <;> rfl

theorem flagByte_isSome {α : Type} (x : Option α) : flagByte x.isSome = if x = none then 0 else 1 := by
  cases x <;> rfl

/-- Settles O23: the two answers are byte lists of fixed length, and only the freshness is written. -/
theorem snapshotAndBayQueryReport : Obligations.SnapshotAndBayQueryReport := by
  refine ⟨fun tag s free => ?_, fun tag bay s free => ⟨fun none => ?_, fun b named => ?_⟩⟩
  · have taken : exec (.snapshot tag) s = .next (takeSnapshot tag s) :=
      congrArg Host.Outcome.next (request_taken _ _ free)
    have answer : takeSnapshot tag s = State.answer
        { s with scan := { s.scan with fresh := if s.scan.fresh = .never then .never else .stale } } 0x83 tag
        (0x00 :: (s.scan.snapshot.getD Snapshot.blank).fields s.scan.fresh) := by
      rw [takeSnapshot, freshness_read]; rfl
    rw [taken, answer, snapshot_fields]
    cases h : s.scan.snapshot with
    | none => exact ⟨rfl, rfl⟩
    | some p =>
      simp only [Option.getD_some, ← snapBay_bytes]
      exact ⟨trivial, snapshot_length p⟩
  · have refused : takeBayQuery tag bay s = s.answer 0x84 tag [0x10, 1] := by rw [takeBayQuery, none]; rfl
    exact congrArg Host.Outcome.next ((request_taken _ _ free).trans refused)
  · refine ⟨backoffSeconds s.time.ms (s.bay b).backoff, ?_, ?_⟩
    · cases h : (s.bay b).backoff with
      | running expiry => exact backoffSeconds_running _ _
      | stopped => rfl
      | coolDown => rfl
    · have answered : takeBayQuery tag bay s = reply 0x04 tag .done (bayQueryFields b s) s := by
        rw [takeBayQuery, named]
      refine congrArg Host.Outcome.next ((request_taken _ _ free).trans (answered.trans ?_))
      rw [reply_answer]
      simp only [bayQueryFields, bayNumber_of_bayOf named, reportedTier_code, flagByte_isSome]
      rfl

end Sys2Proof.Machine
end

