-- ==== Sys2Proof/Proofs/FullReset.lean ====
section
/-! PROOF. What a full reset leaves. -/

namespace Sys2Proof.Machine

/-- R189: what abandoning a save leaves of the words. -/
def WordsLeft (s : State) (words : Vector StoreWord 64) : Prop :=
  (s.store.save = none → words = s.store.words) ∧
  ∀ v, s.store.save = some v → ∀ i : Fin 64,
    words[i] = s.store.words[i] ∨ (i.val = v.next ∧
      (words[i] = savedWord v.copy i ∨ words[i] = { s.store.words[i] with wrong := .two }))

theorem tear_cases (t : Config.Torn) (old new : StoreWord) :
    tear t old new = old ∨ tear t old new = new ∨ tear t old new = { old with wrong := .two } := by
  cases t
  · exact .inl rfl
  · exact .inr (.inl rfl)
  · exact .inr (.inr rfl)

/-- R189: a reset abandons the save; the word that was being written is torn, and every other word stands. -/
theorem abandonSave_words (s : State) : ∃ words free, WordsLeft s words ∧
    abandonSave s = { s with store := { s.store with words := words, save := none }, freeDraws := free } := by
  unfold abandonSave
  split
  · rename_i idle
    refine ⟨s.store.words, s.freeDraws, ⟨fun _ => rfl, by simp [idle]⟩, ?_⟩
    rw [← idle]
  · rename_i v save
    split
    · rename_i lt
      refine ⟨_, _, ⟨by simp [save], fun v' h i => ?_⟩, rfl⟩
      obtain rfl : v = v' := by simpa [save] using h
      by_cases at_ : i.val = v.next
      · obtain ⟨k, hk⟩ := i
        subst at_
        rcases tear_cases (Config.tornWord s.freeDraws) s.store.words[v.next] (savedWord v.copy ⟨v.next, lt⟩)
          with e | e | e
        · exact .inl (by simp [e])
        · exact .inr ⟨rfl, .inl (by simp [e])⟩
        · exact .inr ⟨rfl, .inr (by simp [e])⟩
      · refine .inl ?_
        simp only [Fin.getElem_fin]
        exact Vector.getElem_set_ne _ _ fun e => at_ e.symm
    · refine ⟨s.store.words, s.freeDraws, ⟨fun _ => rfl, fun _ _ i => .inl rfl⟩, rfl⟩

/-- R190: the state that a full reset leaves of `s`, with this store and these settings taken: every block at its
reset values, and only the raw lines, the waiting commands and the two counts of entry 27 carried over. -/
def resetTo (s : State) (c : Settings) (store : Store) (free : Nat) (held : Option ResetCause)
    (round : Option Round) : State :=
  { bays := Vector.ofFn fun b => { BayRec.initial with probes := (s.bay b).probes }
    superv := c.superv
    charge := Vector.replicate 32
      { tier := .normal, target := 0, pendingInc := none, phase := .bulk, dynCeiling := c.profiles[0].ceiling
        profile := 0, reclaim := 0, press := 0, taperN := 0, fullN := 0, wakeN := 0 }
    alloc :=
      { rotation := 0, settleTimer := none, remainder := 0, settings := c.charge, profiles := c.profiles
        passAsked := false }
    scan :=
      { mode := c.scanMode, periodCode := c.periodCode, round := round, index := 0, number := 0, wait := none
        working := Working.cleared, latestDraw := Vector.replicate 32 255
        latestTemp := Vector.replicate 32 255, latestZone := Vector.replicate 4 255, snapshot := none
        fresh := .never }
    budget :=
      { settings := c.budget, storedInlet := c.budget.inlet, shed := false, shedRun := 0, h := none
        zonesInvalid := false, derate := 256, computed := 0, established := false, lastPass := none }
    latches := Vector.replicate 32 LatchRec.initial
    latchUnit := { queue := [], settings := c.latch }
    custody := Vector.replicate 32 { status := .vacant, reservation := none, purpose := none }
    custodySet := c.custody
    lanes := Vector.ofFn fun l =>
      { state := .free, strikes := 0, lastErrors := 0, checks := (s.lane l).checks }
    prov := { queue := [], stamp := 0, slots := c.slots, pointer := 0, settings := c.prov }
    link :=
      { rx := .hunting, buffer := [], sending := none, frameError := false, overrun := false
        overflow := false, notices := [], armed := false, period := c.period, watchdog := none
        mode := .normal, lockdown := false, rate := c.rate, lineRate := c.rate }
    store := store
    time := { ms := 0, minute := 0, minuteTicks := 0 }
    held := held, pins := s.pins, freeDraws := free, pending := s.pending }

theorem ofFn_const {α : Type} {n : Nat} (f : Fin n → α) (a : α) (h : ∀ i, f i = a) : Vector.ofFn f = Vector.replicate n a := by
  ext i hi
  simp [h]

/-- R189: the store that a full reset leaves. -/
def storeLeft (words : Vector StoreWord 64) : Store :=
  { words := words, save := none, corrected := words.any fun w => w.wrong = .one
    fault := words.any fun w => w.wrong = .two }

theorem clearBlocks_taken (s : State) (c : Settings) (store : Store) :
    clearBlocks (takeSettings c (clearAll { s with store := store })) =
      resetTo s c store s.freeDraws s.held none := by
  have charge : (Vector.ofFn fun b =>
      ChargeRec.initial ((clearAll { s with store := store }).chg b).profile
        ((takeSettings c (clearAll { s with store := store })).profile b).ceiling) =
      Vector.replicate 32
        { tier := .normal, target := 0, pendingInc := none, phase := .bulk, dynCeiling := c.profiles[0].ceiling
          profile := 0, reclaim := 0, press := 0, taperN := 0, fullN := 0, wakeN := 0 } :=
    ofFn_const _ _ fun b => by
      simp [takeSettings, clearAll, ChargeRec.initial, State.chg, State.profile]
  have custody : (Vector.ofFn fun b => ((clearAll { s with store := store }).cust b).restarted) =
      Vector.replicate 32 { status := .vacant, reservation := none, purpose := none } :=
    ofFn_const _ _ fun b => by
      simp [clearAll, State.cust, CustodyRec.restarted, CustodyRec.initial]
  have lanes : (fun l => ((clearAll { s with store := store }).lane l).cleared) =
      fun l => { state := .free, strikes := 0, lastErrors := 0, checks := (s.lane l).checks } := by
    funext l
    simp [clearAll, State.lane, LaneRec.cleared, LaneRec.blank, LaneRec.initial]
  unfold resetTo
  rw [← charge, ← custody, ← lanes]
  rfl

/-- R190: the part at the end of the reset's work, before it is released. -/
theorem resetPart_eq (s : State) : ∃ words free, WordsLeft s words ∧
    resetPart s = resetTo s (loadSettings words) (storeLeft words) free s.held none := by
  obtain ⟨words, free, left, e⟩ := abandonSave_words s
  refine ⟨words, free, left, ?_⟩
  have flags : loadFlags { s.store with words := words, save := none } = storeLeft words := by
    simp only [loadFlags, storeLeft, Vector.any_toList]
  simp only [resetPart, e, flags]
  exact clearBlocks_taken { s with freeDraws := free } _ _

/-- R33: the first round of a part that a reset has left. -/
theorem endReset_resetTo (s : State) (c : Settings) (store : Store) (free : Nat) (held : Option ResetCause) :
    endReset (resetTo s c store free held none) = resetTo s c store free none
      (some { thermal := true, mark := false, awaiting := some (.bay 0), deadline := 20 }) := by
  unfold resetTo
  rfl

theorem fullReset_eq (s : State) (cause : ResetCause) (other : cause ≠ .restartFull) :
    fullReset cause s = { resetPart s with held := some cause } := by
  cases cause with
  | powerOn => rfl
  | rstLow => rfl
  | restartFull => exact absurd rfl other

theorem resetTo_held (s : State) (c : Settings) (store : Store) (free : Nat) (held held' : Option ResetCause)
    (round : Option Round) :
    { resetTo s c store free held round with held := held' } = resetTo s c store free held' round := by
  unfold resetTo
  rfl

/-- Settles O58: the part at the end of the reset is `resetTo` the settings of the load, and its release adds the first round. -/
theorem fullResetLeavesItsValues : Obligations.FullResetLeavesItsValues := by
  intro s
  obtain ⟨words, free, ⟨idle, torn⟩, e⟩ := resetPart_eq s
  dsimp only
  refine ⟨fun cause other => ?_, fun none => ?_, fun held => ?_, fun none => ?_⟩
  · have taken : fullReset cause s = resetTo s (loadSettings words) (storeLeft words) free (some cause) none := by
      rw [fullReset_eq s cause other, e, resetTo_held]
    have ends := endReset_resetTo s (loadSettings words) (storeLeft words) free (some cause)
    have released : exec .resetEnd (resetTo s (loadSettings words) (storeLeft words) free (some cause) none) =
        .next (endReset (resetTo s (loadSettings words) (storeLeft words) free (some cause) none)) := rfl
    exact ⟨_, _, congrArg Host.Outcome.next taken, ⟨words, free, idle, torn, by rw [resetTo]; rfl⟩,
      released.trans (congrArg Host.Outcome.next ends), words, free, idle, torn, by rw [resetTo]; rfl⟩
  · have taken : fullReset .restartFull s = endReset (resetPart s) := by simp [fullReset, none]
    rw [e, endReset_resetTo] at taken
    exact ⟨_, congrArg Host.Outcome.next taken, words, free, idle, torn, by rw [resetTo]; rfl⟩
  · simp [exec, execFullReset, fullReset, Option.isSome_iff_ne_none, held]
  · simp [exec, execResetEnd, resetEnds, none]

end Sys2Proof.Machine
end

