-- ==== Sys2Proof/Proofs/PassWork.lean ====
section
/-! PROOF. What allocation passes keep beyond the fields they may write: what a bay outside the eligible set holds, the
round counters, the applied grant below its ceiling, and the budget of the last pass. -/

namespace Sys2Proof.Machine

/-! ### The relation -/

theorem OnlyPass.computed {s t : State} (h : OnlyPass s t) : t.budget.computed = s.budget.computed := by
  obtain ⟨_, _, _, _, _, _, _, _, _, _, _, rfl, _⟩ := h; rfl

theorem OnlyPass.established {s t : State} (h : OnlyPass s t) : t.budget.established = s.budget.established := by
  obtain ⟨_, _, _, _, _, _, _, _, _, _, _, rfl, _⟩ := h; rfl

/-- A bay that is outside the eligible set after passes was outside it before, and its record is as it was. -/
theorem OnlyPass.eligible {s t : State} (h : OnlyPass s t) (b : Bay) :
    (t.bay b).state.eligible = (s.bay b).state.eligible := by
  cases e : (s.bay b).state.eligible with
  | false => rw [(h.bayKept b).outside e, e]
  | true => exact (h.bayKept b).inside e

/-- What passes do to the Allocator's records, the applied grants and the clean-charge timers (R7, R12, R45, R51, R86). -/
structure PassWork (s t : State) : Prop where
  pass : OnlyPass s t
  lastPass : t.budget.lastPass = s.budget.lastPass ∨ t.budget.lastPass = some s.budget.computed
  target : ∀ b, (s.bay b).state.eligible = false → (t.chg b).target = (s.chg b).target
  pending : ∀ b, (s.bay b).state.eligible = false → (s.chg b).pendingInc = none → (t.chg b).pendingInc = none
  counts : ∀ b, roundCounts (t.chg b) = roundCounts (s.chg b) ∨
    (roundCounts (t.chg b) = [0, 0, 0, 0, 0] ∧ LeftCharging s.time.ms (t.bay b))
  left : ∀ b, LeftCharging s.time.ms (s.bay b) → LeftCharging s.time.ms (t.bay b)
  cap : ∀ b, (s.bay b).grant ≤ (s.profile b).ceiling → (t.bay b).grant ≤ (s.profile b).ceiling

theorem PassWork.trans {s t u : State} (h : PassWork s t) (h' : PassWork t u) : PassWork s u where
  pass := h.pass.trans h'.pass
  lastPass := by
    have computed := h.pass.computed
    rcases h'.lastPass with e | e
    · rw [e]; exact h.lastPass
    · rw [e, computed]; exact .inr rfl
  target b out := (h'.target b ((h.pass.eligible b).trans out)).trans (h.target b out)
  pending b out none := h'.pending b ((h.pass.eligible b).trans out) (h.pending b out none)
  counts b := by
    have left := h'.left b
    have counts := h'.counts b
    rw [h.pass.time] at left counts
    rcases counts with e | e
    · rw [e]; exact (h.counts b).imp_right fun ⟨zero, l⟩ => ⟨zero, left l⟩
    · exact .inr e
  left b l := by
    have left := h'.left b
    rw [h.pass.time] at left
    exact left (h.left b l)
  cap b le := by
    have cap := h'.cap b
    rw [h.pass.profile] at cap
    exact cap (h.cap b le)

/-- Work that leaves the records of the bays. -/
theorem PassWork.of_records {s t : State} (h : OnlyPass s t) (bays : t.bays = s.bays) (charge : t.charge = s.charge)
    (last : t.budget.lastPass = s.budget.lastPass ∨ t.budget.lastPass = some s.budget.computed) : PassWork s t := by
  have bay : ∀ b, t.bay b = s.bay b := fun b => by simp only [State.bay, bays]
  have chg : ∀ b, t.chg b = s.chg b := fun b => by simp only [State.chg, charge]
  refine ⟨h, last, ?_, ?_, ?_, ?_, ?_⟩ <;> intro b
  · exact fun _ => by rw [chg]
  · exact fun _ none => by rw [chg, none]
  · exact .inl (by rw [chg])
  · rw [bay]; exact id
  · rw [bay]; exact id

theorem PassWork.refl (s : State) : PassWork s s := .of_records (.refl s) rfl rfl (.inl rfl)

theorem OnlyLanes.passWork {s t : State} (h : OnlyLanes s t) : PassWork s t := by
  have pass := h.pass
  obtain ⟨_, _, _, _, rfl⟩ := h
  exact .of_records pass rfl rfl (.inl rfl)

theorem askPass_passWork (s : State) : PassWork s (askPass s) := .of_records (askPass_pass s) rfl rfl (.inl rfl)

/-- A record of the Allocator changes but for what passes keep. -/
theorem setChg_passWork (s : State) (b : Bay) (r : ChargeRec) (kept : ChargeKept (s.chg b) r)
    (counts : roundCounts r = roundCounts (s.chg b))
    (target : (s.bay b).state.eligible = false → r.target = (s.chg b).target)
    (pending : (s.bay b).state.eligible = false → (s.chg b).pendingInc = none → r.pendingInc = none) :
    PassWork s (s.setChg b r) := by
  refine ⟨setChg_pass s b r kept, .inl rfl, ?_, ?_, ?_, fun _ => id, fun _ => id⟩ <;> intro c <;> rw [chg_setChg] <;> split
  all_goals subst_vars
  · exact target
  · exact fun _ => rfl
  · exact pending
  · exact fun _ none => none
  · exact .inl counts
  · exact .inl rfl

/-- A record of an eligible bay changes: its grant stays below the ceiling. -/
theorem setBay_passWork (s : State) (b : Bay) (r : BayRec) (kept : BayKept (s.bay b) r)
    (left : LeftCharging s.time.ms (s.bay b) → LeftCharging s.time.ms r)
    (cap : (s.bay b).grant ≤ (s.profile b).ceiling → r.grant ≤ (s.profile b).ceiling) : PassWork s (s.setBay b r) := by
  refine ⟨setBay_pass s b r kept, .inl rfl, fun _ _ => rfl, fun _ _ none => none, fun _ => .inl rfl, ?_, ?_⟩ <;>
    intro c <;> rw [bay_setBay] <;> split
  all_goals subst_vars
  · exact left
  · exact id
  · exact cap
  · exact id

theorem ite_passWork {p : Prop} [Decidable p] {s t : State} (h : p → PassWork s t) : PassWork s (if p then t else s) := by
  split
  · exact h ‹_›
  · exact .refl s

/-! ### The shares of a pass -/

theorem floorStage_bays (xs : List Share) (r : Nat) : (floorStage xs r).1.map Share.bay = xs.map Share.bay := by
  induction xs generalizing r with
  | nil => rfl
  | cons x xs ih =>
    unfold floorStage
    split <;> simp [ih]

theorem giveOnes_bays (xs : List Share) (r : Nat) : (giveOnes xs r).map Share.bay = xs.map Share.bay := by
  fun_induction giveOnes xs r <;> simp_all

theorem giveShares_bays (xs : List Share) (n : Nat) : (giveShares xs n).map Share.bay = xs.map Share.bay := by
  simp [giveShares]

theorem fillTier_bays (fuel : Nat) (xs : List Share) (r : Nat) :
    (fillTier fuel xs r).1.map Share.bay = xs.map Share.bay := by
  induction fuel generalizing xs r with
  | zero => rfl
  | succ fuel ih =>
    simp only [fillTier]
    split
    · rfl
    split
    · exact giveOnes_bays xs r
    · rw [ih, giveShares_bays]

/-- R59 to R61: each bay of the four tiers has its share. -/
theorem divide_bays (lane reserved normal topping : List Share) (b : Nat) :
    (divide lane reserved normal topping b).shares.map Share.bay =
      (lane ++ reserved ++ normal ++ topping).map Share.bay := by
  simp [divide, fillTier_bays, floorStage_bays]

theorem mem_rotationOrder (rho b : Bay) : b ∈ rotationOrder rho := by
  have mem := mem_allBays b
  rw [← List.take_append_drop rho.val allBays] at mem
  simp only [rotationOrder, List.mem_append] at mem ⊢
  exact mem.symm

theorem mem_tierShares (s : State) (t : Tier) (b : Bay) :
    b ∈ (tierShares s t).map Share.bay ↔ (s.bay b).state.eligible = true ∧ (s.chg b).tier = t := by
  simp only [tierShares, List.mem_map, List.mem_filterMap]
  constructor
  · rintro ⟨x, ⟨c, _, h⟩, rfl⟩
    split at h
    · cases h; assumption
    · cases h
  · exact fun h => ⟨_, ⟨b, mem_rotationOrder _ b, if_pos h⟩, rfl⟩

/-- R54: a pass has a share for just the bays of the eligible set. -/
theorem mem_computePass (s : State) (b : Bay) :
    b ∈ (computePass s).shares.map Share.bay ↔ (s.bay b).state.eligible = true := by
  simp only [computePass, divide_bays, List.map_append, List.mem_append, mem_tierShares]
  cases (s.chg b).tier <;> simp

theorem targetIn_none_iff (xs : List Share) (b : Bay) : targetIn xs b = none ↔ b ∉ xs.map Share.bay := by
  simp [targetIn]

theorem targetIn_computePass (s : State) (b : Bay) :
    targetIn (computePass s).shares b = none ↔ (s.bay b).state.eligible = false := by
  rw [targetIn_none_iff, mem_computePass, Bool.not_eq_true]

/-! ### The stages of a pass -/

theorem supersede_passWork (s : State) : PassWork s (supersede s) := by
  have timer : OnlyPass s { s with alloc := { s.alloc with settleTimer := none } } :=
    ⟨s.bays, s.charge, s.alloc.rotation, none, s.alloc.remainder, s.alloc.passAsked, s.budget.lastPass, s.lanes,
      s.prov.queue, s.prov.pointer, [], rfl, fun _ => .refl _, fun _ => .refl _⟩
  unfold supersede
  refine (PassWork.of_records timer rfl rfl (.inl rfl)).trans (eachBay_rel .refl .trans (fun b s => ?_) _)
  exact setChg_passWork s b _ ⟨rfl, rfl, rfl⟩ rfl (fun _ => rfl) fun _ _ => rfl

/-- R51: targets are stored for bays of the eligible set alone. -/
theorem storeTargets_passWork (xs : List Share) (s : State)
    (only : ∀ b, (s.bay b).state.eligible = false → targetIn xs b = none) : PassWork s (storeTargets xs s) := by
  refine eachBay_rel
    (R := fun s t => (∀ b, (s.bay b).state.eligible = false → targetIn xs b = none) → PassWork s t)
    (fun s _ => .refl s) (fun {s t u} h h' only => ?_) (fun b s only => ?_) s only
  · have first := h only
    exact first.trans (h' fun b out => only b ((first.pass.eligible b).symm.trans out))
  · dsimp only
    split
    · rename_i t found
      have elig : (s.bay b).state.eligible = false → False := fun out => by simp [only b out] at found
      exact setChg_passWork s b _ ⟨rfl, rfl, rfl⟩ rfl (fun out => (elig out).elim) fun out => (elig out).elim
    · exact .refl s

theorem markBudget_last (s : State) : (markBudget s).budget.lastPass = some s.budget.computed := by
  unfold markBudget
  dsimp only
  split <;> rfl

theorem markBudget_records (s : State) : (markBudget s).bays = s.bays ∧ (markBudget s).charge = s.charge := by
  unfold markBudget
  dsimp only
  split <;> exact ⟨rfl, rfl⟩

theorem markBudget_passWork (s : State) : PassWork s (markBudget s) :=
  .of_records (markBudget_pass s) (markBudget_records s).1 (markBudget_records s).2 (.inr (markBudget_last s))

theorem markRemainder_passWork (r : Nat) (s : State) : PassWork s (markRemainder r s) :=
  .of_records (markRemainder_pass r s) rfl rfl (.inl rfl)

theorem moved_left {now : Nat} {r : BayRec} {new : BayState} (h : new ≠ .charging) : LeftCharging now (r.moved new) :=
  .inl h

/-- R7: a bay deferred from CHARGING. -/
theorem deferral_passWork {s : State} {b : Bay} (h : (s.bay b).state = .charging) :
    PassWork s (((s.setBay b ((s.bay b).moved .waiting))).setChg b { (s.chg b).zeroCounts with pendingInc := none }) := by
  have elig : (s.bay b).state.eligible = true := by simp [h, BayState.eligible]
  have kept : BayKept (s.bay b) ((s.bay b).moved .waiting) :=
    .grant elig rfl (.inr (moved_invalidRun_leaves h (by decide))) rfl
  have pass := (setBay_pass s b _ kept).trans
    (setChg_pass _ b { (s.chg b).zeroCounts with pendingInc := none } ⟨rfl, rfl, rfl⟩)
  refine ⟨pass, .inl rfl, ?_, ?_, ?_, ?_, ?_⟩ <;> intro c <;>
    simp only [chg_setChg, bay_setChg, bay_setBay, chg_setBay] <;> split
  all_goals subst_vars
  · simp [elig]
  · exact fun _ => rfl
  · simp
  · exact fun _ none => none
  · exact .inr ⟨rfl, moved_left (by decide)⟩
  · exact .inl rfl
  · exact fun _ => moved_left (by decide)
  · exact id
  · simp [BayRec.moved]
  · exact id

theorem applyTarget_passWork (b : Bay) (t : Nat) (s : State) : PassWork s (applyTarget b t s) := by
  unfold applyTarget
  dsimp only
  split
  · rename_i h
    refine setBay_passWork s b _ (.grant (by simp [h.1, BayState.eligible]) rfl (.inl rfl) rfl) ?_ ?_
    · exact fun _ => .inr rfl
    · exact fun _ => Nat.zero_le _
  split
  · rename_i h
    exact (deferral_passWork h.1).trans (schedChange_touch b .charging .waiting _).passWork
  split
  · rename_i h
    refine setBay_passWork s b _
      (.grant (by simp [h.1, BayState.eligible]) (by simp [h.1, BayState.eligible]) (.inl rfl) rfl) id ?_
    exact fun _ => Nat.min_le_left _ _
  · exact .refl s

theorem applyTargets_passWork (xs : List Share) (s : State) : PassWork s (applyTargets xs s) := by
  refine eachBay_rel .refl .trans (fun b s => ?_) s
  split
  · exact applyTarget_passWork b _ s
  · exact .refl s

theorem recordIncrease_passWork (b : Bay) (s : State) : PassWork s (recordIncrease b s) := by
  refine ite_passWork fun h => ?_
  refine setChg_passWork s b _ ⟨rfl, rfl, rfl⟩ rfl (fun _ => rfl) fun out => ?_
  simp [h.1, BayState.eligible] at out

theorem applyIncrease_passWork (b : Bay) (s : State) : PassWork s (applyIncrease b s) := by
  unfold applyIncrease
  split
  · exact .refl s
  · refine (ite_passWork fun h => ?_).trans
      (setChg_passWork _ b _ ⟨rfl, rfl, rfl⟩ rfl (fun _ => rfl) fun _ _ => rfl)
    have elig : (s.bay b).state.eligible = true := by simp [h, BayState.eligible]
    refine setBay_passWork s b _ (.grant elig elig (.inl rfl) rfl) id ?_
    exact fun _ => Nat.min_le_left _ _

theorem applyIncreases_passWork (s : State) : PassWork s (applyIncreases s) :=
  eachBay_rel .refl .trans applyIncrease_passWork s

theorem setTimer_passWork (s : State) (t : Timer) : PassWork s { s with alloc := { s.alloc with settleTimer := t } } :=
  .of_records ⟨s.bays, s.charge, s.alloc.rotation, t, s.alloc.remainder, s.alloc.passAsked, s.budget.lastPass, s.lanes,
    s.prov.queue, s.prov.pointer, [], rfl, fun _ => .refl _, fun _ => .refl _⟩ rfl rfl (.inl rfl)

theorem stageIncreases_passWork (lowered : Bool) (s : State) : PassWork s (stageIncreases lowered s) := by
  unfold stageIncreases
  refine (eachBay_rel .refl .trans recordIncrease_passWork s).trans ?_
  split
  · exact setTimer_passWork _ _
  · exact applyIncreases_passWork _

/-- The targets of a pass are stored in the state that the supersession of the pass before it leaves. -/
theorem storeTargets_computed (s : State) : PassWork s (storeTargets (computePass s).shares s) :=
  storeTargets_passWork _ s fun b => (targetIn_computePass s b).2

/-- R63: the first half of a pass, up to the budget of the last pass. -/
theorem runPass_budget (s : State) :
    PassWork s (markBudget (storeTargets (computePass (supersede s)).shares (supersede s))) :=
  ((supersede_passWork s).trans (storeTargets_computed _)).trans (markBudget_passWork _)

/-- R64 to R67: the second half of a pass. -/
theorem runPass_rest (r : PassResult) (before : Bay → Bool) (lowered : Bool) (s : State) :
    PassWork s (schedPassResult before (stageIncreases lowered (applyTargets r.shares (markRemainder r.remainder s)))) :=
  (((markRemainder_passWork _ s).trans (applyTargets_passWork _ _)).trans (stageIncreases_passWork _ _)).trans
    (schedPassResult_touch _ _).passWork

/-- R63: the two halves of a pass. -/
theorem runPass_eq (s : State) : runPass s =
    schedPassResult (holding (supersede s).prov.queue)
      (stageIncreases (allBays.any (isLowered (supersede s) (computePass (supersede s)).shares))
        (applyTargets (computePass (supersede s)).shares
          (markRemainder (computePass (supersede s)).remainder
            (markBudget (storeTargets (computePass (supersede s)).shares (supersede s)))))) := by
  simp only [runPass]

theorem runPass_passWork (s : State) : PassWork s (runPass s) := by
  rw [runPass_eq]
  exact (runPass_budget s).trans (runPass_rest _ _ _ _)

/-- R45: a pass divides the budget as it stands. -/
theorem runPass_last (s : State) : (runPass s).budget.lastPass = some s.budget.computed := by
  have first := runPass_budget s
  have mark : (markBudget (storeTargets (computePass (supersede s)).shares (supersede s))).budget.lastPass =
      some s.budget.computed := by
    rw [markBudget_last, ((supersede_passWork s).trans (storeTargets_computed _)).pass.computed]
  have rest := (runPass_rest (computePass (supersede s)) (holding (supersede s).prov.queue)
    (allBays.any (isLowered (supersede s) (computePass (supersede s)).shares)) _).lastPass.imp_left (·.trans mark)
  rw [first.pass.computed, or_self, ← runPass_eq] at rest
  exact rest

theorem settleIfDue_passWork (s : State) : PassWork s (settleIfDue s) := by
  refine ite_passWork fun _ => ?_
  unfold settleExpires
  split
  · exact .refl s
  · exact (applyIncreases_passWork s).trans (setTimer_passWork _ none)

theorem setAsked_passWork (s : State) (asked : Bool) : PassWork s { s with alloc := { s.alloc with passAsked := asked } } :=
  .of_records ⟨s.bays, s.charge, s.alloc.rotation, s.alloc.settleTimer, s.alloc.remainder, asked, s.budget.lastPass,
    s.lanes, s.prov.queue, s.prov.pointer, [], rfl, fun _ => .refl _, fun _ => .refl _⟩ rfl rfl (.inl rfl)

theorem runAsked_passWork (s : State) : PassWork s (runAsked s) := by
  unfold runAsked
  dsimp only
  split
  · exact ((setAsked_passWork s false).trans (runPass_passWork _)).trans (settleIfDue_passWork _)
  · exact setAsked_passWork s false

theorem runAsked_last {s : State} (asked : s.alloc.passAsked = true) (est : s.budget.established = true) :
    (runAsked s).budget.lastPass = some s.budget.computed := by
  have last := runPass_last { s with alloc := { s.alloc with passAsked := false } }
  have rest := (settleIfDue_passWork (runPass { s with alloc := { s.alloc with passAsked := false } })).lastPass
  rw [(runPass_passWork _).pass.computed, last, or_self] at rest
  simpa [runAsked, asked, est] using rest

theorem retier_passWork (b : Bay) (s : State) : PassWork s (retier b s) :=
  ite_passWork fun _ => (setChg_passWork s b { s.chg b with tier := s.tierOf b } ⟨rfl, rfl, rfl⟩ rfl (fun _ => rfl)
    fun _ none => none).trans (askPass_passWork _)

theorem retierAll_passWork (s : State) : PassWork s (retierAll s) := eachBay_rel .refl .trans retier_passWork s

/-- R56: a recomputation of the tiers leaves the targets and may ask for a pass. -/
theorem retierAll_leaves (s : State) :
    (s.alloc.passAsked = true → (retierAll s).alloc.passAsked = true) ∧
      ∀ b, ((retierAll s).chg b).target = (s.chg b).target := by
  unfold retierAll
  refine eachBay_rel (R := fun s t => (s.alloc.passAsked = true → t.alloc.passAsked = true) ∧
    ∀ b, (t.chg b).target = (s.chg b).target) (fun _ => ⟨id, fun _ => rfl⟩)
    (fun h h' => ⟨h'.1 ∘ h.1, fun b => (h'.2 b).trans (h.2 b)⟩) (fun b s => ?_) s
  unfold retier
  split
  · refine ⟨fun _ => rfl, fun c => ?_⟩
    rw [chg_askPass, chg_setChg]
    split
    · subst_vars; rfl
    · rfl
  · exact ⟨id, fun _ => rfl⟩

theorem settle_passWork (n : Nat) (s : State) : PassWork s (settle n s) := by
  induction n generalizing s with
  | zero => exact retierAll_passWork s
  | succ n ih =>
    unfold settle
    dsimp only
    split
    · exact ((retierAll_passWork s).trans (runAsked_passWork _)).trans (ih _)
    · exact retierAll_passWork s

theorem finish_passWork (s : State) : PassWork s (finish s) := settle_passWork _ s

theorem settle_succ (n : Nat) (s : State) : settle (n + 1) s =
    if (retierAll s).alloc.passAsked then settle n (runAsked (retierAll s)) else retierAll s := by
  simp only [settle]

theorem settle_last (n : Nat) {s : State} (asked : s.alloc.passAsked = true) (est : s.budget.established = true) :
    (settle (n + 1) s).budget.lastPass = some s.budget.computed := by
  have retier := (retierAll_passWork s).pass
  have asked' := (retierAll_leaves s).1 asked
  have run := runAsked_last asked' (retier.established.trans est)
  have rest := (settle_passWork n (runAsked (retierAll s))).lastPass
  rw [((retierAll_passWork s).trans (runAsked_passWork _)).pass.computed, run, retier.computed, or_self] at rest
  rw [settle_succ, if_pos asked', rest]

/-- R45, R53: a pass asked for runs once the budget is established, and the last one divided the budget as it stands. -/
theorem finish_last {s : State} (asked : s.alloc.passAsked = true) (est : s.budget.established = true) :
    (finish s).budget.lastPass = some s.budget.computed := by
  rw [finish, show Config.passesPerEvent = 39 + 1 from rfl]
  exact settle_last 39 asked est

theorem runAsked_idle {s : State} (est : s.budget.established = false) :
    runAsked s = { s with alloc := { s.alloc with passAsked := false } } := by
  simp [runAsked, est]

theorem chg_setAsked (s : State) (asked : Bool) (b : Bay) :
    ({ s with alloc := { s.alloc with passAsked := asked } } : State).chg b = s.chg b := rfl

theorem settle_unestablished (n : Nat) {s : State} (est : s.budget.established = false) (b : Bay) :
    ((settle n s).chg b).target = (s.chg b).target := by
  induction n generalizing s with
  | zero => exact (retierAll_leaves s).2 b
  | succ n ih =>
    have est' := (retierAll_passWork s).pass.established.trans est
    rw [settle_succ]
    split
    · rw [ih ((runAsked_passWork _).pass.established.trans est'), runAsked_idle est', chg_setAsked]
      exact (retierAll_leaves s).2 b
    · exact (retierAll_leaves s).2 b

/-- R43: before the budget is established no pass runs. -/
theorem finish_unestablished {s : State} (est : s.budget.established = false) (b : Bay) :
    ((finish s).chg b).target = (s.chg b).target := by
  rw [finish]
  exact settle_unestablished _ est b

end Sys2Proof.Machine
end

