-- ==== Sys2Proof/Proofs/BayMoves.lean ====
section
/-! PROOF. The changes of bay state that probes, shorts, BAY-ENABLE and FAULT-CLEAR make. -/

namespace Sys2Proof.Machine

/-! ### A change of bay state reported -/

/-- R86, R67: what a change of bay state alone does to the Allocator's record. -/
def ChargeRec.leaving (c : ChargeRec) (o n : BayState) : ChargeRec :=
  if o = .charging ∧ n ≠ .charging then { c.zeroCounts with pendingInc := none } else c

theorem leaving_kept (c : ChargeRec) (o n : BayState) : ChargeKept c (c.leaving o n) := by
  unfold ChargeRec.leaving
  split
  · exact ⟨rfl, rfl, rfl⟩
  · exact .refl c

/-- R54: a bay enters the eligible set. -/
theorem allocChange_enters {b : Bay} {o n : BayState} {s : State} (before : o.eligible = false)
    (after : n.eligible = true) : allocChange b o n s = askPass (s.setChg b
      { (s.chg b).leaving o n with tier := s.tierOf b, target := 0, pendingInc := none }) := by
  simp [allocChange, ChargeRec.leaving, before, after]

/-- R54: a bay leaves the eligible set. -/
theorem allocChange_leaves {b : Bay} {o n : BayState} {s : State} (before : o.eligible = true)
    (after : n.eligible = false) : allocChange b o n s = askPass (s.setChg b
      { (s.chg b).leaving o n with tier := .normal, target := 0, pendingInc := none }) := by
  simp [allocChange, ChargeRec.leaving, before, after]

theorem allocChange_stays {b : Bay} {o n : BayState} {s : State} (same : o.eligible = n.eligible) :
    allocChange b o n s = s.setChg b ((s.chg b).leaving o n) := by
  cases e : n.eligible <;> simp [allocChange, ChargeRec.leaving, same, e]

theorem allocChange_pass (b : Bay) (o n : BayState) (s : State) : OnlyPass s (allocChange b o n s) := by
  obtain ⟨phase, dyn, profile⟩ := leaving_kept (s.chg b) o n
  by_cases same : o.eligible = n.eligible
  · rw [allocChange_stays same]
    exact setChg_pass s b _ ⟨phase, dyn, profile⟩
  cases before : o.eligible with
  | false =>
    rw [allocChange_enters before (by simpa [before] using same)]
    refine (setChg_pass s b _ ?_).trans (askPass_pass _)
    exact ⟨phase, dyn, profile⟩
  | true =>
    rw [allocChange_leaves before (by simpa [before] using same)]
    refine (setChg_pass s b _ ?_).trans (askPass_pass _)
    exact ⟨phase, dyn, profile⟩

theorem reportChange_ne {b : Bay} {o n : BayState} (s : State) (ne : o ≠ n) :
    reportChange b o n s = schedChange b o n (allocChange b o n s) := if_neg ne

theorem reportChange_pass (b : Bay) (o n : BayState) (s : State) : OnlyPass s (reportChange b o n s) := by
  by_cases same : o = n
  · rw [reportChange, if_pos same]
    exact .refl s
  · rw [reportChange_ne s same]
    exact (allocChange_pass b o n s).trans (schedChange_touch b o n _).pass

theorem OnlyLanes.bays {s t : State} (h : OnlyLanes s t) : t.bays = s.bays := by obtain ⟨_, _, _, _, rfl⟩ := h; rfl
theorem OnlyLanes.charge {s t : State} (h : OnlyLanes s t) : t.charge = s.charge := by
  obtain ⟨_, _, _, _, rfl⟩ := h; rfl
theorem OnlyLanes.alloc {s t : State} (h : OnlyLanes s t) : t.alloc = s.alloc := by obtain ⟨_, _, _, _, rfl⟩ := h; rfl

/-- R54: what the Allocator holds of a bay that has left the eligible set, and the pass it asks for. -/
structure Dismissed (b : Bay) (s : State) : Prop where
  outside : (s.bay b).state.eligible = false
  target : (s.chg b).target = 0
  pending : (s.chg b).pendingInc = none
  asked : s.alloc.passAsked = true

theorem Dismissed.congr {b : Bay} {s t : State} (h : Dismissed b s) (bays : t.bays = s.bays)
    (charge : t.charge = s.charge) (alloc : t.alloc = s.alloc) : Dismissed b t := by
  obtain ⟨outside, target, pending, asked⟩ := h
  constructor <;> simpa only [State.bay, State.chg, bays, charge, alloc]

theorem Dismissed.lanes {b : Bay} {s t : State} (h : Dismissed b s) (w : OnlyLanes s t) : Dismissed b t :=
  h.congr w.bays w.charge w.alloc

theorem reportChange_dismissed {b : Bay} {o n : BayState} {s : State} (now : (s.bay b).state = n)
    (before : o.eligible = true) (after : n.eligible = false) : Dismissed b (reportChange b o n s) := by
  have ne : o ≠ n := by rintro rfl; rw [before] at after; cases after
  rw [reportChange_ne s ne]
  refine Dismissed.lanes ?_ (schedChange_touch _ _ _ _)
  rw [allocChange_leaves before after]
  constructor
  · rw [bay_askPass, bay_setChg, now, after]
  · rw [chg_askPass, chg_setChg_self]
  · rw [chg_askPass, chg_setChg_self]
  · rfl

/-- R54, R68: passes leave such a bay with no target and no pending increase, and the pass asked for runs. -/
theorem Dismissed.finish {b : Bay} {s : State} (h : Dismissed b s) :
    ((finish s).chg b).target = 0 ∧ ((finish s).chg b).pendingInc = none ∧
      (s.budget.established = true → (Machine.finish s).budget.lastPass = some s.budget.computed) :=
  have work := finish_passWork s
  ⟨(work.target b h.outside).trans h.target, work.pending b h.outside h.pending, finish_last h.asked⟩

/-- R54: a bay that has entered the eligible set has no target yet, and asks for a pass. -/
theorem reportChange_enters {b : Bay} {o n : BayState} {s : State} (before : o.eligible = false)
    (after : n.eligible = true) :
    ((reportChange b o n s).chg b).target = 0 ∧ (reportChange b o n s).alloc.passAsked = true := by
  have ne : o ≠ n := by rintro rfl; rw [before] at after; cases after
  have lanes := schedChange_touch b o n (allocChange b o n s)
  rw [reportChange_ne s ne]
  have entered := allocChange_enters (b := b) (s := s) before after
  refine ⟨?_, ?_⟩
  · rw [State.chg, lanes.charge, entered]
    exact congrArg ChargeRec.target (chg_setChg_self s b _)
  · rw [lanes.alloc, entered]
    rfl

/-- An event's own effect, its report of a changed bay state, and the passes after it. -/
theorem finish_report_pass (b : Bay) (o n : BayState) (s : State) : OnlyPass s (finish (reportChange b o n s)) :=
  (reportChange_pass b o n s).trans (finish_pass _)

/-- R17, R101: an event reported and answered, and the passes after it. -/
theorem finish_answer_pass {s t : State} (h : OnlyPass s t) (k tag : Byte) (p : List Byte) :
    OnlyPass (s.answer k tag p) (finish (t.answer k tag p)) := (h.answer k tag p).trans (finish_pass _)

/-! ### An event out of reset, and a request taken -/

theorem next_live {f : State → State} {s t : State} (free : s.held = none) (h : f s = t) :
    (.next (live f s) : Out) = .next t := by rw [live_of_free f free, h]

theorem next_request {i : Instr} {take : State → State} {s t : State} (free : CanTake s) (h : take s = t) :
    (.next (request i take s) : Out) = .next t := by rw [request_taken i take free, h]

/-! ### The probe's completion -/

/-- Settles O26: the completion is one reported change of state, into the eligible set or to LATCHED. -/
theorem probeCompletionEndsQualifying : Obligations.ProbeCompletionEndsQualifying := by
  intro b number short s free
  refine ⟨fun other => next_live free (if_neg ?_), fun state probe => ⟨_, next_live free (if_pos ⟨state, probe⟩), ?_, ?_⟩⟩
  · rintro ⟨state, probe⟩
    exact other.elim (· state) (· probe)
  · rintro rfl
    have moved : (s.bay b).moved .waiting =
        { s.bay b with probe := none, grant := 0, backoff := .stopped, cleanTimer := none, state := .waiting } := by
      simp [BayRec.moved, state]
    have pass := reportChange_pass b (s.bay b).state .waiting (s.setBay b ((s.bay b).moved .waiting))
    obtain ⟨target, asked⟩ := reportChange_enters (b := b) (o := (s.bay b).state) (n := .waiting)
      (s := s.setBay b ((s.bay b).moved .waiting)) (by rw [state]; rfl) rfl
    simp only [Bool.false_eq_true, if_false, changeBay]
    rw [moved] at pass target asked ⊢
    refine ⟨⟨pass.trans (finish_pass _), fun est => ?_⟩, fun est => ?_⟩
    · rw [finish_last asked (pass.established.trans est), pass.computed]; rfl
    · rw [finish_unestablished (pass.established.trans est), target]
  · rintro rfl
    have moved : { (s.bay b).moved .latched with lastFault := some .probe } =
        { s.bay b with probe := none, grant := 0, backoff := .stopped, cleanTimer := none, state := .latched
                       lastFault := some .probe } := by
      simp [BayRec.moved, state]
    simp only [if_true, probeFault, moved]
    exact finish_report_pass b _ _ _

/-! ### A SHORT event -/

theorem shortFaults_iff (st : BayState) :
    st.shortFaults = true ↔ (st = .charging ∨ st = .waiting ∨ st = .qualifying) := by
  cases st <;> simp [BayState.shortFaults]

/-- R94: the bay record after a transient fault. -/
def BayRec.faulted (r : BayRec) (kind : FaultKind) (new : BayState) (backoff : Backoff) : BayRec :=
  { r with
    state := new, grant := 0, probe := none, cleanTimer := none, lastFault := some kind, invalidRun := 0
    backoff := backoff }

/-- R94, R96: a transient fault writes the record and the notice, and is reported. -/
theorem transientFault_eq (b : Bay) (kind : FaultKind) (detail : Byte) (s : State) :
    let new := faultState (s.bay b).retries s.superv.retryLimit
    transientFault b kind detail s = reportChange b (s.bay b).state new (State.notices
      (s.setBay b ((s.bay b).faulted kind new
        (if new = .hold then .running (s.time.ms + s.superv.backoff * 1000) else .stopped)))
      [⟨.bayFault, bayNumber b, s.time.minute, faultCode (some kind), new.code, byte (s.bay b).retries, detail⟩]) := by
  simp only [transientFault, bayFaultNote, note_notices]
  rcases faultState_cases (s.bay b).retries s.superv.retryLimit with e | e <;>
    simp [e, BayRec.moved, BayRec.faulted]

theorem faultState_outside (n limit : Nat) : (faultState n limit).eligible = false := by
  rcases faultState_cases n limit with e | e <;> rw [e] <;> rfl

/-- R54, R94: a transient fault of an eligible bay takes it out of the eligible set. -/
theorem transientFault_dismissed {b : Bay} {s : State} (kind : FaultKind) (detail : Byte)
    (elig : (s.bay b).state.eligible = true) : Dismissed b (transientFault b kind detail s) := by
  rw [transientFault_eq]
  refine reportChange_dismissed ?_ elig (faultState_outside _ _)
  exact congrArg BayRec.state (bay_setBay_self s b _)

theorem transientFault_pass (b : Bay) (kind : FaultKind) (detail : Byte) (s : State) :
    let new := faultState (s.bay b).retries s.superv.retryLimit
    OnlyPass (State.notices
      (s.setBay b ((s.bay b).faulted kind new
        (if new = .hold then .running (s.time.ms + s.superv.backoff * 1000) else .stopped)))
      [⟨.bayFault, bayNumber b, s.time.minute, faultCode (some kind), new.code, byte (s.bay b).retries, detail⟩])
      (transientFault b kind detail s) := by
  dsimp only
  rw [transientFault_eq]
  exact reportChange_pass _ _ _ _

/-- Settles O27 by what a transient fault does of any bay it strikes. -/
theorem shortEventIsATransientFault : Obligations.ShortEventIsATransientFault := by
  intro b s free
  refine ⟨fun none => next_live free (if_neg fun h => none ((shortFaults_iff _).1 h)), fun faults =>
    ⟨_, next_live free (if_pos ((shortFaults_iff _).2 faults)), ?_, fun elig => ?_⟩⟩
  · exact (transientFault_pass b .short 0 s).trans (finish_pass _)
  · have pass := transientFault_pass b .short 0 s
    obtain ⟨target, pending, last⟩ := (transientFault_dismissed .short 0 elig).finish
    rw [pass.established, pass.computed] at last
    exact ⟨target, pending, last⟩

/-! ### BAY-ENABLE -/

/-- The record of a bay whose charge, probe and backoff have ended (R8, R12, R98, R99). -/
def BayRec.ended (r : BayRec) : BayRec := { r with grant := 0, cleanTimer := none, backoff := .stopped, probe := none }

theorem moved_disabled (r : BayRec) : r.moved .disabled =
    { r.ended with state := .disabled, invalidRun := if r.state = .charging then 0 else r.invalidRun } := by
  simp [BayRec.moved, BayRec.ended]

theorem moved_empty {r : BayRec} (h : r.state ≠ .charging) : r.moved .empty = { r.ended with state := .empty } := by
  simp [BayRec.moved, BayRec.ended, h]

theorem probed_eq {r : BayRec} (h : r.state ≠ .charging) (now : Nat) :
    (r.moved .qualifying).newProbe now =
      { r.ended with state := .qualifying, probe := some ⟨r.probes, now⟩, probes := r.probes + 1 } := by
  simp [BayRec.moved, BayRec.newProbe, BayRec.ended, h]

theorem setBay_same (s : State) (b : Bay) : s.setBay b (s.bay b) = s := by
  simp [State.setBay, State.bay]

theorem disableBay_pass (b : Bay) (s : State) :
    OnlyPass (s.setBay b (if (s.bay b).state = .disabled then s.bay b else (s.bay b).moved .disabled)) (disableBay b s) := by
  unfold disableBay
  split
  · rw [setBay_same]; exact .refl s
  · exact reportChange_pass _ _ _ _

theorem enableBay_pass (b : Bay) (s : State) :
    OnlyPass (s.setBay b
      (if (s.bay b).state ≠ .disabled then s.bay b
        else if (s.bay b).presence then ((s.bay b).moved .qualifying).newProbe s.time.ms
        else (s.bay b).moved .empty)) (enableBay b s) := by
  unfold enableBay
  by_cases off : (s.bay b).state = .disabled
  · rw [if_pos off, if_neg (not_not_intro off)]
    split
    · exact reportChange_pass _ _ _ _
    · exact reportChange_pass _ _ _ _
  · rw [if_neg off, if_pos off, setBay_same]
    exact .refl s

/-- A reported change of bay state leaves the bay records as they were written. -/
theorem bay_reportChange (b : Bay) (o n : BayState) (s : State) (c : Bay) : (reportChange b o n s).bay c = s.bay c :=
  (reportChange_work b o n s).bay c

theorem bay_changeBay (b : Bay) (new : BayState) (s : State) : (changeBay b new s).bay b = (s.bay b).moved new := by
  rw [changeBay, bay_reportChange, bay_setBay_self]

theorem bay_enterQualifying (b : Bay) (s : State) :
    (enterQualifying b s).bay b = ((s.bay b).moved .qualifying).newProbe s.time.ms := by
  rw [enterQualifying, bay_reportChange, bay_setBay_self]

theorem bay_disableBay (b : Bay) (s : State) : ((disableBay b s).bay b).state = .disabled := by
  unfold disableBay
  split
  · assumption
  · rw [bay_changeBay]; rfl

theorem bay_enableBay (b : Bay) (s : State) : (enableBay b s).bay b =
    if (s.bay b).state ≠ .disabled then s.bay b
    else if (s.bay b).presence then ((s.bay b).moved .qualifying).newProbe s.time.ms
    else (s.bay b).moved .empty := by
  unfold enableBay
  by_cases off : (s.bay b).state = .disabled
  · rw [if_pos off, if_neg (not_not_intro off)]
    split
    · exact bay_enterQualifying b s
    · exact bay_changeBay b _ s
  · rw [if_neg off, if_pos off]

theorem disableBay_dismissed {b : Bay} {s : State} (elig : (s.bay b).state.eligible = true) :
    Dismissed b (disableBay b s) := by
  have on : (s.bay b).state ≠ .disabled := fun h => by simp [h, BayState.eligible] at elig
  rw [disableBay, if_neg on]
  exact reportChange_dismissed (congrArg BayRec.state (bay_setBay_self s b _)) elig rfl

/-! ### FAULT-CLEAR -/

theorem setBay_setBay (s : State) (b : Bay) (r r' : BayRec) : (s.setBay b r).setBay b r' = s.setBay b r' := by
  simp [State.setBay]

/-- R101: the bay record after a FAULT-CLEAR. -/
def BayRec.faultCleared (r : BayRec) (now : Nat) : BayRec :=
  let r := { r with retries := 0, lastFault := none }
  if r.state = .hold ∨ (r.state = .latched ∧ r.presence = true) then (r.moved .qualifying).newProbe now
  else if r.state = .latched then r.moved .empty
  else r

/-- R101: a FAULT-CLEAR writes the record, and what it does besides is what a report does. -/
theorem clearFault_cases (b : Bay) (s : State) :
    OnlyPass (s.setBay b ((s.bay b).faultCleared s.time.ms)) (clearFault b s) ∧
      (clearFault b s).bay b = (s.bay b).faultCleared s.time.ms := by
  have enters : ∀ r : BayRec, OnlyPass (s.setBay b ((r.moved .qualifying).newProbe s.time.ms))
      (enterQualifying b (s.setBay b r)) ∧
      (enterQualifying b (s.setBay b r)).bay b = (r.moved .qualifying).newProbe s.time.ms := fun r => by
    refine ⟨?_, by rw [bay_enterQualifying, bay_setBay_self]; rfl⟩
    have pass := reportChange_pass b r.state .qualifying
      ((s.setBay b r).setBay b ((r.moved .qualifying).newProbe s.time.ms))
    rw [setBay_setBay] at pass
    simpa only [enterQualifying, bay_setBay_self, setBay_setBay, setBay_time] using pass
  have empties : ∀ r : BayRec, OnlyPass (s.setBay b (r.moved .empty)) (changeBay b .empty (s.setBay b r)) ∧
      (changeBay b .empty (s.setBay b r)).bay b = r.moved .empty := fun r => by
    refine ⟨?_, by rw [bay_changeBay, bay_setBay_self]⟩
    have pass := reportChange_pass b r.state .empty ((s.setBay b r).setBay b (r.moved .empty))
    rw [setBay_setBay] at pass
    simpa only [changeBay, bay_setBay_self, setBay_setBay] using pass
  cases st : (s.bay b).state
  case latched =>
    cases pres : (s.bay b).presence
    · simp only [clearFault, BayRec.faultCleared, bay_setBay_self, st, pres]
      exact empties _
    · simp only [clearFault, BayRec.faultCleared, bay_setBay_self, st, pres]
      exact enters _
  case hold =>
    simp only [clearFault, BayRec.faultCleared, bay_setBay_self, st]
    exact enters _
  all_goals
    simp only [clearFault, BayRec.faultCleared, bay_setBay_self, st]
    exact ⟨.refl _, by simp⟩

theorem faultCleared_eq (r : BayRec) (now : Nat) : r.faultCleared now =
    let r := { r with retries := 0, lastFault := none }
    if r.state = .hold ∨ (r.state = .latched ∧ r.presence = true) then
      { r.ended with state := .qualifying, probe := some ⟨r.probes, now⟩, probes := r.probes + 1 }
    else if r.state = .latched then { r.ended with state := .empty }
    else r := by
  simp only [BayRec.faultCleared]
  split
  · rename_i h
    refine probed_eq ?_ now
    rintro (charging : r.state = .charging)
    simp [charging] at h
  split
  · rename_i h
    refine moved_empty ?_
    rintro (charging : r.state = .charging)
    simp [charging] at h
  · rfl

/-- Settles O29: each of the three requests writes one bay record, reports the change and answers with the state. -/
theorem bayEnableAndFaultClearMoveTheBay : Obligations.BayEnableAndFaultClearMoveTheBay := by
  refine ⟨fun tag bay s free => ⟨fun none => ⟨next_request free ?_, next_request free ?_⟩, fun b named => ⟨?_, ?_⟩⟩,
    fun tag bay s free => ⟨fun none => next_request free ?_, fun b named => ?_⟩⟩
  · rw [takeBayEnableOff, none]; rfl
  · rw [takeBayEnableOn, none]; rfl
  · have taken : takeBayEnableOff tag bay s = finish ((disableBay b s).answer 0x94 tag [0x00, 6]) := by
      simp only [takeBayEnableOff, named, bay_disableBay]
      rfl
    have pass := disableBay_pass b s
    refine ⟨_, next_request free taken, ?_, fun elig est => ?_⟩
    · rw [moved_disabled] at pass
      exact finish_answer_pass pass _ _ _
    · have asked := (disableBay_dismissed elig).asked
      exact (finish_last (s := (disableBay b s).answer 0x94 tag [0x00, 6]) asked (pass.established.trans est)).trans
        (congrArg some pass.computed)
  · have taken : takeBayEnableOn tag bay s =
        finish ((enableBay b s).answer 0x94 tag [0x00, ((enableBay b s).bay b).state.code]) := by
      simp only [takeBayEnableOn, named]
      rfl
    have pass := enableBay_pass b s
    rw [bay_enableBay] at taken
    by_cases off : (s.bay b).state = .disabled
    · have charging : (s.bay b).state ≠ .charging := by rw [off]; decide
      rw [probed_eq charging, moved_empty charging] at taken pass
      exact ⟨_, next_request free taken, finish_answer_pass pass _ _ _⟩
    · simp only [ne_eq, off, not_false_eq_true, if_true] at taken pass ⊢
      exact ⟨_, next_request free taken, finish_answer_pass pass _ _ _⟩
  · rw [takeFaultClear, none]; rfl
  · obtain ⟨pass, record⟩ := clearFault_cases b s
    have taken : takeFaultClear tag bay s =
        finish ((clearFault b s).answer 0x97 tag [0x00, bay, ((clearFault b s).bay b).state.code]) := by
      simp only [takeFaultClear, named]
      rfl
    rw [record] at taken
    rw [faultCleared_eq] at taken pass
    exact ⟨_, next_request free taken, finish_answer_pass pass _ _ _⟩

end Sys2Proof.Machine
end

