-- ==== Sys2Proof/Proofs/ServedWork.lean ====
section
/-! PROOF. What an assignment run leaves (R157), and the work that leaves it so. -/

namespace Sys2Proof.Machine

/-! ### Eligibility of an entry -/

theorem reservedNow_eq_false_iff (s : State) (b : Bay) :
    s.reservedNow b = false ↔ ∀ r, (s.cust b).reservation = some r → r.within = false := by
  unfold State.reservedNow
  split <;> simp [*]

theorem eligibleEntry_iff (s : State) (e : Entry) : eligibleEntry s e = true ↔ EntryEligible s e := by
  simp only [eligibleEntry, decide_eq_true_eq, EntryEligible, reservedNow_eq_false_iff, State.laneLevel]

/-- What the eligibility of an entry reads of a state (R156). -/
def entryView (s : State) (b : Bay) :=
  ((s.bay b).state, (s.bay b).dataLine, (s.chg b).target, s.laneLevel b, (s.latch b).state, s.pendingMotion b,
    (s.cust b).reservation, s.link.mode)

theorem entryEligible_congr {s t : State} {e : Entry} (h : entryView t e.bay = entryView s e.bay) :
    EntryEligible t e ↔ EntryEligible s e := by
  simp only [entryView, Prod.mk.injEq, State.laneLevel] at h
  obtain ⟨state, line, target, level, latch, motion, reservation, mode⟩ := h
  simp only [EntryEligible, state, line, target, level, latch, motion, reservation, mode]

/-! ### The end of an assignment run -/

theorem oldest_eq_none {l : List Entry} (h : oldest l = none) : l = [] := by
  cases l with
  | nil => rfl
  | cons x xs =>
    unfold oldest at h
    split at h
    · cases h
    · split at h <;> cases h

theorem classCandidate_none {s : State} {c : ProvClass} (h : classCandidate s c = none) :
    ∀ e ∈ s.prov.queue, EntryEligible s e → e.cls ≠ c := by
  intro e mem ok cls
  have empty := oldest_eq_none h
  simp only [List.filter_eq_nil_iff, decide_eq_true_eq] at empty
  exact empty e mem ⟨cls, (eligibleEntry_iff s e).2 ok⟩

/-- R157: the slots that a search without result has tried. -/
theorem searchFrom_none {s : State} {n p : Nat} (slot : p < s.prov.slots.length) (h : searchFrom s n p = none) :
    ∀ k < n, ∀ c, s.prov.slots[(p + k) % s.prov.slots.length]? = some c → classCandidate s c = none := by
  induction n generalizing p with
  | zero => intro k lt; omega
  | succ n ih =>
    intro k lt c at_
    unfold searchFrom at h
    rw [List.getElem?_eq_getElem slot] at h
    dsimp only at h
    split at h
    · cases h
    · rename_i none
      cases k with
      | zero =>
        rw [Nat.add_zero, Nat.mod_eq_of_lt slot, List.getElem?_eq_getElem slot, Option.some.injEq] at at_
        rwa [at_] at none
      | succ k =>
        refine ih (Nat.mod_lt _ (by omega)) h k (by omega) c ?_
        have same : ((p + 1) % s.prov.slots.length + k) % s.prov.slots.length = (p + (k + 1)) % s.prov.slots.length := by
          rw [Nat.mod_add_mod]
          congr 1
          omega
        rwa [same]

theorem search_none {s : State} (slot : SlotLaw s) (h : search s = none) {c : ProvClass} (mem : c ∈ s.prov.slots) :
    classCandidate s c = none := by
  obtain ⟨j, lt, rfl⟩ := List.getElem_of_mem mem
  have slot' : s.prov.pointer < s.prov.slots.length := slot
  refine searchFrom_none slot' h ((j + s.prov.slots.length - s.prov.pointer) % s.prov.slots.length)
    (Nat.mod_lt _ (by omega)) _ ?_
  have back : (s.prov.pointer + (j + s.prov.slots.length - s.prov.pointer) % s.prov.slots.length) %
      s.prov.slots.length = j := by
    rw [Nat.add_mod_mod, Nat.add_sub_cancel' (by omega), Nat.add_mod_right, Nat.mod_eq_of_lt lt]
  rw [back, List.getElem?_eq_getElem lt]

/-- An assignment run frees no lane. -/
theorem assignLanes_taken {ls : List Lane} {s : State} {m : Lane} (h : (s.lane m).state ≠ .free) :
    ((assignLanes ls s).lane m).state ≠ .free := by
  induction ls generalizing s with
  | nil => exact h
  | cons l ls ih =>
    unfold assignLanes
    split
    · split
      · exact h
      · refine ih ?_
        simp only [takeEntry, lane_setLane]
        split
        · simp
        · exact h
    · exact ih h

theorem assignLanes_ends {ls : List Lane} {s : State} (slot : SlotLaw s) :
    SlotLaw (assignLanes ls s) ∧
      ((∀ l ∈ ls, ((assignLanes ls s).lane l).state ≠ .free) ∨ search (assignLanes ls s) = none) := by
  induction ls generalizing s with
  | nil => exact ⟨slot, .inl (by simp)⟩
  | cons l ls ih =>
    unfold assignLanes
    split
    · split
      · exact ⟨slot, .inr ‹_›⟩
      · rename_i e p found
        have slot' : SlotLaw (takeEntry l e p s) := (searchFrom_some found).2.2
        refine ⟨(ih slot').1, (ih slot').2.imp_left fun rest m mem => ?_⟩
        rcases List.mem_cons.1 mem with rfl | mem
        · exact assignLanes_taken (by simp [takeEntry])
        · exact rest m mem
    · rename_i busy
      refine ⟨(ih slot).1, (ih slot).2.imp_left fun rest m mem => ?_⟩
      rcases List.mem_cons.1 mem with rfl | mem
      · exact assignLanes_taken busy
      · exact rest m mem

/-- R157: an assignment run leaves no lane FREE while an entry of a class in the slot table is eligible. -/
theorem assignmentRun_served {s : State} (slot : SlotLaw s) : LanesServed (assignmentRun s) := by
  obtain ⟨slot', ends⟩ := assignLanes_ends (ls := allLanes) slot
  refine ends.imp (fun busy l => busy l (mem_allLanes l)) fun none e mem ok cls => ?_
  exact classCandidate_none (search_none slot' none cls) e mem ok rfl

/-! ### Work that leaves the lanes served -/

/-- Work that keeps the slot pointer in the table and leaves served lanes served. -/
structure ServedWork (s t : State) : Prop where
  slot : SlotLaw s → SlotLaw t
  served : SlotLaw s → LanesServed s → LanesServed t

theorem ServedWork.refl (s : State) : ServedWork s s := ⟨id, fun _ => id⟩

theorem ServedWork.trans {s t u : State} (h : ServedWork s t) (h' : ServedWork t u) : ServedWork s u :=
  ⟨h'.slot ∘ h.slot, fun slot served => h'.served (h.slot slot) (h.served slot served)⟩

/-- Work that frees no lane and makes no entry eligible. -/
theorem ServedWork.of_fewer {s t : State} (slots : t.prov.slots = s.prov.slots) (pointer : t.prov.pointer = s.prov.pointer)
    (free : ∀ l, (t.lane l).state = .free → (s.lane l).state = .free)
    (queue : ∀ e ∈ t.prov.queue, EntryEligible t e → e ∈ s.prov.queue ∧ EntryEligible s e) : ServedWork s t := by
  refine ⟨by simp only [SlotLaw, slots, pointer]; exact id, fun _ served => ?_⟩
  refine served.imp (fun busy l now => busy l (free l now)) fun idle e mem ok => ?_
  obtain ⟨mem', ok'⟩ := queue e mem ok
  rw [slots]
  exact idle e mem' ok'

/-- Work on other fields than those that eligibility and the lanes read. -/
theorem ServedWork.of_view {s t : State} (lanes : t.lanes = s.lanes) (prov : t.prov = s.prov)
    (view : ∀ b, entryView t b = entryView s b) : ServedWork s t := by
  refine .of_fewer (by rw [prov]) (by rw [prov]) (fun l => by simp only [State.lane, lanes]; exact id) fun e mem ok => ?_
  exact ⟨by rwa [prov] at mem, (entryEligible_congr (view e.bay)).1 ok⟩

/-- Work that ends in an assignment run. -/
theorem ServedWork.of_run {s t : State} (h : SlotLaw s → SlotLaw t) : ServedWork s (assignmentRun t) :=
  ⟨fun slot => (assignLanes_ends (h slot)).1, fun slot _ => assignmentRun_served (h slot)⟩

theorem release_servedWork (l : Lane) (c : ReleaseCause) (s : State) : ServedWork s (release l c s) := by
  cases held : (s.lane l).state.held with
  | none => simpa [release, held] using ServedWork.refl s
  | some e =>
    rw [release_eq c held]
    exact .of_run ((letGo_work c held).trans (releaseNotices_work l c e _)).slot

theorem note_servedWork (k : NoticeKind) (b d1 d2 d3 d4 : Byte) (s : State) : ServedWork s (note k b d1 d2 d3 d4 s) :=
  .of_view rfl rfl fun c => by simp [entryView, State.laneLevel, State.pendingMotion, State.profile, note]

theorem removeQueued_servedWork (b : Bay) (r : Byte) (s : State) : ServedWork s (removeQueued b r s) := by
  unfold removeQueued
  split
  · exact .refl s
  · refine ServedWork.trans (t := s.setQueue (dropEntry b s.prov.queue))
      (.of_fewer rfl rfl (fun _ => id) fun e mem ok => ?_) (note_servedWork _ _ _ _ _ _ _)
    exact ⟨(List.mem_filter.1 mem).1, ok⟩

theorem schedChange_servedWork (b : Bay) (o n : BayState) (s : State) : ServedWork s (schedChange b o n s) := by
  have first : ServedWork s
      (if o = .charging ∧ n ≠ .charging then
        match s.laneOf b with
        | some l => release l (causeOfState n) s
        | none => if n = .empty then removeQueued b 1 s else s
      else s) := by
    refine ite_touch .refl ?_
    split
    · exact release_servedWork _ _ _
    · exact ite_touch .refl (removeQueued_servedWork _ _ _)
  exact first.trans (ite_touch .refl (removeQueued_servedWork _ _ _))

theorem schedDetach_servedWork (b : Bay) (s : State) : ServedWork s (schedDetach b s) := by
  unfold schedDetach
  split
  · exact release_servedWork _ _ _
  · exact removeQueued_servedWork _ _ _

/-- The Allocator's record of one bay changes; the bay is in no state to be assigned, or its target and profile are left. -/
theorem setChg_servedWork (s : State) (b : Bay) (r : ChargeRec)
    (h : (s.bay b).state ≠ .charging ∨ (r.target = (s.chg b).target ∧ r.profile = (s.chg b).profile)) :
    ServedWork s (s.setChg b r) := by
  refine .of_fewer rfl rfl (fun _ => id) fun e mem ok => ⟨mem, ?_⟩
  by_cases at_ : e.bay = b
  · rcases h with out | ⟨target, profile⟩
    · exact absurd (at_ ▸ ok.1) out
    · refine (entryEligible_congr ?_).1 ok
      simp [entryView, State.laneLevel, State.pendingMotion, State.profile, at_, target, profile]
  · refine (entryEligible_congr ?_).1 ok
    simp [entryView, State.laneLevel, State.pendingMotion, State.profile, at_]

theorem askPass_servedWork (s : State) : ServedWork s (askPass s) := .of_view rfl rfl fun _ => rfl

/-- R163: a bay that has left CHARGING is reported. -/
theorem reportChange_servedWork {b : Bay} {o n : BayState} {s : State} (now : (s.bay b).state ≠ .charging) :
    ServedWork s (reportChange b o n s) := by
  by_cases same : o = n
  · rw [reportChange, if_pos same]
    exact .refl s
  rw [reportChange_ne s same]
  refine ServedWork.trans ?_ (schedChange_servedWork b o n _)
  by_cases elig : o.eligible = n.eligible
  · rw [allocChange_stays elig]
    exact setChg_servedWork s b _ (.inl now)
  cases before : o.eligible with
  | false =>
    rw [allocChange_enters before (by simpa [before] using elig)]
    exact (setChg_servedWork s b _ (.inl now)).trans (askPass_servedWork _)
  | true =>
    rw [allocChange_leaves before (by simpa [before] using elig)]
    exact (setChg_servedWork s b _ (.inl now)).trans (askPass_servedWork _)

/-! ### The passes -/

/-- Work that keeps the slot pointer in the table. -/
structure SlotKept (s t : State) : Prop where
  kept : SlotLaw s → SlotLaw t

theorem SlotKept.of_prov {s t : State} (h : t.prov = s.prov) : SlotKept s t := ⟨by simp only [SlotLaw, h]; exact id⟩

theorem SlotKept.refl (s : State) : SlotKept s s := ⟨id⟩

theorem SlotKept.trans {s t u : State} (h : SlotKept s t) (h' : SlotKept t u) : SlotKept s u := ⟨h'.kept ∘ h.kept⟩

theorem LaneWork.slotKept {s t : State} (h : LaneWork s t) : SlotKept s t := ⟨h.slot⟩

theorem eachBay_slotKept {f : Bay → State → State} (h : ∀ b s, SlotKept s (f b s)) (s : State) :
    SlotKept s (eachBay f s) := eachBay_rel .refl .trans h s

theorem setTimer_slotKept (s : State) (t : Timer) : SlotKept s { s with alloc := { s.alloc with settleTimer := t } } :=
  .of_prov rfl

theorem supersede_slotKept (s : State) : SlotKept s (supersede s) := by
  unfold supersede
  refine (setTimer_slotKept s none).trans (eachBay_slotKept (fun b s => ?_) _)
  exact .of_prov rfl

theorem storeTargets_slotKept (xs : List Share) (s : State) : SlotKept s (storeTargets xs s) := by
  refine eachBay_slotKept (fun b s => ?_) s
  split
  · exact .of_prov rfl
  · exact .refl s

theorem markBudget_slotKept (s : State) : SlotKept s (markBudget s) := by
  unfold markBudget
  dsimp only
  split
  · exact .of_prov rfl
  · exact .of_prov rfl

theorem markRemainder_slotKept (r : Nat) (s : State) : SlotKept s (markRemainder r s) := .of_prov rfl

theorem applyTarget_slotKept (b : Bay) (t : Nat) (s : State) : SlotKept s (applyTarget b t s) := by
  unfold applyTarget
  dsimp only
  split
  · exact .of_prov rfl
  split
  · refine SlotKept.trans ?_ (schedChange_work b .charging .waiting _).slotKept
    exact .of_prov rfl
  split
  · exact .of_prov rfl
  · exact .refl s

theorem applyTargets_slotKept (xs : List Share) (s : State) : SlotKept s (applyTargets xs s) := by
  refine eachBay_slotKept (fun b s => ?_) s
  split
  · exact applyTarget_slotKept b _ s
  · exact .refl s

theorem applyIncreases_slotKept (s : State) : SlotKept s (applyIncreases s) := by
  refine eachBay_slotKept (fun b s => ?_) s
  unfold applyIncrease
  split
  · exact .refl s
  · dsimp only
    split
    · exact .of_prov rfl
    · exact .of_prov rfl

theorem recordIncrease_slotKept (b : Bay) (s : State) : SlotKept s (recordIncrease b s) := by
  refine ite_touch .refl ?_
  exact .of_prov rfl

theorem stageIncreases_slotKept (lowered : Bool) (s : State) : SlotKept s (stageIncreases lowered s) := by
  unfold stageIncreases
  refine (eachBay_slotKept recordIncrease_slotKept s).trans ?_
  split
  · exact setTimer_slotKept _ _
  · exact applyIncreases_slotKept _

/-- R164: a pass keeps the slot pointer in the table up to its result at the Scheduler, where an assignment run ends it. -/
theorem runPass_servedWork (s : State) : ServedWork s (runPass s) := by
  rw [runPass_eq]
  refine .of_run (SlotKept.kept ?_)
  refine SlotKept.trans ?_ (eachLane_rel .refl .trans powerTest_work _).slotKept
  refine SlotKept.trans ?_ (countHolds_work _ _).slotKept
  refine SlotKept.trans ?_ (stageIncreases_slotKept _ _)
  refine SlotKept.trans ?_ (applyTargets_slotKept _ _)
  refine SlotKept.trans ?_ (markRemainder_slotKept _ _)
  refine SlotKept.trans ?_ (markBudget_slotKept _)
  exact (supersede_slotKept s).trans (storeTargets_slotKept _ _)

/-- The application of the increases leaves the targets and the bay states. -/
theorem applyIncreases_servedWork (s : State) : ServedWork s (applyIncreases s) := by
  refine eachBay_rel .refl .trans (fun b s => ?_) s
  unfold applyIncrease
  split
  · exact .refl s
  · refine ServedWork.trans (ite_touch .refl ?_) (setChg_servedWork _ b _ (.inr ⟨rfl, rfl⟩))
    refine .of_view rfl rfl fun c => ?_
    simp only [entryView, State.laneLevel, State.pendingMotion, State.profile, bay_setBay]
    split
    · subst_vars; rfl
    · rfl

theorem setTimer_servedWork (s : State) (t : Timer) :
    ServedWork s { s with alloc := { s.alloc with settleTimer := t } } := .of_view rfl rfl fun _ => rfl

theorem settleIfDue_servedWork (s : State) : ServedWork s (settleIfDue s) := by
  refine ite_touch .refl ?_
  unfold settleExpires
  split
  · exact .refl s
  · exact (applyIncreases_servedWork s).trans (setTimer_servedWork _ none)

theorem setAsked_servedWork (s : State) (asked : Bool) :
    ServedWork s { s with alloc := { s.alloc with passAsked := asked } } := .of_view rfl rfl fun _ => rfl

theorem runAsked_servedWork (s : State) : ServedWork s (runAsked s) := by
  unfold runAsked
  dsimp only
  split
  · exact ((setAsked_servedWork s false).trans (runPass_servedWork _)).trans (settleIfDue_servedWork _)
  · exact setAsked_servedWork s false

theorem retier_servedWork (b : Bay) (s : State) : ServedWork s (retier b s) := by
  refine ite_touch .refl ?_
  exact (setChg_servedWork s b { s.chg b with tier := s.tierOf b } (.inr ⟨rfl, rfl⟩)).trans (askPass_servedWork _)

theorem retierAll_servedWork (s : State) : ServedWork s (retierAll s) := eachBay_rel .refl .trans retier_servedWork s

theorem settle_servedWork (n : Nat) (s : State) : ServedWork s (settle n s) := by
  induction n generalizing s with
  | zero => exact retierAll_servedWork s
  | succ n ih =>
    rw [settle_succ]
    split
    · exact ((retierAll_servedWork s).trans (runAsked_servedWork _)).trans (ih _)
    · exact retierAll_servedWork s

theorem finish_servedWork (s : State) : ServedWork s (finish s) := settle_servedWork _ s

end Sys2Proof.Machine
end

