-- ==== Sys2Proof/Proofs/Seating.lean ====
section
/-! PROOF. What an attach and a detach do at the bay, the custody record and the Allocator. -/

namespace Sys2Proof.Machine

/-! ### The round counters after a report and the passes -/

/-- R86: the five round counters of a bay stand at 0. -/
def ZeroCounts (b : Bay) (s : State) : Prop := roundCounts (s.chg b) = [0, 0, 0, 0, 0]

/-- R86: a change of bay state leaves the counters or, out of CHARGING, sets them to 0. -/
theorem reportChange_counts (b : Bay) (o n : BayState) (s : State) :
    roundCounts ((reportChange b o n s).chg b) =
      if o = .charging ∧ n ≠ .charging then [0, 0, 0, 0, 0] else roundCounts (s.chg b) := by
  have left : roundCounts ((s.chg b).leaving o n) =
      if o = .charging ∧ n ≠ .charging then [0, 0, 0, 0, 0] else roundCounts (s.chg b) := by
    unfold ChargeRec.leaving
    split <;> rfl
  by_cases same : o = n
  · have stays : ¬ (o = .charging ∧ n ≠ .charging) := fun h => h.2 (same ▸ h.1)
    rw [reportChange, if_pos same, if_neg stays]
  have lanes := schedChange_touch b o n (allocChange b o n s)
  rw [reportChange_ne s same, State.chg, lanes.charge, ← left]
  by_cases elig : o.eligible = n.eligible
  · rw [allocChange_stays elig]
    exact congrArg roundCounts (chg_setChg_self s b _)
  cases before : o.eligible with
  | false =>
    rw [allocChange_enters before (by simpa [before] using elig)]
    exact (congrArg roundCounts (chg_setChg_self s b _)).trans rfl
  | true =>
    rw [allocChange_leaves before (by simpa [before] using elig)]
    exact (congrArg roundCounts (chg_setChg_self s b _)).trans rfl

theorem ZeroCounts.reportChange {b : Bay} {s : State} (h : ZeroCounts b s) (o n : BayState) :
    ZeroCounts b (reportChange b o n s) := by
  rw [ZeroCounts, reportChange_counts]
  split
  · rfl
  · exact h

theorem PassWork.zeroCounts {b : Bay} {s t : State} (w : PassWork s t) (h : ZeroCounts b s) : ZeroCounts b t :=
  (w.counts b).elim (·.trans h) And.left

/-! ### The attach -/

/-- R130: the custody record after an attach. -/
def CustodyRec.attached (c : CustodyRec) : CustodyRec :=
  match c.status with
  | .out _ => { c with status := .inCart, purpose := purposeAfterAttach c.purpose }
  | _ => { c with status := .inCart }

/-- R130, R148: the notice of a return. -/
def returnNotices (b : Bay) (s : State) : List Notice :=
  match (s.cust b).status with
  | .out o =>
    [⟨.returned, bayNumber b, s.time.minute, hiByte o.holder, loByte o.holder, flagByte (lateFlag s.time.minute o),
      latchCode (s.latch b).state⟩]
  | _ => []

theorem setCust_same (s : State) (b : Bay) : s.setCust b (s.cust b) = s := by
  simp [State.setCust, State.cust]

theorem custodyAttach_eq (b : Bay) (s : State) :
    custodyAttach b s = State.notices (s.setCust b (s.cust b).attached) (returnNotices b s) := by
  cases st : (s.cust b).status with
  | out o => simp [custodyAttach, CustodyRec.attached, returnNotices, st, note_notices]
  | inCart =>
    have same : (s.cust b).attached = s.cust b := by
      simp only [CustodyRec.attached, st]
      rw [← st]
    simp only [custodyAttach, returnNotices, st, same, setCust_same]
    rfl
  | vacant => simp only [custodyAttach, CustodyRec.attached, returnNotices, st]; rfl
  | taken => simp only [custodyAttach, CustodyRec.attached, returnNotices, st]; rfl

theorem lateFlag_iff (now : Word16) (o : OutRec) : lateFlag now o = true ↔
    (o.overdueReported = true ∨ ∃ due, o.due = some due ∧ past now due = true) := by
  unfold lateFlag
  cases o.due <;> simp

/-- R3, R8: the bay record after an attach. -/
theorem attached_eq (r : BayRec) (now : Nat) : r.attached now =
    let seated := { r with presence := true, attachRun := 0, energy := 0, residue := 0, dataLine := .clear }
    if r.state = .empty then
      { seated with
        state := .qualifying, grant := 0, cleanTimer := none, backoff := .stopped
        probe := some ⟨r.probes, now⟩, probes := r.probes + 1 }
    else seated := by
  unfold BayRec.attached
  dsimp only
  split
  · rename_i h
    exact probed_eq (by dsimp only; rw [h]; decide) now
  · rfl

/-- The state in which the change of bay state of an attach is reported. -/
def seatedState (b : Bay) (s : State) : State :=
  State.notices
    { s with
      bays := s.bays.set b ((s.bay b).attached s.time.ms), custody := s.custody.set b (s.cust b).attached
      charge := s.charge.set b { (s.chg b).zeroCounts with phase := .bulk, dynCeiling := (s.profile b).ceiling }
      pins := { s.pins with signature := s.pins.signature.set b true } }
    (⟨.attached, bayNumber b, s.time.minute, ((s.bay b).attached s.time.ms).state.code, 0, 0, 0⟩ :: returnNotices b s)

theorem attach_eq (b : Bay) (s : State) : attach b (setSignature b true s) =
    finish (reportChange b (s.bay b).state ((s.bay b).attached s.time.ms).state (seatedState b s)) := by
  have custody := custodyAttach_eq b (note .attached (bayNumber b) ((s.bay b).attached s.time.ms).state.code 0 0 0
    ((setSignature b true s).setBay b ((s.bay b).attached s.time.ms)))
  have reported : attach b (setSignature b true s) =
      finish (reportChange b (s.bay b).state ((s.bay b).attached s.time.ms).state
        (allocAttach b (custodyAttach b (note .attached (bayNumber b) ((s.bay b).attached s.time.ms).state.code 0 0 0
          ((setSignature b true s).setBay b ((s.bay b).attached s.time.ms)))))) := rfl
  rw [reported, custody]
  rfl

theorem seatedState_counts (b : Bay) (s : State) : ZeroCounts b (seatedState b s) := by
  have at_ : (seatedState b s).chg b =
      { (s.chg b).zeroCounts with phase := .bulk, dynCeiling := (s.profile b).ceiling } :=
    chg_setChg_self s b { (s.chg b).zeroCounts with phase := .bulk, dynCeiling := (s.profile b).ceiling }
  rw [ZeroCounts, at_]
  rfl

/-- Settles O24: the change of bay state is reported in `seatedState`, and passes follow. -/
theorem attachSeatsATablet : Obligations.AttachSeatsATablet := by
  intro b s free
  refine ⟨fun seated => next_live free (if_pos seated), fun gone => ?_⟩
  have taken : attachEvent b s = attach b (setSignature b true s) := if_neg (by simp [gone])
  refine ⟨_, next_live free (taken.trans (attach_eq b s)), ?_, ?_⟩
  · refine Eq.subst (motive := fun u => OnlyPass u _) ?_ (finish_report_pass b _ _ _)
    rw [seatedState, attached_eq]
    cases st : (s.cust b).status with
    | out o =>
      simp only [CustodyRec.attached, returnNotices, st, flagByte_eq, lateFlag_iff]
      rfl
    | _ =>
      simp only [CustodyRec.attached, returnNotices, st]
      rfl
  · exact (finish_passWork _).zeroCounts ((seatedState_counts b s).reportChange _ _)

/-! ### The detach -/

/-- R4, R92, R99: the bay record after a detach. -/
theorem detached_eq (r : BayRec) : r.detached =
    { r with
      presence := false, absenceRun := 0
      state := if r.state = .latched ∨ r.state = .disabled then r.state else .empty
      grant := 0, retries := 0, backoff := .stopped, probe := none, cleanTimer := none
      invalidRun := if r.state = .charging then 0 else r.invalidRun } := by
  cases st : r.state <;> simp [BayRec.detached, BayRec.moved, BayState.afterDetach, st]

theorem detached_outside (r : BayRec) : r.detached.state.eligible = false := by
  rw [detached_eq]
  cases r.state <;> rfl

/-- R131: the record and the notice of a tablet gone with no CHECKOUT and no SERVICE behind it. -/
def unlent (b : Bay) (s : State) : CustodyRec × List Notice :=
  match takenCause (s.latch b) with
  | some cause =>
    ({ s.cust b with status := .taken, reservation := none },
      [⟨.taken, bayNumber b, s.time.minute, cause, latchCode (s.latch b).state, groupByte (s.cust b).reservation, 0⟩])
  | none => (s.cust b, [⟨.detachedLocked, bayNumber b, s.time.minute, latchCode (s.latch b).state, 0, 0, 0⟩])

/-- R131: the custody record after a detach, with its notice. -/
def gone (b : Bay) (s : State) : CustodyRec × List Notice :=
  match (s.cust b).purpose with
  | some (.checkout holder _ due) =>
    ({ status := .out ⟨holder, s.time.minute, due, false⟩, reservation := none, purpose := none },
      [⟨.checkedOut, bayNumber b, s.time.minute, hiByte holder, loByte holder, hiByte (checkedOutDue s.time.minute due),
        loByte (checkedOutDue s.time.minute due)⟩])
  | some .service => ({ s.cust b with status := .vacant, reservation := none }, [])
  | some (.returning _) => unlent b s
  | none => unlent b s

/-- R138, R158: the end of a reservation is an assignment run, and no reservation is no work. -/
theorem endReservation_lanes (b : Bay) (s : State) :
    OnlyLanes (s.setCust b { s.cust b with reservation := none }) (endReservation b s) ∧
      ((s.cust b).reservation ≠ none → SlotLaw s → LanesServed (endReservation b s)) ∧
      (SlotLaw s → SlotLaw (endReservation b s)) := by
  unfold endReservation
  split
  · rename_i free
    have same : { s.cust b with reservation := none } = s.cust b := by rw [← free]
    rw [same, setCust_same]
    exact ⟨.refl s, fun some => absurd free some, id⟩
  · exact ⟨assignmentRun_touch _, fun _ slot => assignmentRun_served slot,
      fun slot => (assignmentRun_work (s.setCust b { s.cust b with reservation := none })).slot slot⟩

theorem setCust_setCust (s : State) (b : Bay) (r r' : CustodyRec) : (s.setCust b r).setCust b r' = s.setCust b r' := by
  simp [State.setCust]

/-- R131: a detach at the Custody Table writes the record, queues its notice and, where a reservation ends, runs
assignment. -/
theorem custodyDetach_lanes (b : Bay) (s : State) :
    OnlyLanes (State.notices (s.setCust b (gone b s).1) (gone b s).2) (custodyDetach b s) ∧
      ((s.cust b).reservation ≠ none → (gone b s).1.reservation = none → SlotLaw s → LanesServed (custodyDetach b s)) ∧
      (SlotLaw s → SlotLaw (custodyDetach b s)) := by
  have ends : ∀ (r : CustodyRec) (ns : List Notice), r.reservation = (s.cust b).reservation →
      OnlyLanes (State.notices (s.setCust b { r with reservation := none }) ns)
        (endReservation b (State.notices (s.setCust b r) ns)) ∧
      ((s.cust b).reservation ≠ none → { r with reservation := none }.reservation = none → SlotLaw s →
        LanesServed (endReservation b (State.notices (s.setCust b r) ns))) ∧
      (SlotLaw s → SlotLaw (endReservation b (State.notices (s.setCust b r) ns))) := fun r ns kept => by
    have at_ : (State.notices (s.setCust b r) ns).cust b = r := cust_setCust_self s b r
    have run := endReservation_lanes b (State.notices (s.setCust b r) ns)
    rw [at_, kept] at run
    obtain ⟨lanes, served, slot⟩ := run
    refine ⟨?_, fun some _ slot => served some slot, slot⟩
    have same : (State.notices (s.setCust b r) ns).setCust b { r with reservation := none } =
        State.notices (s.setCust b { r with reservation := none }) ns :=
      congrArg (State.notices · ns) (setCust_setCust s b r _)
    rwa [same] at lanes
  have unlent_ : OnlyLanes (State.notices (s.setCust b (unlent b s).1) (unlent b s).2) (goneUnlent b s) ∧
      ((s.cust b).reservation ≠ none → (unlent b s).1.reservation = none → SlotLaw s → LanesServed (goneUnlent b s)) ∧
      (SlotLaw s → SlotLaw (goneUnlent b s)) := by
    cases cause : takenCause (s.latch b) with
    | some cause_ =>
      rw [unlent, goneUnlent, cause]
      exact ends { s.cust b with status := .taken } [_] rfl
    | none =>
      rw [unlent, goneUnlent, cause, setCust_same]
      exact ⟨.refl _, fun some free => absurd free some, fun slot => slot⟩
  rcases p : (s.cust b).purpose with _ | ⟨holder, group, due⟩ | holder | _
  case some.checkout =>
    rw [custodyDetach_checkout p]
    rw [gone, p]
    exact ends { s.cust b with status := .out ⟨holder, s.time.minute, due, false⟩, purpose := none } [_] rfl
  case some.service =>
    rw [custodyDetach_service p]
    rw [gone, p]
    exact ends { s.cust b with status := .vacant } [] rfl
  all_goals
    rw [custodyDetach_unlent (by simp [p]) (by simp [p])]
    rw [gone, p]
    exact unlent_

/-- The state in which a detach is handed to the Custody Table. -/
def unseatedState (b : Bay) (s : State) : State :=
  State.notices
    { s with
      bays := s.bays.set b (s.bay b).detached, pins := { s.pins with signature := s.pins.signature.set b false } }
    [⟨.detached, bayNumber b, s.time.minute, (s.bay b).state.code, (s.bay b).detached.state.code,
      hiByte (word (energyReport (s.bay b).energy)), loByte (word (energyReport (s.bay b).energy))⟩]

theorem detach_eq (b : Bay) (s : State) : detach b (setSignature b false s) =
    finish (schedDetach b (reportChange b (s.bay b).state (s.bay b).detached.state
      (allocDetach b (custodyDetach b (unseatedState b s))))) := rfl

theorem gone_unseated (b : Bay) (s : State) : gone b (unseatedState b s) = gone b s := rfl

theorem takenCause_eq (l : LatchRec) : takenCause l =
    if l.state = some .forced then some 1
    else if l.state = some .opened ∨ (l.state = some .sensorFault ∧ l.door.level = some false) then some 2
    else none := by
  unfold takenCause
  rcases l.state with _ | st
  · simp
  · cases st <;> simp

theorem unseatedState_bay (b : Bay) (s : State) : (unseatedState b s).bay b = (s.bay b).detached :=
  bay_setBay_self s b _

theorem allocDetach_pass (b : Bay) (s : State) : OnlyPass s (allocDetach b s) := setChg_pass s b _ ⟨rfl, rfl, rfl⟩

theorem allocDetach_counts (b : Bay) (s : State) : ZeroCounts b (allocDetach b s) := by
  rw [ZeroCounts, allocDetach, chg_setChg_self]
  rfl

/-- What a detach hands on and brings with it, after the custody record and its notice. -/
structure DetachLeaves (b : Bay) (s t : State) : Prop where
  pass : OnlyPass (State.notices ((unseatedState b s).setCust b (gone b s).1) (gone b s).2) t
  served : (s.cust b).reservation ≠ none → (gone b s).1.reservation = none → SlotLaw s → LanesServed t
  counts : ZeroCounts b t
  dismissed : (s.bay b).state.eligible = true →
    (t.chg b).target = 0 ∧ (t.chg b).pendingInc = none ∧
      (s.budget.established = true → t.budget.lastPass = some s.budget.computed)

theorem detach_leaves (b : Bay) (s : State) : DetachLeaves b s (detach b (setSignature b false s)) := by
  obtain ⟨custody, served, slot⟩ := custodyDetach_lanes b (unseatedState b s)
  rw [gone_unseated] at custody served
  rw [detach_eq]
  generalize custodyDetach b (unseatedState b s) = u at custody served slot ⊢
  have record : (allocDetach b u).bay b = (s.bay b).detached := by
    rw [← unseatedState_bay b s, State.bay, State.bay, show (allocDetach b u).bays = u.bays from rfl, custody.bays]
    rfl
  have moved : ((allocDetach b u).bay b).state.eligible = false := by rw [record]; exact detached_outside _
  have report := reportChange_pass b (s.bay b).state (s.bay b).detached.state (allocDetach b u)
  have sched := schedDetach_touch b (reportChange b (s.bay b).state (s.bay b).detached.state (allocDetach b u))
  have all := (((custody.pass.trans (allocDetach_pass b u)).trans report).trans sched.pass)
  refine ⟨all.trans (finish_pass _), fun some ended slot_ => ?_, ?_, fun elig => ?_⟩
  · have out : ((allocDetach b u).bay b).state ≠ .charging := fun k => by simp [k, BayState.eligible] at moved
    have work := (setChg_servedWork u b (u.chg b).zeroCounts (.inr ⟨rfl, rfl⟩)).trans
      ((reportChange_servedWork (o := (s.bay b).state) (n := (s.bay b).detached.state) out).trans
        ((schedDetach_servedWork b _).trans (finish_servedWork _)))
    exact work.served (slot slot_) (served some ended slot_)
  · exact (finish_passWork _).zeroCounts (sched.passWork.zeroCounts ((allocDetach_counts b u).reportChange _ _))
  · have left := (reportChange_dismissed (congrArg BayRec.state record) elig (detached_outside _)).lanes sched
    obtain ⟨target, pending, last⟩ := left.finish
    rw [all.established, all.computed] at last
    exact ⟨target, pending, last⟩

theorem notices_notices (s : State) (n : Notice) (ns : List Notice) :
    State.notices (State.notices s [n]) ns = State.notices s (n :: ns) := rfl

/-- Settles O25: the custody record's part by its purpose and latch, the rest by what a detach leaves. -/
theorem detachTakesATablet : Obligations.DetachTakesATablet := by
  intro b s free
  refine ⟨fun gone => next_live free (if_neg (by simp [gone])), fun seated => ?_⟩
  obtain ⟨pass, served, counts, dismissed⟩ := detach_leaves b s
  simp only [ZeroCounts, roundCounts, List.cons.injEq, and_true] at counts
  obtain ⟨reclaim, press, taper, full, wake⟩ := counts
  refine ⟨_, next_live free (if_pos seated), ?_, ?_, reclaim, press, taper, full, wake, dismissed⟩
  · refine Eq.subst (motive := fun u => OnlyPass u _) ?_ pass
    rw [unseatedState, detached_eq, gone, unlent, takenCause_eq]
    dsimp only
    rcases p : (s.cust b).purpose with _ | ⟨holder, group, due⟩ | holder | _
    case some.checkout => rfl
    case some.service => rfl
    all_goals
      generalize (if (s.latch b).state = some .forced then some (1 : Byte)
        else if (s.latch b).state = some .opened ∨
          ((s.latch b).state = some .sensorFault ∧ (s.latch b).door.level = some false) then some 2
        else none) = cause
      cases cause <;> rfl
  · intro carried ended
    refine served carried ?_
    revert ended
    rw [gone, unlent, takenCause_eq]
    dsimp only
    rcases (s.cust b).purpose with _ | ⟨holder, group, due⟩ | holder | _
    case some.checkout => exact fun _ => rfl
    case some.service => exact fun _ => rfl
    all_goals
      generalize (if (s.latch b).state = some .forced then some (1 : Byte)
        else if (s.latch b).state = some .opened ∨
          ((s.latch b).state = some .sensorFault ∧ (s.latch b).door.level = some false) then some 2
        else none) = cause
      cases cause <;> exact id

end Sys2Proof.Machine
end

