-- ==== Sys2Proof/Proofs/ProfileMoves.lean ====
section
/-! PROOF. What PROFILE-SET and BAY-PROFILE do to the bays that use a profile. -/

namespace Sys2Proof.Machine

/-! ### The profile and its ceiling -/

theorem profileOf_none {n : Byte} (h : 7 < n.toNat) : profileOf n = none := dif_neg (by omega)

theorem profileOf_some {n : Byte} {i : Fin 8} (h : i.val = n.toNat) : profileOf n = some i := by
  have lt : n.toNat < 8 := h ▸ i.isLt
  rw [profileOf, dif_pos lt]
  exact congrArg some (Fin.ext h.symm)

theorem clamp_zero (hi v : Nat) : clamp 0 hi v = min hi v := Nat.zero_max _

theorem clampProfile_eq (p : Profile) : clampProfile p =
    { floor := min (max 1 (min 160 p.ceiling)) (min 160 p.floor), ceiling := max 1 (min 160 p.ceiling)
      maintenance := min 40 p.maintenance, taper := min 160 p.taper, full := min 40 p.full
      readiness := min 1000 p.readiness } := by
  simp only [clampProfile, clamp_zero]
  rfl

theorem doneOr_code (changed : Prop) [Decidable changed] :
    (doneOr changed).code = if changed then 0x02 else 0x00 := by
  by_cases h : changed <;> simp [doneOr, Result.code, h]

/-! ### The bays that use a profile -/

/-- R76: the records of the bays that use profile `i`, its ceiling now at `new`. -/
def followedCharge (i : Fin 8) (old new : Nat) (c : ChargeRec) : ChargeRec :=
  if c.profile = i then { c with dynCeiling := followCeiling old new c.dynCeiling } else c

def followedBay (i : Fin 8) (new : Nat) (c : ChargeRec) (r : BayRec) : BayRec :=
  if c.profile = i then { r with grant := min new r.grant } else r

theorem setChg_same (s : State) (b : Bay) : s.setChg b (s.chg b) = s := by
  simp [State.setChg, State.chg]

/-- R76: one bay follows; the profile has its new ceiling already. -/
theorem followProfile_eq (i : Fin 8) (old : Nat) (b : Bay) (s : State) :
    followProfile i old b s =
      (s.setChg b (followedCharge i old s.alloc.profiles[i].ceiling (s.chg b))).setBay b
        (followedBay i s.alloc.profiles[i].ceiling (s.chg b) (s.bay b)) := by
  unfold followProfile followedCharge followedBay
  by_cases uses : (s.chg b).profile = i
  · rw [if_pos uses, if_pos uses, if_pos uses]
    simp only [capGrant, State.profile, chg_setChg_self, setChg_alloc, bay_setChg, uses]
  · rw [if_neg uses, if_neg uses, if_neg uses, setChg_same, setBay_same]

/-- R76: the bays of a list follow, each once. -/
theorem followProfile_fold (i : Fin 8) (old : Nat) {l : List Bay} (once : l.Nodup) (s : State) :
    let t := l.foldl (fun s b => followProfile i old b s) s
    t = { s with bays := t.bays, charge := t.charge } ∧
      ∀ b, t.chg b = (if b ∈ l then followedCharge i old s.alloc.profiles[i].ceiling (s.chg b) else s.chg b) ∧
        t.bay b = if b ∈ l then followedBay i s.alloc.profiles[i].ceiling (s.chg b) (s.bay b) else s.bay b := by
  induction l generalizing s with
  | nil => exact ⟨rfl, fun b => ⟨rfl, rfl⟩⟩
  | cons a l ih =>
    obtain ⟨new, once⟩ := List.nodup_cons.1 once
    obtain ⟨rest, records⟩ := ih once (followProfile i old a s)
    rw [followProfile_eq i old a s] at rest records
    dsimp only
    rw [List.foldl_cons, followProfile_eq i old a s]
    refine ⟨rest, fun b => ?_⟩
    obtain ⟨chg, bay⟩ := records b
    refine ⟨chg.trans ?_, bay.trans ?_⟩ <;> simp only [chg_setBay, chg_setChg, bay_setBay, bay_setChg, setBay_alloc,
      setChg_alloc, List.mem_cons]
    · by_cases at_ : b = a
      · subst at_; simp [new]
      · simp [at_]
    · by_cases at_ : b = a
      · subst at_; simp [new]
      · simp [at_]

theorem allBays_nodup : allBays.Nodup := by decide

theorem eachBay_follow (i : Fin 8) (old : Nat) (s : State) : eachBay (followProfile i old) s =
    { s with
      charge := Vector.ofFn fun b => followedCharge i old s.alloc.profiles[i].ceiling (s.chg b)
      bays := Vector.ofFn fun b => followedBay i s.alloc.profiles[i].ceiling (s.chg b) (s.bay b) } := by
  obtain ⟨rest, records⟩ := followProfile_fold i old allBays_nodup s
  have charge : (eachBay (followProfile i old) s).charge =
      Vector.ofFn fun b => followedCharge i old s.alloc.profiles[i].ceiling (s.chg b) := by
    ext k lt
    simpa [State.chg, mem_allBays, eachBay] using (records ⟨k, lt⟩).1
  have bays : (eachBay (followProfile i old) s).bays =
      Vector.ofFn fun b => followedBay i s.alloc.profiles[i].ceiling (s.chg b) (s.bay b) := by
    ext k lt
    simpa [State.bay, mem_allBays, eachBay] using (records ⟨k, lt⟩).2
  rw [← charge, ← bays]
  exact rest

theorem profileInUse_iff (s : State) (i : Fin 8) :
    profileInUse s i = true ↔ ∃ b, (s.chg b).profile = i ∧ (s.bay b).presence = true := by
  simp [profileInUse, mem_allBays]

/-! ### PROFILE-SET -/

/-- R76: the state with the profile replaced and every bay that uses it following. -/
def profileSet (i : Fin 8) (p : Profile) (s : State) : State :=
  { s with
    alloc := { s.alloc with profiles := s.alloc.profiles.set i p }
    charge := Vector.ofFn fun b => followedCharge i s.alloc.profiles[i].ceiling p.ceiling (s.chg b)
    bays := Vector.ofFn fun b => followedBay i p.ceiling (s.chg b) (s.bay b) }

theorem chg_profileSet (i : Fin 8) (p : Profile) (s : State) (b : Bay) :
    (profileSet i p s).chg b = followedCharge i s.alloc.profiles[i].ceiling p.ceiling (s.chg b) := by
  simp [State.chg, profileSet]

theorem bay_profileSet (i : Fin 8) (p : Profile) (s : State) (b : Bay) :
    (profileSet i p s).bay b = followedBay i p.ceiling (s.chg b) (s.bay b) := by
  simp [State.bay, profileSet]

theorem followedCharge_profile (i : Fin 8) (old new : Nat) (c : ChargeRec) :
    (followedCharge i old new c).profile = c.profile := by
  unfold followedCharge
  split <;> rfl

theorem followedBay_presence (i : Fin 8) (new : Nat) (c : ChargeRec) (r : BayRec) :
    (followedBay i new c r).presence = r.presence := by
  unfold followedBay
  split <;> rfl

theorem eachBay_profileSet (i : Fin 8) (p : Profile) (s : State) :
    eachBay (followProfile i s.alloc.profiles[i].ceiling)
      { s with alloc := { s.alloc with profiles := s.alloc.profiles.set i p } } = profileSet i p s := by
  have ceiling : (s.alloc.profiles.set i p)[i].ceiling = p.ceiling := by simp
  rw [eachBay_follow]
  simp only [ceiling]
  rfl

theorem profileInUse_profileSet (i : Fin 8) (p : Profile) (s : State) (k tag : Byte) (l : List Byte) :
    profileInUse ((profileSet i p s).answer k tag l) i = true ↔
      ∃ b, (s.chg b).profile = i ∧ (s.bay b).presence = true := by
  simp only [profileInUse_iff, chg_answer, bay_answer, chg_profileSet, bay_profileSet, followedCharge_profile,
    followedBay_presence]

/-- The answer of a PROFILE-SET: the values taken. -/
def profileAnswer (index : Byte) (p asked : Profile) : List Byte :=
  (doneOr (p ≠ asked)).code :: index :: profileBytes p

theorem takeProfileSet_eq {index : Byte} {i : Fin 8} (h : i.val = index.toNat) (tag : Byte) (asked : Profile) (s : State) :
    let u := (profileSet i (clampProfile asked) s).answer 0x92 tag (profileAnswer index (clampProfile asked) asked)
    takeProfileSet tag index asked s = finish (if profileInUse u i then askPass u else u) := by
  simp only [takeProfileSet, profileOf_some h, eachBay_profileSet]
  rfl

theorem profile_of {s : State} {b : Bay} {i : Fin 8} (h : (s.chg b).profile = i) : s.profile b = s.alloc.profiles[i] := by
  subst h; rfl

theorem profiles_profileSet (i : Fin 8) (p : Profile) (s : State) (k tag : Byte) (l : List Byte) :
    ((profileSet i p s).answer k tag l).alloc.profiles[i] = p := by
  simp [State.answer, profileSet]

/-- R76: a bay that uses the profile, after the passes that follow. -/
theorem profileSet_after {i : Fin 8} {p : Profile} {s t : State} {k tag : Byte} {l : List Byte} {b : Bay}
    (w : PassWork ((profileSet i p s).answer k tag l) t) (uses : (s.chg b).profile = i) :
    (t.chg b).profile = i ∧ (t.profile b).ceiling = p.ceiling ∧ (t.bay b).grant ≤ p.ceiling ∧
      (t.chg b).dynCeiling = followCeiling s.alloc.profiles[i].ceiling p.ceiling (s.chg b).dynCeiling := by
  have chg : ((profileSet i p s).answer k tag l).chg b =
      { s.chg b with dynCeiling := followCeiling s.alloc.profiles[i].ceiling p.ceiling (s.chg b).dynCeiling } := by
    rw [chg_answer, chg_profileSet, followedCharge, if_pos uses]
  have bay : (((profileSet i p s).answer k tag l).bay b).grant ≤ p.ceiling := by
    rw [bay_answer, bay_profileSet, followedBay, if_pos uses]
    exact Nat.min_le_left _ _
  have ceiling : (((profileSet i p s).answer k tag l).profile b).ceiling = p.ceiling := by
    have used : (((profileSet i p s).answer k tag l).chg b).profile = i := by rw [chg, uses]
    rw [profile_of used, profiles_profileSet]
  have kept := w.pass.chargeKept b
  have cap := w.cap b
  rw [ceiling] at cap
  rw [chg] at kept
  exact ⟨kept.profile.trans uses, by rw [w.pass.profile, ceiling], cap bay, kept.dynCeiling⟩

/-! ### BAY-PROFILE -/

/-- R77: the state with a bay given a profile. -/
def bayProfiled (b : Bay) (i : Fin 8) (s : State) : State :=
  (s.setChg b { s.chg b with
      profile := i, dynCeiling := s.alloc.profiles[i].ceiling, reclaim := 0, press := 0, taperN := 0, fullN := 0
      wakeN := 0 }).setBay b
    { s.bay b with grant := min s.alloc.profiles[i].ceiling (s.bay b).grant }

theorem takeBayProfile_eq {bay index : Byte} {b : Bay} {i : Fin 8} (named : bayOf bay = some b) (h : i.val = index.toNat)
    (tag : Byte) (s : State) : takeBayProfile tag bay index s =
      finish (askPass ((bayProfiled b i s).answer 0x93 tag [0x00, bay, index, byte s.alloc.profiles[i].ceiling])) := by
  simp only [takeBayProfile, named, profileOf_some h, capGrant, State.profile, chg_setChg_self, setChg_alloc, bay_setChg]
  rfl

theorem takeBayProfile_range {bay index : Byte} (h : bayOf bay = none ∨ 7 < index.toNat) (tag : Byte) (s : State) :
    takeBayProfile tag bay index s = s.answer 0x93 tag [0x10, 1] := by
  unfold takeBayProfile
  rcases h with none | above
  · rw [none]; rfl
  · rw [profileOf_none above]
    cases bayOf bay <;> rfl

/-- R77: the bay given the profile, after the passes that follow. -/
theorem bayProfiled_after {b : Bay} {i : Fin 8} {s t : State} {k tag : Byte} {l : List Byte}
    (w : PassWork ((bayProfiled b i s).answer k tag l) t) :
    (t.chg b).profile = i ∧ (t.chg b).dynCeiling = s.alloc.profiles[i].ceiling ∧ ZeroCounts b t ∧
      (t.bay b).grant ≤ s.alloc.profiles[i].ceiling := by
  have chg : ((bayProfiled b i s).answer k tag l).chg b = { s.chg b with
      profile := i, dynCeiling := s.alloc.profiles[i].ceiling, reclaim := 0, press := 0, taperN := 0, fullN := 0
      wakeN := 0 } := chg_setChg_self s b _
  have bay : (((bayProfiled b i s).answer k tag l).bay b).grant ≤ s.alloc.profiles[i].ceiling := by
    rw [bay_answer, bayProfiled, bay_setBay_self]
    exact Nat.min_le_left _ _
  have ceiling : (((bayProfiled b i s).answer k tag l).profile b).ceiling = s.alloc.profiles[i].ceiling := by
    have used : (((bayProfiled b i s).answer k tag l).chg b).profile = i := by rw [chg]
    rw [profile_of used]
    rfl
  have zero : ZeroCounts b ((bayProfiled b i s).answer k tag l) := by rw [ZeroCounts, chg]; rfl
  have kept := w.pass.chargeKept b
  have cap := w.cap b
  rw [ceiling] at cap
  rw [chg] at kept
  exact ⟨kept.profile, kept.dynCeiling, w.zeroCounts zero, cap bay⟩

/-- The passes of a request that asks for one. -/
theorem finish_asked (u : State) : PassWork u (finish (askPass u)) := (askPass_passWork u).trans (finish_passWork _)

/-- Settles O36: the two requests write `profileSet` and `bayProfiled`, and passes follow. -/
theorem profileSetAndBayProfileMoveTheBays : Obligations.ProfileSetAndBayProfileMoveTheBays := by
  refine ⟨fun tag index floor ceiling maintenance taper full readiness s free => ⟨fun above => next_request free ?_,
    fun i named => ?_⟩, fun tag bay index s free => ⟨fun range => next_request free (takeBayProfile_range range _ _),
    fun b i named numbered => ?_⟩⟩
  · rw [takeProfileSet, profileOf_none above]; rfl
  · have taken := takeProfileSet_eq named tag (profileFields floor ceiling maintenance taper full readiness) s
    have used := profileInUse_profileSet i (clampProfile (profileFields floor ceiling maintenance taper full readiness)) s
      0x92 tag (profileAnswer index (clampProfile (profileFields floor ceiling maintenance taper full readiness))
        (profileFields floor ceiling maintenance taper full readiness))
    rw [profileAnswer, doneOr_code, clampProfile_eq, ite_not] at taken used
    simp only [profileFields, Profile.mk.injEq] at taken used
    dsimp only
    refine ⟨_, next_request free taken, ?_, fun uses => ?_, fun no => ?_, fun b uses => ?_, fun uses est => ?_⟩
    · refine (ite_passWork fun _ => ?_).pass.trans (finish_pass _)
      exact askPass_passWork _
    · exact congrArg finish (if_pos (used.2 uses))
    · exact congrArg finish (if_neg fun h => no (used.1 h))
    · exact profileSet_after ((ite_passWork fun _ => askPass_passWork _).trans (finish_passWork _)) uses
    · rw [if_pos (used.2 uses)]
      exact finish_last rfl est
  · have work := finish_asked ((bayProfiled b i s).answer 0x93 tag [0x00, bay, index, byte s.alloc.profiles[i].ceiling])
    obtain ⟨profile, dyn, counts, grant⟩ := bayProfiled_after work
    refine ⟨_, next_request free (takeBayProfile_eq named numbered tag s), ⟨work.pass, fun est => ?_⟩, rfl, profile, dyn,
      counts, grant⟩
    exact finish_last rfl est

end Sys2Proof.Machine
end

