-- ==== Sys2Proof/Proofs/PassRecords.lean ====
section
/-! PROOF. A pass bay by bay: each of its stages acts on one bay's two records alone (R64 to R67). -/

namespace Sys2Proof.Machine

/-! ### Stages that act bay by bay -/

/-- The records of a bay: the Bay Interface's and the Allocator's. -/
abbrev Records := BayRec × ChargeRec

def records (s : State) (b : Bay) : Records := (s.bay b, s.chg b)

/-- What the stages of a pass read besides, and leave while they go from bay to bay. -/
def passView (s : State) := (s.time.ms, s.alloc.profiles, s.alloc.settings, s.alloc.settleTimer)

/-- The work `f` on one bay acts on its records as `g` does, given the time and the profiles, and on no other's. -/
structure BayStage (f : Bay → State → State) (g : Nat → Vector Profile 8 → Bay → Records → Records) : Prop where
  view : ∀ b s, passView (f b s) = passView s
  records : ∀ b s c, records (f b s) c =
    if c = b then g s.time.ms s.alloc.profiles b (records s b) else Machine.records s c

theorem BayStage.fold {f : Bay → State → State} {g : Nat → Vector Profile 8 → Bay → Records → Records}
    (h : BayStage f g) {l : List Bay} (once : l.Nodup) (s : State) :
    passView (l.foldl (fun s b => f b s) s) = passView s ∧
      ∀ b, Machine.records (l.foldl (fun s b => f b s) s) b =
        if b ∈ l then g s.time.ms s.alloc.profiles b (Machine.records s b) else Machine.records s b := by
  induction l generalizing s with
  | nil => exact ⟨rfl, fun _ => rfl⟩
  | cons a l ih =>
    obtain ⟨new, once⟩ := List.nodup_cons.1 once
    have view := h.view a s
    obtain ⟨view', recs⟩ := ih once (f a s)
    refine ⟨view'.trans view, fun b => (recs b).trans ?_⟩
    simp only [passView, Prod.mk.injEq] at view
    obtain ⟨now, profiles, _⟩ := view
    rw [now, profiles, h.records]
    by_cases at_ : b = a
    · subst at_; simp [new]
    · simp [at_]

/-- A stage over all bays. -/
theorem BayStage.each {f : Bay → State → State} {g : Nat → Vector Profile 8 → Bay → Records → Records}
    (h : BayStage f g) (s : State) : passView (eachBay f s) = passView s ∧
      ∀ b, Machine.records (eachBay f s) b = g s.time.ms s.alloc.profiles b (Machine.records s b) := by
  obtain ⟨view, recs⟩ := h.fold allBays_nodup s
  exact ⟨view, fun b => (recs b).trans (if_pos (mem_allBays b))⟩

/-- The Allocator's record of one bay is written. -/
theorem records_setChg (s : State) (b c : Bay) (r : ChargeRec) :
    records (s.setChg b r) c = if c = b then (s.bay b, r) else records s c := by
  by_cases at_ : c = b
  · subst at_; simp [records]
  · simp [records, at_]

theorem records_setBay (s : State) (b c : Bay) (r : BayRec) :
    records (s.setBay b r) c = if c = b then (r, s.chg b) else records s c := by
  by_cases at_ : c = b
  · subst at_; simp [records]
  · simp [records, at_]

theorem records_lanes {s t : State} (h : OnlyLanes s t) (b : Bay) : records t b = records s b := by
  simp only [records, State.bay, State.chg, h.bays, h.charge]

theorem passView_lanes {s t : State} (h : OnlyLanes s t) : passView t = passView s := by
  obtain ⟨_, _, _, _, rfl⟩ := h; rfl

/-! ### The stages -/

theorem supersede_stage : BayStage (fun b s => s.setChg b { s.chg b with pendingInc := none })
    fun _ _ _ x => (x.1, { x.2 with pendingInc := none }) :=
  ⟨fun _ _ => rfl, fun b s c => records_setChg s b c _⟩

theorem storeTargets_stage (xs : List Share) : BayStage
    (fun b s => match targetIn xs b with
      | some t => s.setChg b { s.chg b with target := t }
      | none => s)
    fun _ _ b x => match targetIn xs b with
      | some t => (x.1, { x.2 with target := t })
      | none => x := by
  constructor <;> intro b s <;> cases targetIn xs b
  · rfl
  · rfl
  · intro c
    by_cases at_ : c = b
    · subst at_; simp
    · simp [at_]
  · exact fun c => records_setChg s b c _

/-- R7, R64: what a target does to the records of a bay. -/
def targetTaken (now : Nat) (profiles : Vector Profile 8) (t : Nat) (x : Records) : Records :=
  if x.1.state = .waiting ∧ 0 < t then
    ({ x.1 with state := .charging, grant := 0, cleanTimer := some (now + Config.cleanCharge) }, x.2)
  else if x.1.state = .charging ∧ t = 0 then (x.1.moved .waiting, { x.2.zeroCounts with pendingInc := none })
  else if x.1.state = .charging ∧ t < x.1.grant then
    ({ x.1 with grant := min profiles[x.2.profile].ceiling t }, x.2)
  else x

theorem records_same (s : State) (b c : Bay) : records s c = if c = b then records s b else records s c := by
  split
  · subst_vars; rfl
  · rfl

theorem applyTarget_records (b : Bay) (t : Nat) (s : State) :
    passView (applyTarget b t s) = passView s ∧ ∀ c, records (applyTarget b t s) c =
      if c = b then targetTaken s.time.ms s.alloc.profiles t (records s b) else records s c := by
  by_cases enters : (s.bay b).state = .waiting ∧ 0 < t
  · have same : applyTarget b t s = s.setBay b
        { s.bay b with state := .charging, grant := 0, cleanTimer := some (s.time.ms + Config.cleanCharge) } :=
      if_pos enters
    have taken : targetTaken s.time.ms s.alloc.profiles t (records s b) =
        ({ s.bay b with state := .charging, grant := 0, cleanTimer := some (s.time.ms + Config.cleanCharge) }, s.chg b) :=
      if_pos enters
    rw [same, taken]
    exact ⟨rfl, fun c => records_setBay s b c _⟩
  by_cases defers : (s.bay b).state = .charging ∧ t = 0
  · have same : applyTarget b t s = schedChange b .charging .waiting
        ((s.setBay b ((s.bay b).moved .waiting)).setChg b { (s.chg b).zeroCounts with pendingInc := none }) :=
      (if_neg enters).trans (if_pos defers)
    have taken : targetTaken s.time.ms s.alloc.profiles t (records s b) =
        ((s.bay b).moved .waiting, { (s.chg b).zeroCounts with pendingInc := none }) :=
      (if_neg enters).trans (if_pos defers)
    have lanes := schedChange_touch b .charging .waiting
      ((s.setBay b ((s.bay b).moved .waiting)).setChg b { (s.chg b).zeroCounts with pendingInc := none })
    rw [same, taken]
    refine ⟨(passView_lanes lanes).trans rfl, fun c => ?_⟩
    rw [records_lanes lanes, records_setChg, records_setBay, bay_setBay_self]
    split <;> rfl
  by_cases lowers : (s.bay b).state = .charging ∧ t < (s.bay b).grant
  · have same : applyTarget b t s = s.setBay b { s.bay b with grant := min (s.profile b).ceiling t } :=
      ((if_neg enters).trans (if_neg defers)).trans (if_pos lowers)
    have taken : targetTaken s.time.ms s.alloc.profiles t (records s b) =
        ({ s.bay b with grant := min (s.profile b).ceiling t }, s.chg b) :=
      ((if_neg enters).trans (if_neg defers)).trans (if_pos lowers)
    rw [same, taken]
    exact ⟨rfl, fun c => records_setBay s b c _⟩
  · have same : applyTarget b t s = s := ((if_neg enters).trans (if_neg defers)).trans (if_neg lowers)
    have taken : targetTaken s.time.ms s.alloc.profiles t (records s b) = records s b :=
      ((if_neg enters).trans (if_neg defers)).trans (if_neg lowers)
    rw [same, taken]
    exact ⟨rfl, records_same s b⟩

theorem applyTargets_stage (xs : List Share) : BayStage
    (fun b s => match targetIn xs b with
      | some t => applyTarget b t s
      | none => s)
    fun now profiles b x => match targetIn xs b with
      | some t => targetTaken now profiles t x
      | none => x := by
  constructor <;> intro b s <;> cases targetIn xs b
  · rfl
  · exact (applyTarget_records b _ s).1
  · exact records_same s b
  · exact (applyTarget_records b _ s).2

/-- R65: the increase of a bay recorded. -/
def increaseRecorded (x : Records) : Records :=
  if x.1.state = .charging ∧ x.1.grant < x.2.target then (x.1, { x.2 with pendingInc := some x.2.target }) else x

theorem recordIncrease_stage : BayStage recordIncrease fun _ _ _ x => increaseRecorded x := by
  constructor <;> intro b s
  · unfold recordIncrease
    split <;> rfl
  · intro c
    by_cases rises : (s.bay b).state = .charging ∧ (s.bay b).grant < (s.chg b).target
    · have taken : increaseRecorded (records s b) = (s.bay b, { s.chg b with pendingInc := some (s.chg b).target }) :=
        if_pos rises
      rw [recordIncrease, if_pos rises, taken]
      exact records_setChg s b c _
    · have taken : increaseRecorded (records s b) = records s b := if_neg rises
      rw [recordIncrease, if_neg rises, taken]
      exact records_same s b c

/-- R66: the increase of a bay applied. -/
def increaseApplied (profiles : Vector Profile 8) (x : Records) : Records :=
  match x.2.pendingInc with
  | none => x
  | some t =>
    (if x.1.state = .charging then { x.1 with grant := min profiles[x.2.profile].ceiling t } else x.1,
      { x.2 with pendingInc := none })

theorem applyIncrease_stage : BayStage applyIncrease fun _ profiles _ x => increaseApplied profiles x := by
  constructor <;> intro b s
  · unfold applyIncrease
    split
    · rfl
    · dsimp only
      split <;> rfl
  · intro c
    cases pending : (s.chg b).pendingInc with
    | none =>
      have taken : increaseApplied s.alloc.profiles (records s b) = records s b := by
        simp [increaseApplied, records, pending]
      simp only [applyIncrease, pending, taken]
      exact records_same s b c
    | some t =>
      simp only [applyIncrease, increaseApplied, records, pending]
      by_cases at_ : c = b
      · subst at_
        by_cases charging : (s.bay c).state = .charging <;> simp [State.profile, charging]
      · split <;> simp [at_]

/-! ### The whole pass -/

/-- R64 to R66: what a pass makes of the records of a bay whose target is `t`. -/
def passRecords (now : Nat) (profiles : Vector Profile 8) (lowered : Bool) (t : Nat) (x : Records) : Records :=
  let x := increaseRecorded (targetTaken now profiles t (x.1, { x.2 with pendingInc := none, target := t }))
  if lowered then x else increaseApplied profiles x

theorem setTimer_records (s : State) (t : Timer) (b : Bay) :
    records { s with alloc := { s.alloc with settleTimer := t } } b = records s b := rfl

theorem supersede_records (s : State) : passView (supersede s) = passView { s with alloc := { s.alloc with settleTimer := none } } ∧
    ∀ b, records (supersede s) b = (s.bay b, { s.chg b with pendingInc := none }) :=
  supersede_stage.each _

theorem markBudget_view (s : State) : passView (markBudget s) = passView s ∧ ∀ b, records (markBudget s) b = records s b := by
  unfold markBudget
  dsimp only
  split <;> exact ⟨rfl, fun _ => rfl⟩

/-- R65: the increases staged. -/
theorem stageIncreases_records (lowered : Bool) (s : State) :
    passView (stageIncreases lowered s) = (s.time.ms, s.alloc.profiles, s.alloc.settings,
      if lowered then some (s.time.ms + s.alloc.settings.settle) else s.alloc.settleTimer) ∧
    ∀ b, records (stageIncreases lowered s) b =
      if lowered then increaseRecorded (records s b)
      else increaseApplied s.alloc.profiles (increaseRecorded (records s b)) := by
  obtain ⟨view, recs⟩ := recordIncrease_stage.each s
  cases lowered with
  | true =>
    have same : stageIncreases true s = { eachBay recordIncrease s with
        alloc := { (eachBay recordIncrease s).alloc with
          settleTimer := some ((eachBay recordIncrease s).time.ms + (eachBay recordIncrease s).alloc.settings.settle) } } := by
      simp [stageIncreases]
    simp only [passView, Prod.mk.injEq] at view
    obtain ⟨now, profiles, settings, timer⟩ := view
    rw [same]
    refine ⟨?_, fun b => by rw [setTimer_records, recs]; rfl⟩
    simp only [passView, now, profiles, settings, if_true]
  | false =>
    have same : stageIncreases false s = eachBay applyIncrease (eachBay recordIncrease s) := by
      simp [stageIncreases, applyIncreases]
    obtain ⟨view', recs'⟩ := applyIncrease_stage.each (eachBay recordIncrease s)
    rw [same]
    have kept : passView (eachBay applyIncrease (eachBay recordIncrease s)) = passView s := by rw [view', view]
    refine ⟨by rw [kept]; rfl, fun b => ?_⟩
    simp only [passView, Prod.mk.injEq] at view
    obtain ⟨now, profiles, settings, timer⟩ := view
    simp only [recs', recs, profiles]
    rfl

/-- R64: a decrease is found by the targets of the shares. -/
def passLowers (s : State) : Bool := allBays.any (isLowered (supersede s) (computePass (supersede s)).shares)

/-- The state of a pass when the bays have taken their targets, before the increases are staged. -/
def passApplied (s : State) : State :=
  applyTargets (computePass (supersede s)).shares
    (markRemainder (computePass (supersede s)).remainder
      (markBudget (storeTargets (computePass (supersede s)).shares (supersede s))))

/-- R64, R67: the targets taken. -/
theorem applyTargets_computed (s : State) :
    passView (passApplied s) = (s.time.ms, s.alloc.profiles, s.alloc.settings, none) ∧
    ∀ b t, targetIn (computePass (supersede s)).shares b = some t → records (passApplied s) b =
      targetTaken s.time.ms s.alloc.profiles t (s.bay b, { s.chg b with pendingInc := none, target := t }) := by
  obtain ⟨view1, recs1⟩ := supersede_records s
  unfold passApplied
  generalize computePass (supersede s) = result
  obtain ⟨view2, recs2⟩ := (storeTargets_stage result.shares).each (supersede s)
  obtain ⟨view3, recs3⟩ := markBudget_view (storeTargets result.shares (supersede s))
  obtain ⟨view4, recs4⟩ := (applyTargets_stage result.shares).each
    (markRemainder result.remainder (markBudget (storeTargets result.shares (supersede s))))
  have view : passView (markRemainder result.remainder (markBudget (storeTargets result.shares (supersede s)))) =
      (s.time.ms, s.alloc.profiles, s.alloc.settings, none) := view3.trans (view2.trans view1)
  refine ⟨view4.trans view, fun b t found => (recs4 b).trans ?_⟩
  simp only [passView, Prod.mk.injEq] at view
  obtain ⟨now, profiles, _, _⟩ := view
  have before : records (markRemainder result.remainder (markBudget (storeTargets result.shares (supersede s)))) b =
      (s.bay b, { s.chg b with pendingInc := none, target := t }) := by
    refine (recs3 b).trans ((recs2 b).trans ?_)
    rw [recs1, found]
  rw [before, found, now, profiles]

theorem runPass_staged (s : State) : runPass s =
    schedPassResult (holding (supersede s).prov.queue) (stageIncreases (passLowers s) (passApplied s)) := by
  rw [runPass_eq, passLowers, passApplied]

/-- R63: a pass bay by bay, for the bays of the eligible set. -/
theorem runPass_records (s : State) :
    (runPass s).alloc.settleTimer = (if passLowers s then some (s.time.ms + s.alloc.settings.settle) else none) ∧
    ∀ b t, targetIn (computePass (supersede s)).shares b = some t →
      records (runPass s) b = passRecords s.time.ms s.alloc.profiles (passLowers s) t (s.bay b, s.chg b) := by
  obtain ⟨view4, recs4⟩ := applyTargets_computed s
  rw [runPass_staged]
  generalize passApplied s = u at view4 recs4 ⊢
  obtain ⟨view5, recs5⟩ := stageIncreases_records (passLowers s) u
  have lanes := schedPassResult_touch (holding (supersede s).prov.queue) (stageIncreases (passLowers s) u)
  simp only [passView, Prod.mk.injEq] at view4 view5
  obtain ⟨now4, profiles4, settings4, timer4⟩ := view4
  obtain ⟨_, _, _, timer5⟩ := view5
  refine ⟨?_, fun b t found => ?_⟩
  · rw [lanes.alloc, timer5, now4, settings4, timer4]
  · rw [records_lanes lanes, recs5, recs4 b t found, profiles4]
    rfl

end Sys2Proof.Machine
end

