-- ==== Sys2Proof/Proofs/PassStaging.lean ====
section
/-! PROOF. What a pass leaves of an eligible bay, by its state and its target (R64 to R67). -/

namespace Sys2Proof.Machine

/-! ### The records of one bay, case by case -/

section Cases
variable (now : Nat) (profiles : Vector Profile 8) (lowered : Bool) (r : BayRec) (c : ChargeRec)

theorem passRecords_waits (h : r.state = .waiting) : passRecords now profiles lowered 0 (r, c) =
    (r, { c with pendingInc := none, target := 0 }) := by
  cases lowered <;> simp [passRecords, targetTaken, increaseRecorded, increaseApplied, h]

/-- R99: the bay enters CHARGING; its increase is staged. -/
theorem passRecords_enters {t : Nat} (h : r.state = .waiting) (pos : 0 < t) : passRecords now profiles lowered t (r, c) =
    ({ r with
        state := .charging, grant := if lowered then 0 else min profiles[c.profile].ceiling t
        cleanTimer := some (now + 600000) },
      { c with pendingInc := if lowered then some t else none, target := t }) := by
  cases lowered <;> simp [passRecords, targetTaken, increaseRecorded, increaseApplied, h, pos, Config.cleanCharge]

/-- R7, R86, R92: the bay is deferred. -/
theorem passRecords_defers (h : r.state = .charging) : passRecords now profiles lowered 0 (r, c) =
    (r.moved .waiting, { c.zeroCounts with pendingInc := none, target := 0 }) := by
  cases lowered <;>
    simp [passRecords, targetTaken, increaseRecorded, increaseApplied, h, BayRec.moved, ChargeRec.zeroCounts]

/-- R64: the bay is lowered at once. -/
theorem passRecords_lowers {t : Nat} (h : r.state = .charging) (pos : 0 < t) (lt : t < r.grant)
    (cap : r.grant ≤ profiles[c.profile].ceiling) : passRecords now profiles lowered t (r, c) =
    ({ r with grant := t }, { c with pendingInc := none, target := t }) := by
  have ceiling : min profiles[c.profile].ceiling t = t := Nat.min_eq_right (by omega)
  have waits : ¬ (r.state = .waiting ∧ 0 < t) := by simp [h]
  have defers : ¬ (r.state = .charging ∧ t = 0) := by simp [pos.ne']
  have taken : targetTaken now profiles t (r, { c with pendingInc := none, target := t }) =
      ({ r with grant := t }, { c with pendingInc := none, target := t }) := by
    rw [targetTaken, if_neg waits, if_neg defers, if_pos ⟨h, lt⟩, ceiling]
  rw [passRecords, taken]
  cases lowered <;> simp [increaseRecorded, increaseApplied]

/-- R65: the bay's target is above its grant, or at it. -/
theorem passRecords_raises {t : Nat} (h : r.state = .charging) (pos : 0 < t) (le : r.grant ≤ t) :
    passRecords now profiles lowered t (r, c) =
      if r.grant < t then
        ({ r with grant := if lowered then r.grant else min profiles[c.profile].ceiling t },
          { c with pendingInc := if lowered then some t else none, target := t })
      else (r, { c with pendingInc := none, target := t }) := by
  have waits : ¬ (r.state = .waiting ∧ 0 < t) := by simp [h]
  have defers : ¬ (r.state = .charging ∧ t = 0) := by simp [pos.ne']
  have taken : targetTaken now profiles t (r, { c with pendingInc := none, target := t }) =
      (r, { c with pendingInc := none, target := t }) := by
    have lowers : ¬ (r.state = .charging ∧ t < r.grant) := fun k => by omega
    rw [targetTaken, if_neg waits, if_neg defers, if_neg lowers]
  rw [passRecords, taken]
  by_cases lt : r.grant < t
  · have recorded : increaseRecorded (r, { c with pendingInc := none, target := t }) =
        (r, { c with pendingInc := some t, target := t }) := if_pos ⟨h, lt⟩
    cases lowered
    · simp only [recorded, increaseApplied, if_pos lt, if_pos h, Bool.false_eq_true, if_false]
    · simp only [recorded, if_pos lt, if_true]
  · have recorded : increaseRecorded (r, { c with pendingInc := none, target := t }) =
        (r, { c with pendingInc := none, target := t }) := if_neg fun k => lt k.2
    cases lowered <;> simp [recorded, increaseApplied, lt]

end Cases

/-! ### What the cases have in common -/

/-- R7, R64 to R67, R86, R92, R99: what a pass leaves of an eligible bay with this target. -/
structure Staged (now ceiling : Nat) (lowered : Bool) (t : Nat) (x y : Records) : Prop where
  target : y.2.target = t
  state : y.1.state = if t = 0 then .waiting else .charging
  invalidRun : y.1.invalidRun = if x.1.state = .charging ∧ t = 0 then 0 else x.1.invalidRun
  cleanTimer : y.1.cleanTimer =
    if x.1.state = .charging ∧ t = 0 then none
    else if x.1.state = .waiting ∧ t ≠ 0 then some (now + 600000)
    else x.1.cleanTimer
  counts : roundCounts y.2 = if x.1.state = .charging ∧ t = 0 then [0, 0, 0, 0, 0] else roundCounts x.2
  atOnce : lowered = false → ¬ (x.1.state = .charging ∧ t < x.1.grant) →
    y.1.grant = min ceiling t ∧ y.2.pendingInc = none
  later : lowered = true → y.1.grant = min x.1.grant t ∧ y.2.pendingInc = if y.1.grant < t then some t else none

theorem passRecords_staged (now : Nat) (profiles : Vector Profile 8) (lowered : Bool) (t : Nat) (r : BayRec) (c : ChargeRec)
    (elig : r.state.eligible = true) (cap : r.grant ≤ profiles[c.profile].ceiling)
    (zero : r.state ≠ .charging → r.grant = 0) :
    Staged now profiles[c.profile].ceiling lowered t (r, c) (passRecords now profiles lowered t (r, c)) := by
  have cases_ : r.state = .waiting ∨ r.state = .charging := by
    cases st : r.state <;> simp [st, BayState.eligible] at elig ⊢
  rcases cases_ with h | h <;> rcases Nat.eq_zero_or_pos t with rfl | pos
  · rw [passRecords_waits now profiles lowered r c h]
    have grant : r.grant = 0 := zero (by simp [h])
    constructor <;> simp [h, grant, roundCounts]
  · rw [passRecords_enters now profiles lowered r c h pos]
    have grant : r.grant = 0 := zero (by simp [h])
    constructor <;> simp +contextual [h, grant, pos, pos.ne', roundCounts]
  · rw [passRecords_defers now profiles lowered r c h]
    constructor <;> simp [h, roundCounts, BayRec.moved, ChargeRec.zeroCounts]
  · rcases Nat.lt_or_ge t r.grant with lt | le
    · rw [passRecords_lowers now profiles lowered r c h pos lt cap]
      constructor <;> simp [h, lt, pos.ne', roundCounts, Nat.min_eq_right lt.le]
    · rw [passRecords_raises now profiles lowered r c h pos le]
      by_cases lt : r.grant < t
      · rw [if_pos lt]
        constructor <;> simp +contextual [h, lt, le, pos.ne', roundCounts]
      · rw [if_neg lt]
        obtain rfl : t = r.grant := by omega
        have least : min profiles[c.profile].ceiling r.grant = r.grant := Nat.min_eq_right cap
        constructor
        case atOnce => exact fun _ _ => ⟨least.symm, rfl⟩
        all_goals simp [h, pos.ne', roundCounts]

/-! ### The pass -/

theorem supersede_bay (s : State) (b : Bay) : (supersede s).bay b = s.bay b :=
  congrArg Prod.fst ((supersede_records s).2 b)

theorem eligible_target {s : State} {b : Bay} (elig : (s.bay b).state.eligible = true) :
    ∃ t, targetIn (computePass (supersede s)).shares b = some t := by
  refine Option.ne_none_iff_exists'.1 fun none => ?_
  rw [targetIn_computePass, supersede_bay, elig] at none
  cases none

/-- R64 to R67: what a pass leaves of a bay of the eligible set. -/
theorem runPass_staged_bay {s : State} (law : GrantLaw s) {b : Bay} (elig : (s.bay b).state.eligible = true) :
    ∃ t, targetIn (computePass (supersede s)).shares b = some t ∧
      Staged s.time.ms (s.profile b).ceiling (passLowers s) t (records s b) (records (runPass s) b) := by
  obtain ⟨t, found⟩ := eligible_target elig
  obtain ⟨cap, zero⟩ := law b
  refine ⟨t, found, ?_⟩
  rw [(runPass_records s).2 b t found]
  exact passRecords_staged _ _ _ _ _ _ elig cap zero

/-- R64: a pass lowers a grant when the target of a bay in CHARGING is below it. -/
theorem passLowers_iff {s : State} (law : GrantLaw s) : passLowers s = true ↔
    ∃ b, (s.bay b).state = .charging ∧ ((runPass s).chg b).target < (s.bay b).grant := by
  have found : ∀ b, isLowered (supersede s) (computePass (supersede s)).shares b = true ↔
      (s.bay b).state = .charging ∧ ((runPass s).chg b).target < (s.bay b).grant := fun b => by
    by_cases charging : (s.bay b).state = .charging
    · obtain ⟨t, at_, staged⟩ := runPass_staged_bay law (b := b) (by simp [charging, BayState.eligible])
      have target : ((runPass s).chg b).target = t := staged.target
      simp [isLowered, at_, supersede_bay, target]
    · unfold isLowered
      rw [supersede_bay]
      split <;> simp [charging]
  simp only [passLowers, List.any_eq_true, found, mem_allBays, true_and]

/-- Settles O33: a pass acts on the two records of each eligible bay as its state and target say. -/
theorem passStagesItsIncreases : Obligations.PassStagesItsIncreases := by
  intro s law
  have lowers := passLowers_iff law
  obtain ⟨timer, _⟩ := runPass_records s
  refine ⟨fun b elig => ?_, fun no => ?_, fun yes => ?_⟩
  · obtain ⟨t, _, staged⟩ := runPass_staged_bay law elig
    obtain ⟨target, state, run, clean, counts, atOnce, later⟩ := staged
    have target : ((runPass s).chg b).target = t := target
    rw [target]
    refine ⟨state, run, clean, counts, fun no => ?_, fun yes => later (lowers.2 yes)⟩
    refine atOnce (by simpa using fun h => no (lowers.1 h)) fun own => no ⟨b, own.1, ?_⟩
    rw [target]
    exact own.2
  · rw [timer, if_neg fun h => no (lowers.1 h)]
  · rw [timer, if_pos (lowers.2 yes)]

end Sys2Proof.Machine
end

