-- ==== Sys2Proof/Proofs/Samples.lean ====
section
/-! PROOF. The awaited sample: what it records, and what it does at the bay, the Allocator and the passes. -/

namespace Sys2Proof.Machine

/-! ### Work on one bay -/

/-- What a sample leaves of a bay record once its energy is counted. -/
def sampleView (r : BayRec) := (r.presence, r.dataLine, r.prevSample, r.energy, r.residue)

/-- Work on the records of one bay, with what passes change. -/
structure BayWork (b : Bay) (s t : State) : Prop where
  fields : t = PassFields s t
  others : OthersKept b s t
  profile : (t.chg b).profile = (s.chg b).profile
  view : sampleView (t.bay b) = sampleView (s.bay b)

theorem passFields_trans {s t u : State} (h : t = PassFields s t) (h' : u = PassFields t u) : u = PassFields s u :=
  calc u = PassFields t u := h'
    _ = PassFields (PassFields s t) u := by rw [← h]
    _ = PassFields s u := rfl

theorem BayWork.trans {b : Bay} {s t u : State} (h : BayWork b s t) (h' : BayWork b t u) : BayWork b s u where
  fields := passFields_trans h.fields h'.fields
  others c ne := ⟨(h.others c ne).1.trans (h'.others c ne).1, (h.others c ne).2.trans (h'.others c ne).2⟩
  profile := h'.profile.trans h.profile
  view := h'.view.trans h.view

theorem BayWork.time {b : Bay} {s t : State} (h : BayWork b s t) : t.time = s.time := by rw [h.fields]; rfl

theorem OnlyPass.fields {s t : State} (h : OnlyPass s t) : t = PassFields s t := by
  obtain ⟨_, _, _, _, _, _, _, _, _, _, ns, rfl, _⟩ := h
  have link := queueAll_eq ns s.link
  simp only [PassFields]
  rw [← link]

theorem OnlyPass.bayWork {s t : State} (h : OnlyPass s t) (b : Bay) : BayWork b s t := by
  have kept := h.bayKept b
  refine ⟨h.fields, fun c _ => ⟨h.bayKept c, h.chargeKept c⟩, (h.chargeKept b).profile, ?_⟩
  simp only [sampleView, kept.presence, kept.dataLine, kept.prevSample, kept.energy, kept.residue]

theorem setBay_fields (s : State) (b : Bay) (r : BayRec) :
    s.setBay b r = PassFields s (s.setBay b r) ∧ OthersKept b s (s.setBay b r) :=
  ⟨rfl, fun c ne => ⟨by rw [bay_setBay_ne _ _ _ _ ne]; exact .refl _, .refl _⟩⟩

theorem setBay_bayWork (s : State) (b : Bay) (r : BayRec) (h : sampleView r = sampleView (s.bay b)) :
    BayWork b s (s.setBay b r) :=
  ⟨(setBay_fields s b r).1, (setBay_fields s b r).2, rfl, by rw [bay_setBay_self, h]⟩

theorem setChg_bayWork (s : State) (b : Bay) (r : ChargeRec) (h : r.profile = (s.chg b).profile) :
    BayWork b s (s.setChg b r) := by
  refine ⟨rfl, fun c ne => ⟨.refl _, ?_⟩, by rw [chg_setChg_self, h], rfl⟩
  rw [chg_setChg_ne _ _ _ _ ne]
  exact .refl _

theorem BayWork.refl (b : Bay) (s : State) : BayWork b s s := (OnlyPass.refl s).bayWork b

/-! ### The counters of the bay -/

/-- What the work on a bay before the Allocator's count does to the round counters: they are left, or the bay has left
CHARGING and they are at 0. A bay that is in CHARGING after it was before, its pending increase untouched. -/
structure CountWork (b : Bay) (s t : State) : Prop where
  counts : roundCounts (t.chg b) = roundCounts (s.chg b) ∨
    (roundCounts (t.chg b) = [0, 0, 0, 0, 0] ∧ (t.bay b).state ≠ .charging)
  charging : (t.bay b).state = .charging →
    (s.bay b).state = .charging ∧ (t.chg b).pendingInc = (s.chg b).pendingInc

theorem CountWork.trans {b : Bay} {s t u : State} (h : CountWork b s t) (h' : CountWork b t u) : CountWork b s u := by
  refine ⟨?_, fun k => ?_⟩
  · rcases h'.counts with e | e
    · rw [e]
      exact h.counts.imp_right fun ⟨zero, out⟩ => ⟨zero, fun k => out (h'.charging k).1⟩
    · exact .inr e
  · obtain ⟨k', pending'⟩ := h'.charging k
    obtain ⟨k'', pending⟩ := h.charging k'
    exact ⟨k'', pending'.trans pending⟩

theorem CountWork.refl (b : Bay) (s : State) : CountWork b s s := ⟨.inl rfl, fun k => ⟨k, rfl⟩⟩

theorem setBay_countWork (s : State) (b : Bay) (r : BayRec) (h : r.state = (s.bay b).state) :
    CountWork b s (s.setBay b r) :=
  ⟨.inl rfl, fun k => by rw [bay_setBay_self, h] at k; exact ⟨k, rfl⟩⟩

/-- A change of bay state to another state than CHARGING, reported. -/
theorem reportChange_countWork {b : Bay} {s v : State} {n : BayState} (bay : (v.bay b).state = n)
    (chg : v.charge = s.charge) (out : n ≠ .charging) : CountWork b s (reportChange b (s.bay b).state n v) := by
  have now : ((reportChange b (s.bay b).state n v).bay b).state ≠ .charging := by rw [bay_reportChange, bay]; exact out
  refine ⟨?_, fun k => absurd k now⟩
  rw [reportChange_counts]
  split
  · exact .inr ⟨rfl, now⟩
  · exact .inl (by simp only [State.chg, chg])

/-! ### The sample at the Bay Interface -/

theorem notices_setBay_bayWork (s : State) (b : Bay) (r : BayRec) (ns : List Notice) (h : sampleView r = sampleView (s.bay b)) :
    BayWork b s (State.notices (s.setBay b r) ns) := by
  have queued : OnlyLanes (s.setBay b r) (State.notices (s.setBay b r) ns) :=
    ⟨s.lanes, s.prov.queue, s.prov.pointer, ns, rfl⟩
  exact (setBay_bayWork s b r h).trans (queued.pass.bayWork b)

theorem transientFault_bayWork (b : Bay) (kind : FaultKind) (detail : Byte) (s : State) :
    BayWork b s (transientFault b kind detail s) := by
  refine BayWork.trans ?_ ((transientFault_pass b kind detail s).bayWork b)
  exact notices_setBay_bayWork s b _ _ rfl

theorem transientFault_countWork (b : Bay) (kind : FaultKind) (detail : Byte) (s : State) :
    CountWork b s (transientFault b kind detail s) := by
  rw [transientFault_eq]
  refine reportChange_countWork (congrArg BayRec.state (bay_setBay_self s b _)) rfl ?_
  rcases faultState_cases (s.bay b).retries s.superv.retryLimit with e | e <;> rw [e] <;> decide

theorem faultChecks_work (b : Bay) (draw : Byte) (reading : Option Byte) (s : State) :
    BayWork b s (faultChecks b draw reading s) ∧ CountWork b s (faultChecks b draw reading s) := by
  unfold faultChecks
  dsimp only
  split
  · exact ⟨(transientFault_bayWork b _ _ s).trans (setBay_bayWork _ b _ rfl),
      (transientFault_countWork b _ _ s).trans (setBay_countWork _ b _ rfl)⟩
  · have run : sampleView { s.bay b with invalidRun := senseRunAfter (s.bay b) draw } = sampleView (s.bay b) := rfl
    exact ⟨(setBay_bayWork s b _ run).trans (setBay_bayWork _ b _ rfl),
      (setBay_countWork s b { s.bay b with invalidRun := senseRunAfter (s.bay b) draw } rfl).trans
        (setBay_countWork _ b _ rfl)⟩

theorem leaveHold_eq (b : Bay) (s : State) : leaveHold b s =
    reportChange b (s.bay b).state .qualifying (s.setBay b
      (({ s.bay b with retries := (s.bay b).retries + 1 }.moved .qualifying).newProbe s.time.ms)) := by
  simp only [leaveHold, enterQualifying, bay_setBay_self, setBay_setBay, setBay_time]

theorem coolDownSample_work (b : Bay) (reading : Option Byte) (s : State) :
    BayWork b s (coolDownSample b reading s) ∧ CountWork b s (coolDownSample b reading s) := by
  have none : BayWork b s s ∧ CountWork b s s := ⟨.refl b s, .refl b s⟩
  unfold coolDownSample
  split
  · exact none
  · split
    · rw [leaveHold_eq]
      refine ⟨BayWork.trans (setBay_bayWork s b _ ?_) ((reportChange_pass _ _ _ _).bayWork b), ?_⟩
      · rfl
      · exact reportChange_countWork (congrArg BayRec.state (bay_setBay_self s b _)) rfl (by decide)
    · exact none

/-! ### The sample at the Allocator -/

/-- The Allocator's record that an action of a counted sample writes. -/
def Action.record : Action → ChargeRec
  | .counted c => c
  | .phase _ c => c
  | .ceiling c => c

theorem pressTest_profile (cfg : ChargeSettings) (c : ChargeRec) (p : Profile) (draw : Nat) :
    (pressTest cfg c p draw).record.profile = c.profile := by
  unfold pressTest
  split
  · split <;> rfl
  · rfl

theorem reclaimTest_profile (cfg : ChargeSettings) (c : ChargeRec) (p : Profile) (draw : Nat) :
    (reclaimTest cfg c p draw).record.profile = c.profile := by
  unfold reclaimTest
  split
  · split
    · dsimp only
      split <;> rfl
    · exact pressTest_profile _ _ _ _
  · exact pressTest_profile _ _ _ _

theorem countSample_profile (cfg : ChargeSettings) (c : ChargeRec) (p : Profile) (grant draw : Nat) :
    (countSample cfg c p grant draw).record.profile = c.profile := by
  unfold countSample
  split
  · dsimp only
    split
    · rfl
    · exact reclaimTest_profile _ _ _ _
  · dsimp only
    split
    · rfl
    · exact reclaimTest_profile _ _ _ _
  · split
    · split <;> rfl
    · rfl

theorem phaseNote_bayWork (b c : Bay) (old new : Phase) (s : State) : BayWork b s (phaseNote c old new s) :=
  (note_pass _ _ _ _ _ _ s).bayWork b

theorem takeAction_bayWork (b : Bay) (a : Action) (s : State) (h : a.record.profile = (s.chg b).profile) :
    BayWork b s (takeAction b a s) := by
  have written := setChg_bayWork s b a.record h
  cases a with
  | counted c => exact written
  | phase new c => exact (written.trans (phaseNote_bayWork b b _ _ _)).trans ((askPass_pass _).bayWork b)
  | ceiling c => exact written.trans ((askPass_pass _).bayWork b)

theorem allocSample_bayWork (b : Bay) (draw : Byte) (s : State) : BayWork b s (allocSample b draw s) :=
  ite_touch (R := BayWork b) (.refl b) (takeAction_bayWork b _ s (countSample_profile _ _ _ _ _))

/-! ### The whole sample -/

/-- R23: the state once the sample is written, the next reading asked for and the energy counted. -/
def sampleTaken (b : Bay) (draw temperature : Byte) (s : State) : State :=
  let u := askNext (writeSample b draw (if inThermal s then some temperature else none) s)
  u.setBay b (energySample u.time.ms draw (u.bay b))

theorem recordSample_eq (b : Bay) (draw temperature : Byte) (s : State) :
    let reading := if inThermal s then some temperature else none
    recordSample b draw temperature s = finish (allocSample b draw
      (coolDownSample b reading (faultChecks b draw reading (sampleTaken b draw temperature s)))) := rfl

theorem recordSample_bayWork (b : Bay) (draw temperature : Byte) (s : State) :
    BayWork b (sampleTaken b draw temperature s) (recordSample b draw temperature s) := by
  rw [recordSample_eq]
  exact (((faultChecks_work b draw _ _).1.trans (coolDownSample_work b _ _).1).trans
    (allocSample_bayWork b draw _)).trans ((finish_pass _).bayWork b)

/-- R78: a sample that is not counted leaves the counters, or the bay has left CHARGING. -/
theorem recordSample_uncounted {b : Bay} {draw temperature : Byte} {s : State}
    (h : ¬ ((s.bay b).state = .charging ∧ draw ≠ 255) ∨ (s.chg b).pendingInc ≠ none)
    (state : ((sampleTaken b draw temperature s).bay b).state = (s.bay b).state)
    (chg : (sampleTaken b draw temperature s).chg b = s.chg b)
    (time : (sampleTaken b draw temperature s).time = s.time) :
    let t := recordSample b draw temperature s
    roundCounts (t.chg b) = roundCounts (s.chg b) ∨
      (roundCounts (t.chg b) = [0, 0, 0, 0, 0] ∧ LeftCharging s.time.ms (t.bay b)) := by
  dsimp only
  rw [recordSample_eq]
  generalize (if inThermal s then some temperature else none) = reading
  generalize sampleTaken b draw temperature s = u at state chg time ⊢
  have faults := faultChecks_work b draw reading u
  have cool := coolDownSample_work b reading (faultChecks b draw reading u)
  have work := faults.1.trans cool.1
  have count := faults.2.trans cool.2
  generalize coolDownSample b reading (faultChecks b draw reading u) = v at work count ⊢
  have uncounted : countedSample v b draw = false := by
    rw [countedSample, decide_eq_false_iff_not]
    rintro ⟨charging, valid, idle⟩
    obtain ⟨charging', pending⟩ := count.charging charging
    rw [idle, chg] at pending
    exact h.elim (fun h => h ⟨state ▸ charging', valid⟩) fun h => h pending.symm
  have same : allocSample b draw v = v := by simp [allocSample, uncounted]
  have passes := finish_passWork v
  have counts := passes.counts b
  have left := passes.left b
  rw [work.time, time] at counts left
  rw [same]
  have before := count.counts
  rw [chg] at before
  rcases counts with e | e
  · rw [e]
    exact before.imp_right fun ⟨zero, out⟩ => ⟨zero, left (.inl out)⟩
  · exact .inr e

/-! ### What the sample writes -/

/-- R21: the reading asked for after that of a bay. -/
theorem nextReading_bay (thermal : Bool) (b : Bay) : nextReading thermal (.bay b) =
    if b ≠ 31 then some (.bay (b + 1)) else if thermal then some (.zone 0) else none := by
  by_cases last : b = 31
  · subst last; rfl
  · have lt : b.val + 1 < 32 := by
      have : b.val ≠ 31 := fun k => last (Fin.ext k)
      omega
    have next : (⟨b.val + 1, lt⟩ : Bay) = b + 1 := Fin.ext (by rw [Fin.val_add]; exact (Nat.mod_eq_of_lt lt).symm)
    rw [if_pos last, ← next]
    exact dif_pos lt

/-- R21, R23: the sample in the working round and the latest-reading table, and the next reading asked for. -/
def sampleWritten (b : Bay) (draw temperature : Byte) (r : Round) (s : State) : State :=
  { s with scan := { s.scan with
      round := some { r with
        awaiting := if b ≠ 31 then some (.bay (b + 1)) else if r.thermal then some (.zone 0) else none
        deadline := s.time.ms + 20 }
      working := {
        times := s.scan.working.times.set b (some s.time.ms)
        zones := s.scan.working.zones
        draws := s.scan.working.draws.set b (some draw)
        temps := if r.thermal then s.scan.working.temps.set b (some temperature) else s.scan.working.temps }
      latestDraw := s.scan.latestDraw.set b draw
      latestTemp := if r.thermal then s.scan.latestTemp.set b temperature else s.scan.latestTemp } }

theorem sampleTaken_eq {b : Bay} {r : Round} {s : State} (draw temperature : Byte) (round : s.scan.round = some r)
    (asked : r.awaiting = some (.bay b)) : sampleTaken b draw temperature s =
      (sampleWritten b draw temperature r s).setBay b (energySample s.time.ms draw (s.bay b)) := by
  have written : askNext (writeSample b draw (if inThermal s then some temperature else none) s) =
      sampleWritten b draw temperature r s := by
    have thermal : inThermal s = r.thermal := by simp [inThermal, round]
    have kept : ∀ reading, (writeSample b draw reading s).scan.round = some r := fun reading => by
      rw [writeSample_eq]; exact round
    rw [askNext, kept]
    dsimp only
    rw [asked, sampleWritten, ← nextReading_bay, thermal]
    cases r.thermal <;> rfl
  rw [sampleTaken, written]
  rfl

/-- R14, R15: the energy accumulator after a sample. -/
theorem energySample_eq (now : Nat) (draw : Byte) (r : BayRec) :
    let elapsed := match r.prevSample with | none => 0 | some before => min 2000 (now - before)
    let sum := r.residue + draw.toNat * elapsed
    let counts := r.state = .charging ∧ draw ≠ 255
    energySample now draw r = { r with
      prevSample := some now
      energy := if counts then min 4294967295 (r.energy + sum / 1000) else r.energy
      residue := if counts then sum % 1000 else r.residue } := by
  dsimp only
  have elapsed : elapsedMs now r.prevSample = match r.prevSample with | none => 0 | some before => min 2000 (now - before) := by
    unfold elapsedMs
    rfl
  by_cases counts : r.state = .charging ∧ draw ≠ 255
  · rw [energySample, if_pos counts, if_pos counts, if_pos counts, BayRec.accumulate, elapsed]
    rfl
  · rw [energySample, if_neg counts, if_neg counts, if_neg counts]

/-- Settles O17: the sample is written, then works on its bay alone, and passes follow. -/
theorem sampleIsRecordedAndCounted : Obligations.SampleIsRecordedAndCounted := by
  intro b draw temperature r s free round asked
  have awaits : awaited s = some (.bay b) := by simp [awaited, round, asked]
  have arrives : sampleArrives b draw temperature s = recordSample b draw temperature s := if_pos awaits
  have taken := sampleTaken_eq draw temperature round asked
  have work := recordSample_bayWork b draw temperature s
  have uncounted := recordSample_uncounted (b := b) (draw := draw) (temperature := temperature) (s := s)
  rw [taken] at work uncounted
  have view := work.view
  rw [bay_setBay_self, energySample_eq] at view
  simp only [sampleView, Prod.mk.injEq] at view
  obtain ⟨presence, line, sampled, energy, residue⟩ := view
  refine ⟨_, next_live free arrives, passFields_trans (setBay_fields _ b _).1 work.fields, fun c ne => ?_, presence, line,
    work.profile, sampled, energy, residue, fun h => uncounted h ?_ rfl rfl⟩
  · have written := (setBay_fields (sampleWritten b draw temperature r s) b (energySample s.time.ms draw (s.bay b))).2 c ne
    exact ⟨written.1.trans (work.others c ne).1, written.2.trans (work.others c ne).2⟩
  · rw [bay_setBay_self, energySample_eq]

end Sys2Proof.Machine
end

