-- ==== Sys2Proof/Proofs/Clock.lean ====
section
/-! PROOF. A tick changes the time base at its beginning alone, and takes no command and no reset (R193). -/

namespace Sys2Proof.Machine

/-- The time base, the waiting commands and the reset. -/
def clockView (s : State) := (s.time, s.pending, s.held)

/-- Work that leaves the time base, the waiting commands and the reset. -/
structure SameClock (s t : State) : Prop where
  view : clockView t = clockView s

theorem SameClock.refl (s : State) : SameClock s s := ⟨rfl⟩

theorem SameClock.trans {s t u : State} (h : SameClock s t) (h' : SameClock t u) : SameClock s u := ⟨h'.view.trans h.view⟩

theorem OnlyPass.clock {s t : State} (h : OnlyPass s t) : SameClock s t := by
  obtain ⟨_, _, _, _, _, _, _, _, _, _, _, rfl, _⟩ := h; exact ⟨rfl⟩

theorem OnlyLatches.clock {s t : State} (h : OnlyLatches s t) : SameClock s t := by
  obtain ⟨_, _, _, _, _, _, _, _, _, _, rfl⟩ := h; exact ⟨rfl⟩

theorem OnlyCustody.clock {s t : State} (h : OnlyCustody s t) : SameClock s t := h.latches.clock

theorem OnlyLanes.clock {s t : State} (h : OnlyLanes s t) : SameClock s t := h.pass.clock

theorem BayWork.clock {b : Bay} {s t : State} (h : BayWork b s t) : SameClock s t := ⟨by rw [h.fields]; rfl⟩

theorem finish_clock {s t : State} (h : SameClock s t) : SameClock s (finish t) := h.trans (finish_pass t).clock

theorem ite_clock {p : Prop} [Decidable p] {s t u : State} (h : SameClock s t) (h' : SameClock s u) :
    SameClock s (if p then t else u) := by
  split
  · exact h
  · exact h'

/-! ### The filters -/

theorem setBay_clock (s : State) (b : Bay) (r : BayRec) : SameClock s (s.setBay b r) := ⟨rfl⟩

theorem setChg_clock (s : State) (b : Bay) (r : ChargeRec) : SameClock s (s.setChg b r) := ⟨rfl⟩

theorem setLatch_clock (s : State) (b : Bay) (r : LatchRec) : SameClock s (s.setLatch b r) := ⟨rfl⟩

theorem attach_clock (b : Bay) (s : State) : SameClock s (attach b s) := by
  refine finish_clock (SameClock.trans ?_ (reportChange_pass _ _ _ _).clock)
  refine SameClock.trans ?_ (setChg_clock _ b _)
  refine SameClock.trans ?_ (custodyAttach_touch b _).clock
  exact (setBay_clock s b _).trans (note_touch _ _ _ _ _ _ _).clock

theorem detach_clock (b : Bay) (s : State) : SameClock s (detach b s) := by
  refine finish_clock (SameClock.trans ?_ (schedDetach_touch b _).clock)
  refine SameClock.trans ?_ (reportChange_pass _ _ _ _).clock
  refine SameClock.trans ?_ (setChg_clock _ b _)
  refine SameClock.trans ?_ (custodyDetach_touch b _).clock
  exact (setBay_clock s b _).trans (note_touch _ _ _ _ _ _ _).clock

theorem samplePresence_clock (b : Bay) (s : State) : SameClock s (samplePresence b s) := by
  unfold samplePresence
  exact ite_clock
    (ite_clock (setBay_clock s b _) (ite_clock (detach_clock b s) (setBay_clock s b _)))
    (ite_clock (setBay_clock s b _) (ite_clock (attach_clock b s) (setBay_clock s b _)))

theorem setShedRun_clock (n : Nat) (s : State) : SameClock s (setShedRun n s) := ⟨rfl⟩

theorem shedAccepts_clock (asserted : Bool) (s : State) : SameClock s (shedAccepts asserted s) := by
  have pin : SameClock s { s with pins := { s.pins with shedLine := asserted } } := ⟨rfl⟩
  refine ite_clock pin (finish_clock (SameClock.trans ?_ (recompute_touch _).clock))
  exact ⟨rfl⟩

theorem sampleShed_clock (s : State) : SameClock s (sampleShed s) :=
  ite_clock (setShedRun_clock 0 s) (ite_clock (shedAccepts_clock _ s) (setShedRun_clock _ s))

theorem sampleContact_clock (b : Bay) (c : Contact) (s : State) : SameClock s (sampleContact b c s) :=
  ite_clock (finish_clock (acceptLevel_touch b c _ s).clock) (setLatch_clock s b _)

theorem sampleContacts_clock (b : Bay) (s : State) : SameClock s (sampleContacts b s) :=
  ((sampleContact_clock b _ s).trans (sampleContact_clock b _ _)).trans (sampleContact_clock b _ _)

theorem startMachines_clock (s : State) : SameClock s (startMachines s) := by
  refine ite_clock (finish_clock (SameClock.trans ?_ (arbitrate_touch _).clock)) (.refl s)
  exact (eachBay_rel OnlyLatches.refl OnlyLatches.trans startIfReady_touch s).clock

theorem eachBay_clock {f : Bay → State → State} (h : ∀ b s, SameClock s (f b s)) (s : State) :
    SameClock s (eachBay f s) := eachBay_rel .refl .trans h s

theorem eachLane_clock {f : Lane → State → State} (h : ∀ l s, SameClock s (f l s)) (s : State) :
    SameClock s (eachLane f s) := eachLane_rel .refl .trans h s

theorem tickFilters_clock (s : State) : SameClock s (tickFilters s) :=
  (((eachBay_clock samplePresence_clock s).trans (sampleShed_clock _)).trans (eachBay_clock sampleContacts_clock _)).trans
    (startMachines_clock _)

/-! ### The timers -/

theorem askNext_clock (s : State) : SameClock s (askNext s) := by
  unfold askNext
  split <;> exact ⟨rfl⟩

theorem recordSample_clock (b : Bay) (d t : Byte) (s : State) : SameClock s (recordSample b d t s) := by
  refine SameClock.trans ?_ (recordSample_bayWork b d t s).clock
  refine SameClock.trans ?_ (setBay_clock _ b _)
  refine SameClock.trans ?_ (askNext_clock _)
  exact ⟨by rw [writeSample_eq]; rfl⟩

theorem recordZone_clock (z : Zone) (v : Byte) (s : State) : SameClock s (recordZone z v s) := by
  refine SameClock.trans ?_ (askNext_clock _)
  exact ⟨rfl⟩

theorem readingMissed_clock (s : State) : SameClock s (readingMissed s) := by
  unfold readingMissed
  split
  · exact .refl s
  · exact recordSample_clock _ _ _ s
  · exact recordZone_clock _ _ s

theorem tickReading_clock (s : State) : SameClock s (tickReading s) := by
  unfold tickReading
  split
  · exact .refl s
  · exact ite_clock (readingMissed_clock s) (.refl s)

theorem thermalCompletion_clock (zones : Vector Byte 4) (s : State) : SameClock s (thermalCompletion zones s) := by
  have zonesTaken : SameClock s { s with budget := { s.budget with
      h := cabinet zones, zonesInvalid := (cabinet zones).isNone, established := true } } := ⟨rfl⟩
  have computed := zonesTaken.trans (recompute_touch _).clock
  exact ite_clock (computed.trans (askPass_pass _).clock) computed

theorem startRound_clock (mark : Bool) (s : State) : SameClock s (startRound mark s) := ⟨rfl⟩

theorem setWait_clock (s : State) (t : Timer) : SameClock s { s with scan := { s.scan with wait := t } } := ⟨rfl⟩

theorem afterRound_clock (s : State) : SameClock s (afterRound s) := by
  unfold afterRound
  split
  · exact .refl s
  · exact ite_clock (startRound_clock false s) (setWait_clock s _)

theorem completeRound_clock (r : Round) (s : State) : SameClock s (completeRound r s) := by
  have published : SameClock s (publish r.thermal s) := ⟨rfl⟩
  have thermal := published.trans (ite_clock (p := r.thermal = true)
    ((thermalCompletion_clock (zoneReadings s) _).trans (runAsked_pass _).clock) (.refl _))
  refine finish_clock (SameClock.trans ?_ (afterRound_clock _))
  exact thermal.trans (ite_clock (note_touch _ _ _ _ _ _ _).clock (.refl _))

theorem roundCompletes_clock (s : State) : SameClock s (roundCompletes s) := by
  unfold roundCompletes
  split
  · exact .refl s
  · exact ite_clock (completeRound_clock _ s) (.refl s)

theorem periodExpires_clock (s : State) : SameClock s (periodExpires s) := by
  unfold periodExpires
  split
  · exact (setWait_clock s none).trans (startRound_clock false _)
  · exact .refl s

theorem backoffExpires_clock (b : Bay) (s : State) : SameClock s (backoffExpires b s) := by
  unfold backoffExpires
  dsimp only
  split
  · refine ite_clock (finish_clock ?_) (setBay_clock s b _)
    rw [leaveHold_eq]
    exact (setBay_clock s b _).trans (reportChange_pass _ _ _ _).clock
  · exact .refl s

theorem tickBackoff_clock (b : Bay) (s : State) : SameClock s (tickBackoff b s) := by
  unfold tickBackoff
  split
  · exact ite_clock (backoffExpires_clock b s) (.refl s)
  · exact .refl s
  · exact .refl s

theorem tickClean_clock (b : Bay) (s : State) : SameClock s (tickClean b s) := by
  refine ite_clock ?_ (.refl s)
  unfold cleanChargeExpires
  dsimp only
  split
  · exact .refl s
  · exact setBay_clock s b _

theorem tickCharge_clock (s : State) : SameClock s (tickCharge s) := by
  refine SameClock.trans ?_ (eachBay_clock tickClean_clock _)
  refine SameClock.trans ?_ (eachBay_clock tickBackoff_clock _)
  refine SameClock.trans ?_ (ite_clock (periodExpires_clock _) (.refl _))
  refine SameClock.trans ?_ (roundCompletes_clock _)
  exact (settleIfDue_pass s).clock.trans (tickReading_clock _)

theorem tickTravel_clock (b : Bay) (s : State) : SameClock s (tickTravel b s) := by
  refine ite_clock ?_ (.refl s)
  unfold travelTimeout
  dsimp only
  split
  · refine finish_clock (SameClock.trans ?_ (moverFreed_touch _ _).clock)
    exact ((setLatch_clock s b _).trans (latchNote_touch _ _ _ _ _).clock).trans (handOn_touch _ _ _).clock
  · refine ite_clock (finish_clock (SameClock.trans ?_ (moverFreed_touch _ _).clock)) (setLatch_clock s b _)
    exact (setLatch_clock s b _).trans (latchNote_touch _ _ _ _ _).clock
  · exact .refl s

theorem tickPause_clock (b : Bay) (s : State) : SameClock s (tickPause b s) := by
  refine ite_clock ?_ (.refl s)
  unfold retryPauseExpires
  dsimp only
  split
  · exact setLatch_clock s b _
  · exact .refl s

theorem tickWindow_clock (b : Bay) (s : State) : SameClock s (tickWindow b s) := by
  refine ite_clock ?_ (.refl s)
  unfold windowExpires
  split
  · exact finish_clock ((endWindow_touch b s).clock.trans (arbitrate_touch _).clock)
  · exact .refl s

theorem tickCloseSettle_clock (b : Bay) (s : State) : SameClock s (tickCloseSettle b s) := by
  refine ite_clock ?_ (.refl s)
  unfold closeSettleExpires
  dsimp only
  split
  · refine finish_clock (SameClock.trans ?_ (arbitrate_touch _).clock)
    exact (setLatch_clock s b _).trans (queueMotion_touch _ _ _).clock
  · exact .refl s

theorem tickLatches_clock (s : State) : SameClock s (tickLatches s) :=
  (((eachBay_clock tickTravel_clock s).trans (eachBay_clock tickPause_clock _)).trans
    (eachBay_clock tickWindow_clock _)).trans (eachBay_clock tickCloseSettle_clock _)

theorem tickLineCheck_clock (l : Lane) (s : State) : SameClock s (tickLineCheck l s) := by
  unfold tickLineCheck
  split
  · refine ite_clock ?_ (.refl s)
    unfold lineCheckMissed
    split
    · exact finish_clock (release_touch _ _ s).clock
    · exact .refl s
  · exact .refl s

theorem tickSession_clock (l : Lane) (s : State) : SameClock s (tickSession l s) := by
  unfold tickSession
  split
  · refine ite_clock ?_ (.refl s)
    unfold sessionExpires
    split
    · exact finish_clock (release_touch _ _ s).clock
    · exact .refl s
  · exact .refl s

theorem setLink_clock (s : State) (l : LinkPort) : SameClock s { s with link := l } := ⟨rfl⟩

theorem enterAutonomous_clock (s : State) : SameClock s (enterAutonomous s) := by
  refine finish_clock (SameClock.trans ?_ (recompute_touch _).clock)
  refine SameClock.trans ?_ (latchAutonomous_touch _).clock
  refine SameClock.trans ?_ (schedAutonomous_touch _).clock
  exact (setLink_clock s _).trans (note_touch _ _ _ _ _ _ _).clock

theorem tickWatchdog_clock (s : State) : SameClock s (tickWatchdog s) := by
  refine ite_clock ?_ (.refl s)
  unfold watchdogExpires
  split
  · exact .refl s
  · dsimp only
    split
    · exact (setLink_clock s _).trans (enterAutonomous_clock _)
    · exact setLink_clock s _

theorem tickGap_clock (s : State) : SameClock s (tickGap s) := by
  unfold tickGap
  split
  · exact .refl s
  · refine ite_clock ?_ (.refl s)
    unfold gapExpires
    split
    · exact .refl s
    · exact setLink_clock s _

theorem tickLink_clock (s : State) : SameClock s (tickLink s) :=
  (((eachLane_clock tickLineCheck_clock s).trans (eachLane_clock tickSession_clock _)).trans (tickWatchdog_clock _)).trans
    (tickGap_clock _)

/-- R193: after the minute count a tick leaves the time base. -/
theorem tickRest_clock (s : State) : SameClock s (tickLink (tickLatches (tickCharge (tickFilters s)))) :=
  (((tickFilters_clock s).trans (tickCharge_clock _)).trans (tickLatches_clock _)).trans (tickLink_clock _)

/-- R193: the minute counter advances, and its tests are no work on the time base. -/
theorem advanceMinute_clock (s : State) :
    SameClock { s with time := { s.time with minute := s.time.minute + 1, minuteTicks := 0 } } (advanceMinute s) :=
  finish_clock (custodyMinute_touch _).clock

end Sys2Proof.Machine
end

