-- ==== Sys2Proof/Proofs/Tick.lean ====
section
/-! PROOF. One tick: what the filters' samples and the timers that are due do (R2, R37, R107, R126, R193). -/

namespace Sys2Proof.Machine

/-! ### A latch machine that has started stays started -/

/-- Work that takes no latch machine back to before its start. -/
structure Started (s t : State) : Prop where
  kept : ∀ b, (s.latch b).state ≠ none → (t.latch b).state ≠ none

theorem Started.refl (s : State) : Started s s := ⟨fun _ => id⟩

theorem Started.trans {s t u : State} (h : Started s t) (h' : Started t u) : Started s u :=
  ⟨fun b started => h'.kept b (h.kept b started)⟩

theorem Started.of_latches {s t : State} (h : t.latches = s.latches) : Started s t :=
  ⟨fun b => by simp only [State.latch, h]; exact id⟩

theorem OnlyCustody.started {s t : State} (h : OnlyCustody s t) : Started s t := by
  obtain ⟨_, _, _, _, _, rfl⟩ := h; exact .of_latches rfl

theorem setLatch_started (s : State) (b : Bay) (l : LatchRec) (h : l.state ≠ none) : Started s (s.setLatch b l) := by
  refine ⟨fun c started => ?_⟩
  rw [latch_setLatch]
  split
  · exact h
  · exact started

theorem handOn_started (b : Bay) (ev : LatchEvent) (s : State) : Started s (handOn b ev s) := (handOn_touch b ev s).started

theorem latchNote_started (k : NoticeKind) (b : Bay) (d1 d2 : Byte) (s : State) : Started s (latchNote k b d1 d2 s) :=
  .of_latches rfl

theorem dropMotion_started (b : Bay) (s : State) : Started s (dropMotion b s) := .of_latches rfl

theorem queueMotion_started (b : Bay) (m : Motion) (s : State) : Started s (queueMotion b m s) := .of_latches rfl

theorem recompute_started (s : State) : Started s (recompute s) := by
  unfold recompute
  dsimp only
  split <;> exact .of_latches rfl

theorem enterReleased_started (b : Bay) (s : State) : Started s (enterReleased b s) := by
  unfold enterReleased
  exact ((setLatch_started s b _ (by simp)).trans (latchNote_started _ _ _ _ _)).trans (handOn_started _ _ _)

theorem enterLocked_started (b : Bay) (s : State) : Started s (enterLocked b s) :=
  (setLatch_started s b _ (by simp)).trans (handOn_started _ _ _)

theorem enterOpen_started (b : Bay) (s : State) : Started s (enterOpen b s) :=
  ((setLatch_started s b _ (by simp)).trans (dropMotion_started _ _)).trans (handOn_started _ _ _)

theorem enterClosing_started (b : Bay) (s : State) : Started s (enterClosing b s) := setLatch_started s b _ (by simp)

theorem enterClosingExtend_started (b : Bay) (s : State) : Started s (enterClosingExtend b s) :=
  (setLatch_started s b _ (by simp)).trans (queueMotion_started _ _ _)

theorem enterForced_started (b : Bay) (l : LatchState) (s : State) : Started s (enterForced b l s) := by
  unfold enterForced
  dsimp only
  exact ((((((setLatch_started s b _ (by simp)).trans (dropMotion_started _ _)).trans
    (ite_touch .refl (latchNote_started _ _ _ _ _))).trans (latchNote_started _ _ _ _ _)).trans
    (ite_touch .refl (handOn_started _ _ _))).trans (ite_touch .refl (handOn_started _ _ _))).trans
    (handOn_started _ _ _)

theorem enterSensorFault_started (b : Bay) (l : LatchState) (s : State) : Started s (enterSensorFault b l s) := by
  unfold enterSensorFault
  dsimp only
  exact (((((setLatch_started s b _ (by simp)).trans (dropMotion_started _ _)).trans
    (ite_touch .refl (latchNote_started _ _ _ _ _))).trans (latchNote_started _ _ _ _ _)).trans
    (ite_touch .refl (handOn_started _ _ _))).trans (ite_touch .refl (handOn_started _ _ _))

theorem grantExtend_started (b : Bay) (s : State) : Started s (grantExtend b s) :=
  (setLatch_started s b _ (by simp)).trans (ite_touch .refl (enterLocked_started _ _))

theorem grantRetract_started (b : Bay) (s : State) : Started s (grantRetract b s) :=
  ((setLatch_started s b _ (by simp)).trans (ite_touch .refl (handOn_started _ _ _))).trans
    (ite_touch .refl (enterReleased_started _ _))

theorem grantMotions_started (fuel : Nat) (s : State) : Started s (grantMotions fuel s) := by
  induction fuel generalizing s with
  | zero => exact .refl s
  | succ n ih =>
    simp only [grantMotions]
    split
    · split
      · exact .refl s
      · rename_i b m _
        cases m
        · exact ((dropMotion_started b s).trans (grantRetract_started b _)).trans (ih _)
        · exact ((dropMotion_started b s).trans (grantExtend_started b _)).trans (ih _)
    · exact .refl s

theorem arbitrate_started (s : State) : Started s (arbitrate s) := grantMotions_started _ _

theorem moverFreed_started (before s : State) : Started s (moverFreed before s) :=
  (ite_touch .refl (recompute_started s)).trans (arbitrate_started _)

theorem boltSlipped_started (b : Bay) (s : State) : Started s (boltSlipped b s) := by
  unfold boltSlipped
  split
  · exact .refl s
  · exact ((enterClosingExtend_started _ _).trans (handOn_started _ _ _)).trans (arbitrate_started _)

theorem sensorFaultTest_started (b : Bay) (s : State) : Started s (sensorFaultTest b s) := by
  unfold sensorFaultTest
  dsimp only
  split
  · exact .refl s
  split
  · exact enterOpen_started _ _
  split
  · exact enterLocked_started _ _
  split
  · exact (enterClosingExtend_started _ _).trans (arbitrate_started _)
  · exact .refl s

theorem doorOpened_started (b : Bay) (st : LatchState) (s : State) : Started s (doorOpened b st s) := by
  cases st <;> simp only [doorOpened]
  case locked => exact enterForced_started _ _ _
  case retracting =>
    exact ((((setLatch_started s b _ (by simp)).trans (latchNote_started _ _ _ _ _)).trans (handOn_started _ _ _)).trans
      (handOn_started _ _ _)).trans (moverFreed_started _ _)
  case released => exact enterOpen_started _ _
  case closing => exact enterOpen_started _ _
  case extending => exact (enterOpen_started _ _).trans (moverFreed_started _ _)
  case jammed =>
    split
    · exact enterForced_started _ _ _
    · exact enterOpen_started _ _
  all_goals exact .refl s

theorem doorShut_started (b : Bay) (st : LatchState) (s : State) : Started s (doorShut b st s) := by
  cases st <;> simp only [doorShut]
  case opened => exact enterClosing_started _ _
  case forced =>
    split
    · exact enterLocked_started _ _
    · exact enterClosing_started _ _
  all_goals exact .refl s

theorem boltMoved_started (b : Bay) (st : LatchState) (c : Contact) (a : Bool) (s : State) :
    Started s (boltMoved b st c a s) := by
  unfold boltMoved
  split
  · exact (enterReleased_started _ _).trans (moverFreed_started _ _)
  split
  · exact (enterLocked_started _ _).trans (moverFreed_started _ _)
  exact ite_touch .refl (boltSlipped_started _ _)

/-- R110 to R117: a contact event leaves a started machine in one of its states. -/
theorem machineEvent_started (b : Bay) (st : LatchState) (c : Contact) (a : Bool) (s : State) :
    Started s (machineEvent b st c a s) := by
  unfold machineEvent
  dsimp only
  split
  · exact sensorFaultTest_started _ _
  split
  · split
    · exact (enterSensorFault_started _ _ _).trans (moverFreed_started _ _)
    · exact enterSensorFault_started _ _ _
  cases c
  · exact boltMoved_started _ _ _ _ _
  · exact boltMoved_started _ _ _ _ _
  · dsimp only
    split
    · exact doorShut_started _ _ _
    · exact doorOpened_started _ _ _

/-- R107: a level accepted from a machine that has started leaves it started. -/
theorem acceptLevel_started {b : Bay} {s : State} (c : Contact) (a : Bool) (h : (s.latch b).state ≠ none) :
    ((acceptLevel b c a s).latch b).state ≠ none := by
  have put := setLatch_started s b ((s.latch b).setFilter c ⟨some a, 0, some a⟩) (by rw [setFilter_state]; exact h)
  unfold acceptLevel
  dsimp only
  split
  · exact put.kept b h
  · exact put.kept b h
  · split
    · exact h
    · exact (put.trans (machineEvent_started _ _ _ _ _)).kept b h

theorem readyToStart_started {l : LatchRec} (h : l.state ≠ none) : readyToStart l = false := by
  simp [readyToStart, h]

/-! ### The lines stand at the levels sampled -/

theorem setSignature_same {b : Bay} {level : Bool} {s : State} (h : s.pins.signature[b] = level) :
    setSignature b level s = s := by
  subst h
  simp [setSignature]

theorem rawContacts_set_get (r : RawContacts) (c : Contact) : r.set c (r.get c) = r := by
  cases c <;> rfl

theorem setContactPin_same {b : Bay} {c : Contact} {level : Bool} {s : State} (h : s.pins.contacts[b].get c = level) :
    setContactPin b c level s = s := by
  subst h
  simp [setContactPin, rawContacts_set_get]

/-! ### The presence and SHED filters -/

theorem samplePresence_present {b : Bay} {s : State} (h : (s.bay b).presence = true) : samplePresence b s =
    if s.pins.signature[b] = true then s.setBay b { s.bay b with absenceRun := 0 }
    else if 50 ≤ (s.bay b).absenceRun + 1 then detach b s
    else s.setBay b { s.bay b with absenceRun := (s.bay b).absenceRun + 1 } := if_pos h

theorem samplePresence_absent {b : Bay} {s : State} (h : (s.bay b).presence = false) : samplePresence b s =
    if s.pins.signature[b] = false then s.setBay b { s.bay b with attachRun := 0 }
    else if 500 ≤ (s.bay b).attachRun + 1 then attach b s
    else s.setBay b { s.bay b with attachRun := (s.bay b).attachRun + 1 } := if_neg (by simp [h])

/-- R2: the sample that completes the run is the attach or the detach. -/
theorem detachEvent_present {b : Bay} {s : State} (h : (s.bay b).presence = true) (line : s.pins.signature[b] = false) :
    detachEvent b s = detach b s := by
  rw [detachEvent, if_pos h, setSignature_same line]

theorem attachEvent_absent {b : Bay} {s : State} (h : (s.bay b).presence = false) (line : s.pins.signature[b] = true) :
    attachEvent b s = attach b s := by
  rw [attachEvent, if_neg (by simp [h]), setSignature_same line]

/-! ### The contact filters -/

/-- R107: an acceptance of another level by a filter whose machine has started is the contact event. -/
theorem contactEvent_sampled {b : Bay} {c : Contact} {s : State} (h : (s.latch b).state ≠ none) :
    contactEvent b c (s.pins.contacts[b].get c) s = finish (acceptLevel b c (s.pins.contacts[b].get c) s) := by
  have idle := readyToStart_started (acceptLevel_started c (s.pins.contacts[b].get c) h)
  rw [contactEvent, setContactPin_same rfl]
  rw [if_neg (by rw [idle]; exact Bool.false_ne_true)]

/-! ### The starts of the latch machines -/

theorem allBays_split (b : Bay) : ∃ l r, allBays = l ++ b :: r ∧ b ∉ l ∧ b ∉ r := by
  obtain ⟨l, r, split⟩ := List.append_of_mem (mem_allBays b)
  have once := allBays_nodup
  rw [split, List.nodup_append] at once
  obtain ⟨_, tail, apart⟩ := once
  exact ⟨l, r, split, fun mem => apart b mem b (.head _) rfl, (List.nodup_cons.1 tail).1⟩

/-- Work over all bays of which only one bay has any. -/
theorem eachBay_one {f : Bay → State → State} {b : Bay} {s : State} (before : ∀ c, c ≠ b → f c s = s)
    (after : ∀ c, c ≠ b → f c (f b s) = f b s) : eachBay f s = f b s := by
  obtain ⟨l, r, split, left, right⟩ := allBays_split b
  rw [eachBay, split, List.foldl_append, List.foldl_cons,
    foldl_fixed f s l fun c mem => before c fun e => left (e ▸ mem)]
  exact foldl_fixed f (f b s) r fun c mem => after c fun e => right (e ▸ mem)

/-- R126: the start of a machine leaves the other latches. -/
theorem startMachine_latch {b c : Bay} (s : State) (ne : c ≠ b) : (startMachine b s).latch c = s.latch c := by
  unfold startMachine
  dsimp only
  split
  · exact latch_setLatch_ne s b c _ ne
  split
  · exact latch_setLatch_ne s b c _ ne
  split
  · exact latch_setLatch_ne s b c _ ne
  split
  · exact latch_setLatch_ne s b c _ ne
  · exact latch_setLatch_ne s b c _ ne

theorem startIfReady_idle {c : Bay} {s : State} (h : readyToStart (s.latch c) = false) : startIfReady c s = s :=
  if_neg (by simp [h])

/-- R126: of the machines one is due. -/
theorem startMachines_one {b : Bay} {s : State} (due : readyToStart (s.latch b) = true)
    (others : ∀ c, c ≠ b → readyToStart (s.latch c) = false) :
    startMachines s = finish (arbitrate (startMachine b s)) := by
  have starts : startIfReady b s = startMachine b s := if_pos due
  have each : eachBay startIfReady s = startIfReady b s := by
    refine eachBay_one (fun c ne => startIfReady_idle (others c ne)) fun c ne => startIfReady_idle ?_
    rw [starts, startMachine_latch s ne]
    exact others c ne
  rw [startMachines, if_pos (List.any_eq_true.2 ⟨b, mem_allBays b, due⟩), each, starts]

theorem startMachines_none {s : State} (h : ∀ b, readyToStart (s.latch b) = false) : startMachines s = s :=
  if_neg (by simp [h])

theorem latchMachineStart_sampled {b : Bay} {out inn shut : Bool} {s : State} (lines : s.pins.contacts[b] = ⟨out, inn, shut⟩)
    (latch : s.latch b = { s.latch b with
      boltOut := ⟨some out, 0, some out⟩, boltIn := ⟨some inn, 0, some inn⟩, door := ⟨some shut, 0, some shut⟩
      state := none }) :
    latchMachineStart b out inn shut s = finish (arbitrate (startMachine b s)) := by
  have state : (s.latch b).state = none := by rw [latch]
  have pins : setContactPin b .boltOut out (setContactPin b .boltIn inn (setContactPin b .doorClosed shut s)) = s := by
    rw [setContactPin_same (c := .doorClosed) (by rw [lines]; rfl),
      setContactPin_same (c := .boltIn) (by rw [lines]; rfl), setContactPin_same (c := .boltOut) (by rw [lines]; rfl)]
  have record : { s.latch b with
      boltOut := ⟨some out, 0, some out⟩, boltIn := ⟨some inn, 0, some inn⟩, door := ⟨some shut, 0, some shut⟩ } =
      s.latch b := by
    conv_rhs => rw [latch, ← state]
  have same : s.setLatch b (s.latch b) = s := by simp [State.setLatch, State.latch]
  rw [latchMachineStart, if_neg (not_not_intro state)]
  dsimp only
  rw [pins, record, same]

/-! ### The samples of the filters -/

/-- R2: a sample of the presence filter, by the run it makes. -/
theorem samplePresence_cases (b : Bay) (s : State) (free : s.held = none) :
    let bay := s.bay b
    let run := fun n : Nat => s.setBay b (if bay.presence then { bay with absenceRun := n } else { bay with attachRun := n })
    let n := if bay.presence then bay.absenceRun + 1 else bay.attachRun + 1
    let limit := if bay.presence then 50 else 500
    (s.pins.signature[b] = bay.presence → samplePresence b s = run 0) ∧
    (s.pins.signature[b] ≠ bay.presence → (n < limit → samplePresence b s = run n) ∧
      (limit ≤ n → exec (if bay.presence then .detach b else .attach b) s = .next (samplePresence b s))) := by
  intro bay run n limit
  rcases Bool.eq_false_or_eq_true bay.presence with present | present
  · have runs : ∀ k, run k = s.setBay b { bay with absenceRun := k } := fun k => congrArg (s.setBay b) (if_pos present)
    have counts : n = bay.absenceRun + 1 := if_pos present
    have bound : limit = 50 := if_pos present
    rw [samplePresence_present present, runs, runs, counts, bound, if_pos present]
    refine ⟨fun line => if_pos (line.trans present), fun line => ⟨fun lt => ?_, fun le => next_live free ?_⟩⟩
    · rw [if_neg (line ∘ (·.trans present.symm))]
      exact if_neg (not_le.2 lt)
    · rw [detachEvent_present present (by simpa [bay, present] using line), if_neg (line ∘ (·.trans present.symm))]
      exact (if_pos le).symm
  · have absent : ¬ bay.presence = true := by simp [present]
    have runs : ∀ k, run k = s.setBay b { bay with attachRun := k } := fun k => congrArg (s.setBay b) (if_neg absent)
    have counts : n = bay.attachRun + 1 := if_neg absent
    have bound : limit = 500 := if_neg absent
    rw [samplePresence_absent present, runs, runs, counts, bound, if_neg absent]
    refine ⟨fun line => if_pos (line.trans present), fun line => ⟨fun lt => ?_, fun le => next_live free ?_⟩⟩
    · rw [if_neg (line ∘ (·.trans present.symm))]
      exact if_neg (not_le.2 lt)
    · rw [attachEvent_absent present (by simpa [bay, present] using line), if_neg (line ∘ (·.trans present.symm))]
      exact (if_pos le).symm

/-- R37: a sample of the SHED filter. -/
theorem sampleShed_cases (s : State) (free : s.held = none) :
    (s.pins.shedLine = s.budget.shed → sampleShed s = { s with budget := { s.budget with shedRun := 0 } }) ∧
    (s.pins.shedLine ≠ s.budget.shed →
      (s.budget.shedRun + 1 < 20 →
        sampleShed s = { s with budget := { s.budget with shedRun := s.budget.shedRun + 1 } }) ∧
      (20 ≤ s.budget.shedRun + 1 → exec (.shedChange s.pins.shedLine) s = .next (sampleShed s))) := by
  refine ⟨fun line => if_pos line, fun line => ⟨fun lt => ?_, fun le => next_live free ?_⟩⟩
  · rw [sampleShed, if_neg line]
    exact if_neg (not_le.2 lt)
  · rw [sampleShed, if_neg line]
    exact (if_pos le).symm

/-- R107: a sample that completes a filter's run, or does not. -/
theorem sampleContact_run {b : Bay} {c : Contact} {s : State}
    (h : ((s.latch b).filter c).differs (s.pins.contacts[b].get c) = true) :
    (((s.latch b).filter c).runAfter (s.pins.contacts[b].get c) < s.latchUnit.settings.noise → sampleContact b c s =
      s.setLatch b ((s.latch b).setFilter c { (s.latch b).filter c with
        run := ((s.latch b).filter c).runAfter (s.pins.contacts[b].get c), seen := some (s.pins.contacts[b].get c) })) ∧
    (s.latchUnit.settings.noise ≤ ((s.latch b).filter c).runAfter (s.pins.contacts[b].get c) →
      sampleContact b c s = finish (acceptLevel b c (s.pins.contacts[b].get c) s)) :=
  ⟨fun lt => if_neg fun k => absurd k.2 (not_le.2 lt), fun le => if_pos ⟨h, le⟩⟩

/-- R107: a first level accepted, or one accepted before the machine has started, is no event. -/
theorem acceptLevel_quiet {b : Bay} {c : Contact} {a : Bool} {s : State}
    (h : ((s.latch b).filter c).level = none ∨ (s.latch b).state = none) :
    acceptLevel b c a s = s.setLatch b ((s.latch b).setFilter c ⟨some a, 0, some a⟩) := by
  unfold acceptLevel
  dsimp only
  split
  · rfl
  · rfl
  · rename_i accepted started
    rw [accepted, started] at h
    rcases h with h | h <;> cases h

/-- R107: a sample of a contact filter, by the accepted level. -/
theorem sampleContact_cases (b : Bay) (c : Contact) (s : State) (free : s.held = none) :
    let f := (s.latch b).filter c
    let level := s.pins.contacts[b].get c
    let put := fun g : Filter => s.setLatch b ((s.latch b).setFilter c g)
    let noise := s.latchUnit.settings.noise
    let same := if f.seen = some level then f.run + 1 else 1
    (f.level = some level → sampleContact b c s = put ⟨some level, 0, some level⟩) ∧
    (f.level = some (!level) →
      (f.run + 1 < noise → sampleContact b c s = put ⟨f.level, f.run + 1, some level⟩) ∧
      (noise ≤ f.run + 1 → (s.latch b).state ≠ none →
        exec (.contactEvent b c level) s = .next (sampleContact b c s)) ∧
      (noise ≤ f.run + 1 → (s.latch b).state = none →
        sampleContact b c s = finish (put ⟨some level, 0, some level⟩))) ∧
    (f.level = none →
      (same < noise → sampleContact b c s = put ⟨none, same, some level⟩) ∧
      (noise ≤ same → sampleContact b c s = finish (put ⟨some level, 0, some level⟩))) := by
  dsimp only
  have sampled := sampleContact_run (b := b) (c := c) (s := s)
  have quiet := acceptLevel_quiet (b := b) (c := c) (a := s.pins.contacts[b].get c) (s := s)
  have event := contactEvent_sampled (b := b) (c := c) (s := s)
  have stands : ((s.latch b).filter c).differs (s.pins.contacts[b].get c) = false → sampleContact b c s =
      s.setLatch b ((s.latch b).setFilter c { (s.latch b).filter c with
        run := ((s.latch b).filter c).runAfter (s.pins.contacts[b].get c), seen := some (s.pins.contacts[b].get c) }) :=
    fun same => if_neg fun k => Bool.false_ne_true (same.symm.trans k.1)
  generalize s.pins.contacts[b].get c = level at *
  generalize (s.latch b).filter c = f at *
  refine ⟨fun accepted => ?_, fun accepted => ?_, fun accepted => ?_⟩
  · rw [stands (by simp [Filter.differs, accepted])]
    simp [Filter.runAfter, accepted]
  · have differs : f.differs level = true := by simp [Filter.differs, accepted]
    have run : f.runAfter level = f.run + 1 := by simp [Filter.runAfter, accepted]
    obtain ⟨short, full⟩ := sampled differs
    rw [run] at short full
    refine ⟨short, fun le started => next_live free ?_, fun le idle => ?_⟩
    · rw [full le, event started]
    · rw [full le, quiet (.inr idle)]
  · have differs : f.differs level = true := by simp [Filter.differs, accepted]
    have run : f.runAfter level = if f.seen = some level then f.run + 1 else 1 := by simp [Filter.runAfter, accepted]
    obtain ⟨short, full⟩ := sampled differs
    rw [run] at short full
    refine ⟨fun lt => ?_, fun le => ?_⟩
    · rw [short lt, ← accepted]
    · rw [full le, quiet (.inl accepted)]

/-! ### The timers -/

/-- R193: `t` is what the event `i` makes of `s` when it is due, and `s` otherwise. -/
def Falls (s t : State) (when_ : Prop) (i : Instr) : Prop := (when_ → exec i s = .next t) ∧ (¬ when_ → t = s)

theorem timer_due_iff (t : Timer) (now : Nat) : t.due now = true ↔ ∃ expiry, t = some expiry ∧ expiry ≤ now := by
  cases t <;> simp [Timer.due]

/-- R193: an event that expires in the tick at which it is due. -/
theorem falls_ite {s : State} {p : Prop} [Decidable p] {when_ : Prop} {i : Instr} {f : State → State} (free : s.held = none)
    (iff : p ↔ when_) (event : exec i s = .next (live f s)) : Falls s (if p then f s else s) when_ i := by
  refine ⟨fun h => ?_, fun h => if_neg (h ∘ iff.1)⟩
  rw [if_pos (iff.2 h), event, live_of_free f free]

theorem tickReading_falls (s : State) (free : s.held = none) :
    Falls s (tickReading s) (∃ r, s.scan.round = some r ∧ r.deadline ≤ s.time.ms) .readingDeadline := by
  unfold tickReading
  cases round : s.scan.round with
  | none => exact ⟨by simp, fun _ => rfl⟩
  | some r => exact falls_ite free (by simp) rfl

theorem roundCompletes_falls (s : State) (free : s.held = none) :
    Falls s (roundCompletes s) (∃ r, s.scan.round = some r ∧ r.awaiting = none) .roundComplete := by
  refine ⟨fun _ => next_live free rfl, fun h => ?_⟩
  unfold roundCompletes
  split
  · rfl
  · rename_i r round
    exact if_neg fun k => h ⟨r, round, k⟩

theorem tickBackoff_falls (b : Bay) (s : State) (free : s.held = none) :
    Falls s (tickBackoff b s) (∃ expiry, (s.bay b).backoff = .running expiry ∧ expiry ≤ s.time.ms) (.backoffExpiry b) := by
  unfold tickBackoff
  cases backoff : (s.bay b).backoff with
  | running expiry => exact falls_ite free (by simp) rfl
  | stopped => exact ⟨by simp, fun _ => rfl⟩
  | coolDown => exact ⟨by simp, fun _ => rfl⟩

theorem tickLineCheck_falls (l : Lane) (s : State) (free : s.held = none) :
    Falls s (tickLineCheck l s)
      (∃ e number started, (s.lane l).state = .qualifying e (.lineCheck number started) ∧ started + 20 ≤ s.time.ms)
      (.lineCheckDeadline l) := by
  unfold tickLineCheck
  split
  · rename_i e number started state
    refine falls_ite free ⟨fun le => ⟨e, number, started, state, le⟩, ?_⟩ rfl
    rintro ⟨e', number', started', state', le⟩
    obtain ⟨rfl, rfl, rfl⟩ : e = e' ∧ number = number' ∧ started = started' := by
      simpa using state.symm.trans state'
    exact le
  · rename_i other
    exact ⟨fun ⟨e, number, started, state, _⟩ => absurd state (other e number started), fun _ => rfl⟩

theorem tickSession_falls (l : Lane) (s : State) (free : s.held = none) :
    Falls s (tickSession l s) (∃ e expiry, (s.lane l).state = .active e expiry ∧ expiry ≤ s.time.ms)
      (.sessionExpiry l) := by
  unfold tickSession
  split
  · rename_i e expiry state
    refine falls_ite free ⟨fun le => ⟨e, expiry, state, le⟩, ?_⟩ rfl
    rintro ⟨e', expiry', state', le⟩
    obtain ⟨rfl, rfl⟩ : e = e' ∧ expiry = expiry' := by simpa using state.symm.trans state'
    exact le
  · rename_i other
    exact ⟨fun ⟨e, expiry, state, _⟩ => absurd state (other e expiry), fun _ => rfl⟩

theorem tickGap_falls (s : State) (free : s.held = none) :
    Falls s (tickGap s) (∃ bytes last, s.link.rx = .inside bytes last ∧ 20 < s.time.ms - last) .interbyteGapTimeout := by
  unfold tickGap
  cases rx : s.link.rx with
  | hunting => exact ⟨by simp, fun _ => rfl⟩
  | inside bytes last =>
    refine falls_ite free ⟨fun lt => ⟨bytes, last, rfl, lt⟩, ?_⟩ rfl
    rintro ⟨bytes', last', same, lt⟩
    cases same
    exact lt

/-! ### The tick -/

/-- R193: the minute count of a tick. -/
theorem tickMinute_clock (s : State) :
    (tickMinute (countTick s)).time.ms = s.time.ms + 1 ∧ (tickMinute (countTick s)).pending = s.pending ∧
      (tickMinute (countTick s)).held = s.held ∧
      (s.time.minuteTicks + 1 < 60000 → (tickMinute (countTick s)).time.minute = s.time.minute ∧
        (tickMinute (countTick s)).time.minuteTicks = s.time.minuteTicks + 1) ∧
      (60000 ≤ s.time.minuteTicks + 1 → (tickMinute (countTick s)).time.minute = s.time.minute + 1 ∧
        (tickMinute (countTick s)).time.minuteTicks = 0) := by
  by_cases full : 60000 ≤ s.time.minuteTicks + 1
  · have advances : tickMinute (countTick s) = advanceMinute (countTick s) := if_pos full
    have view := (advanceMinute_clock (countTick s)).view
    simp only [clockView, Prod.mk.injEq] at view
    obtain ⟨time, pending, held⟩ := view
    rw [advances, time, pending, held]
    exact ⟨rfl, rfl, rfl, fun lt => absurd full (not_le.2 lt), fun _ => ⟨rfl, rfl⟩⟩
  · have stays : tickMinute (countTick s) = countTick s := if_neg full
    rw [stays]
    exact ⟨rfl, rfl, rfl, fun _ => ⟨rfl, rfl⟩, fun le => absurd le full⟩

/-- Settles O2: the tick's order is that of its definition; each filter and timer has its own lemma. -/
theorem emptyQueueStepIsOneTick : Obligations.EmptyQueueStepIsOneTick := by
  refine ⟨fun s idle => ⟨fun held => ?_, fun free => ?_⟩, fun b c s free => ?_, fun b l s free => ?_⟩
  · rw [step, idle]
    exact congrArg Host.Outcome.next (live_of_held _ held)
  · have taken : step s = .next (tick s) := by rw [step, idle]
    have ticks : tick s = tickLink (tickLatches (tickCharge (tickFilters (tickMinute (countTick s))))) :=
      live_of_free _ free
    have rest := (tickRest_clock (tickMinute (countTick s))).view
    rw [← ticks] at rest
    simp only [clockView, Prod.mk.injEq] at rest
    obtain ⟨time, pending, held⟩ := rest
    obtain ⟨ms, pending', held', stays, advances⟩ := tickMinute_clock s
    refine ⟨tick s, taken, by rw [time, ms], by rw [pending, pending', idle], by rw [held, held', free], ?_, ?_, ticks⟩
    · rw [time]; exact stays
    · rw [time]; exact advances
  · obtain ⟨present, other⟩ := samplePresence_cases b s free
    obtain ⟨shed, unshed⟩ := sampleShed_cases s free
    obtain ⟨accepted, changed, first⟩ := sampleContact_cases b c s free
    refine ⟨present, other, shed, unshed, accepted, changed, first, startMachines_none, fun out inn shut lines latch others => ?_⟩
    refine next_live free ((latchMachineStart_sampled lines latch).trans (startMachines_one ?_ others).symm)
    rw [latch]
    simp [readyToStart]
  · exact ⟨falls_ite free Iff.rfl rfl, falls_ite free (timer_due_iff _ _) rfl, tickReading_falls s free,
      roundCompletes_falls s free, falls_ite free (timer_due_iff _ _) rfl, tickBackoff_falls b s free,
      falls_ite free (timer_due_iff _ _) rfl, falls_ite free (timer_due_iff _ _) rfl,
      falls_ite free (timer_due_iff _ _) rfl, falls_ite free (timer_due_iff _ _) rfl,
      falls_ite free (timer_due_iff _ _) rfl, tickLineCheck_falls l s free, tickSession_falls l s free,
      falls_ite free (timer_due_iff _ _) rfl, tickGap_falls s free⟩

end Sys2Proof.Machine
end

