-- ==== Sys2Proof/Proofs/Rounds.lean ====
section
/-! PROOF. Rounds: their zone readings and missed readings, their completion, and how they start. -/

namespace Sys2Proof.Machine

/-! ### Readings -/

theorem awaited_of_round {s : State} {r : Round} (round : s.scan.round = some r) : awaited s = r.awaiting := by
  rw [awaited, round]

/-- R22: the reading asked for after that of a zone. -/
theorem nextReading_zone (thermal : Bool) (z : Zone) : nextReading thermal (.zone z) =
    if z ≠ 3 then some (.zone (z + 1)) else none := by
  revert thermal z
  decide

/-- R21: what asks for the next reading, when the round in flight awaits one. -/
theorem askNext_awaiting {s : State} {r : Round} {x : Reading} (round : s.scan.round = some r)
    (asked : r.awaiting = some x) : askNext s = { s with scan := { s.scan with
      round := some { r with awaiting := nextReading r.thermal x, deadline := s.time.ms + 20 } } } := by
  simp only [askNext, round, asked, Config.readingDeadline]

/-- R22, R23: the awaited zone reading is recorded. -/
theorem recordZone_eq {z : Zone} {r : Round} {s : State} (value : Byte) (round : s.scan.round = some r)
    (asked : r.awaiting = some (.zone z)) : recordZone z value s = { s with scan := { s.scan with
      round := some { r with
        awaiting := if z ≠ 3 then some (.zone (z + 1)) else none
        deadline := s.time.ms + 20 }
      working := { s.scan.working with zones := s.scan.working.zones.set z (some value) }
      latestZone := s.scan.latestZone.set z value } } := by
  rw [← nextReading_zone r.thermal z]
  exact askNext_awaiting round asked

/-- R21: a sample that misses its deadline is recorded as 255. -/
theorem readingMissed_bay {b : Bay} {s : State} (asked : awaited s = some (.bay b)) :
    readingMissed s = sampleArrives b 255 255 s := by
  simp only [readingMissed, sampleArrives, asked, if_pos]

/-- R21: a zone reading that misses its deadline is recorded as 255. -/
theorem readingMissed_zone {z : Zone} {s : State} (asked : awaited s = some (.zone z)) :
    readingMissed s = zoneArrives z 255 s := by
  simp only [readingMissed, zoneArrives, asked, if_pos]

theorem readingMissed_idle {s : State} (idle : awaited s = none) : readingMissed s = s := by
  simp only [readingMissed, idle]

/-- Settles O20: by the reading that the round awaits. -/
theorem zoneAndMissedReadingsAreRecorded : Obligations.ZoneAndMissedReadingsAreRecorded := by
  refine fun s free => ⟨fun z value r round asked => ?_, fun b asked => ?_, fun z asked => ?_,
    fun idle => next_live free (readingMissed_idle idle),
    fun b draw temperature other => next_live free (if_neg other), fun z value other => next_live free (if_neg other)⟩
  · have arrives : zoneArrives z value s = recordZone z value s := if_pos ((awaited_of_round round).trans asked)
    exact next_live free (arrives.trans (recordZone_eq value round asked))
  · exact (next_live free (readingMissed_bay asked)).trans (next_live free (f := sampleArrives b 255 255) rfl).symm
  · exact (next_live free (readingMissed_zone asked)).trans (next_live free (f := zoneArrives z 255) rfl).symm

/-! ### The budget at a completion -/

/-- R40: passes leave the inputs of the derate factor. -/
theorem OnlyPass.derateNow_eq {s t : State} (h : OnlyPass s t) : derateNow t = derateNow s := by
  rw [h.fields]; rfl

/-- R38 to R41: passes leave the inputs of the budget. -/
theorem OnlyPass.budgetNow_eq {s t : State} (h : OnlyPass s t) : budgetNow t = budgetNow s := by
  rw [h.fields]; rfl

/-- R42: the state with D and B computed from its inputs and stored. -/
def budgetStored (s : State) : State :=
  { s with budget := { s.budget with derate := derateNow s, computed := budgetNow s } }

theorem recompute_eq (s : State) : recompute s =
    if s.budget.established ∧ asksPass s.budget.settings.hysteresis (budgetNow s) s.budget.lastPass then
      askPass (budgetStored s) else budgetStored s := rfl

/-- R42, R44: but for the pass that it may ask for, a computation stores D and B. -/
theorem recompute_pass (s : State) : OnlyPass (budgetStored s) (recompute s) := by
  rw [recompute_eq]
  exact ite_touch .refl (askPass_pass _)

/-- R39, R43: the zone readings as the Budget Unit takes them. -/
def zonesTaken (zones : Vector Byte 4) (s : State) : State :=
  { s with budget := { s.budget with h := cabinet zones, zonesInvalid := (cabinet zones).isNone, established := true } }

theorem thermalCompletion_eq (zones : Vector Byte 4) (s : State) : thermalCompletion zones s =
    if (!s.budget.established) = true then askPass (recompute (zonesTaken zones s))
    else recompute (zonesTaken zones s) := rfl

theorem thermalCompletion_pass (zones : Vector Byte 4) (s : State) :
    OnlyPass (budgetStored (zonesTaken zones s)) (thermalCompletion zones s) := by
  rw [thermalCompletion_eq]
  exact (recompute_pass _).trans (ite_touch .refl (askPass_pass _))

/-- R43: the first thermal completion asks for a pass. -/
theorem thermalCompletion_first (zones : Vector Byte 4) {s : State} (first : s.budget.established = false) :
    (thermalCompletion zones s).alloc.passAsked = true := by
  rw [thermalCompletion_eq, if_pos (by rw [first]; rfl)]
  rfl

theorem asksPass_some {hysteresis newB last : Nat} (h : newB < last ∨ (last < newB ∧ last + hysteresis ≤ newB)) :
    asksPass hysteresis newB (some last) = true := by
  simp only [asksPass, decide_eq_true_eq]
  omega

/-- R44: a thermal completion whose B is lower, or higher by the hysteresis, asks for a pass. -/
theorem thermalCompletion_asks (zones : Vector Byte 4) {s : State} {last : Nat} (passed : s.budget.lastPass = some last)
    (h : budgetNow (zonesTaken zones s) < last ∨ (last < budgetNow (zonesTaken zones s) ∧
      last + s.budget.settings.hysteresis ≤ budgetNow (zonesTaken zones s))) :
    (thermalCompletion zones s).alloc.passAsked = true := by
  have asks : asksPass s.budget.settings.hysteresis (budgetNow (zonesTaken zones s))
      (zonesTaken zones s).budget.lastPass = true := (congrArg _ passed).trans (asksPass_some h)
  have computed : recompute (zonesTaken zones s) = askPass (budgetStored (zonesTaken zones s)) :=
    if_pos ⟨rfl, asks⟩
  rw [thermalCompletion_eq, computed]
  split <;> rfl

/-! ### The completion of a round -/

/-- R21: what starts a round. -/
theorem startRound_eq (mark : Bool) (s : State) : startRound mark s = { s with scan := { s.scan with
    round := some
      { thermal := s.scan.index = 0, mark := mark, awaiting := some (.bay 0), deadline := s.time.ms + 20 }
    working := Working.cleared } } := rfl

theorem periodMs_eq_zero (code : Fin 4) : periodMs code = 0 ↔ code = 0 := by
  revert code
  decide

/-- R24, step 7: the Scan Engine once the next round or the period wait has started. -/
def nextScan (now : Nat) (c : ScanEngine) : ScanEngine :=
  match c.mode with
  | .onRequest => c
  | .continuous =>
    if c.periodCode = 0 then
      { c with
        round := some { thermal := c.index = 0, mark := false, awaiting := some (.bay 0), deadline := now + 20 }
        working := Working.cleared }
    else { c with wait := some (now + periodMs c.periodCode) }

theorem afterRound_eq (s : State) : afterRound s = { s with scan := nextScan s.time.ms s.scan } := by
  cases mode : s.scan.mode with
  | onRequest => simp only [afterRound, nextScan, mode]
  | continuous =>
    simp only [afterRound, nextScan, mode, periodMs_eq_zero, startRound_eq]
    split <;> rfl

/-- R24, step 6: the notice of a marked round. -/
def roundNotices (r : Round) (s : State) : List Notice :=
  if r.mark then
    [⟨.roundDone, 0, s.time.minute, hiByte (s.scan.number + 1), loByte (s.scan.number + 1),
      flagByte r.thermal, byte (invalidDraws s)⟩]
  else []

/-- R24, step 6: a marked round queues ROUND_DONE with its number, which `v` holds, and the minute of `s`. -/
theorem roundDone_eq (r : Round) {s v : State} (number : v.scan.number = s.scan.number + 1) (time : v.time = s.time) :
    (if r.mark then
      note .roundDone 0 (hiByte v.scan.number) (loByte v.scan.number) (flagByte r.thermal) (byte (invalidDraws s)) v
    else v) = State.notices v (roundNotices r s) := by
  rw [roundNotices]
  split
  · rw [note_notices, number, time]
  · rfl

/-- R24, step 5: the published round with the pass that its zone readings bring. -/
def roundHandedOn (r : Round) (s : State) : State :=
  if r.thermal then runAsked (thermalCompletion (zoneReadings s) (publish r.thermal s)) else publish r.thermal s

/-- R24, step 5: what a thermal completion stores before its pass. -/
def roundBudget (s : State) : State := budgetStored (zonesTaken (zoneReadings s) (publish true s))

theorem roundHandedOn_thermal {r : Round} (s : State) (h : r.thermal = true) :
    roundHandedOn r s = runAsked (thermalCompletion (zoneReadings s) (publish true s)) := by
  rw [roundHandedOn, if_pos h, h]

theorem roundHandedOn_plain {r : Round} (s : State) (h : r.thermal = false) :
    roundHandedOn r s = publish r.thermal s := if_neg (by rw [h]; decide)

theorem roundHandedOn_pass {r : Round} (s : State) (h : r.thermal = true) :
    OnlyPass (roundBudget s) (roundHandedOn r s) := by
  rw [roundHandedOn_thermal s h]
  exact (thermalCompletion_pass _ _).trans (runAsked_pass _)

theorem roundHandedOn_keeps (r : Round) (s : State) :
    (roundHandedOn r s).scan = (publish r.thermal s).scan ∧ (roundHandedOn r s).time = s.time := by
  cases h : r.thermal with
  | false => rw [roundHandedOn_plain s h, h]; exact ⟨rfl, rfl⟩
  | true => exact ⟨(roundHandedOn_pass s h).scan, (roundHandedOn_pass s h).time⟩

/-- R24: the Scan Engine after a completion. -/
def roundScan (r : Round) (s : State) : ScanEngine := nextScan s.time.ms (publish r.thermal s).scan

/-- R24: the state at the end of a completion, before the passes that end the event. -/
def roundClosed (r : Round) (s : State) : State :=
  { State.notices (roundHandedOn r s) (roundNotices r s) with scan := roundScan r s }

theorem completeRound_eq (r : Round) (s : State) : completeRound r s = finish (roundClosed r s) := by
  obtain ⟨scan, time⟩ := roundHandedOn_keeps r s
  have noted : completeRound r s =
      finish (afterRound (State.notices (roundHandedOn r s) (roundNotices r s))) :=
    congrArg (fun v => finish (afterRound v)) (roundDone_eq r (congrArg ScanEngine.number scan) time)
  have closed : afterRound (State.notices (roundHandedOn r s) (roundNotices r s)) = roundClosed r s := by
    rw [afterRound_eq, roundClosed, roundScan, ← scan, ← time]; rfl
  rw [noted, closed]

theorem OnlyPass.setScan {s t : State} (h : OnlyPass s t) (c : ScanEngine) :
    OnlyPass { s with scan := c } { t with scan := c } := by
  obtain ⟨bays, charge, rotation, timer, remainder, asked, last, lanes, queue, pointer, ns, rfl, bay, chg⟩ := h
  exact ⟨bays, charge, rotation, timer, remainder, asked, last, lanes, queue, pointer, ns, rfl, bay, chg⟩

theorem notices_pass (s : State) (ns : List Notice) : OnlyPass s (State.notices s ns) :=
  OnlyLanes.pass ⟨s.lanes, s.prov.queue, s.prov.pointer, ns, rfl⟩

theorem OnlyPass.queues {s t : State} (h : OnlyPass s t) : ∃ ns, t.link = s.link.queueAll ns := by
  obtain ⟨_, _, _, _, _, _, _, _, _, _, ns, rfl, _⟩ := h
  exact ⟨ns, rfl⟩

theorem completeRound_scan (r : Round) (s : State) : (completeRound r s).scan = roundScan r s := by
  rw [completeRound_eq]
  exact (finish_pass _).scan

/-- R24: a round that is not thermal brings no more than passes that stand asked for. -/
theorem completeRound_plain {r : Round} (s : State) (h : r.thermal = false) :
    OnlyPass (State.notices { s with scan := roundScan r s } (roundNotices r s)) (completeRound r s) := by
  rw [completeRound_eq, roundClosed, roundHandedOn_plain s h]
  exact finish_pass _

/-- R24: a thermal round changes the Budget Unit's inputs, D and B, and what passes change. -/
theorem completeRound_pass {r : Round} (s : State) (h : r.thermal = true) :
    OnlyPass { roundBudget s with scan := roundScan r s } (completeRound r s) := by
  rw [completeRound_eq]
  exact (((roundHandedOn_pass s h).trans (notices_pass _ _)).setScan _).trans (finish_pass _)

theorem completeRound_queues {r : Round} (s : State) (h : r.thermal = true) :
    ∃ before after, (completeRound r s).link = s.link.queueAll (before ++ roundNotices r s ++ after) := by
  obtain ⟨before, first⟩ := (roundHandedOn_pass s h).queues
  obtain ⟨after, rest⟩ := (finish_pass (roundClosed r s)).queues
  refine ⟨before, after, ?_⟩
  rw [completeRound_eq, rest]
  change ((roundHandedOn r s).link.queueAll _).queueAll _ = _
  rw [first, queueAll_queueAll, queueAll_queueAll, List.append_assoc]
  rfl

/-- R45: the pass that a thermal completion asks for divides its B, and so do the passes after it. -/
theorem completeRound_last {r : Round} (s : State) (h : r.thermal = true)
    (asked : (thermalCompletion (zoneReadings s) (publish true s)).alloc.passAsked = true) :
    (completeRound r s).budget.lastPass = some (completeRound r s).budget.computed := by
  have told := thermalCompletion_pass (zoneReadings s) (publish true s)
  have handedOn : (roundHandedOn r s).budget.lastPass = some (roundHandedOn r s).budget.computed := by
    rw [roundHandedOn_thermal s h, runAsked_last asked told.established, (runAsked_pass _).computed]
  have rest := finish_passWork (roundClosed r s)
  rw [completeRound_eq, rest.pass.computed]
  rcases rest.lastPass with kept | divided
  · exact kept.trans handedOn
  · exact divided

/-- Settles O21: the completion is one chain of passes from the published round, with its inputs to the budget stored. -/
theorem roundCompletionPublishes : Obligations.RoundCompletionPublishes := by
  intro r s free round recorded number zones done scan
  have completes : roundCompletes s = completeRound r s := by
    simp only [roundCompletes, round, if_pos recorded]
  have scanned := completeRound_scan r s
  refine ⟨completeRound r s, next_live free completes, scanned, fun plain => ?_, fun thermal => ?_⟩
  · rw [scanned]
    exact completeRound_plain s plain
  · have pass := completeRound_pass s thermal
    have derate : (completeRound r s).budget.derate = derateNow (completeRound r s) := by
      rw [pass.derateNow_eq, pass.fields]; rfl
    have computed : (completeRound r s).budget.computed = budgetNow (completeRound r s) := by
      rw [pass.budgetNow_eq, pass.computed]; rfl
    refine ⟨?_, derate, computed, fun b => ⟨pass.bayKept b, pass.chargeKept b⟩,
      fun first => completeRound_last s thermal (thermalCompletion_first _ first),
      fun last passed asks => completeRound_last s thermal (thermalCompletion_asks _ passed ?_),
      completeRound_queues s thermal⟩
    · rw [scanned, derate, computed, pass.derateNow_eq, pass.budgetNow_eq]
      exact pass.fields
    · rw [pass.computed] at asks
      exact asks

/-! ### How rounds start -/

theorem scanModeOf_range {mode : Byte} (h : 1 < mode.toNat) : scanModeOf mode = none := by
  have zero : mode ≠ 0 := by rintro rfl; exact absurd h (by decide)
  have one : mode ≠ 1 := by rintro rfl; exact absurd h (by decide)
  rw [scanModeOf, if_neg zero, if_neg one]

/-- R28: the modes of the mode bytes 0 and 1, with the bytes that report them. -/
theorem scanModeOf_eq {mode : Byte} (h : mode.toNat ≤ 1) :
    scanModeOf mode = some (if mode = 0 then .continuous else .onRequest) ∧
      (if mode = 0 then ScanMode.continuous else .onRequest).code = mode := by
  have small : mode = 0 ∨ mode = 1 := by bv_omega
  rcases small with rfl | rfl <;> exact ⟨rfl, rfl⟩

theorem periodOf_ne (n : Nat) : (periodOf n).val ≠ n ↔ ¬ n ≤ 3 := by
  simp only [periodOf]
  omega

/-- R28: the Scan Engine after SCAN-SET. -/
def scanArranged (now : Nat) (mode : ScanMode) (code : Fin 4) (c : ScanEngine) : ScanEngine :=
  let kept := { c with mode := mode, periodCode := code }
  let started := { kept with
    round := some { thermal := c.index = 0, mark := false, awaiting := some (.bay 0), deadline := now + 20 }
    working := Working.cleared, wait := none }
  match c.round, mode, c.wait with
  | some _, _, _ => kept
  | none, .onRequest, _ => { kept with wait := none }
  | none, .continuous, none => started
  | none, .continuous, some expiry =>
    let moved := expiry - periodMs c.periodCode + periodMs code
    if periodMs code = 0 ∨ moved ≤ now then started else { kept with wait := some moved }

theorem applyScan_eq (mode : ScanMode) (code : Fin 4) (s : State) :
    applyScan mode code s = { s with scan := scanArranged s.time.ms mode code s.scan } := by
  cases round : s.scan.round with
  | some r => simp only [applyScan, scanArranged, storeScan, round]
  | none =>
    cases mode with
    | onRequest => simp only [applyScan, scanArranged, storeScan, stopWait, round]
    | continuous =>
      cases wait : s.scan.wait with
      | none => simp only [applyScan, scanArranged, storeScan, startRound_eq, round, wait]
      | some expiry =>
        simp only [applyScan, scanArranged, storeScan, movedWait, round, wait]
        by_cases passed : periodMs code = 0 ∨ expiry - periodMs s.scan.periodCode + periodMs code ≤ s.time.ms
        · simp only [if_pos passed, startRound_eq, stopWait]
        · simp only [if_neg passed]

/-- Settles O22: by the round in flight, the mode and the wait. -/
theorem roundsStartAsTheSettingsSay : Obligations.RoundsStartAsTheSettingsSay := by
  refine ⟨fun tag s => ⟨fun free => next_request free ?_, fun free => next_live free ?_⟩, fun tag mode period s free =>
    ⟨fun range => next_request free ?_, fun valid => next_request free ?_⟩⟩
  · unfold takeMeasure
    cases s.scan.round <;> cases s.scan.mode <;> rfl
  · unfold periodExpires
    cases s.scan.wait <;> cases s.scan.round <;> rfl
  · rw [takeScanSet, scanModeOf_range range]
    rfl
  · obtain ⟨named, code⟩ := scanModeOf_eq valid
    rw [takeScanSet, named]
    dsimp only
    rw [reply_answer, doneOr_code, applyScan_eq, code]
    simp only [periodOf_ne, ite_not]
    rfl

end Sys2Proof.Machine
end

