-- ==== Sys2Proof/Proofs/Budget.lean ====
section
/-! PROOF. The charge budget: its seven stages and their bounds, the cabinet temperature and the derate factor, and what a
recomputation at the end of an event leaves (R37 to R48). -/

namespace Sys2Proof.Machine

/-! ### The cabinet temperature -/

/-- R39: the larger of two temperatures is one of the two, and no lower than either. -/
theorem hotter_some {x y : Option Int} :
    (∀ a, x = some a → ∃ h, hotter x y = some h ∧ a ≤ h) ∧ (∀ b, y = some b → ∃ h, hotter x y = some h ∧ b ≤ h) ∧
    ∀ h, hotter x y = some h → x = some h ∨ y = some h := by
  cases x <;> cases y <;> simp [hotter]
  case some.some a b => rcases le_total a b with h | h <;> simp [h]

/-- The largest of the readings of a list of zones and a temperature found before. -/
theorem hotter_foldl (zones : Vector Byte 4) (l : List Zone) (first : Option Int) :
    let found := l.foldl (fun h z => hotter h (halfDegrees zones[z])) first
    (∀ a, first = some a → ∃ h, found = some h ∧ a ≤ h) ∧
    (∀ z ∈ l, ∀ a, halfDegrees zones[z] = some a → ∃ h, found = some h ∧ a ≤ h) ∧
    ∀ h, found = some h → first = some h ∨ ∃ z ∈ l, halfDegrees zones[z] = some h := by
  induction l generalizing first with
  | nil => exact ⟨fun a h => ⟨a, h, le_rfl⟩, fun z mem => absurd mem List.not_mem_nil, fun h => .inl⟩
  | cons z l ih =>
    obtain ⟨start, rest, from_⟩ := ih (hotter first (halfDegrees zones[z]))
    obtain ⟨left, right, one⟩ := hotter_some (x := first) (y := halfDegrees zones[z])
    have climbs : ∀ {a m}, a ≤ m → hotter first (halfDegrees zones[z]) = some m →
        ∃ h, l.foldl (fun h z => hotter h (halfDegrees zones[z])) (hotter first (halfDegrees zones[z])) = some h ∧
          a ≤ h := fun le found => by
      obtain ⟨h, e, le'⟩ := start _ found
      exact ⟨h, e, le.trans le'⟩
    refine ⟨fun a e => ?_, fun y mem a e => ?_, fun h e => ?_⟩
    · obtain ⟨m, found, le⟩ := left a e
      exact climbs le found
    · rcases List.mem_cons.1 mem with rfl | mem
      · obtain ⟨m, found, le⟩ := right a e
        exact climbs le found
      · exact rest y mem a e
    · rcases from_ h e with e | ⟨y, mem, e⟩
      · rcases one h e with e | e
        · exact .inl e
        · exact .inr ⟨z, .head _, e⟩
      · exact .inr ⟨y, .tail _ mem, e⟩

theorem mem_allZones (z : Zone) : z ∈ allZones := by
  revert z
  decide

theorem halfDegrees_some {reading : Byte} {h : Int} :
    halfDegrees reading = some h ↔ reading ≠ 255 ∧ h = (reading.toNat : Int) - 40 := by
  unfold halfDegrees
  split
  · simp_all
  · simp_all [eq_comm]

/-- R39: with every reading invalid there is no cabinet temperature. -/
theorem cabinet_none {zones : Vector Byte 4} (invalid : ∀ z : Fin 4, zones[z] = 255) : cabinet zones = none := by
  obtain ⟨_, _, from_⟩ := hotter_foldl zones allZones none
  by_contra found
  obtain ⟨h, e⟩ := Option.ne_none_iff_exists'.1 found
  rcases from_ h e with e | ⟨z, _, e⟩
  · cases e
  · exact (halfDegrees_some.1 e).1 (invalid z)

/-- R39: the cabinet temperature is the largest of the valid readings. -/
theorem cabinet_some {zones : Vector Byte 4} {z : Fin 4} (valid : zones[z] ≠ 255) :
    ∃ h, cabinet zones = some h ∧ (zones[z].toNat : Int) - 40 ≤ h ∧
      ∃ z' : Fin 4, zones[z'] ≠ 255 ∧ h = (zones[z'].toNat : Int) - 40 := by
  obtain ⟨_, rest, from_⟩ := hotter_foldl zones allZones none
  obtain ⟨h, e, le⟩ := rest z (mem_allZones z) _ (halfDegrees_some.2 ⟨valid, rfl⟩)
  refine ⟨h, e, le, ?_⟩
  rcases from_ h e with e | ⟨z', _, e⟩
  · cases e
  · exact ⟨z', halfDegrees_some.1 e⟩

/-! ### The derate factor -/

/-- R40: between the knee and the cut the factor is the quotient of the rule, below 256. -/
theorem derateFactor_between {knee cut : Nat} {h : Int} (apart : knee < cut) (above : 2 * knee < h) (below : h < 2 * cut) :
    (derateFactor knee cut (some h) : Int) = 256 * (2 * cut - h) / (2 * (cut - knee)) ∧
    derateFactor knee cut (some h) < 256 := by
  have pos : (0 : Int) < 2 * ((cut : Int) - knee) := by omega
  have nonneg : 0 ≤ 256 * (2 * (cut : Int) - h) / (2 * ((cut : Int) - knee)) :=
    Int.ediv_nonneg (by omega) (by omega)
  have lt : 256 * (2 * (cut : Int) - h) / (2 * ((cut : Int) - knee)) < 256 :=
    Int.ediv_lt_of_lt_mul pos (by omega)
  simp only [derateFactor, if_neg (not_le.2 above), if_neg (not_le.2 below)]
  omega

theorem derateFactor_cool {knee cut : Nat} {h : Int} (le : h ≤ 2 * knee) : derateFactor knee cut (some h) = 256 :=
  if_pos le

theorem derateFactor_hot {knee cut : Nat} {h : Int} (apart : knee < cut) (le : 2 * cut ≤ h) :
    derateFactor knee cut (some h) = 0 := by
  rw [derateFactor, if_neg (by omega), if_pos le]

theorem derateFactor_le {knee cut : Nat} (apart : knee < cut) (h : Option Int) : derateFactor knee cut h ≤ 256 := by
  cases h with
  | none => exact (by decide : 128 ≤ 256)
  | some h =>
    rcases le_or_gt h (2 * knee) with cool | above
    · exact (derateFactor_cool cool).le
    rcases le_or_gt (2 * (cut : Int)) h with hot | below
    · exact (derateFactor_hot apart hot).trans_le (Nat.zero_le _)
    · exact (derateFactor_between apart above below).2.le

/-- R40: the factor never rises as the cabinet warms. -/
theorem derateFactor_antitone {knee cut : Nat} (apart : knee < cut) {h h' : Int} (le : h ≤ h') :
    derateFactor knee cut (some h') ≤ derateFactor knee cut (some h) := by
  rcases le_or_gt h (2 * knee) with cool | above
  · exact (derateFactor_le apart _).trans (derateFactor_cool cool).ge
  rcases le_or_gt (2 * (cut : Int)) h' with hot | below
  · exact (derateFactor_hot apart hot).trans_le (Nat.zero_le _)
  · obtain ⟨e, _⟩ := derateFactor_between apart above (le.trans_lt below)
    obtain ⟨e', _⟩ := derateFactor_between apart (above.trans_le le) below
    have := Int.ediv_le_ediv (a := 256 * (2 * (cut : Int) - h')) (b := 256 * (2 * cut - h))
      (c := 2 * ((cut : Int) - knee)) (by omega) (by omega)
    omega

/-! ### The stages and their bounds -/

/-- R46: the latches that count as moving are those in RETRACTING and EXTENDING. -/
theorem moving_eq (s : State) : s.moving =
    allBays.countP fun b => (s.latch b).state = some .retracting ∨ (s.latch b).state = some .extending := by
  refine List.countP_congr fun b _ => ?_
  unfold LatchRec.isMoving
  split <;> simp_all

theorem inletInUse_eq (s : State) :
    inletInUse s = if s.link.mode = .normal then s.budget.settings.inlet else s.budget.storedInlet := by
  unfold inletInUse
  split <;> simp_all

/-- R36: the budget settings in their ranges, as the stages need them. -/
theorem clampBudget_bounds {b : BudgetSettings} (h : clampBudget b = b) :
    b.inlet ≤ 2400 ∧ b.efficiency ≤ 990 ∧ b.knee < b.cut := by
  have inlet := congrArg BudgetSettings.inlet h
  have efficiency := congrArg BudgetSettings.efficiency h
  have knee := congrArg BudgetSettings.knee h
  have cut := congrArg BudgetSettings.cut h
  simp only [clampBudget, clamp] at inlet efficiency knee cut
  omega

theorem derateNow_le {s : State} (h : clampBudget s.budget.settings = s.budget.settings) : derateNow s ≤ 256 :=
  derateFactor_le (clampBudget_bounds h).2.2 _

/-- R41: with the settings in their ranges B is at most 9,504 qW. -/
theorem budgetNow_le {s : State} (h : clampBudget s.budget.settings = s.budget.settings)
    (stored : s.budget.storedInlet ≤ 2400) : budgetNow s ≤ 9504 := by
  obtain ⟨inlet, efficiency, _⟩ := clampBudget_bounds h
  have used : inletInUse s ≤ 2400 := by rw [inletInUse_eq]; split <;> assumption
  have effective : effectiveInlet (inletInUse s) s.budget.shed ≤ 2400 := by unfold effectiveInlet; split <;> omega
  have converted : convertedPower (effectiveInlet (inletInUse s) s.budget.shed) s.budget.settings.efficiency ≤ 9504 :=
    calc 4 * effectiveInlet (inletInUse s) s.budget.shed * s.budget.settings.efficiency / 1000
      _ ≤ 4 * 2400 * 990 / 1000 := Nat.div_le_div_right (Nat.mul_le_mul (by omega) efficiency)
      _ = 9504 := by norm_num
  calc budgetNow s
    _ ≤ convertedPower (effectiveInlet (inletInUse s) s.budget.shed) s.budget.settings.efficiency * derateNow s / 256 :=
      Nat.sub_le _ _
    _ ≤ 9504 * 256 / 256 := Nat.div_le_div_right (Nat.mul_le_mul converted (derateNow_le h))
    _ = 9504 := by norm_num

/-- Settles O30: stage by stage, the temperature by the fold over the zones, the factor by its four cases. -/
theorem budgetComesInSevenStages : Obligations.BudgetComesInSevenStages := by
  refine ⟨fun s => ⟨rfl, ?_, fun law => ?_⟩, fun zones => ⟨cabinet_none, fun z => cabinet_some⟩,
    fun knee cut h apart => ⟨rfl, derateFactor_cool, derateFactor_hot (by omega),
      derateFactor_between (by omega), fun h' => derateFactor_antitone (by omega)⟩⟩
  · unfold budgetNow convertedPower effectiveInlet reservePower reserveMovers
    rw [moving_eq, inletInUse_eq]
    rfl
  · obtain ⟨budget, _, _, _, _, _, _, _, _, _, stored, _⟩ := law
    exact ⟨derateNow_le budget, budgetNow_le budget stored⟩

/-! ### A recomputation that ends an event -/

/-- R44: the comparison that asks for a pass, as the rule words it. -/
theorem asksPass_iff (s : State) (b : Nat) :
    asksPass s.budget.settings.hysteresis b s.budget.lastPass = true ↔ NewBudgetAsks s b := by
  unfold NewBudgetAsks
  cases s.budget.lastPass with
  | none => simp [asksPass]
  | some last => simp only [asksPass, decide_eq_true_eq]; omega

theorem recompute_asks {s : State} (est : s.budget.established = true) (asks : NewBudgetAsks s (budgetNow s)) :
    recompute s = askPass (budgetStored s) := by
  rw [recompute_eq, if_pos ⟨est, (asksPass_iff s _).2 asks⟩]

theorem recompute_quiet {s : State} (quiet : s.budget.established = false ∨ ¬ NewBudgetAsks s (budgetNow s)) :
    recompute s = budgetStored s := by
  refine if_neg fun ⟨est, asks⟩ => quiet.elim (fun e => ?_) (· ((asksPass_iff s _).1 asks))
  rw [e] at est
  cases est

/-- R42 to R44: an event that ends with a recomputation stores D and B, and brings the pass that B asks for. -/
theorem finish_recomputed (s : State) : Recomputed s (finish (recompute s)) := by
  refine ⟨(recompute_pass s).trans (finish_pass _), fun est asks => ?_, fun settled quiet => ?_⟩
  · rw [recompute_asks est asks]
    exact finish_last (s := askPass (budgetStored s)) rfl est
  · rw [recompute_quiet quiet]
    exact finish_settled (budgetStored s) settled

theorem clampBudget_eq (b : BudgetSettings) : clampBudget b =
    { inlet := max 100 (min 2400 b.inlet), efficiency := max 500 (min 990 b.efficiency), overhead := min 800 b.overhead
      knee := max 25 (min 70 b.knee), cut := max (max 25 (min 70 b.knee) + 5) (min 85 b.cut)
      hysteresis := min 200 b.hysteresis } := by
  simp only [clampBudget, clamp_zero]
  rfl

/-- Settles O31: both events take their values and end with a recomputation. -/
theorem budgetSetAndShedRecompute : Obligations.BudgetSetAndShedRecompute := by
  refine ⟨fun tag inlet efficiency overhead knee cut hysteresis s free => ?_, fun asserted s free =>
    ⟨fun same => next_live free (if_pos same), fun change =>
      ⟨_, next_live free (if_neg change), finish_recomputed _⟩⟩⟩
  refine ⟨_, next_request free rfl, ?_⟩
  unfold takeBudgetSet
  simp only [clampBudget_eq, reply_answer, doneOr_code, budgetFields, ne_eq, BudgetSettings.mk.injEq, ite_not]
  exact finish_recomputed _

end Sys2Proof.Machine
end

