-- ==== Sys2Proof/Proofs/Untold.lean ====
section
/-! PROOF. The work of the Latch Controller that tells the Budget Unit nothing: all of it but what follows a freed mover
(R46, R120). -/

namespace Sys2Proof.Machine

/-- Work at the Latch Controller that leaves the Budget Unit and the Allocator as they are. -/
structure Untold (s t : State) : Prop where
  latches : OnlyLatches s t
  budget : t.budget = s.budget
  alloc : t.alloc = s.alloc

theorem Untold.refl (s : State) : Untold s s := ⟨.refl s, rfl, rfl⟩

theorem Untold.trans {s t u : State} (h : Untold s t) (h' : Untold t u) : Untold s u :=
  ⟨h.latches.trans h'.latches, h'.budget.trans h.budget, h'.alloc.trans h.alloc⟩

theorem Untold.ite {p : Prop} [Decidable p] {s t u : State} (h : p → Untold s t) (h' : ¬ p → Untold s u) :
    Untold s (if p then t else u) := by
  split
  · exact h ‹_›
  · exact h' ‹_›

theorem Untold.when_ {p : Prop} [Decidable p] {s t : State} (h : Untold s t) : Untold s (if p then t else s) :=
  .ite (fun _ => h) fun _ => .refl s

theorem OnlyCustody.untold {s t : State} (h : OnlyCustody s t) : Untold s t := by
  refine ⟨h.latches, ?_, ?_⟩ <;> obtain ⟨_, _, _, _, _, rfl⟩ := h <;> rfl

theorem setLatch_untold (s : State) (b : Bay) (r : LatchRec) : Untold s (s.setLatch b r) :=
  ⟨setLatch_touch s b r, rfl, rfl⟩

theorem setMotions_untold (s : State) (q : List (Bay × Motion)) : Untold s (s.setMotions q) :=
  ⟨setMotions_touch s q, rfl, rfl⟩

theorem dropMotion_untold (b : Bay) (s : State) : Untold s (dropMotion b s) := setMotions_untold _ _

theorem queueMotion_untold (b : Bay) (m : Motion) (s : State) : Untold s (queueMotion b m s) := setMotions_untold _ _

theorem latchNote_untold (k : NoticeKind) (b : Bay) (d1 d2 : Byte) (s : State) : Untold s (latchNote k b d1 d2 s) :=
  (noteCustody_touch _ _ _ _ _ _ _).untold

theorem handOn_untold (b : Bay) (ev : LatchEvent) (s : State) : Untold s (handOn b ev s) := (handOn_touch b ev s).untold

theorem enterReleased_untold (b : Bay) (s : State) : Untold s (enterReleased b s) := by
  unfold enterReleased
  exact ((setLatch_untold s b _).trans (latchNote_untold _ _ _ _ _)).trans (handOn_untold b _ _)

theorem enterLocked_untold (b : Bay) (s : State) : Untold s (enterLocked b s) :=
  (setLatch_untold s b _).trans (handOn_untold b _ _)

theorem enterOpen_untold (b : Bay) (s : State) : Untold s (enterOpen b s) :=
  ((setLatch_untold s b _).trans (dropMotion_untold b _)).trans (handOn_untold b _ _)

theorem enterClosing_untold (b : Bay) (s : State) : Untold s (enterClosing b s) := setLatch_untold s b _

theorem enterClosingExtend_untold (b : Bay) (s : State) : Untold s (enterClosingExtend b s) :=
  (setLatch_untold s b _).trans (queueMotion_untold b _ _)

theorem enterForced_untold (b : Bay) (l : LatchState) (s : State) : Untold s (enterForced b l s) := by
  have dropped := (setLatch_untold s b { (s.latch b).still with state := some .forced }).trans (dropMotion_untold b _)
  unfold enterForced
  exact ((((dropped.trans (latchNote_untold _ _ _ _ _).when_).trans (latchNote_untold _ _ _ _ _)).trans
    (handOn_untold b _ _).when_).trans (handOn_untold b _ _).when_).trans (handOn_untold b _ _)

theorem enterSensorFault_untold (b : Bay) (l : LatchState) (s : State) : Untold s (enterSensorFault b l s) := by
  have dropped :=
    (setLatch_untold s b { (s.latch b).still with state := some .sensorFault }).trans (dropMotion_untold b _)
  exact (((dropped.trans (latchNote_untold _ _ _ _ _).when_).trans (latchNote_untold _ _ _ _ _)).trans
    (handOn_untold b _ _).when_).trans (handOn_untold b _ _).when_

theorem grantExtend_untold (b : Bay) (s : State) : Untold s (grantExtend b s) :=
  (setLatch_untold s b _).trans (enterLocked_untold b _).when_

theorem grantRetract_untold (b : Bay) (s : State) : Untold s (grantRetract b s) :=
  ((setLatch_untold s b _).trans (handOn_untold b _ _).when_).trans (enterReleased_untold b _).when_

theorem grantMotions_untold (fuel : Nat) (s : State) : Untold s (grantMotions fuel s) := by
  induction fuel generalizing s with
  | zero => exact .refl s
  | succ n ih =>
    unfold grantMotions
    refine .ite (fun _ => ?_) fun _ => .refl s
    split
    · exact .refl s
    · rename_i b m _
      cases m
      · exact ((dropMotion_untold b s).trans (grantRetract_untold b _)).trans (ih _)
      · exact ((dropMotion_untold b s).trans (grantExtend_untold b _)).trans (ih _)

/-- R119: an arbitration step tells the Budget Unit nothing. -/
theorem arbitrate_untold (s : State) : Untold s (arbitrate s) := grantMotions_untold _ s

theorem boltSlipped_untold (b : Bay) (s : State) : Untold s (boltSlipped b s) :=
  .ite (fun _ => .refl s) fun _ =>
    ((enterClosingExtend_untold b s).trans (handOn_untold b _ _)).trans (arbitrate_untold _)

theorem sensorFaultTest_untold (b : Bay) (s : State) : Untold s (sensorFaultTest b s) :=
  .ite (fun _ => .refl s) fun _ => .ite (fun _ => enterOpen_untold b s) fun _ =>
    .ite (fun _ => enterLocked_untold b s) fun _ =>
      .ite (fun _ => (enterClosingExtend_untold b s).trans (arbitrate_untold _)) fun _ => .refl s

theorem doorShut_untold (b : Bay) (st : LatchState) (s : State) : Untold s (doorShut b st s) := by
  cases st <;> simp only [doorShut]
  case opened => exact enterClosing_untold b s
  case forced => exact .ite (fun _ => enterLocked_untold b s) fun _ => enterClosing_untold b s
  all_goals exact .refl s

theorem startMachine_untold (b : Bay) (s : State) : Untold s (startMachine b s) :=
  .ite (fun _ => (setLatch_untold s b _).trans (latchNote_untold _ _ _ _ _)) fun _ =>
    .ite (fun _ => setLatch_untold s b _) fun _ => .ite (fun _ => setLatch_untold s b _) fun _ =>
      .ite (fun _ => enterClosing_untold b s) fun _ => enterClosingExtend_untold b s

theorem startIfReady_untold (b : Bay) (s : State) : Untold s (startIfReady b s) := (startMachine_untold b s).when_

theorem eachBay_untold {f : Bay → State → State} (h : ∀ b s, Untold s (f b s)) (s : State) : Untold s (eachBay f s) :=
  eachBay_rel .refl .trans h s

theorem endWindow_untold (b : Bay) (s : State) : Untold s (endWindow b s) := by
  unfold endWindow
  dsimp only
  split
  · exact (setLatch_untold s b _).trans (queueMotion_untold b _ _)
  · exact .refl s

theorem reverseLatch_untold (b : Bay) (s : State) : Untold s (reverseLatch b s) := (setLatch_untold s b _).when_

theorem removeRetract_untold (b : Bay) (s : State) : Untold s (removeRetract b s) :=
  .ite (fun _ => (setMotions_untold s _).trans (handOn_untold b _ _).when_) fun _ => .refl s

theorem latchLockdown_untold (s : State) : Untold s (latchLockdown s) :=
  (eachBay_untold endWindow_untold s).trans (arbitrate_untold _)

theorem latchAutonomous_untold (s : State) : Untold s (latchAutonomous s) :=
  (((eachBay_untold reverseLatch_untold s).trans (eachBay_untold removeRetract_untold _)).trans
    (eachBay_untold endWindow_untold _)).trans (arbitrate_untold _)

theorem releaseRequest_untold (b : Bay) (s : State) : Untold s (releaseRequest b s) :=
  ((queueMotion_untold b _ s).trans (arbitrate_untold _)).when_

end Sys2Proof.Machine
end

