-- ==== Sys2Proof/Proofs/Ranges.lean ====
section
/-! PROOF. The ranges of settings, ceilings, D and B, and the bounds of the notice queue and the receive buffer, under the
work of every block. -/

namespace Sys2Proof.Machine

/-! ### The relation -/

/-- Every setting, dynamic ceiling, D and B lies in its range. -/
def InRange (s : State) : Prop := SettingsLaw s ∧ CeilingLaw s ∧ BudgetLaw s

/-- From `s` to `t` the ranges and the bounds of the queues are kept. -/
structure RangeKept (s t : State) : Prop where
  ranges : InRange s → InRange t
  notices : NoticeLaw s → NoticeLaw t
  buffer : BufferLaw s → BufferLaw t

theorem RangeKept.refl (s : State) : RangeKept s s := ⟨id, id, id⟩

theorem RangeKept.trans {s t u : State} (h : RangeKept s t) (h' : RangeKept t u) : RangeKept s u :=
  ⟨h'.ranges ∘ h.ranges, h'.notices ∘ h.notices, h'.buffer ∘ h.buffer⟩

theorem RangeKept.ite {p : Prop} [Decidable p] {s t u : State} (h : p → RangeKept s t) (h' : ¬ p → RangeKept s u) :
    RangeKept s (if p then t else u) := by
  split
  · exact h ‹_›
  · exact h' ‹_›

theorem RangeKept.when_ {p : Prop} [Decidable p] {s t : State} (h : p → RangeKept s t) :
    RangeKept s (if p then t else s) := .ite h fun _ => .refl s

/-- The working settings, with the stored inlet limit and the save in flight. -/
def settingsView (s : State) :=
  (s.budget.settings, s.alloc.settings, s.alloc.profiles, s.superv, s.latchUnit.settings, s.custodySet, s.prov.settings,
    s.prov.slots, s.link.period, s.link.rate, s.budget.storedInlet, s.store.save)

theorem settingsLaw_congr {s t : State} (h : settingsView t = settingsView s) : SettingsLaw s → SettingsLaw t := by
  simp only [settingsView, Prod.mk.injEq] at h
  obtain ⟨budget, charge, profiles, superv, latch, custody, prov, slots, period, rate, stored, save⟩ := h
  unfold SettingsLaw
  rw [budget, charge, profiles, superv, latch, custody, prov, slots, period, rate, stored, save]
  exact id

theorem SettingsLaw.profile {s : State} (h : SettingsLaw s) (i : Fin 8) :
    clampProfile s.alloc.profiles[i] = s.alloc.profiles[i] := by
  obtain ⟨_, _, profiles, _⟩ := h
  exact profiles i

/-- R74: a profile in range has a ceiling of 1 at least. -/
theorem ceiling_pos {p : Profile} (h : clampProfile p = p) : 1 ≤ p.ceiling := by
  rw [← h, clampProfile_eq]
  exact Nat.le_max_left _ _

theorem ceilingLaw_congr {s t : State} (profiles : t.alloc.profiles = s.alloc.profiles)
    (kept : ∀ b, (t.chg b).dynCeiling = (s.chg b).dynCeiling ∧ (t.chg b).profile = (s.chg b).profile) :
    CeilingLaw s → CeilingLaw t := by
  intro h b
  obtain ⟨dyn, profile⟩ := kept b
  simpa only [State.profile, profiles, dyn, profile] using h b

/-! ### The notice queue -/

/-- R177: a notice that replaces another stands in its place. -/
theorem replaceNotice_some {n : Notice} {q r : List Notice} (h : replaceNotice n q = some r) :
    ∃ older old newer, q = older ++ old :: newer ∧ n.replaces old = true ∧ r = older ++ n :: newer := by
  induction q generalizing r with
  | nil => cases h
  | cons x q ih =>
    unfold replaceNotice at h
    split at h
    · cases h
      exact ⟨[], x, q, rfl, ‹_›, rfl⟩
    · obtain ⟨r', found, rfl⟩ := Option.map_eq_some_iff.1 h
      obtain ⟨older, old, newer, rfl, replaces, rfl⟩ := ih found
      exact ⟨x :: older, old, newer, rfl, replaces, rfl⟩

theorem replaceNotice_none {n : Notice} {q : List Notice} (h : replaceNotice n q = none) :
    ∀ old ∈ q, n.replaces old = false := by
  induction q with
  | nil => exact fun _ mem => absurd mem List.not_mem_nil
  | cons x q ih =>
    unfold replaceNotice at h
    split at h
    · cases h
    · intro old mem
      rcases List.mem_cons.1 mem with rfl | mem
      · exact Bool.eq_false_iff.2 ‹_›
      · exact ih (Option.map_eq_none_iff.1 h) old mem

/-- The CHARGE_PHASE notices of a bay. -/
def phaseOf (subject : Byte) (n : Notice) : Bool := n.kind = .chargePhase ∧ n.subject = subject

theorem noticeLaw_iff (s : State) : NoticeLaw s ↔
    s.link.notices.length ≤ 48 ∧ ∀ subject, s.link.notices.countP (phaseOf subject) ≤ 1 := Iff.rfl

theorem replaces_phaseOf {n old : Notice} (h : n.replaces old = true) (subject : Byte) (phase : phaseOf subject n = true) :
    phaseOf subject old = true := by
  obtain ⟨kind, rfl⟩ : n.kind = .chargePhase ∧ n.subject = subject := by simpa [phaseOf] using phase
  simpa [Notice.replaces, kind, phaseOf] using h

theorem replaces_of_phaseOf {n old : Notice} {subject : Byte} (new : phaseOf subject n = true)
    (phase : phaseOf subject old = true) : n.replaces old = true := by
  obtain ⟨kind, rfl⟩ : n.kind = .chargePhase ∧ n.subject = subject := by simpa [phaseOf] using new
  simpa [Notice.replaces, kind, phaseOf] using phase

/-- R177: queuing a notice keeps the bounds of the queue. -/
theorem queued_bounds (n : Notice) (l : LinkPort)
    (h : l.notices.length ≤ 48 ∧ ∀ subject, l.notices.countP (phaseOf subject) ≤ 1) :
    (l.queued n).notices.length ≤ 48 ∧ ∀ subject, (l.queued n).notices.countP (phaseOf subject) ≤ 1 := by
  obtain ⟨length, once⟩ := h
  unfold LinkPort.queued
  split
  · rename_i q found
    obtain ⟨older, old, newer, e, replaces, rfl⟩ := replaceNotice_some found
    rw [e] at length once
    refine ⟨by simpa using length, fun subject => le_trans ?_ (once subject)⟩
    have : (phaseOf subject n).toNat ≤ (phaseOf subject old).toNat := by
      cases new : phaseOf subject n with
      | false => exact Nat.zero_le _
      | true => rw [replaces_phaseOf replaces subject new]
    simp only [List.countP_append, List.countP_cons]
    revert this
    cases phaseOf subject n <;> cases phaseOf subject old <;> simp
  · rename_i none
    split
    · refine ⟨by simpa using ‹_›, fun subject => ?_⟩
      rw [List.countP_append, List.countP_singleton]
      split
      · rename_i new
        have : l.notices.countP (phaseOf subject) = 0 := List.countP_eq_zero.2 fun old mem phase => by
          have := replaceNotice_none none old mem
          rw [replaces_of_phaseOf new phase] at this
          cases this
        omega
      · exact once subject
    · exact ⟨length, once⟩

theorem queueAll_bounds (ns : List Notice) (l : LinkPort)
    (h : l.notices.length ≤ 48 ∧ ∀ subject, l.notices.countP (phaseOf subject) ≤ 1) :
    (l.queueAll ns).notices.length ≤ 48 ∧ ∀ subject, (l.queueAll ns).notices.countP (phaseOf subject) ≤ 1 := by
  induction ns generalizing l with
  | nil => exact h
  | cons n ns ih => exact ih _ (queued_bounds n l h)

/-! ### Kinds of work -/

/-- Work that leaves settings, ceilings, D and B, queues notices at most, and leaves the buffer. -/
theorem RangeKept.of_kept {s t : State} (settings : settingsView t = settingsView s)
    (charge : ∀ b, (t.chg b).dynCeiling = (s.chg b).dynCeiling ∧ (t.chg b).profile = (s.chg b).profile)
    (budget : BudgetKept s t) (notices : ∃ ns, t.link.notices = (s.link.queueAll ns).notices)
    (buffer : t.link.buffer = s.link.buffer) : RangeKept s t where
  ranges h := by
    obtain ⟨law, ceilings, bounds⟩ := h
    refine ⟨settingsLaw_congr settings law, ceilingLaw_congr ?_ charge ceilings, ?_⟩
    · exact congrArg (fun v => v.2.2.1) settings
    · unfold BudgetLaw
      rw [budget.1, budget.2]
      exact bounds
  notices h := by
    obtain ⟨ns, e⟩ := notices
    rw [noticeLaw_iff, e]
    exact queueAll_bounds ns _ h
  buffer h := by rwa [BufferLaw, buffer]

/-- Work that takes settings or ceilings in range, and leaves the Budget Unit and the link. -/
theorem RangeKept.of_laws {s t : State} (budget : t.budget = s.budget) (link : t.link = s.link)
    (law : SettingsLaw s → SettingsLaw t) (ceilings : CeilingLaw s → CeilingLaw t) : RangeKept s t where
  ranges h := ⟨law h.1, ceilings h.2.1, by rw [BudgetLaw, budget]; exact h.2.2⟩
  notices h := by rwa [NoticeLaw, link]
  buffer h := by rwa [BufferLaw, link]

/-- What the laws of ranges and queues read of a state. -/
def rangeView (s : State) :=
  (settingsView s, s.charge, s.budget.derate, s.budget.computed, s.link.notices, s.link.buffer)

theorem RangeKept.of_view {s t : State} (h : rangeView t = rangeView s) : RangeKept s t := by
  simp only [rangeView, Prod.mk.injEq] at h
  obtain ⟨settings, charge, derate, computed, notices, buffer⟩ := h
  exact .of_kept settings (fun b => by simp only [State.chg, charge, and_self]) ⟨derate, computed⟩ ⟨[], notices⟩ buffer

theorem OnlyPass.rangeKept {s t : State} (h : OnlyPass s t) : RangeKept s t := by
  have charge := fun b => And.intro (h.chargeKept b).dynCeiling (h.chargeKept b).profile
  obtain ⟨_, _, _, _, _, _, _, _, _, _, ns, rfl, _⟩ := h
  exact .of_kept (by simp only [settingsView, queueAll_period, queueAll_rate]) charge ⟨rfl, rfl⟩ ⟨ns, rfl⟩
    (queueAll_buffer _ _)

theorem OnlyLanes.rangeKept {s t : State} (h : OnlyLanes s t) : RangeKept s t := h.pass.rangeKept

/-- Work at the Latch Controller leaves everything in range but D and B, if it recomputes them. -/
theorem OnlyLatches.rangeKept {s t : State} (h : OnlyLatches s t) (budget : BudgetKept s t) : RangeKept s t := by
  obtain ⟨_, _, _, _, _, _, ns, _, _, _, rfl⟩ := h
  exact .of_kept (by simp only [settingsView, queueAll_period, queueAll_rate]) (fun _ => ⟨rfl, rfl⟩) budget ⟨ns, rfl⟩
    (queueAll_buffer _ _)

theorem Untold.rangeKept {s t : State} (h : Untold s t) : RangeKept s t :=
  h.latches.rangeKept (by rw [BudgetKept, h.budget]; exact ⟨rfl, rfl⟩)

theorem OnlyCustody.rangeKept {s t : State} (h : OnlyCustody s t) : RangeKept s t := h.untold.rangeKept

theorem setBay_rangeKept (s : State) (b : Bay) (r : BayRec) : RangeKept s (s.setBay b r) := .of_view rfl

theorem finish_rangeKept {s t : State} (h : RangeKept s t) : RangeKept s (finish t) := h.trans (finish_pass t).rangeKept

theorem reply_rangeKept (k tag : Byte) (r : Result) (l : List Byte) (s : State) : RangeKept s (reply k tag r l s) :=
  .of_view rfl

theorem answer_rangeKept (k tag : Byte) (l : List Byte) (s : State) : RangeKept s (s.answer k tag l) := .of_view rfl

theorem RangeKept.answered {s t : State} (h : RangeKept s t) (k tag : Byte) (r : Result) (l : List Byte) :
    RangeKept s (finish (reply k tag r l t)) := finish_rangeKept (h.trans (reply_rangeKept _ _ _ _ _))

theorem refuse_rangeKept (k tag : Byte) (r : Reason) (s : State) : RangeKept s (refuse k tag r s) := .of_view rfl

/-- R41: a computation of the budget leaves D and B in range. -/
theorem recompute_rangeKept (s : State) : RangeKept s (recompute s) := by
  refine RangeKept.trans (t := budgetStored s) ⟨fun h => ?_, id, id⟩ (recompute_pass s).rangeKept
  obtain ⟨law, ceilings, _⟩ := h
  have settings := law
  obtain ⟨budget, _, _, _, _, _, _, _, _, _, stored, _⟩ := settings
  exact ⟨law, ceilings, derateNow_le budget, budgetNow_le budget stored⟩

theorem moverFreed_rangeKept (before s : State) : RangeKept s (moverFreed before s) :=
  (RangeKept.when_ fun _ => recompute_rangeKept s).trans (arbitrate_untold _).rangeKept

theorem eachBay_rangeKept {f : Bay → State → State} (h : ∀ b s, RangeKept s (f b s)) (s : State) :
    RangeKept s (eachBay f s) := eachBay_rel .refl .trans h s

theorem eachLane_rangeKept {f : Lane → State → State} (h : ∀ l s, RangeKept s (f l s)) (s : State) :
    RangeKept s (eachLane f s) := eachLane_rel .refl .trans h s

theorem profile_setChg_ne (s : State) {b c : Bay} (r : ChargeRec) (other : c ≠ b) :
    (s.setChg b r).profile c = s.profile c := by
  simp only [State.profile, chg_setChg_ne s b c r other, setChg_alloc]

theorem profile_setChg_same (s : State) {b : Bay} {r : ChargeRec} (h : r.profile = (s.chg b).profile) :
    (s.setChg b r).profile b = s.profile b := by
  simp only [State.profile, chg_setChg_self, h, setChg_alloc]

/-- A bay's record at the Allocator with its dynamic ceiling in range. -/
theorem setChg_rangeKept (s : State) (b : Bay) (r : ChargeRec)
    (ceiling : InRange s → 1 ≤ r.dynCeiling ∧ r.dynCeiling ≤ ((s.setChg b r).profile b).ceiling) :
    RangeKept s (s.setChg b r) := by
  refine ⟨fun h => ?_, id, id⟩
  have own := ceiling h
  obtain ⟨law, ceilings, bounds⟩ := h
  refine ⟨law, fun c => ?_, bounds⟩
  by_cases same : c = b
  · subst same
    rw [chg_setChg_self]
    exact own
  · rw [chg_setChg_ne s b c r same, profile_setChg_ne s r same]
    exact ceilings c

theorem setChg_dyn_rangeKept (s : State) (b : Bay) (r : ChargeRec) (profile : r.profile = (s.chg b).profile)
    (ceiling : InRange s → 1 ≤ r.dynCeiling ∧ r.dynCeiling ≤ (s.profile b).ceiling) : RangeKept s (s.setChg b r) :=
  setChg_rangeKept s b r fun h => by rw [profile_setChg_same s profile]; exact ceiling h

/-! ### The latches -/

theorem doorOpened_rangeKept (b : Bay) (st : LatchState) (s : State) : RangeKept s (doorOpened b st s) := by
  cases st <;> simp only [doorOpened]
  case locked => exact (enterForced_untold _ _ _).rangeKept
  case retracting =>
    exact ((((setLatch_untold s b _).trans (latchNote_untold _ _ _ _ _)).trans (handOn_untold _ _ _)).trans
      (handOn_untold _ _ _)).rangeKept.trans (moverFreed_rangeKept _ _)
  case released => exact (enterOpen_untold _ _).rangeKept
  case opened => exact .refl s
  case closing => exact (enterOpen_untold _ _).rangeKept
  case extending => exact (enterOpen_untold _ _).rangeKept.trans (moverFreed_rangeKept _ _)
  case jammed => exact .ite (fun _ => (enterForced_untold _ _ _).rangeKept) fun _ => (enterOpen_untold _ _).rangeKept
  case sensorFault => exact .refl s
  case forced => exact .refl s

theorem boltMoved_rangeKept (b : Bay) (st : LatchState) (c : Contact) (a : Bool) (s : State) :
    RangeKept s (boltMoved b st c a s) :=
  .ite (fun _ => (enterReleased_untold b s).rangeKept.trans (moverFreed_rangeKept _ _)) fun _ =>
    .ite (fun _ => (enterLocked_untold b s).rangeKept.trans (moverFreed_rangeKept _ _)) fun _ =>
      .when_ fun _ => (boltSlipped_untold b s).rangeKept

theorem machineEvent_rangeKept (b : Bay) (st : LatchState) (c : Contact) (a : Bool) (s : State) :
    RangeKept s (machineEvent b st c a s) := by
  have fault := (enterSensorFault_untold b st s).rangeKept
  refine .ite (fun _ => (sensorFaultTest_untold b s).rangeKept) fun _ =>
    .ite (fun _ => .ite (fun _ => fault.trans (moverFreed_rangeKept _ _)) fun _ => fault) fun _ => ?_
  cases c
  · exact boltMoved_rangeKept _ _ _ _ _
  · exact boltMoved_rangeKept _ _ _ _ _
  · exact .ite (fun _ => (doorShut_untold b st s).rangeKept) fun _ => doorOpened_rangeKept b st s

theorem acceptLevel_rangeKept (b : Bay) (c : Contact) (a : Bool) (s : State) : RangeKept s (acceptLevel b c a s) := by
  have set := (setLatch_untold s b ((s.latch b).setFilter c ⟨some a, 0, some a⟩)).rangeKept
  unfold acceptLevel
  dsimp only
  split
  · exact set
  · exact set
  · exact .ite (fun _ => .refl s) fun _ => set.trans (machineEvent_rangeKept _ _ _ _ _)

theorem contactEvent_rangeKept (b : Bay) (c : Contact) (a : Bool) (s : State) : RangeKept s (contactEvent b c a s) := by
  have pin : RangeKept s (setContactPin b c a s) := .of_view rfl
  exact finish_rangeKept ((pin.trans (acceptLevel_rangeKept b c a _)).trans
    (.when_ fun _ => ((startMachine_untold b _).trans (arbitrate_untold _)).rangeKept))

theorem latchMachineStart_rangeKept (b : Bay) (o i d : Bool) (s : State) :
    RangeKept s (latchMachineStart b o i d s) := by
  refine .ite (fun _ => .refl s) fun _ => finish_rangeKept ?_
  refine RangeKept.trans ?_ ((startMachine_untold b _).trans (arbitrate_untold _)).rangeKept
  exact .of_view rfl

theorem travelTimeout_rangeKept (b : Bay) (s : State) : RangeKept s (travelTimeout b s) := by
  unfold travelTimeout
  dsimp only
  split
  · exact finish_rangeKept (RangeKept.trans (((setLatch_untold s b _).trans (latchNote_untold _ _ _ _ _)).trans
      (handOn_untold _ _ _)).rangeKept (moverFreed_rangeKept _ _))
  · exact .ite (fun _ => finish_rangeKept (RangeKept.trans ((setLatch_untold s b _).trans
      (latchNote_untold _ _ _ _ _)).rangeKept (moverFreed_rangeKept _ _))) fun _ => (setLatch_untold s b _).rangeKept
  · exact .refl s

theorem retryPauseExpires_rangeKept (b : Bay) (s : State) : RangeKept s (retryPauseExpires b s) := by
  unfold retryPauseExpires
  dsimp only
  split
  · exact (setLatch_untold s b _).rangeKept
  · exact .refl s

theorem windowExpires_rangeKept (b : Bay) (s : State) : RangeKept s (windowExpires b s) := by
  unfold windowExpires
  split
  · exact finish_rangeKept ((endWindow_untold b s).trans (arbitrate_untold _)).rangeKept
  · exact .refl s

theorem closeSettleExpires_rangeKept (b : Bay) (s : State) : RangeKept s (closeSettleExpires b s) := by
  unfold closeSettleExpires
  dsimp only
  split
  · exact finish_rangeKept
      (((setLatch_untold s b _).trans (queueMotion_untold b _ _)).trans (arbitrate_untold _)).rangeKept
  · exact .refl s

theorem clampLatch_clamped (c : LatchSettings) : clampLatch (clampLatch c) = clampLatch c := by
  simp only [clampLatch, clamp, LatchSettings.mk.injEq]
  omega

theorem takeLatchSet_rangeKept (t : Byte) (a : LatchSettings) (s : State) : RangeKept s (takeLatchSet t a s) := by
  have set : RangeKept s { s with latchUnit := { s.latchUnit with settings := clampLatch a } } := by
    refine ⟨fun ⟨law, ceilings, bounds⟩ => ⟨?_, ceilings, bounds⟩, id, id⟩
    obtain ⟨budget, charge, profiles, superv, _, rest⟩ := law
    exact ⟨budget, charge, profiles, superv, clampLatch_clamped a, rest⟩
  unfold takeLatchSet
  exact RangeKept.answered ((set.trans
    (.when_ fun _ => (recompute_rangeKept _).trans (runAsked_pass _).rangeKept)).trans
    (.when_ fun _ => (arbitrate_untold _).rangeKept)) _ _ _ _

/-! ### The bays -/

theorem reportChange_rangeKept (b : Bay) (o n : BayState) (s : State) : RangeKept s (reportChange b o n s) :=
  (reportChange_pass b o n s).rangeKept

theorem changeBay_rangeKept (b : Bay) (n : BayState) (s : State) : RangeKept s (changeBay b n s) :=
  (setBay_rangeKept s b _).trans (reportChange_rangeKept b _ _ _)

theorem enterQualifying_rangeKept (b : Bay) (s : State) : RangeKept s (enterQualifying b s) :=
  (setBay_rangeKept s b _).trans (reportChange_rangeKept b _ _ _)

theorem note_rangeKept (k : NoticeKind) (b d1 d2 d3 d4 : Byte) (s : State) : RangeKept s (note k b d1 d2 d3 d4 s) :=
  (note_pass k b d1 d2 d3 d4 s).rangeKept

theorem transientFault_rangeKept (b : Bay) (kind : FaultKind) (detail : Byte) (s : State) :
    RangeKept s (transientFault b kind detail s) :=
  ((setBay_rangeKept s b _).trans (note_rangeKept _ _ _ _ _ _ _)).trans (reportChange_rangeKept b _ _ _)

theorem probeFault_rangeKept (b : Bay) (s : State) : RangeKept s (probeFault b s) :=
  ((setBay_rangeKept s b _).trans (note_rangeKept _ _ _ _ _ _ _)).trans (reportChange_rangeKept b _ _ _)

theorem leaveHold_rangeKept (b : Bay) (s : State) : RangeKept s (leaveHold b s) :=
  (setBay_rangeKept s b _).trans (enterQualifying_rangeKept b _)

theorem InRange.profile_pos {s : State} (h : InRange s) (i : Fin 8) : 1 ≤ s.alloc.profiles[i].ceiling :=
  ceiling_pos (h.1.profile i)

theorem attach_rangeKept (b : Bay) (s : State) : RangeKept s (attach b s) := by
  have alloc : ∀ u, RangeKept u (allocAttach b u) := fun u =>
    setChg_dyn_rangeKept u b _ rfl fun h => ⟨h.profile_pos _, le_rfl⟩
  exact finish_rangeKept (((((setBay_rangeKept s b _).trans (note_rangeKept _ _ _ _ _ _ _)).trans
    (custodyAttach_touch b _).rangeKept).trans (alloc _)).trans (reportChange_rangeKept b _ _ _))

theorem attachEvent_rangeKept (b : Bay) (s : State) : RangeKept s (attachEvent b s) := by
  have pin : RangeKept s (setSignature b true s) := .of_view rfl
  exact .ite (fun _ => .refl s) fun _ => pin.trans (attach_rangeKept b _)

theorem detach_rangeKept (b : Bay) (s : State) : RangeKept s (detach b s) := by
  unfold detach
  refine finish_rangeKept (RangeKept.trans ?_ (schedDetach_touch b _).rangeKept)
  refine RangeKept.trans ?_ (reportChange_rangeKept b _ _ _)
  refine RangeKept.trans ?_ (allocDetach_pass b _).rangeKept
  exact ((setBay_rangeKept s b _).trans (note_rangeKept _ _ _ _ _ _ _)).trans (custodyDetach_touch b _).rangeKept

theorem detachEvent_rangeKept (b : Bay) (s : State) : RangeKept s (detachEvent b s) := by
  have pin : RangeKept s (setSignature b false s) := .of_view rfl
  exact .when_ fun _ => pin.trans (detach_rangeKept b _)

theorem probeCompletes_rangeKept (b : Bay) (n : Nat) (short : Bool) (s : State) :
    RangeKept s (probeCompletes b n short s) :=
  .when_ fun _ => finish_rangeKept (.ite (fun _ => probeFault_rangeKept b s) fun _ => changeBay_rangeKept b _ s)

theorem shortTrip_rangeKept (b : Bay) (s : State) : RangeKept s (shortTrip b s) :=
  .when_ fun _ => finish_rangeKept (transientFault_rangeKept b _ _ s)

theorem backoffExpires_rangeKept (b : Bay) (s : State) : RangeKept s (backoffExpires b s) := by
  unfold backoffExpires
  dsimp only
  split
  · exact .ite (fun _ => finish_rangeKept (leaveHold_rangeKept b s)) fun _ => setBay_rangeKept s b _
  · exact .refl s

theorem cleanChargeExpires_rangeKept (b : Bay) (s : State) : RangeKept s (cleanChargeExpires b s) := by
  unfold cleanChargeExpires
  dsimp only
  split
  · exact .refl s
  · exact setBay_rangeKept s b _

theorem takeBayEnableOff_rangeKept (t b : Byte) (s : State) : RangeKept s (takeBayEnableOff t b s) := by
  unfold takeBayEnableOff
  split
  · exact refuse_rangeKept _ _ _ s
  · exact RangeKept.answered (.ite (fun _ => .refl s) fun _ => changeBay_rangeKept _ _ s) _ _ _ _

theorem takeBayEnableOn_rangeKept (t b : Byte) (s : State) : RangeKept s (takeBayEnableOn t b s) := by
  unfold takeBayEnableOn
  split
  · exact refuse_rangeKept _ _ _ s
  · exact RangeKept.answered (.when_ fun _ => .ite (fun _ => enterQualifying_rangeKept _ s) fun _ =>
      changeBay_rangeKept _ _ s) _ _ _ _

theorem clearFault_rangeKept (b : Bay) (s : State) : RangeKept s (clearFault b s) := by
  have cleared := setBay_rangeKept s b { s.bay b with retries := 0, lastFault := none }
  unfold clearFault
  dsimp only
  split
  · exact cleared.trans (.ite (fun _ => enterQualifying_rangeKept b _) fun _ => changeBay_rangeKept b _ _)
  · exact cleared.trans (enterQualifying_rangeKept b _)
  all_goals exact cleared

theorem takeFaultClear_rangeKept (t b : Byte) (s : State) : RangeKept s (takeFaultClear t b s) := by
  unfold takeFaultClear
  split
  · exact refuse_rangeKept _ _ _ s
  · exact (clearFault_rangeKept _ s).answered _ _ _ _

theorem takeBayQuery_rangeKept (t b : Byte) (s : State) : RangeKept s (takeBayQuery t b s) := by
  unfold takeBayQuery
  split
  · exact refuse_rangeKept _ _ _ s
  · exact reply_rangeKept _ _ _ _ s

theorem clampSuperv_clamped (c : SupervSettings) : clampSuperv (clampSuperv c) = clampSuperv c := by
  simp only [clampSuperv, clamp, SupervSettings.mk.injEq]
  omega

theorem takeSupervisionSet_rangeKept (t : Byte) (a : SupervSettings) (s : State) :
    RangeKept s (takeSupervisionSet t a s) := by
  refine RangeKept.trans (t := { s with superv := clampSuperv a }) ?_ (reply_rangeKept _ _ _ _ _)
  refine ⟨fun ⟨law, ceilings, bounds⟩ => ⟨?_, ceilings, bounds⟩, id, id⟩
  obtain ⟨budget, charge, profiles, _, rest⟩ := law
  exact ⟨budget, charge, profiles, clampSuperv_clamped a, rest⟩

end Sys2Proof.Machine
end

