-- ==== Sys2Proof/Proofs/RangeSteps.lean ====
section
/-! PROOF. Every request, event and tick of the part keeps the ranges of settings, ceilings, D and B, and the bounds of the
notice queue and the receive buffer. -/

namespace Sys2Proof.Machine

/-! ### Rounds and samples -/

/-- R82: the dynamic ceiling of a record lies between 1 and the profile ceiling. -/
def CeilingOk (p : Profile) (c : ChargeRec) : Prop := 1 ≤ c.dynCeiling ∧ c.dynCeiling ≤ p.ceiling

theorem pressTest_ceiling {p : Profile} {c : ChargeRec} (h : CeilingOk p c) (cfg : ChargeSettings) (draw : Nat) :
    CeilingOk p (pressTest cfg c p draw).record := by
  obtain ⟨pos, le⟩ := h
  unfold pressTest
  split
  · split
    · exact ⟨by simp only [Action.record]; omega, Nat.min_le_left _ _⟩
    · exact ⟨pos, le⟩
  · exact ⟨pos, le⟩

theorem reclaimTest_ceiling {p : Profile} {c : ChargeRec} (h : CeilingOk p c) (cfg : ChargeSettings) (draw : Nat) :
    CeilingOk p (reclaimTest cfg c p draw).record := by
  obtain ⟨pos, le⟩ := h
  unfold reclaimTest
  split
  · split
    · dsimp only
      split
      · exact ⟨pos, le⟩
      · exact ⟨Nat.le_max_left _ _, Nat.max_le.2 ⟨pos.trans le, Nat.min_le_left _ _⟩⟩
    · exact pressTest_ceiling (c := { c with reclaim := c.reclaim + 1 }) ⟨pos, le⟩ _ _
  · exact pressTest_ceiling (c := { c with reclaim := 0 }) ⟨pos, le⟩ _ _

/-- R79 to R84: a counted sample keeps the dynamic ceiling in range. -/
theorem countSample_ceiling {p : Profile} {c : ChargeRec} (h : CeilingOk p c) (cfg : ChargeSettings) (grant draw : Nat) :
    CeilingOk p (countSample cfg c p grant draw).record := by
  obtain ⟨pos, le⟩ := h
  unfold countSample
  split
  · dsimp only
    split
    · exact ⟨pos, le⟩
    · refine reclaimTest_ceiling ?_ _ _
      exact ⟨pos, le⟩
  · dsimp only
    split
    · exact ⟨pos, le⟩
    · refine reclaimTest_ceiling ?_ _ _
      exact ⟨pos, le⟩
  · split
    · split
      · exact ⟨pos.trans le, le_rfl⟩
      · exact ⟨pos, le⟩
    · exact ⟨pos, le⟩

theorem allocSample_rangeKept (b : Bay) (draw : Byte) (s : State) : RangeKept s (allocSample b draw s) := by
  have set := setChg_dyn_rangeKept s b _
    (countSample_profile s.alloc.settings (s.chg b) (s.profile b) (s.bay b).grant draw.toNat)
    fun h => countSample_ceiling (h.2.1 b) _ _ _
  refine .when_ fun _ => ?_
  unfold takeAction
  split <;> rename_i action <;> rw [action] at set
  · exact set
  · exact (set.trans (note_rangeKept _ _ _ _ _ _ _)).trans (askPass_pass _).rangeKept
  · exact set.trans (askPass_pass _).rangeKept

theorem baySample_rangeKept (b : Bay) (draw : Byte) (reading : Option Byte) (s : State) :
    RangeKept s (baySample b draw reading s) := by
  have checks : ∀ s, RangeKept s (faultChecks b draw reading s) := fun s => by
    unfold faultChecks
    refine RangeKept.trans ?_ (setBay_rangeKept _ b _)
    split
    · exact transientFault_rangeKept b _ _ s
    · exact setBay_rangeKept s b _
  have cool : ∀ s, RangeKept s (coolDownSample b reading s) := fun s => by
    unfold coolDownSample
    split
    · exact .refl s
    · exact .when_ fun _ => leaveHold_rangeKept b s
  exact ((setBay_rangeKept s b _).trans (checks _)).trans (cool _)

theorem askNext_view_range (s : State) : rangeView (askNext s) = rangeView s := by
  unfold askNext
  split <;> rfl

theorem recordSample_rangeKept (b : Bay) (d t : Byte) (s : State) : RangeKept s (recordSample b d t s) := by
  unfold recordSample
  refine finish_rangeKept (RangeKept.trans ?_ (allocSample_rangeKept b d _))
  refine RangeKept.trans (.of_view ((askNext_view_range _).trans ?_)) (baySample_rangeKept b d _ _)
  rw [writeSample_eq]
  rfl

theorem sampleArrives_rangeKept (b : Bay) (d t : Byte) (s : State) : RangeKept s (sampleArrives b d t s) :=
  .when_ fun _ => recordSample_rangeKept b d t s

theorem recordZone_rangeKept (z : Zone) (v : Byte) (s : State) : RangeKept s (recordZone z v s) :=
  .of_view (askNext_view_range _)

theorem zoneArrives_rangeKept (z : Zone) (v : Byte) (s : State) : RangeKept s (zoneArrives z v s) :=
  .when_ fun _ => recordZone_rangeKept z v s

theorem readingMissed_rangeKept (s : State) : RangeKept s (readingMissed s) := by
  unfold readingMissed
  split
  · exact .refl s
  · exact recordSample_rangeKept _ _ _ s
  · exact recordZone_rangeKept _ _ s

theorem thermalCompletion_rangeKept (z : Vector Byte 4) (s : State) : RangeKept s (thermalCompletion z s) := by
  have taken : RangeKept s (zonesTaken z s) := .of_view rfl
  rw [thermalCompletion_eq]
  exact .ite (fun _ => (taken.trans (recompute_rangeKept _)).trans (askPass_pass _).rangeKept) fun _ =>
    taken.trans (recompute_rangeKept _)

theorem completeRound_rangeKept (r : Round) (s : State) : RangeKept s (completeRound r s) := by
  have published : RangeKept s (publish r.thermal s) := .of_view rfl
  have after : ∀ s, RangeKept s (afterRound s) := fun s => by rw [afterRound_eq]; exact .of_view rfl
  unfold completeRound
  refine finish_rangeKept (RangeKept.trans ?_ (after _))
  refine RangeKept.trans ?_ (.when_ fun _ => note_rangeKept _ _ _ _ _ _ _)
  exact published.trans (.when_ fun _ => (thermalCompletion_rangeKept _ _).trans (runAsked_pass _).rangeKept)

theorem roundCompletes_rangeKept (s : State) : RangeKept s (roundCompletes s) := by
  unfold roundCompletes
  split
  · exact .refl s
  · exact .when_ fun _ => completeRound_rangeKept _ s

theorem periodExpires_rangeKept (s : State) : RangeKept s (periodExpires s) := by
  unfold periodExpires
  split
  · exact .of_view rfl
  · exact .refl s

theorem takeMeasure_rangeKept (t : Byte) (s : State) : RangeKept s (takeMeasure t s) := by
  unfold takeMeasure
  dsimp only
  split <;> exact .of_view rfl

theorem takeScanSet_rangeKept (t m p : Byte) (s : State) : RangeKept s (takeScanSet t m p s) := by
  unfold takeScanSet
  split
  · exact refuse_rangeKept _ _ _ s
  · simp only [applyScan_eq]
    exact .of_view rfl

/-! ### Settings of the Allocator and the budget -/

theorem clampCharge_clamped (c : ChargeSettings) : clampCharge (clampCharge c) = clampCharge c := by
  simp only [clampCharge, clamp, ChargeSettings.mk.injEq]
  omega

theorem clampBudget_clamped (c : BudgetSettings) : clampBudget (clampBudget c) = clampBudget c := by
  simp only [clampBudget, clamp, BudgetSettings.mk.injEq]
  omega

theorem clampProfile_clamped (p : Profile) : clampProfile (clampProfile p) = clampProfile p := by
  simp only [clampProfile, clamp, Profile.mk.injEq]
  omega

theorem clampCustody_clamped (c : CustodySettings) : clampCustody (clampCustody c) = clampCustody c := by
  simp only [clampCustody, clamp, CustodySettings.mk.injEq]
  omega

theorem clampProv_clamped (c : ProvSettings) : clampProv (clampProv c) = clampProv c := by
  simp only [clampProv, clamp, ProvSettings.mk.injEq]
  omega

theorem takeChargeSet_rangeKept (t : Byte) (a : ChargeSettings) (s : State) : RangeKept s (takeChargeSet t a s) := by
  have set : RangeKept s { s with alloc := { s.alloc with settings := clampCharge a } } := by
    refine ⟨fun ⟨law, ceilings, bounds⟩ => ⟨?_, ceilings, bounds⟩, id, id⟩
    obtain ⟨budget, _, rest⟩ := law
    exact ⟨budget, clampCharge_clamped a, rest⟩
  exact finish_rangeKept ((set.trans (reply_rangeKept _ _ _ _ _)).trans (askPass_pass _).rangeKept)

theorem takeBudgetSet_rangeKept (t : Byte) (a : BudgetSettings) (s : State) : RangeKept s (takeBudgetSet t a s) := by
  have set : RangeKept s { s with budget := { s.budget with settings := clampBudget a } } := by
    refine ⟨fun ⟨law, ceilings, bounds⟩ => ⟨?_, ceilings, bounds⟩, id, id⟩
    obtain ⟨_, rest⟩ := law
    exact ⟨clampBudget_clamped a, rest⟩
  unfold takeBudgetSet
  exact finish_rangeKept ((set.trans (reply_rangeKept _ _ _ _ _)).trans (recompute_rangeKept _))

theorem shedAccepts_rangeKept (a : Bool) (s : State) : RangeKept s (shedAccepts a s) := by
  unfold shedAccepts
  refine .ite (fun _ => .of_view rfl) fun _ => finish_rangeKept (RangeKept.trans ?_ (recompute_rangeKept _))
  exact .of_view rfl

/-- R76: a dynamic ceiling that follows the profile ceiling stays in range. -/
theorem followCeiling_bounds {old new dyn : Nat} (pos : 1 ≤ dyn) (le : dyn ≤ old) (new_pos : 1 ≤ new) :
    1 ≤ followCeiling old new dyn ∧ followCeiling old new dyn ≤ new := by
  unfold followCeiling
  split
  · omega
  · split <;> omega

theorem profileSet_rangeKept (i : Fin 8) (a : Profile) (s : State) : RangeKept s (profileSet i (clampProfile a) s) := by
  refine .of_laws (by simp only [profileSet]) (by simp only [profileSet]) (fun law => ?_) fun ceilings b => ?_
  · obtain ⟨budget, charge, profiles, rest⟩ := law
    have taken : ∀ j : Fin 8, clampProfile (s.alloc.profiles.set i (clampProfile a))[j] =
        (s.alloc.profiles.set i (clampProfile a))[j] := fun j => by
      by_cases same : j = i
      · subst same
        simpa using clampProfile_clamped a
      · have other : (s.alloc.profiles.set i (clampProfile a))[j] = s.alloc.profiles[j] :=
          Vector.getElem_set_ne _ _ fun e => same (Fin.ext e.symm)
        rw [other]
        exact profiles j
    unfold SettingsLaw profileSet
    exact ⟨budget, charge, taken, rest⟩
  · have own := ceilings b
    by_cases uses : (s.chg b).profile = i
    · rw [profile_of uses] at own
      have kept : ((profileSet i (clampProfile a) s).chg b).profile = i := by
        rw [chg_profileSet, followedCharge_profile, uses]
      rw [profile_of kept, chg_profileSet, followedCharge, if_pos uses]
      simpa [profileSet] using
        followCeiling_bounds own.1 own.2 (ceiling_pos (clampProfile_clamped a))
    · have charge : (profileSet i (clampProfile a) s).chg b = s.chg b := by
        rw [chg_profileSet, followedCharge, if_neg uses]
      have profile : (profileSet i (clampProfile a) s).profile b = s.profile b := by
        simp only [State.profile, charge]
        simp only [profileSet, Fin.getElem_fin]
        exact Vector.getElem_set_ne _ _ fun e => uses (Fin.ext e.symm)
      rw [charge, profile]
      exact own

theorem takeProfileSet_rangeKept (t index : Byte) (a : Profile) (s : State) :
    RangeKept s (takeProfileSet t index a s) := by
  by_cases above : 7 < index.toNat
  · unfold takeProfileSet
    rw [profileOf_none above]
    exact refuse_rangeKept _ _ _ s
  · rw [takeProfileSet_eq (i := ⟨index.toNat, by omega⟩) rfl]
    refine finish_rangeKept (RangeKept.trans ?_ (.when_ fun _ => (askPass_pass _).rangeKept))
    exact (profileSet_rangeKept _ a s).trans (answer_rangeKept _ _ _ _)

theorem bayProfiled_rangeKept (b : Bay) (i : Fin 8) (s : State) : RangeKept s (bayProfiled b i s) := by
  refine (setChg_rangeKept s b _ fun h => ?_).trans (setBay_rangeKept _ b _)
  rw [profile_of (i := i) (by rw [chg_setChg_self])]
  exact ⟨h.profile_pos i, le_rfl⟩

theorem takeBayProfile_rangeKept (t bay index : Byte) (s : State) : RangeKept s (takeBayProfile t bay index s) := by
  by_cases refused : bayOf bay = none ∨ 7 < index.toNat
  · rw [takeBayProfile_range refused]
    exact .of_view rfl
  · obtain ⟨some, le⟩ := not_or.1 refused
    obtain ⟨b, named⟩ := Option.ne_none_iff_exists'.1 some
    rw [takeBayProfile_eq (i := ⟨index.toNat, by omega⟩) named rfl]
    refine finish_rangeKept (RangeKept.trans ?_ (askPass_pass _).rangeKept)
    exact (bayProfiled_rangeKept b _ s).trans (answer_rangeKept _ _ _ _)

theorem settleExpires_rangeKept (s : State) : RangeKept s (settleExpires s) := by
  unfold settleExpires
  split
  · exact .refl s
  · exact (applyIncreases_pass s).rangeKept.trans (setTimer_passWork _ none).pass.rangeKept

/-! ### Custody -/

theorem takeLockdownOn_rangeKept (t : Byte) (s : State) : RangeKept s (takeLockdownOn t s) := by
  have set : RangeKept s { s with link := { s.link with lockdown := true } } := .of_view rfl
  unfold takeLockdownOn
  exact RangeKept.answered (.ite (fun _ => set) fun _ => set.trans (latchLockdown_untold _).rangeKept) _ _ _ _

theorem setPurpose_touch (b : Bay) (p : Purpose) (s : State) : OnlyCustody s (setPurpose b p s) := setCust_touch s b _

theorem abortForCheckout_touch (b : Bay) (s : State) : OnlyLanes s (abortForCheckout b s) := by
  unfold abortForCheckout
  refine OnlyLanes.trans ?_ (removeQueued_touch b 5 _)
  split
  · exact release_touch _ _ s
  · exact .refl s

theorem acceptCheckout_rangeKept (t : Byte) (b : Bay) (h : Word16) (g : Byte) (d : Nat) (s : State) :
    RangeKept s (acceptCheckout t b h g d s) := by
  unfold acceptCheckout
  refine RangeKept.answered (RangeKept.trans ?_ (releaseRequest_untold b _).rangeKept) _ _ _ _
  exact (((abortForCheckout_touch b s).custody.trans (endReservation_touch b _)).trans
    (setPurpose_touch b _ _)).rangeKept

theorem takeCheckout_rangeKept (t b : Byte) (h : Word16) (g : Byte) (d : Word16) (f : Byte) (s : State) :
    RangeKept s (takeCheckout t b h g d f s) := by
  have refused := fun r => refuse_rangeKept 0x30 t r s
  have accepted := fun b => acceptCheckout_rangeKept t b h g (dueTime d) s
  unfold takeCheckout
  refine .ite (fun _ => refused _) fun _ => .ite (fun _ => refused _) fun _ => .ite (fun _ => refused _) fun _ => ?_
  split
  · refine .ite (fun _ => refused _) fun _ => ?_
    split
    · exact refused _
    · exact accepted _
  · split
    · exact refused _
    · exact .ite (fun _ => refused _) fun _ => accepted _

theorem takeReturn_rangeKept (t : Byte) (h : Word16) (s : State) : RangeKept s (takeReturn t h s) := by
  have refused := fun r => refuse_rangeKept 0x31 t r s
  unfold takeReturn
  refine .ite (fun _ => refused _) fun _ => .ite (fun _ => refused _) fun _ => .ite (fun _ => refused _) fun _ => ?_
  split
  · exact refused _
  · refine .ite (fun _ => refused _) fun _ => .ite (fun _ => refused _) fun _ => RangeKept.answered ?_ _ _ _ _
    exact ((setPurpose_touch _ _ s).untold.trans (releaseRequest_untold _ _)).rangeKept

theorem acceptService_rangeKept (t : Byte) (b : Bay) (s : State) : RangeKept s (acceptService t b s) := by
  unfold acceptService
  refine RangeKept.answered (RangeKept.trans ?_ (releaseRequest_untold b _).rangeKept) _ _ _ _
  refine RangeKept.trans ?_ (setPurpose_touch b _ _).rangeKept
  refine RangeKept.trans ?_ (.when_ fun _ => (lapsePurpose_touch b _).rangeKept)
  split
  · exact (release_touch _ _ s).rangeKept
  · exact .refl s

theorem takeServiceOpen_rangeKept (t b f : Byte) (s : State) : RangeKept s (takeServiceOpen t b f s) := by
  have refused := fun r => refuse_rangeKept 0x21 t r s
  unfold takeServiceOpen
  refine .ite (fun _ => refused _) fun _ => ?_
  split
  · exact refused _
  · exact .ite (fun _ => refused _) fun _ => .ite (fun _ => refused _) fun _ => .ite (fun _ => refused _) fun _ =>
      acceptService_rangeKept t _ s

theorem takeReserve_rangeKept (t g c : Byte) (d : Word16) (s : State) : RangeKept s (takeReserve t g c d s) := by
  refine .ite (fun _ => refuse_rangeKept _ _ _ s) fun _ => .ite (fun _ => refuse_rangeKept _ _ _ s) fun _ => ?_
  unfold acceptReserve
  refine RangeKept.answered (RangeKept.trans ?_ (eachBay_rangeKept (fun b s => .when_ fun _ =>
    (testHorizon_touch b s).rangeKept) _)) _ _ _ _
  exact foldl_rel .refl .trans (fun b s => (setCust_touch s b _).rangeKept) _ s

theorem takeReserveCancel_rangeKept (t g : Byte) (s : State) : RangeKept s (takeReserveCancel t g s) :=
  .ite (fun _ => refuse_rangeKept _ _ _ s) fun _ => RangeKept.answered (eachBay_rangeKept (fun b s => .when_ fun _ =>
    (endReservation_touch b s).rangeKept) s) _ _ _ _

theorem takeCustodyLoad_rangeKept (t b : Byte) (h d : Word16) (s : State) :
    RangeKept s (takeCustodyLoad t b h d s) := by
  have refused := fun r => refuse_rangeKept 0x34 t r s
  unfold takeCustodyLoad
  split
  · exact refused _
  · exact .ite (fun _ => refused _) fun _ => .ite (fun _ => refused _) fun _ => .ite (fun _ => refused _) fun _ =>
      (setCust_touch s _ _).rangeKept.trans (reply_rangeKept _ _ _ _ _)

theorem takeCustodySet_rangeKept (t : Byte) (a : CustodySettings) (s : State) : RangeKept s (takeCustodySet t a s) := by
  have set : RangeKept s { s with custodySet := clampCustody a } := by
    refine ⟨fun ⟨law, ceilings, bounds⟩ => ⟨?_, ceilings, bounds⟩, id, id⟩
    obtain ⟨budget, charge, profiles, superv, latch, _, rest⟩ := law
    exact ⟨budget, charge, profiles, superv, latch, clampCustody_clamped a, rest⟩
  refine .ite (fun _ => refuse_rangeKept _ _ _ s) fun _ => RangeKept.answered (set.trans ?_) _ _ _ _
  exact eachBay_rangeKept (fun b s => ((testExpiry_touch b s).trans (testHorizon_touch b _)).rangeKept) _

theorem advanceMinute_rangeKept (s : State) : RangeKept s (advanceMinute s) := by
  refine finish_rangeKept (RangeKept.trans ?_ (custodyMinute_touch _).rangeKept)
  exact .of_view rfl

/-! ### The lanes -/

theorem takeProvAdd_rangeKept (t b c : Byte) (j : Word16) (a : Byte) (s : State) :
    RangeKept s (takeProvAdd t b c j a s) := by
  have added : ∀ b c n, RangeKept s (addEntry b c j n s) := fun _ _ _ => .of_view rfl
  unfold takeProvAdd
  split
  · split
    · exact refuse_rangeKept _ _ _ s
    · exact RangeKept.answered ((added _ _ _).trans (assignmentRun_touch _).rangeKept) _ _ _ _
  · exact refuse_rangeKept _ _ _ s

theorem takeProvCancel_rangeKept (t b : Byte) (s : State) : RangeKept s (takeProvCancel t b s) := by
  unfold takeProvCancel
  split
  · exact refuse_rangeKept _ _ _ s
  · split
    · exact (release_touch _ _ s).rangeKept.answered _ _ _ _
    · split
      · exact (setQueue_touch s _).rangeKept.trans (reply_rangeKept _ _ _ _ _)
      · exact reply_rangeKept _ _ _ _ s

theorem takeProvDone_rangeKept (t l b : Byte) (j : Word16) (r : Byte) (s : State) :
    RangeKept s (takeProvDone t l b j r s) := by
  unfold takeProvDone
  split
  · exact .ite (fun _ => (release_touch _ _ s).rangeKept.answered _ _ _ _) fun _ => refuse_rangeKept _ _ _ s
  · exact refuse_rangeKept _ _ _ s

theorem laneOut_touch (l : Lane) (s : State) : OnlyLanes s (laneOut l s) := by
  unfold laneOut
  split
  · exact setLane_touch _ _ _
  · exact release_touch _ _ s
  · exact release_touch _ _ s
  · exact .refl s

theorem laneIn_touch (l : Lane) (s : State) : OnlyLanes s (laneIn l s) := by
  unfold laneIn
  split
  · exact (setLane_touch _ _ _).trans (assignmentRun_touch _)
  all_goals exact setLane_touch _ _ _

theorem takeLaneServiceOut_rangeKept (t l : Byte) (s : State) : RangeKept s (takeLaneServiceOut t l s) := by
  unfold takeLaneServiceOut
  split
  · exact refuse_rangeKept _ _ _ s
  · exact (laneOut_touch _ s).rangeKept.answered _ _ _ _

theorem takeLaneServiceIn_rangeKept (t l : Byte) (s : State) : RangeKept s (takeLaneServiceIn t l s) := by
  unfold takeLaneServiceIn
  split
  · exact refuse_rangeKept _ _ _ s
  · exact (laneIn_touch _ s).rangeKept.answered _ _ _ _

theorem putSlots_rangeKept (slots : List ProvClass) (s : State) (size : 1 ≤ slots.length ∧ slots.length ≤ 16) :
    RangeKept s (putSlots slots s) := by
  refine RangeKept.trans ?_ (assignmentRun_touch _).rangeKept
  refine ⟨fun ⟨law, ceilings, bounds⟩ => ⟨?_, ceilings, bounds⟩, id, id⟩
  obtain ⟨budget, charge, profiles, superv, latch, custody, prov, _, rest⟩ := law
  exact ⟨budget, charge, profiles, superv, latch, custody, prov, size, rest⟩

theorem takeSlotTable_rangeKept (t n : Byte) (cs : List Byte) (s : State) : RangeKept s (takeSlotTable t n cs s) := by
  refine .ite (fun _ => reply_rangeKept _ _ _ _ s) fun same => .ite (fun _ => refuse_rangeKept _ _ _ s) fun range => ?_
  split
  · exact refuse_rangeKept _ _ _ s
  · rename_i slots named
    refine (putSlots_rangeKept slots s ?_).answered _ _ _ _
    obtain ⟨some, le⟩ := not_or.1 range
    have pos : n.toNat ≠ 0 := fun e => some (BitVec.eq_of_toNat_eq e)
    have := slotClasses_length named
    omega

theorem takeProvSet_rangeKept (t : Byte) (a : ProvSettings) (s : State) : RangeKept s (takeProvSet t a s) := by
  refine RangeKept.trans (t := { s with prov := { s.prov with settings := clampProv a } }) ?_ (reply_rangeKept _ _ _ _ _)
  refine ⟨fun ⟨law, ceilings, bounds⟩ => ⟨?_, ceilings, bounds⟩, id, id⟩
  obtain ⟨budget, charge, profiles, superv, latch, custody, _, rest⟩ := law
  exact ⟨budget, charge, profiles, superv, latch, custody, clampProv_clamped a, rest⟩

theorem lineCheckReturns_rangeKept (l : Lane) (n : Nat) (d : DataLine) (s : State) :
    RangeKept s (lineCheckReturns l n d s) := by
  unfold lineCheckReturns
  split
  · exact .when_ fun _ => .ite (fun _ => (setLane_touch s _ _).rangeKept) fun _ =>
      finish_rangeKept ((setBay_rangeKept s _ _).trans (release_touch _ _ _).rangeKept)
  · exact .refl s

theorem lineCheckMissed_rangeKept (l : Lane) (s : State) : RangeKept s (lineCheckMissed l s) := by
  unfold lineCheckMissed
  split
  · exact finish_rangeKept (release_touch _ _ s).rangeKept
  · exact .refl s

theorem patternEnds_rangeKept (l : Lane) (k n : Nat) (s : State) : RangeKept s (patternEnds l k n s) := by
  have active : ∀ e u, OnlyLanes u (enterActive l e u) := fun e u =>
    (setLane_touch u _ _).trans (provNote_touch _ _ _ _ _ _)
  unfold patternEnds
  split
  · exact .when_ fun _ => .ite (fun _ => ((setLane_touch s _ _).trans (active _ _)).rangeKept) fun _ =>
      finish_rangeKept ((setLane_touch s _ _).trans (release_touch _ _ _)).rangeKept
  · exact .refl s

theorem sessionExpires_rangeKept (l : Lane) (s : State) : RangeKept s (sessionExpires l s) := by
  unfold sessionExpires
  split
  · exact finish_rangeKept (release_touch _ _ s).rangeKept
  · exact .refl s

end Sys2Proof.Machine
end

