-- ==== Sys2Proof/Proofs/RangesKept.lean ====
section
/-! PROOF. The store, the resets, the link and the tick keep the ranges and the bounds of the queues, and so does every
step. -/

namespace Sys2Proof.Machine

/-! ### The store -/

theorem takeStoreSave_rangeKept (t : Byte) (s : State) : RangeKept s (takeStoreSave t s) := by
  unfold takeStoreSave
  split
  · exact reply_rangeKept _ _ _ _ s
  · refine RangeKept.trans ?_ (reply_rangeKept _ _ _ _ _)
    refine .of_laws rfl rfl (fun law => ?_) (ceilingLaw_congr rfl fun _ => ⟨rfl, rfl⟩)
    obtain ⟨budget, charge, profiles, superv, latch, custody, prov, slots, period, rate, stored, _⟩ := law
    refine ⟨budget, charge, profiles, superv, latch, custody, prov, slots, period, rate, stored, fun v e => ?_⟩
    cases e
    exact (clampBudget_bounds budget).1

/-- R188: the write of a word leaves the copy of the save in flight. -/
theorem writeNext_copy {st : Store} {v : Save} (h : (writeNext st).save = some v) :
    ∃ v', st.save = some v' ∧ v.copy = v'.copy := by
  unfold writeNext at h
  split at h
  · rename_i idle
    rw [idle] at h
    cases h
  · rename_i v' save
    split at h
    · cases h
      exact ⟨v', save, rfl⟩
    · exact ⟨v, h, rfl⟩

theorem storeWrites_rangeKept (s : State) : RangeKept s (storeWrites s) := by
  refine .of_laws rfl rfl (fun law => ?_) (ceilingLaw_congr rfl fun _ => ⟨rfl, rfl⟩)
  obtain ⟨budget, charge, profiles, superv, latch, custody, prov, slots, period, rate, stored, save⟩ := law
  refine ⟨budget, charge, profiles, superv, latch, custody, prov, slots, period, rate, stored, fun v e => ?_⟩
  obtain ⟨v', old, copy⟩ := writeNext_copy e
  rw [copy]
  exact save v' old

theorem saveCompletes_rangeKept (s : State) : RangeKept s (saveCompletes s) := by
  unfold saveCompletes
  split
  · exact .refl s
  · rename_i v inFlight
    refine RangeKept.trans ?_ (note_rangeKept _ _ _ _ _ _ _)
    refine ⟨fun ⟨law, ceilings, bounds⟩ => ⟨?_, ceilings, bounds⟩, id, id⟩
    obtain ⟨budget, charge, profiles, superv, latch, custody, prov, slots, period, rate, _, save⟩ := law
    exact ⟨budget, charge, profiles, superv, latch, custody, prov, slots, period, rate, save v inFlight,
      fun _ e => by cases e⟩

/-! ### The resets -/

/-- R187: the load takes every setting in its range. -/
theorem loadSettings_inRange (words : Vector StoreWord 64) : SettingsInRange (loadSettings words) := by
  have length : (loadedSlots words).length = 16 := rfl
  refine ⟨?_, ?_, clampBudget_clamped _, clampLatch_clamped _, clampCharge_clamped _, clampSuperv_clamped _,
    clampCustody_clamped _, clampProv_clamped _, ?_, fun i => ?_⟩
  · simp only [loadSettings, clamp]
    omega
  · simp only [loadSettings, clamp]
    omega
  · simp only [loadSettings, clamp, List.length_take, length]
    omega
  · simp only [loadSettings, Fin.getElem_fin, Vector.getElem_ofFn]
    exact clampProfile_clamped _

/-- A full reset leaves everything in range, and the queues empty, from any state. -/
theorem resetTo_inRange (s : State) {c : Settings} (h : SettingsInRange c) {store : Store} (idle : store.save = none)
    (free : Nat) (held : Option ResetCause) (round : Option Round) : InRange (resetTo s c store free held round) := by
  obtain ⟨rate, period, budget, latch, charge, superv, custody, prov, slots, profiles⟩ := h
  refine ⟨⟨budget, charge, profiles, superv, latch, custody, prov, slots, period, rate, (clampBudget_bounds budget).1,
    fun v e => ?_⟩, fun b => ?_, le_rfl, Nat.zero_le _⟩
  · rw [show (resetTo s c store free held round).store = store from rfl, idle] at e
    cases e
  · have own : (resetTo s c store free held round).chg b = { ChargeRec.initial 0 c.profiles[0].ceiling with } := by
      simp [State.chg, resetTo, ChargeRec.initial]
    have uses : ((resetTo s c store free held round).chg b).profile = 0 := by rw [own]; rfl
    rw [profile_of uses, own]
    exact ⟨ceiling_pos (profiles 0), le_rfl⟩

theorem resetPart_rangeKept (s : State) : RangeKept s (resetPart s) := by
  obtain ⟨words, free, _, e⟩ := resetPart_eq s
  rw [e]
  exact ⟨fun _ => resetTo_inRange s (loadSettings_inRange words) rfl _ _ _,
    fun _ => ⟨Nat.zero_le _, fun _ => Nat.zero_le _⟩, fun _ => Nat.zero_le _⟩

theorem setHeld_rangeKept (s : State) (h : Option ResetCause) : RangeKept s { s with held := h } := .of_view rfl

theorem startRound_rangeKept (m : Bool) (s : State) : RangeKept s (startRound m s) := .of_view rfl

theorem endReset_rangeKept (s : State) : RangeKept s (endReset s) :=
  (setHeld_rangeKept s none).trans (startRound_rangeKept false _)

theorem fullReset_rangeKept (c : ResetCause) (s : State) : RangeKept s (fullReset c s) := by
  cases c
  · exact (resetPart_rangeKept s).trans (setHeld_rangeKept _ _)
  · exact (resetPart_rangeKept s).trans (setHeld_rangeKept _ _)
  · exact .ite (fun _ => .refl s) fun _ => (resetPart_rangeKept s).trans (endReset_rangeKept _)

theorem resetEnds_rangeKept (s : State) : RangeKept s (resetEnds s) := by
  unfold resetEnds
  split
  · exact .refl s
  · exact endReset_rangeKept s

theorem abandonSave_rangeKept (s : State) : RangeKept s (abandonSave s) := by
  obtain ⟨words, free, _, e⟩ := abandonSave_words s
  rw [e]
  refine .of_laws rfl rfl (fun law => ?_) (ceilingLaw_congr rfl fun _ => ⟨rfl, rfl⟩)
  obtain ⟨budget, charge, profiles, superv, latch, custody, prov, slots, period, rate, stored, _⟩ := law
  exact ⟨budget, charge, profiles, superv, latch, custody, prov, slots, period, rate, stored, fun v e => by cases e⟩

theorem chg_clearBlocks (s : State) (b : Bay) :
    (clearBlocks s).chg b = ChargeRec.initial (s.chg b).profile (s.profile b).ceiling := by
  simp [State.chg, clearBlocks]

/-- R192: a warm restart keeps the settings; the ceilings start at those of the profiles. -/
theorem clearBlocks_rangeKept (s : State) : RangeKept s (clearBlocks s) := by
  have settings : settingsView (clearBlocks s) = settingsView s := by unfold settingsView clearBlocks; rfl
  have budget : (clearBlocks s).budget = s.budget.cleared := by unfold clearBlocks; rfl
  have link : (clearBlocks s).link = s.link.cleared := by unfold clearBlocks; rfl
  refine ⟨fun ⟨law, _, _⟩ => ⟨settingsLaw_congr settings law, fun b => ?_, ?_⟩, fun _ => ?_, fun _ => ?_⟩
  · have profile : (clearBlocks s).profile b = s.profile b := by
      simp only [State.profile, chg_clearBlocks, ChargeRec.initial]
      unfold clearBlocks
      rfl
    rw [profile, chg_clearBlocks]
    exact ⟨ceiling_pos (law.profile _), le_rfl⟩
  · rw [BudgetLaw, budget]
    exact ⟨le_rfl, Nat.zero_le _⟩
  · rw [NoticeLaw, link]
    exact ⟨Nat.zero_le _, fun _ => Nat.zero_le _⟩
  · rw [BufferLaw, link]
    exact Nat.zero_le _

theorem warmRestart_rangeKept (s : State) : RangeKept s (warmRestart s) :=
  ((abandonSave_rangeKept s).trans (clearBlocks_rangeKept _)).trans (startRound_rangeKept false _)

/-! ### The link -/

/-- A link whose period and rate lie in their ranges, with notices taken out and a buffer in its bound. -/
theorem setLink_rangeKept (s : State) (l : LinkPort)
    (period : 1 ≤ s.link.period ∧ s.link.period ≤ 60 → 1 ≤ l.period ∧ l.period ≤ 60)
    (rate : s.link.rate ≤ 1 → l.rate ≤ 1) (notices : l.notices.Sublist s.link.notices)
    (buffer : s.link.buffer.length ≤ 2 → l.buffer.length ≤ 2) : RangeKept s { s with link := l } := by
  refine ⟨fun ⟨law, ceilings, bounds⟩ => ⟨?_, ceilings, bounds⟩, fun ⟨length, once⟩ => ⟨?_, fun subject => ?_⟩, buffer⟩
  · obtain ⟨budget, charge, profiles, superv, latch, custody, prov, slots, inPeriod, inRate, rest⟩ := law
    exact ⟨budget, charge, profiles, superv, latch, custody, prov, slots, period inPeriod, rate inRate, rest⟩
  · exact notices.length_le.trans length
  · exact notices.countP_le.trans (once subject)

theorem takeNotices_rangeKept (t : Byte) (s : State) : RangeKept s (takeNotices t s) := by
  refine RangeKept.trans ?_ (reply_rangeKept _ _ _ _ _)
  exact setLink_rangeKept s _ id id (List.drop_sublist _ _) id

theorem startWatchdog_rangeKept (s : State) : RangeKept s (startWatchdog s) := .of_view rfl

theorem takeWatchdogArm_rangeKept (t p : Byte) (s : State) : RangeKept s (takeWatchdogArm t p s) := by
  refine RangeKept.trans ?_ (reply_rangeKept _ _ _ _ _)
  refine RangeKept.trans ?_ (startWatchdog_rangeKept _)
  refine setLink_rangeKept s _ (fun _ => ?_) id (List.Sublist.refl _) id
  simp only [clamp]
  omega

theorem takeLinkSet_rangeKept (t c : Byte) (s : State) : RangeKept s (takeLinkSet t c s) :=
  .ite (fun _ => refuse_rangeKept _ _ _ s) fun valid => RangeKept.trans
    (setLink_rangeKept s { s.link with rate := c.toNat } id (fun _ => Nat.not_lt.1 valid) (List.Sublist.refl _) id)
    (reply_rangeKept _ _ _ _ _)

theorem setMode_rangeKept (m : Mode) (s : State) : RangeKept s (setMode m s) := .of_view rfl

theorem enterAutonomous_rangeKept (s : State) : RangeKept s (enterAutonomous s) := by
  unfold enterAutonomous
  refine finish_rangeKept (RangeKept.trans ?_ (recompute_rangeKept _))
  refine RangeKept.trans ?_ (latchAutonomous_untold _).rangeKept
  refine RangeKept.trans ?_ (schedAutonomous_touch _).rangeKept
  exact (setMode_rangeKept _ s).trans (note_rangeKept _ _ _ _ _ _ _)

theorem watchdogExpires_rangeKept (s : State) : RangeKept s (watchdogExpires s) := by
  have stopped : RangeKept s { s with link := { s.link with watchdog := none } } := .of_view rfl
  unfold watchdogExpires
  split
  · exact .refl s
  · dsimp only
    split
    · exact stopped.trans (enterAutonomous_rangeKept _)
    · exact stopped

theorem takeResume_rangeKept (t : Byte) (s : State) : RangeKept s (takeResume t s) := by
  unfold takeResume
  split
  · exact reply_rangeKept _ _ _ _ s
  · exact RangeKept.answered (((setMode_rangeKept _ s).trans (recompute_rangeKept _)).trans
      (assignmentRun_touch _).rangeKept) _ _ _ _

/-- R175: a request that its owning block serves keeps the ranges and bounds. -/
theorem serve_rangeKept (i : Instr) (s : State) : RangeKept s (serve i s) := by
  cases i <;> simp only [serve]
  case status => exact .of_view rfl
  case notices => exact takeNotices_rangeKept _ s
  case snapshot => exact .of_view rfl
  case bayQuery => exact takeBayQuery_rangeKept _ _ s
  case measure => exact takeMeasure_rangeKept _ s
  case scanSet => exact takeScanSet_rangeKept _ _ _ s
  case budgetSet => exact takeBudgetSet_rangeKept _ _ s
  case profileSet => exact takeProfileSet_rangeKept _ _ _ s
  case bayProfile => exact takeBayProfile_rangeKept _ _ _ s
  case bayEnableOff => exact takeBayEnableOff_rangeKept _ _ s
  case bayEnableOn => exact takeBayEnableOn_rangeKept _ _ s
  case chargeSet => exact takeChargeSet_rangeKept _ _ s
  case supervisionSet => exact takeSupervisionSet_rangeKept _ _ s
  case faultClear => exact takeFaultClear_rangeKept _ _ s
  case latchSet => exact takeLatchSet_rangeKept _ _ s
  case serviceOpen => exact takeServiceOpen_rangeKept _ _ _ s
  case lockdownOn => exact takeLockdownOn_rangeKept _ s
  case lockdownOff => exact .of_view rfl
  case checkout => exact takeCheckout_rangeKept _ _ _ _ _ _ s
  case returnTablet => exact takeReturn_rangeKept _ _ s
  case reserve => exact takeReserve_rangeKept _ _ _ _ s
  case reserveCancel => exact takeReserveCancel_rangeKept _ _ s
  case custodyLoad => exact takeCustodyLoad_rangeKept _ _ _ _ s
  case custodySet => exact takeCustodySet_rangeKept _ _ s
  case provAdd => exact takeProvAdd_rangeKept _ _ _ _ _ s
  case provCancel => exact takeProvCancel_rangeKept _ _ s
  case provDone => exact takeProvDone_rangeKept _ _ _ _ _ s
  case laneServiceOut => exact takeLaneServiceOut_rangeKept _ _ s
  case laneServiceIn => exact takeLaneServiceIn_rangeKept _ _ s
  case slotTable => exact takeSlotTable_rangeKept _ _ _ s
  case provSet => exact takeProvSet_rangeKept _ _ s
  case watchdogArm => exact takeWatchdogArm_rangeKept _ _ s
  case resume => exact takeResume_rangeKept _ s
  case storeSave => exact takeStoreSave_rangeKept _ s
  case restartFull => exact .of_view rfl
  case restartWarm => exact (warmRestart_rangeKept s).trans (reply_rangeKept _ _ _ _ _)
  case linkSet => exact takeLinkSet_rangeKept _ _ s
  case unknownKind => exact .of_view rfl
  all_goals exact .refl s

theorem takeFrame_rangeKept (f : Frame) (s : State) : RangeKept s (takeFrame f s) := by
  unfold takeFrame
  split
  · exact serve_rangeKept _ s
  · exact reply_rangeKept _ _ _ _ s
  · exact refuse_rangeKept _ _ _ s

theorem takeNext_rangeKept (s : State) : RangeKept s (takeNext s) := by
  unfold takeNext
  split
  · rename_i f rest _ buffered
    refine RangeKept.trans ?_ (takeFrame_rangeKept _ _)
    refine setLink_rangeKept s _ id id (List.Sublist.refl _) fun bound => ?_
    rw [buffered] at bound
    exact (Nat.le_succ _).trans bound
  · exact .refl s

theorem bufferFrame_rangeKept (f : Frame) (s : State) : RangeKept s (bufferFrame f s) := by
  refine .ite (fun room => ?_) fun _ => .of_view rfl
  refine setLink_rangeKept s _ id id (List.Sublist.refl _) fun _ => ?_
  rw [List.length_append]
  exact room

theorem discardFrame_rangeKept (s : State) : RangeKept s (discardFrame s) := .of_view rfl

theorem setRx_rangeKept (r : Receiver) (s : State) : RangeKept s (setRx r s) := .of_view rfl

theorem frameCompletes_rangeKept (bytes : List Byte) (s : State) : RangeKept s (frameCompletes bytes s) := by
  unfold frameCompletes
  split
  · exact discardFrame_rangeKept s
  · exact (((setRx_rangeKept _ s).trans (.when_ fun _ => startWatchdog_rangeKept _)).trans
      (bufferFrame_rangeKept _ _)).trans (takeNext_rangeKept _)

theorem huntByte_rangeKept (v : Byte) (g : Bool) (s : State) : RangeKept s (huntByte v g s) :=
  .when_ fun _ => setRx_rangeKept _ s

theorem byteArrives_rangeKept (v : Byte) (g : Bool) (s : State) : RangeKept s (byteArrives v g s) := by
  unfold byteArrives
  split
  · exact huntByte_rangeKept _ _ s
  · exact .ite (fun _ => (discardFrame_rangeKept s).trans (huntByte_rangeKept _ _ _)) fun _ =>
      .ite (fun _ => .ite (fun _ => discardFrame_rangeKept s) fun _ =>
        .ite (fun _ => frameCompletes_rangeKept _ s) fun _ => setRx_rangeKept _ s) fun _ => discardFrame_rangeKept s

theorem gapExpires_rangeKept (s : State) : RangeKept s (gapExpires s) := by
  unfold gapExpires
  split
  · exact .refl s
  · exact discardFrame_rangeKept s

theorem answerEnds_rangeKept (s : State) : RangeKept s (answerEnds s) := by
  unfold answerEnds
  split
  · exact .refl s
  · refine .ite (fun _ => fullReset_rangeKept _ s) fun _ => RangeKept.trans ?_ (takeNext_rangeKept _)
    exact .of_view rfl

/-! ### The tick -/

theorem samplePresence_rangeKept (b : Bay) (s : State) : RangeKept s (samplePresence b s) :=
  .ite (fun _ => .ite (fun _ => setBay_rangeKept s b _) fun _ => .ite (fun _ => detach_rangeKept b s) fun _ =>
    setBay_rangeKept s b _) fun _ => .ite (fun _ => setBay_rangeKept s b _) fun _ =>
      .ite (fun _ => attach_rangeKept b s) fun _ => setBay_rangeKept s b _

theorem sampleShed_rangeKept (s : State) : RangeKept s (sampleShed s) :=
  .ite (fun _ => .of_view rfl) fun _ => .ite (fun _ => shedAccepts_rangeKept _ s) fun _ => .of_view rfl

theorem sampleContact_rangeKept (b : Bay) (c : Contact) (s : State) : RangeKept s (sampleContact b c s) :=
  .ite (fun _ => finish_rangeKept (acceptLevel_rangeKept b c _ s)) fun _ => (setLatch_untold s b _).rangeKept

theorem startMachines_rangeKept (s : State) : RangeKept s (startMachines s) :=
  .when_ fun _ => finish_rangeKept ((eachBay_untold startIfReady_untold s).trans (arbitrate_untold _)).rangeKept

theorem tickFilters_rangeKept (s : State) : RangeKept s (tickFilters s) :=
  (((eachBay_rangeKept samplePresence_rangeKept s).trans (sampleShed_rangeKept _)).trans (eachBay_rangeKept (fun b s =>
    ((sampleContact_rangeKept b _ s).trans (sampleContact_rangeKept b _ _)).trans (sampleContact_rangeKept b _ _)) _)).trans
    (startMachines_rangeKept _)

theorem tickReading_rangeKept (s : State) : RangeKept s (tickReading s) := by
  unfold tickReading
  split
  · exact .refl s
  · exact .when_ fun _ => readingMissed_rangeKept s

theorem tickBackoff_rangeKept (b : Bay) (s : State) : RangeKept s (tickBackoff b s) := by
  unfold tickBackoff
  split
  · exact .when_ fun _ => backoffExpires_rangeKept b s
  · exact .refl s
  · exact .refl s

theorem tickCharge_rangeKept (s : State) : RangeKept s (tickCharge s) := by
  have settle := (settleIfDue_pass s).rangeKept
  have wait : ∀ s, RangeKept s (tickWait s) := fun s => .when_ fun _ => periodExpires_rangeKept s
  have clean : ∀ b s, RangeKept s (tickClean b s) := fun b s => .when_ fun _ => cleanChargeExpires_rangeKept b s
  exact ((((settle.trans (tickReading_rangeKept _)).trans (roundCompletes_rangeKept _)).trans (wait _)).trans
    (eachBay_rangeKept tickBackoff_rangeKept _)).trans (eachBay_rangeKept clean _)

theorem tickLatches_rangeKept (s : State) : RangeKept s (tickLatches s) := by
  have travel : ∀ b s, RangeKept s (tickTravel b s) := fun b s => .when_ fun _ => travelTimeout_rangeKept b s
  have pause : ∀ b s, RangeKept s (tickPause b s) := fun b s => .when_ fun _ => retryPauseExpires_rangeKept b s
  have window : ∀ b s, RangeKept s (tickWindow b s) := fun b s => .when_ fun _ => windowExpires_rangeKept b s
  have close : ∀ b s, RangeKept s (tickCloseSettle b s) := fun b s => .when_ fun _ => closeSettleExpires_rangeKept b s
  exact (((eachBay_rangeKept travel s).trans (eachBay_rangeKept pause _)).trans (eachBay_rangeKept window _)).trans
    (eachBay_rangeKept close _)

theorem tickLineCheck_rangeKept (l : Lane) (s : State) : RangeKept s (tickLineCheck l s) := by
  unfold tickLineCheck
  split
  · exact .when_ fun _ => lineCheckMissed_rangeKept l s
  · exact .refl s

theorem tickSession_rangeKept (l : Lane) (s : State) : RangeKept s (tickSession l s) := by
  unfold tickSession
  split
  · exact .when_ fun _ => sessionExpires_rangeKept l s
  · exact .refl s

theorem tickGap_rangeKept (s : State) : RangeKept s (tickGap s) := by
  unfold tickGap
  split
  · exact .refl s
  · exact .when_ fun _ => gapExpires_rangeKept s

theorem tickLink_rangeKept (s : State) : RangeKept s (tickLink s) := by
  have watchdog : ∀ s, RangeKept s (tickWatchdog s) := fun s => .when_ fun _ => watchdogExpires_rangeKept s
  exact (((eachLane_rangeKept tickLineCheck_rangeKept s).trans (eachLane_rangeKept tickSession_rangeKept _)).trans
    (watchdog _)).trans (tickGap_rangeKept _)

theorem live_rangeKept {f : State → State} {s : State} (h : RangeKept s (f s)) : RangeKept s (live f s) :=
  .ite (fun _ => .refl s) fun _ => h

/-- R193: a tick keeps the ranges and bounds. -/
theorem tick_rangeKept (s : State) : RangeKept s (tick s) := by
  have count : RangeKept s (countTick s) := .of_view rfl
  have minute : ∀ s, RangeKept s (tickMinute s) := fun s => .when_ fun _ => advanceMinute_rangeKept s
  exact live_rangeKept (((((count.trans (minute _)).trans (tickFilters_rangeKept _)).trans
    (tickCharge_rangeKept _)).trans (tickLatches_rangeKept _)).trans (tickLink_rangeKept _))

/-! ### Every command -/

theorem request_rangeKept (i : Instr) (s : State) : RangeKept s (request i (serve i) s) := by
  refine live_rangeKept (.ite (fun _ => serve_rangeKept i s) fun _ => ?_)
  split
  · exact bufferFrame_rangeKept _ s
  · exact .refl s

/-- Every command answers a state in which the ranges and bounds still hold. -/
theorem exec_rangeKept (i : Instr) (s : State) : ∃ t, exec i s = .next t ∧ RangeKept s t := by
  cases i
  case frameReceived v => exact ⟨_, rfl, live_rangeKept (byteArrives_rangeKept v true s)⟩
  case interbyteGapTimeout => exact ⟨_, rfl, live_rangeKept (gapExpires_rangeKept s)⟩
  case answerSent => exact ⟨_, rfl, live_rangeKept (answerEnds_rangeKept s)⟩
  case attach b => exact ⟨_, rfl, live_rangeKept (attachEvent_rangeKept b s)⟩
  case detach b => exact ⟨_, rfl, live_rangeKept (detachEvent_rangeKept b s)⟩
  case probeComplete b n f => exact ⟨_, rfl, live_rangeKept (probeCompletes_rangeKept b n f s)⟩
  case shortEvent b => exact ⟨_, rfl, live_rangeKept (shortTrip_rangeKept b s)⟩
  case sample b d t => exact ⟨_, rfl, live_rangeKept (sampleArrives_rangeKept b d t s)⟩
  case readingDeadline => exact ⟨_, rfl, live_rangeKept (readingMissed_rangeKept s)⟩
  case zoneReading z v => exact ⟨_, rfl, live_rangeKept (zoneArrives_rangeKept z v s)⟩
  case roundComplete => exact ⟨_, rfl, live_rangeKept (roundCompletes_rangeKept s)⟩
  case periodExpiry => exact ⟨_, rfl, live_rangeKept (periodExpires_rangeKept s)⟩
  case backoffExpiry b => exact ⟨_, rfl, live_rangeKept (backoffExpires_rangeKept b s)⟩
  case cleanChargeExpiry b => exact ⟨_, rfl, live_rangeKept (cleanChargeExpires_rangeKept b s)⟩
  case shedChange a => exact ⟨_, rfl, live_rangeKept (shedAccepts_rangeKept a s)⟩
  case settleExpiry => exact ⟨_, rfl, live_rangeKept (settleExpires_rangeKept s)⟩
  case contactEvent b c a => exact ⟨_, rfl, live_rangeKept (contactEvent_rangeKept b c a s)⟩
  case latchMachineStart b o i d => exact ⟨_, rfl, live_rangeKept (latchMachineStart_rangeKept b o i d s)⟩
  case travelTimeout b => exact ⟨_, rfl, live_rangeKept (travelTimeout_rangeKept b s)⟩
  case retryPauseExpiry b => exact ⟨_, rfl, live_rangeKept (retryPauseExpires_rangeKept b s)⟩
  case windowExpiry b => exact ⟨_, rfl, live_rangeKept (windowExpires_rangeKept b s)⟩
  case closeSettleExpiry b => exact ⟨_, rfl, live_rangeKept (closeSettleExpires_rangeKept b s)⟩
  case minuteAdvance => exact ⟨_, rfl, live_rangeKept (advanceMinute_rangeKept s)⟩
  case lineCheckResult l n d => exact ⟨_, rfl, live_rangeKept (lineCheckReturns_rangeKept l n d s)⟩
  case lineCheckDeadline l => exact ⟨_, rfl, live_rangeKept (lineCheckMissed_rangeKept l s)⟩
  case patternCheckEnd l k n => exact ⟨_, rfl, live_rangeKept (patternEnds_rangeKept l k n s)⟩
  case sessionExpiry l => exact ⟨_, rfl, live_rangeKept (sessionExpires_rangeKept l s)⟩
  case watchdogExpiry => exact ⟨_, rfl, live_rangeKept (watchdogExpires_rangeKept s)⟩
  case storeWordWrite => exact ⟨_, rfl, live_rangeKept (storeWrites_rangeKept s)⟩
  case saveComplete => exact ⟨_, rfl, live_rangeKept (saveCompletes_rangeKept s)⟩
  case fullReset c => exact ⟨_, rfl, fullReset_rangeKept c s⟩
  case byteReceived v g => exact ⟨_, rfl, live_rangeKept (byteArrives_rangeKept v g s)⟩
  case resetEnd => exact ⟨_, rfl, resetEnds_rangeKept s⟩
  all_goals exact ⟨_, rfl, request_rangeKept _ s⟩

/-- Every step keeps the ranges and bounds. -/
theorem step_rangeKept {s t : State} (h : step s = .next t) : RangeKept s t := by
  unfold step at h
  split at h
  · cases h
    exact tick_rangeKept s
  · rename_i c rest _
    obtain ⟨u, run, kept⟩ := exec_rangeKept c { s with pending := rest }
    rw [run] at h
    cases h
    have next : RangeKept s { s with pending := rest } := .of_view rfl
    exact next.trans kept

/-- Settles O38: the work of every command keeps the ranges, the notice queue and the buffer. -/
theorem rangesAndQueuesAreKept : Obligations.RangesAndQueuesAreKept := by
  intro s t h
  obtain ⟨ranges, notices, buffer⟩ := step_rangeKept h
  exact ⟨fun settings ceilings budget => ranges ⟨settings, ceilings, budget⟩, notices, buffer⟩

end Sys2Proof.Machine
end

