-- ==== Sys2Proof/Proofs/StatusReports.lean ====
section
/-! PROOF. What STATUS and NOTICES answer, and what they clear or take (R178, R179, R185). -/

namespace Sys2Proof.Machine

theorem mode_code_eq (m : Mode) : m.code = if m = .autonomous then 1 else 0 := by cases m <;> rfl

theorem remaining_eq (now : Nat) (t : Timer) :
    remaining now t = match t with | none => 0 | some expiry => expiry - now := by cases t <;> rfl

theorem encodeH_eq (h : Option Int) : encodeH h = match h with | none => 255 | some h => byte (h + 40).toNat := by
  cases h <;> rfl

/-- R179, R185: the fields of STATUS, with each flag, mode, timer and temperature as its report encodes it. -/
theorem statusFields_eq (s : State) :
    statusFields s = ([if s.link.mode = .autonomous then 1 else 0, if s.link.lockdown then 1 else 0,
        if s.link.armed then 1 else 0] : List Byte) ++
      num16 (match s.link.watchdog with | none => 0 | some expiry => expiry - s.time.ms) ++
      bytes16 s.time.minute ++ num16 s.budget.computed ++ num16 (s.budget.lastPass.getD 0) ++
      num16 s.budget.derate ++ [match s.budget.h with | none => 255 | some h => byte (h + 40).toNat] ++
      num16 s.alloc.remainder ++ [statusFlags s, byte s.link.notices.length] := by
  simp only [statusFields, mode_code_eq, flagByte_eq, remaining_eq, encodeH_eq] <;> rfl

/-- Eight flags at the eight bits of a byte. -/
theorem flagBits (a b c d e f g h : Bool) :
    let flags : Byte := (if a then 1 else 0) ||| (if b then 2 else 0) ||| (if c then 4 else 0) ||| (if d then 8 else 0) |||
      (if e then 16 else 0) ||| (if f then 32 else 0) ||| (if g then 64 else 0) ||| (if h then 128 else 0)
    flags.getLsbD 0 = a ∧ flags.getLsbD 1 = b ∧ flags.getLsbD 2 = c ∧ flags.getLsbD 3 = d ∧
      flags.getLsbD 4 = e ∧ flags.getLsbD 5 = f ∧ flags.getLsbD 6 = g ∧ flags.getLsbD 7 = h := by
  revert a b c d e f g h
  decide

/-- R178, R185: the fields of NOTICES: the overflow flag, the notices taken and left, and the records taken. -/
theorem noticesFields_eq (s : State) :
    noticesFields s = ([if s.link.overflow then 1 else 0, byte (min 16 s.link.notices.length),
        byte (s.link.notices.length - 16)] : List Byte) ++
      (s.link.notices.take 16).flatMap fun n =>
        [n.kind.code, n.subject, hiByte n.minute, loByte n.minute, n.d1, n.d2, n.d3, n.d4] := by
  simp only [noticesFields, Config.noticesPerAnswer, flagByte_eq, List.length_take, List.length_drop]
  rfl

/-- Settles O12: each answer's fields as its report lists them, over the state with the flags cleared or the notices
taken. -/
theorem statusAndNoticesReport : Obligations.StatusAndNoticesReport := by
  refine ⟨fun tag s free => ⟨next_request free ?_, flagBits ..⟩, fun tag s free => next_request free ?_⟩
  · rw [takeStatus, reply_answer, statusFields_eq]
    rfl
  · rw [takeNotices, reply_answer, noticesFields_eq]
    rfl

end Sys2Proof.Machine
end

