-- ==== Sys2Proof/Proofs/Resume.lean ====
section
/-! PROOF. RESUME: an assignment run neither reads nor writes the asking for a pass, so that the recomputation before it and
its own changes bring one pass between them (R47, R166, R182). -/

namespace Sys2Proof.Machine

/-! ### An assignment run and the asking for a pass -/

theorem searchFrom_askPass (s : State) (tries p : Nat) : searchFrom (askPass s) tries p = searchFrom s tries p := by
  induction tries generalizing p with
  | zero => rfl
  | succ tries ih =>
    have candidate (c : ProvClass) : classCandidate (askPass s) c = classCandidate s c := rfl
    have prov : (askPass s).prov = s.prov := rfl
    simp only [searchFrom, candidate, prov, ih]

theorem search_askPass (s : State) : search (askPass s) = search s := searchFrom_askPass s _ _

theorem takeEntry_askPass (l : Lane) (e : Entry) (p : Nat) (s : State) :
    takeEntry l e p (askPass s) = askPass (takeEntry l e p s) := rfl

theorem assignLanes_askPass (ls : List Lane) (s : State) : assignLanes ls (askPass s) = askPass (assignLanes ls s) := by
  induction ls generalizing s with
  | nil => rfl
  | cons l ls ih =>
    have free : ((askPass s).lane l).state = (s.lane l).state := rfl
    simp only [assignLanes, search_askPass, free]
    split
    · split
      · rfl
      · rw [takeEntry_askPass, ih]
    · exact ih s

theorem assignmentRun_askPass (s : State) : assignmentRun (askPass s) = askPass (assignmentRun s) :=
  assignLanes_askPass _ s

/-! ### RESUME -/

/-- Settles O16: one pass for the recomputation and the assignment run, which comes between the recomputation and the end of
the event. -/
theorem resumeReturnsToNormal : Obligations.ResumeReturnsToNormal := by
  refine fun tag s free => ⟨fun normal => next_request free ?_, fun auto => ?_⟩
  · rw [takeResume, normal]
    rfl
  have taken : takeResume tag s = finish (reply 0x51 tag .done [0] (assignmentRun (recompute (setMode .normal s)))) := by
    rw [takeResume, auto]
  have quiet (still : s.budget.established = false ∨ ¬ NewBudgetAsks s (budgetNow (setMode .normal s))) :
      takeResume tag s = finish ((assignmentRun (budgetStored (setMode .normal s))).answer 0xD1 tag [0x00, 0]) := by
    rw [taken, recompute_quiet still]
    rfl
  have asking (est : s.budget.established = true) (asks : NewBudgetAsks s (budgetNow (setMode .normal s))) :
      takeResume tag s =
        finish ((askPass (assignmentRun (budgetStored (setMode .normal s)))).answer 0xD1 tag [0x00, 0]) := by
    rw [taken, recompute_asks (s := setMode .normal s) est asks, assignmentRun_askPass]
    rfl
  refine ⟨_, next_request free rfl, ?_, fun est asks => ?_, fun _ => quiet, asking⟩
  · by_cases still : s.budget.established = false ∨ ¬ NewBudgetAsks s (budgetNow (setMode .normal s))
    · rw [quiet still]
      exact finish_pass _
    · obtain ⟨est, asks⟩ := not_or.1 still
      rw [asking (Bool.not_eq_false _ ▸ est) (not_not.1 asks)]
      exact finish_answer_pass (askPass_pass _) _ _ _
  · have run := (assignmentRun_touch (budgetStored (setMode .normal s))).pass
    have last := finish_last (s := (askPass (assignmentRun (budgetStored (setMode .normal s)))).answer 0xD1 tag [0x00, 0])
      rfl (run.established.trans est)
    rw [asking est asks, last]
    exact congrArg some run.computed

end Sys2Proof.Machine
end

