-- ==== Sys2Proof/Proofs/Arbitration.lean ====
section
/-! PROOF. The arbitration step (R118, R119): which latches it leaves, what it does to a latch for which only an EXTEND
waits, when it ends, and why it leaves the actuation reserve. -/

namespace Sys2Proof.Machine

/-! ### The count of latches moving -/

/-- One latch apart, the counts of latches moving agree. -/
theorem moving_one {s t : State} {b : Bay} (others : ∀ c, c ≠ b → t.latch c = s.latch c) :
    t.moving + (s.latch b).isMoving.toNat = s.moving + (t.latch b).isMoving.toNat := by
  obtain ⟨l, r, split, left, right⟩ := allBays_split b
  have same (bays : List Bay) (without : b ∉ bays) :
      bays.countP (fun c => (t.latch c).isMoving) = bays.countP fun c => (s.latch c).isMoving :=
    List.countP_congr fun c mem => by rw [others c fun e => without (e ▸ mem)]
  simp only [State.moving, split, List.countP_append, List.countP_cons, same l left, same r right]
  cases (s.latch b).isMoving <;> cases (t.latch b).isMoving <;> simp <;> omega

theorem moving_le_succ {s t : State} {b : Bay} (others : ∀ c, c ≠ b → t.latch c = s.latch c) :
    t.moving ≤ s.moving + 1 := by
  have count := moving_one others
  have := Bool.toNat_le (t.latch b).isMoving
  omega

/-- A latch that comes to rest is one fewer latch moving. -/
theorem moving_stopped {s t : State} {b : Bay} (others : ∀ c, c ≠ b → t.latch c = s.latch c)
    (before : (s.latch b).isMoving = true) (after : (t.latch b).isMoving = false) : s.moving = t.moving + 1 := by
  have count := moving_one others
  rw [before, after] at count
  exact count.symm

theorem moving_congr {s t : State} (same : t.latches = s.latches) : t.moving = s.moving := by
  simp only [State.moving, State.latch, same]

/-! ### What a latch event handed on leaves -/

theorem handOn_latches (b : Bay) (ev : LatchEvent) (s : State) : (handOn b ev s).latches = s.latches := by
  obtain ⟨_, _, _, _, _, h⟩ := handOn_touch b ev s
  rw [h]

theorem handOn_latch (b c : Bay) (ev : LatchEvent) (s : State) : (handOn b ev s).latch c = s.latch c := by
  simp only [State.latch, handOn_latches]

theorem handOn_latchUnit (b : Bay) (ev : LatchEvent) (s : State) : (handOn b ev s).latchUnit = s.latchUnit := by
  obtain ⟨_, _, _, _, _, h⟩ := handOn_touch b ev s
  rw [h]

theorem handOn_time (b : Bay) (ev : LatchEvent) (s : State) : (handOn b ev s).time = s.time := by
  obtain ⟨_, _, _, _, _, h⟩ := handOn_touch b ev s
  rw [h]

/-! ### One motion granted -/

/-- R119: the motion of a bay is granted, its entry having left the queue. -/
def grant (b : Bay) : Motion → State → State
  | .extend, s => grantExtend b (dropMotion b s)
  | .retract, s => grantRetract b (dropMotion b s)

theorem grant_untold (b : Bay) (m : Motion) (s : State) : Untold s (grant b m s) := by
  cases m
  · exact (dropMotion_untold b s).trans (grantRetract_untold b _)
  · exact (dropMotion_untold b s).trans (grantExtend_untold b _)

theorem grantMotions_succ (fuel : Nat) (s : State) (b : Bay) (m : Motion) (free : s.moving < s.latchUnit.settings.movers)
    (next : nextMotion s.latchUnit.queue = some (b, m)) :
    grantMotions (fuel + 1) s = grantMotions fuel (grant b m s) := by
  rw [grantMotions, if_pos free, next]
  cases m <;> rfl

theorem nextMotion_none {q : List (Bay × Motion)} (h : nextMotion q = none) : q = [] := by
  unfold nextMotion at h
  split at h
  · cases h
  · exact List.head?_eq_none_iff.1 h

theorem grantMotions_idle (fuel : Nat) {s : State}
    (idle : s.latchUnit.queue = [] ∨ s.latchUnit.settings.movers ≤ s.moving) : grantMotions fuel s = s := by
  cases fuel with
  | zero => rfl
  | succ fuel =>
    rw [grantMotions]
    split
    · rename_i free
      rw [idle.resolve_right (by omega)]
      rfl
    · rfl

theorem arbitrate_idle {s : State} (idle : s.latchUnit.queue = [] ∨ s.latchUnit.settings.movers ≤ s.moving) :
    arbitrate s = s := grantMotions_idle _ idle

/-- R113: the record of a latch whose EXTEND is granted, the bolt being thrown already or not. -/
def LatchRec.extended (l : LatchRec) (now travel : Nat) : LatchRec :=
  if l.boltOut.on then { l.drivenOut now travel with state := some .locked, travel := none } else l.drivenOut now travel

/-- R110: the record of a latch whose RETRACT is granted, the bolt being withdrawn already or not. -/
def LatchRec.retracted (l : LatchRec) (now travel window : Nat) : LatchRec :=
  if l.boltIn.on then
    { l.drivenIn now travel with state := some .released, travel := none, window := some (now + window * 1000) }
  else l.drivenIn now travel

theorem latch_enterLocked (b c : Bay) (s : State) : (enterLocked b s).latch c =
    if c = b then { (s.latch b).still with state := some .locked } else s.latch c := by
  rw [enterLocked, handOn_latch, latch_setLatch]

theorem latch_enterReleased (b c : Bay) (s : State) : (enterReleased b s).latch c =
    if c = b then { (s.latch b).still with
      state := some .released, window := some (s.time.ms + s.latchUnit.settings.window * 1000) }
    else s.latch c := by
  rw [enterReleased, handOn_latch]
  exact latch_setLatch _ _ _ _

theorem latch_grantExtend (b c : Bay) (s : State) : (grantExtend b s).latch c =
    if c = b then (s.latch b).extended s.time.ms s.latchUnit.settings.travel else s.latch c := by
  by_cases own : c = b <;> cases thrown : (s.latch b).boltOut.on <;>
    simp [grantExtend, latch_enterLocked, LatchRec.extended, LatchRec.drivenOut, LatchRec.still, own,
      thrown]

theorem latch_grantRetract (b c : Bay) (s : State) : (grantRetract b s).latch c =
    if c = b then (s.latch b).retracted s.time.ms s.latchUnit.settings.travel s.latchUnit.settings.window
    else s.latch c := by
  by_cases own : c = b <;> by_cases locked : (s.latch b).state = some .locked <;>
    cases withdrawn : (s.latch b).boltIn.on <;>
    simp [grantRetract, latch_enterReleased, LatchRec.retracted, LatchRec.drivenIn, LatchRec.still,
      handOn_latch, handOn_latchUnit, handOn_time, own, locked, withdrawn]

theorem latch_grant_extend (b c : Bay) (s : State) : (grant b .extend s).latch c =
    if c = b then (s.latch b).extended s.time.ms s.latchUnit.settings.travel else s.latch c :=
  latch_grantExtend b c (dropMotion b s)

theorem latch_grant_retract (b c : Bay) (s : State) : (grant b .retract s).latch c =
    if c = b then (s.latch b).retracted s.time.ms s.latchUnit.settings.travel s.latchUnit.settings.window
    else s.latch c := latch_grantRetract b c (dropMotion b s)

/-- A grant leaves every latch but its own. -/
theorem latch_grant_ne {b c : Bay} (ne : c ≠ b) (m : Motion) (s : State) : (grant b m s).latch c = s.latch c := by
  cases m
  · rw [latch_grant_retract, if_neg ne]
  · rw [latch_grant_extend, if_neg ne]

/-- A grant takes the entries of its bay from the motion queue, and leaves the latch settings. -/
theorem latchUnit_grant (b : Bay) (m : Motion) (s : State) :
    (grant b m s).latchUnit = { s.latchUnit with queue := s.latchUnit.queue.filter fun m => m.1 ≠ b } := by
  cases m
  · unfold grant grantRetract enterReleased
    dsimp only
    split <;> split <;> simp only [handOn_latchUnit, latchNote, note, queueNotice_latchUnit, setLatch_latchUnit] <;> rfl
  · unfold grant grantExtend enterLocked
    dsimp only
    split <;> simp only [handOn_latchUnit, setLatch_latchUnit] <;> rfl

theorem mem_grant_queue {b : Bay} {m : Motion} {s : State} {x : Bay × Motion} :
    x ∈ (grant b m s).latchUnit.queue ↔ x ∈ s.latchUnit.queue ∧ x.1 ≠ b := by
  simp [latchUnit_grant]

theorem grant_noMotion (b : Bay) (m : Motion) (s : State) : NoMotion (grant b m s) b :=
  fun _ mem => (mem_grant_queue.1 mem).2

theorem grant_time (b : Bay) (m : Motion) (s : State) : (grant b m s).time = s.time := by
  obtain ⟨_, _, _, _, _, _, _, _, _, _, h⟩ := (grant_untold b m s).latches
  rw [h]

/-! ### The step as a run of grants -/

/-- What every grant does, from a state with a mover free, the arbitration step does. -/
theorem grantMotions_rel {R : State → State → Prop} (refl : ∀ s, R s s) (trans : ∀ {s t u}, R s t → R t u → R s u)
    (step : ∀ s b m, (b, m) ∈ s.latchUnit.queue → s.moving < s.latchUnit.settings.movers → R s (grant b m s))
    (fuel : Nat) (s : State) : R s (grantMotions fuel s) := by
  induction fuel generalizing s with
  | zero => exact refl s
  | succ fuel ih =>
    by_cases idle : s.latchUnit.queue = [] ∨ s.latchUnit.settings.movers ≤ s.moving
    · rw [grantMotions_idle _ idle]
      exact refl s
    obtain ⟨some_, free⟩ := not_or.1 idle
    cases next : nextMotion s.latchUnit.queue with
    | none => exact absurd (nextMotion_none next) some_
    | some x =>
      obtain ⟨b, m⟩ := x
      rw [grantMotions_succ fuel s b m (Nat.lt_of_not_le free) next]
      exact trans (step s b m (nextMotion_mem next) (Nat.lt_of_not_le free)) (ih _)

theorem arbitrate_rel {R : State → State → Prop} (refl : ∀ s, R s s) (trans : ∀ {s t u}, R s t → R t u → R s u)
    (step : ∀ s b m, (b, m) ∈ s.latchUnit.queue → s.moving < s.latchUnit.settings.movers → R s (grant b m s))
    (s : State) : R s (arbitrate s) := grantMotions_rel refl trans step _ s

/-- R119: motions are granted until none waits or no mover is free. -/
theorem grantMotions_ends (fuel : Nat) (s : State) (enough : s.latchUnit.queue.length ≤ fuel) :
    (grantMotions fuel s).latchUnit.queue = [] ∨
      s.latchUnit.settings.movers ≤ (grantMotions fuel s).moving := by
  induction fuel generalizing s with
  | zero => exact .inl (List.eq_nil_of_length_eq_zero (Nat.le_zero.1 enough))
  | succ fuel ih =>
    by_cases idle : s.latchUnit.queue = [] ∨ s.latchUnit.settings.movers ≤ s.moving
    · rw [grantMotions_idle _ idle]
      exact idle
    obtain ⟨some_, free⟩ := not_or.1 idle
    cases next : nextMotion s.latchUnit.queue with
    | none => exact absurd (nextMotion_none next) some_
    | some x =>
      obtain ⟨b, m⟩ := x
      have fewer : (s.latchUnit.queue.filter fun x => x.1 ≠ b).length < s.latchUnit.queue.length :=
        List.length_filter_lt_length_iff_exists.2 ⟨(b, m), nextMotion_mem next, by simp⟩
      have rest := ih (grant b m s) (by rw [latchUnit_grant]; dsimp only; omega)
      rw [grantMotions_succ fuel s b m (Nat.lt_of_not_le free) next]
      rwa [latchUnit_grant] at rest

theorem arbitrate_ends (s : State) :
    (arbitrate s).latchUnit.queue = [] ∨ s.latchUnit.settings.movers ≤ (arbitrate s).moving :=
  grantMotions_ends _ s le_rfl

/-! ### What the step leaves -/

/-- R119: what an arbitration step leaves: the time and the latch settings, the actuation reserve, a latch for which no
motion waits, and the motions that wait, of which it adds none. -/
structure Arbitrated (s t : State) : Prop where
  time : t.time = s.time
  settings : t.latchUnit.settings = s.latchUnit.settings
  reserve : reserveMovers t = reserveMovers s
  queue : ∀ x ∈ t.latchUnit.queue, x ∈ s.latchUnit.queue
  bystander : ∀ c, NoMotion s c → t.latch c = s.latch c

theorem Arbitrated.noMotion {s t : State} (h : Arbitrated s t) {c : Bay} (none : NoMotion s c) : NoMotion t c :=
  fun x mem => none x (h.queue x mem)

theorem Arbitrated.refl (s : State) : Arbitrated s s := ⟨rfl, rfl, rfl, fun _ => id, fun _ _ => rfl⟩

theorem Arbitrated.trans {s t u : State} (h : Arbitrated s t) (h' : Arbitrated t u) : Arbitrated s u where
  time := h'.time.trans h.time
  settings := h'.settings.trans h.settings
  reserve := h'.reserve.trans h.reserve
  queue x mem := h.queue x (h'.queue x mem)
  bystander c none := (h'.bystander c (h.noMotion none)).trans (h.bystander c none)

/-- R46, R119: a grant made while a mover is free moves no more latches than M allows, so the reserve stands. -/
theorem grant_arbitrated (s : State) (b : Bay) (m : Motion) (waits : (b, m) ∈ s.latchUnit.queue)
    (free : s.moving < s.latchUnit.settings.movers) : Arbitrated s (grant b m s) where
  time := grant_time b m s
  settings := by rw [latchUnit_grant]
  reserve := by
    have one : (grant b m s).moving ≤ s.moving + 1 := moving_le_succ fun c ne => latch_grant_ne ne m s
    rw [reserveMovers, reserveMovers, latchUnit_grant]
    dsimp only
    omega
  queue _ mem := (mem_grant_queue.1 mem).1
  bystander c none := latch_grant_ne (fun e => none _ waits e.symm) m s

theorem arbitrate_arbitrated (s : State) : Arbitrated s (arbitrate s) := arbitrate_rel .refl .trans grant_arbitrated s

/-- R118, R119: the EXTEND of a bay whose bolt is not thrown waits, the latch as it was, or has been granted. -/
def ExtendWaitsOrDriven (b : Bay) (s t : State) : Prop :=
  (t.latch b = s.latch b ∧ (b, Motion.extend) ∈ t.latchUnit.queue) ∨
    (t.latch b = (s.latch b).drivenOut s.time.ms s.latchUnit.settings.travel ∧ NoMotion t b)

theorem arbitrate_extend {b : Bay} {s : State} (waits : (b, Motion.extend) ∈ s.latchUnit.queue)
    (only : ∀ x ∈ s.latchUnit.queue, x.1 = b → x.2 = .extend) (unthrown : (s.latch b).boltOut.on = false) :
    ExtendWaitsOrDriven b s (arbitrate s) := by
  have run := arbitrate_rel (R := fun s t => Arbitrated s t ∧ ((b, Motion.extend) ∈ s.latchUnit.queue →
      (∀ x ∈ s.latchUnit.queue, x.1 = b → x.2 = .extend) → (s.latch b).boltOut.on = false → ExtendWaitsOrDriven b s t))
    (fun s => ⟨.refl s, fun waits _ _ => .inl ⟨rfl, waits⟩⟩) ?trans ?step s
  · exact run.2 waits only unthrown
  case trans =>
    rintro s t u ⟨first, h⟩ ⟨second, h'⟩
    refine ⟨first.trans second, fun waits only unthrown => ?_⟩
    rcases h waits only unthrown with ⟨same, still⟩ | ⟨driven, none⟩
    · have rest := h' still (fun x mem => only x (first.queue x mem)) (same ▸ unthrown)
      rwa [ExtendWaitsOrDriven, same, first.time, first.settings] at rest
    · exact .inr ⟨(second.bystander b none).trans driven, second.noMotion none⟩
  case step =>
    refine fun s c m mem free => ⟨grant_arbitrated s c m mem free, fun waits only unthrown => ?_⟩
    by_cases own : b = c
    · subst own
      obtain rfl : m = .extend := only _ mem rfl
      refine .inr ⟨?_, grant_noMotion b _ s⟩
      rw [latch_grant_extend, if_pos rfl, LatchRec.extended, unthrown]
      rfl
    · exact .inl ⟨latch_grant_ne own m s, mem_grant_queue.2 ⟨waits, own⟩⟩

/-- R119: a free mover takes the one EXTEND that waits. -/
theorem arbitrate_only {b : Bay} {s : State} (queue : s.latchUnit.queue = [(b, Motion.extend)])
    (free : s.moving < s.latchUnit.settings.movers) (unthrown : (s.latch b).boltOut.on = false) :
    (arbitrate s).latch b = (s.latch b).drivenOut s.time.ms s.latchUnit.settings.travel := by
  have one : arbitrate s = grant b .extend s := by
    rw [arbitrate, queue]
    exact grantMotions_succ 0 s b .extend free (by rw [queue]; rfl)
  rw [one, latch_grant_extend, if_pos rfl, LatchRec.extended, unthrown]
  rfl

/-! ### The budget over an arbitration step -/

theorem Untold.mode {s t : State} (h : Untold s t) : t.link.mode = s.link.mode := by
  obtain ⟨_, _, _, _, _, _, _, _, _, _, rfl⟩ := h.latches
  exact queueAll_mode _ _

/-- R46, R119: an arbitration step leaves the budget as its inputs give it. -/
theorem budgetNow_arbitrate (s : State) : budgetNow (arbitrate s) = budgetNow s := by
  have untold := arbitrate_untold s
  have step := arbitrate_arbitrated s
  simp only [budgetNow, reservePower, step.reserve, step.settings, inletInUse_eq, derateNow, untold.budget, untold.mode]

end Sys2Proof.Machine
end

