-- ==== Sys2Proof/Proofs/LatchTimers.lean ====
section
/-! PROOF. The timers of a latch (R110 to R113): a travel timeout that frees a mover, with the budget told when more latches
moved than M allows (R46, R120), and the EXTEND that the end of a window or of a settle queues. -/

namespace Sys2Proof.Machine

/-! ### A release purpose that has ended stays so -/

/-- No release purpose is set where none stands. -/
def PurposesEnd (s t : State) : Prop := ∀ b, (s.cust b).purpose = none → (t.cust b).purpose = none

theorem PurposesEnd.refl (s : State) : PurposesEnd s s := fun _ => id

theorem PurposesEnd.trans {s t u : State} (h : PurposesEnd s t) (h' : PurposesEnd t u) : PurposesEnd s u :=
  fun b none => h' b (h b none)

theorem PurposesEnd.of_custody {s t : State} (h : t.custody = s.custody) : PurposesEnd s t := fun b none => by
  rwa [State.cust, h]

theorem PurposesEnd.when_ {p : Prop} [Decidable p] {s t : State} (h : PurposesEnd s t) :
    PurposesEnd s (if p then t else s) := by
  split
  · exact h
  · exact .refl s

theorem OnlyLanes.purposesEnd {s t : State} (h : OnlyLanes s t) : PurposesEnd s t :=
  .of_custody h.pass.custody

theorem setCust_purposesEnd (s : State) (b : Bay) (r : CustodyRec)
    (ends : (s.cust b).purpose = none → r.purpose = none) : PurposesEnd s (s.setCust b r) := by
  intro c none
  rw [cust_setCust]
  split
  · subst_vars
    exact ends none
  · exact none

theorem endReservation_purposesEnd (b : Bay) (s : State) : PurposesEnd s (endReservation b s) := by
  unfold endReservation
  split
  · exact .refl s
  · refine (setCust_purposesEnd s b _ ?_).trans (assignmentRun_touch _).purposesEnd
    exact id

theorem lapseNote_purposesEnd (b : Bay) (p : Purpose) (s : State) : PurposesEnd s (lapseNote b p s) := by
  cases p <;> exact .of_custody rfl

theorem lapsePurpose_purposesEnd (b : Bay) (s : State) : PurposesEnd s (lapsePurpose b s) := by
  unfold lapsePurpose
  split
  · exact .refl s
  · exact (setCust_purposesEnd s b _ fun _ => rfl).trans (lapseNote_purposesEnd b _ _)

theorem custodyRelocked_purposesEnd (b : Bay) (s : State) : PurposesEnd s (custodyRelocked b s) := by
  unfold custodyRelocked
  refine (lapsePurpose_purposesEnd b s).trans (PurposesEnd.when_ ?_)
  refine (setCust_purposesEnd _ b _ ?_).trans (endReservation_purposesEnd b _)
  exact id

theorem handOn_purposesEnd (b : Bay) (ev : LatchEvent) (s : State) : PurposesEnd s (handOn b ev s) := by
  cases ev
  · exact .refl s
  · exact .refl s
  · exact setCust_purposesEnd s b _ fun _ => rfl
  · exact (schedLeftLocked_touch b s).purposesEnd
  · exact (custodyRelocked_purposesEnd b s).trans (assignmentRun_touch _).purposesEnd

theorem enterLocked_purposesEnd (b : Bay) (s : State) : PurposesEnd s (enterLocked b s) :=
  PurposesEnd.trans (t := s.setLatch b { (s.latch b).still with state := some .locked }) (.of_custody rfl)
    (handOn_purposesEnd b _ _)

theorem enterReleased_purposesEnd (b : Bay) (s : State) : PurposesEnd s (enterReleased b s) := .of_custody rfl

theorem grant_purposesEnd (b : Bay) (m : Motion) (s : State) : PurposesEnd s (grant b m s) := by
  have driven (r : LatchRec) : PurposesEnd s ((dropMotion b s).setLatch b r) := .of_custody rfl
  cases m
  · exact ((driven _).trans (handOn_purposesEnd b _ _).when_).trans (enterReleased_purposesEnd b _).when_
  · exact (driven _).trans (enterLocked_purposesEnd b _).when_

/-- R132: an arbitration step sets no release purpose. -/
theorem arbitrate_purposesEnd (s : State) : PurposesEnd s (arbitrate s) :=
  arbitrate_rel .refl .trans (fun s b m _ _ => grant_purposesEnd b m s) s

/-! ### A mover freed -/

theorem OnlyLatches.queues {s t : State} (h : OnlyLatches s t) : ∃ ns, t.link = s.link.queueAll ns := by
  obtain ⟨_, _, _, _, _, _, ns, _, _, _, rfl⟩ := h
  exact ⟨ns, rfl⟩

theorem OnlyPass.derate {s t : State} (h : OnlyPass s t) : t.budget.derate = s.budget.derate := by
  obtain ⟨_, _, _, _, _, _, _, _, _, _, _, rfl, _⟩ := h
  rfl

/-- R42: a recomputation and the passes it brings leave D and B as the inputs then stand. -/
theorem Recomputed.told {s t : State} (h : Recomputed s t) :
    t.budget.derate = derateNow t ∧ t.budget.computed = budgetNow t ∧
      (s.budget.established = true → NewBudgetAsks s (budgetNow t) → t.budget.lastPass = some (budgetNow t)) := by
  obtain ⟨pass, asks, _⟩ := h
  have budget : budgetNow t = budgetNow s := pass.budgetNow_eq
  refine ⟨pass.derate.trans pass.derateNow_eq.symm, pass.computed.trans budget.symm, ?_⟩
  rwa [budget]

/-- What the end of an event leaves in which the latch of `b` has come to rest, the latches and custody records standing as
in `j` before the mover is freed. -/
structure MoverFreed (b : Bay) (s j t : State) : Prop where
  only : OnlyLatchesPass s t
  others : OtherLatchesKept b s t
  own : t.latch b = j.latch b
  told : BudgetTold (s.latchUnit.settings.movers < s.moving) s t
  notices : ∃ ns, t.link = j.link.queueAll ns
  purposes : PurposesEnd j t

/-- R46, R120: when more latches moved than M allows, none can start for the one that came to rest, so that the recomputed
budget stands; otherwise an arbitration step follows and the Budget Unit is not told. -/
theorem moverFreed_finish {b : Bay} {s j : State} (untold : Untold s j) (unit : j.latchUnit = s.latchUnit)
    (others : ∀ c, c ≠ b → j.latch c = s.latch c) (moved : (s.latch b).isMoving = true)
    (rest : (j.latch b).isMoving = false) (none : NoMotion s b) : MoverFreed b s j (finish (moverFreed s j)) := by
  have noMotion (c : Bay) (h : NoMotion s c) : NoMotion j c := by rwa [NoMotion, unit]
  by_cases many : s.latchUnit.settings.movers < s.moving
  · have one : s.moving = j.moving + 1 := moving_stopped others moved rest
    have stored : OnlyLatches j (recompute j) := recompute_touch j
    have settled : (recompute j).latches = j.latches ∧ (recompute j).latchUnit = j.latchUnit := by
      rw [recompute_eq]
      split <;> exact ⟨rfl, rfl⟩
    have idle : moverFreed s j = recompute j := by
      rw [moverFreed, if_pos many]
      refine arbitrate_idle (.inr ?_)
      rw [settled.2, moving_congr settled.1, unit]
      omega
    have pass := finish_pass (recompute j)
    have kept (c : Bay) : (finish (recompute j)).latch c = j.latch c := by
      rw [pass.latch, State.latch, settled.1]
      rfl
    have told := (finish_recomputed j).told
    rw [NewBudgetAsks, untold.budget] at told
    obtain ⟨ns, first⟩ := stored.queues
    obtain ⟨ms, second⟩ := pass.queues
    rw [idle]
    exact {
      only := ⟨_, untold.latches.trans stored, pass⟩
      others := fun c ne _ => (kept c).trans (others c ne)
      own := kept b
      told := ⟨fun _ => told, fun few => absurd many few⟩
      notices := ⟨ns ++ ms, by rw [second, first, queueAll_queueAll]⟩
      purposes := .of_custody (pass.custody.trans (by rw [recompute_eq]; split <;> rfl)) }
  · have freed : moverFreed s j = arbitrate j := by rw [moverFreed, if_neg many]
    have step := arbitrate_arbitrated j
    have run := arbitrate_untold j
    have pass := finish_pass (arbitrate j)
    have kept (c : Bay) (h : NoMotion s c) : (finish (arbitrate j)).latch c = j.latch c :=
      (pass.latch c).trans (step.bystander c (noMotion c h))
    have budget : (arbitrate j).budget = s.budget := run.budget.trans untold.budget
    obtain ⟨ns, first⟩ := run.latches.queues
    obtain ⟨ms, second⟩ := pass.queues
    rw [freed]
    exact {
      only := ⟨_, untold.latches.trans run.latches, pass⟩
      others := fun c ne h => (kept c h).trans (others c ne)
      own := kept b none
      told := ⟨fun more => absurd more many, fun _ => ⟨by rw [pass.derate, budget], by rw [pass.computed, budget]⟩⟩
      notices := ⟨ns ++ ms, by rw [second, first, queueAll_queueAll]⟩
      purposes := (arbitrate_purposesEnd j).trans (.of_custody pass.custody) }

/-! ### An EXTEND queued -/

/-- R111, R112, R118, R119: the EXTEND of a bay queued and the arbitration step after it. -/
theorem extendQueued_finish {b : Bay} {s : State} {r : LatchRec} (none : NoMotion s b)
    (moving : r.isMoving = (s.latch b).isMoving) (unthrown : r.boltOut.level ≠ some true) :
    let t := finish (arbitrate (queueMotion b .extend (s.setLatch b r)))
    OnlyLatchesPass s t ∧ OtherLatchesKept b s t ∧ ExtendFollows b r s t := by
  intro t
  obtain ⟨u, e⟩ : ∃ u, queueMotion b .extend (s.setLatch b r) = u := ⟨_, rfl⟩
  have queue : u.latchUnit.queue = s.latchUnit.queue ++ [(b, .extend)] := by rw [← e]; rfl
  have settings : u.latchUnit.settings = s.latchUnit.settings := by rw [← e]; rfl
  have time : u.time = s.time := by rw [← e]; rfl
  have own : u.latch b = r := by rw [← e]; exact latch_setLatch_self s b r
  have others (c : Bay) (ne : c ≠ b) : u.latch c = s.latch c := by rw [← e]; exact latch_setLatch_ne s b c r ne
  have movers : u.moving = s.moving := by
    have := moving_one others
    rw [own, moving] at this
    omega
  have off : (u.latch b).boltOut.on = false := by simpa [own, Filter.on] using unthrown
  have pass := finish_pass (arbitrate u)
  have step := arbitrate_arbitrated u
  have bystander (c : Bay) (ne : c ≠ b) (h : NoMotion s c) : NoMotion u c := by
    intro x mem
    rw [queue, List.mem_append, List.mem_singleton] at mem
    rcases mem with mem | rfl
    · exact h x mem
    · exact ne.symm
  have follows : ExtendWaitsOrDriven b u (arbitrate u) := by
    refine arbitrate_extend (by simp [queue]) (fun x mem at_ => ?_) off
    rw [queue, List.mem_append, List.mem_singleton] at mem
    rcases mem with mem | rfl
    · exact absurd at_ (none x mem)
    · rfl
  have result : t = finish (arbitrate u) := by rw [← e]
  rw [ExtendWaitsOrDriven, own, time, settings] at follows
  rw [result]
  refine ⟨⟨_, ?_, pass⟩, fun c ne h => ?_, ?_, fun empty free => ?_, fun full => ?_⟩
  · rw [← e]
    exact ((setLatch_touch s b r).trans (queueMotion_touch b _ _)).trans (arbitrate_touch _)
  · rw [pass.latch, step.bystander c (bystander c ne h), others c ne]
  · simpa only [NoMotion, pass.latch, pass.latchUnit] using follows
  · have driven := arbitrate_only (b := b) (s := u) (by rw [queue, empty]; rfl) (by rwa [movers, settings]) off
    rw [pass.latch, driven, own, time, settings]
  · rw [pass.latch, arbitrate_idle (.inr (by rwa [movers, settings])), own]

/-! ### The timers -/

/-- R124: the state with the latch of a bay jammed and a notice queued. -/
def jammedWith (b : Bay) (kind : NoticeKind) (before : LatchState) (s : State) : State :=
  latchNote kind b 1 before.code (s.setLatch b { (s.latch b).still with state := some .jammed })

theorem jammedWith_untold (b : Bay) (kind : NoticeKind) (before : LatchState) (s : State) :
    Untold s (jammedWith b kind before s) := (setLatch_untold s b _).trans (latchNote_untold _ _ _ _ _)

theorem latch_jammedWith (b : Bay) (kind : NoticeKind) (before : LatchState) (s : State) (c : Bay) :
    (jammedWith b kind before s).latch c =
      if c = b then { (s.latch b).still with state := some .jammed } else s.latch c := latch_setLatch s b c _

theorem isMoving_of {r : LatchRec} (h : r.state = some .retracting ∨ r.state = some .extending) : r.isMoving = true := by
  rcases h with h | h <;> simp [LatchRec.isMoving, h]

theorem travelTimeout_retracting {b : Bay} {s : State} (runs : (s.latch b).travel ≠ none)
    (state : (s.latch b).state = some .retracting) : travelTimeout b s =
      finish (moverFreed s (handOn b .releaseFailed (jammedWith b .releaseFailed .jammed s))) := by
  obtain ⟨e, travel⟩ := Option.ne_none_iff_exists'.1 runs
  simp only [travelTimeout, travel, state]
  rfl

theorem travelTimeout_extending {b : Bay} {s : State} (runs : (s.latch b).travel ≠ none)
    (state : (s.latch b).state = some .extending) : travelTimeout b s =
      if (s.latch b).retryUsed then finish (moverFreed s (jammedWith b .latchFault .extending s))
      else s.setLatch b { s.latch b with
        travel := none, retryUsed := true, pause := some (s.time.ms + Config.retryPause) } := by
  obtain ⟨e, travel⟩ := Option.ne_none_iff_exists'.1 runs
  simp only [travelTimeout, travel, state]
  rfl

theorem travelTimeout_idle {b : Bay} {s : State} (idle : ¬ (s.latch b).travel ≠ none ∨
    ((s.latch b).state ≠ some .retracting ∧ (s.latch b).state ≠ some .extending)) : travelTimeout b s = s := by
  unfold travelTimeout
  dsimp only
  split <;> simp_all

theorem retryPauseExpires_eq (b : Bay) (s : State) : retryPauseExpires b s =
    if (s.latch b).pause ≠ none ∧ (s.latch b).state = some .extending then
      s.setLatch b { s.latch b with pause := none, travel := some (s.time.ms + s.latchUnit.settings.travel) }
    else s := by
  unfold retryPauseExpires
  dsimp only
  split
  · rename_i runs state
    rw [if_pos ⟨by simp [runs], state⟩]
  · rename_i other
    refine (if_neg fun ⟨runs, state⟩ => ?_).symm
    obtain ⟨e, runs⟩ := Option.ne_none_iff_exists'.1 runs
    exact other e runs state

theorem windowExpires_eq (b : Bay) (s : State) : windowExpires b s =
    if (s.latch b).window ≠ none ∧ (s.latch b).state = some .released then
      finish (arbitrate (queueMotion b .extend (s.setLatch b { s.latch b with window := none })))
    else s := by
  unfold windowExpires endWindow
  dsimp only
  split
  · rename_i runs state
    rw [if_pos ⟨by simp [runs], state⟩]
  · rename_i other
    refine (if_neg fun ⟨runs, state⟩ => ?_).symm
    obtain ⟨e, runs⟩ := Option.ne_none_iff_exists'.1 runs
    exact other e runs state

theorem closeSettleExpires_eq (b : Bay) (s : State) : closeSettleExpires b s =
    if (s.latch b).settle ≠ none ∧ (s.latch b).state = some .closing then
      finish (arbitrate (queueMotion b .extend (s.setLatch b { s.latch b with settle := none })))
    else s := by
  unfold closeSettleExpires
  dsimp only
  split
  · rename_i runs state
    rw [if_pos ⟨by simp [runs], state⟩]
  · rename_i other
    refine (if_neg fun ⟨runs, state⟩ => ?_).symm
    obtain ⟨e, runs⟩ := Option.ne_none_iff_exists'.1 runs
    exact other e runs state

/-- Settles O41: timer by timer; a travel timeout that jams the latch frees its mover, and the end of a window or of a settle
queues an EXTEND. -/
theorem latchTimersExpire : Obligations.LatchTimersExpire := by
  intro b s free none l jammed at_ travels
  have jam (kind : NoticeKind) (before : LatchState) (j : State) (untold : Untold (jammedWith b kind before s) j)
      (latches : j.latches = (jammedWith b kind before s).latches) (unit : j.latchUnit = s.latchUnit)
      (moved : l.state = some .retracting ∨ l.state = some .extending) :
      MoverFreed b s j (finish (moverFreed s j)) ∧ j.latch b = jammed := by
    have latch (c : Bay) : j.latch c = if c = b then jammed else s.latch c := by
      rw [State.latch, latches]
      exact latch_jammedWith b kind before s c
    refine ⟨moverFreed_finish ((jammedWith_untold b kind before s).trans untold) unit (fun c ne => ?_)
      (isMoving_of moved) ?_ none, ?_⟩
    · rw [latch, if_neg ne]
    · rw [latch, if_pos rfl]; rfl
    · rw [latch, if_pos rfl]
  refine ⟨fun runs state => ?_, fun runs state used => ?_, fun runs state fresh => next_live free ?_,
    fun idle => next_live free (travelTimeout_idle idle), next_live free (retryPauseExpires_eq b s), ?_⟩
  · obtain ⟨end_, own⟩ := jam .releaseFailed .jammed _ (handOn_untold b .releaseFailed _) rfl rfl (.inl state)
    obtain ⟨ns, link⟩ := end_.notices
    refine ⟨_, next_live free (travelTimeout_retracting runs state), end_.only, end_.others, end_.own.trans own,
      end_.purposes b ?_, end_.told, ns, link⟩
    exact congrArg CustodyRec.purpose (cust_setCust_self _ b _)
  · obtain ⟨end_, own⟩ := jam .latchFault .extending _ (.refl _) rfl rfl (.inr state)
    obtain ⟨ns, link⟩ := end_.notices
    exact ⟨_, next_live free ((travelTimeout_extending runs state).trans (if_pos used)), end_.only, end_.others,
      end_.own.trans own, end_.told, ns, link⟩
  · rw [travelTimeout_extending runs state, if_neg (by simpa using fresh)]
    rfl
  intro queued
  refine ⟨fun runs state => next_live free ((windowExpires_eq b s).trans (if_pos ⟨runs, state⟩)),
    fun runs state => next_live free ((closeSettleExpires_eq b s).trans (if_pos ⟨runs, state⟩)),
    fun runs state unthrown => ⟨_, next_live free ((windowExpires_eq b s).trans (if_pos ⟨runs, state⟩)),
      extendQueued_finish none rfl unthrown⟩,
    fun idle => next_live free ((windowExpires_eq b s).trans (if_neg ?_)),
    fun runs state unthrown => ⟨_, next_live free ((closeSettleExpires_eq b s).trans (if_pos ⟨runs, state⟩)),
      extendQueued_finish none rfl unthrown⟩,
    fun idle => next_live free ((closeSettleExpires_eq b s).trans (if_neg ?_))⟩
  · exact fun ⟨runs, state⟩ => idle.elim runs fun other => other state
  · exact fun ⟨runs, state⟩ => idle.elim runs fun other => other state

end Sys2Proof.Machine
end

