-- ==== Sys2Proof/Proofs/LatchRequests.lean ====
section
/-! PROOF. LATCH-SET and LOCKDOWN (R120, R121, R125, R145): the budget told of a changed M or A before the arbitration step
of a raised M, and the release windows that LOCKDOWN ends. -/

namespace Sys2Proof.Machine

/-! ### Passes and the work at the latches -/

/-- Work at the latches after passes is work at the latches with passes after it. -/
theorem OnlyPass.thenLatches {s t u : State} (h : OnlyPass s t) (h' : OnlyLatches t u) : OnlyLatchesPass s u := by
  obtain ⟨bays, charge, rotation, timer, remainder, asked, last, lanes, queue, pointer, ns, rfl, bay, chg⟩ := h
  obtain ⟨latches, motions, custody, lanes', queue', pointer', ms, derate, computed, asked', rfl⟩ := h'
  refine ⟨_, ⟨latches, motions, custody, lanes', queue', pointer', ns ++ ms, derate, computed, asked', rfl⟩,
    ⟨bays, charge, rotation, timer, remainder, asked', last, lanes', queue', pointer', [], ?_, bay, chg⟩⟩
  simp [queueAll_queueAll]

theorem OnlyLatchesPass.thenPass {s t u : State} (h : OnlyLatchesPass s t) (h' : OnlyPass t u) : OnlyLatchesPass s u := by
  obtain ⟨v, latches, pass⟩ := h
  exact ⟨v, latches, pass.trans h'⟩

theorem OnlyLatchesPass.thenLatches {s t u : State} (h : OnlyLatchesPass s t) (h' : OnlyLatches t u) :
    OnlyLatchesPass s u := by
  obtain ⟨v, latches, pass⟩ := h
  obtain ⟨w, more, rest⟩ := pass.thenLatches h'
  exact ⟨w, latches.trans more, rest⟩

theorem OnlyLatchesPass.answer {s t : State} (h : OnlyLatchesPass s t) (k g : Byte) (p : List Byte) :
    OnlyLatchesPass (s.answer k g p) (t.answer k g p) := by
  obtain ⟨v, latches, pass⟩ := h
  exact ⟨_, latches.answer k g p, pass.answer k g p⟩

/-! ### LATCH-SET -/

@[simp] theorem latchUnit_answer (k t : Byte) (p : List Byte) (s : State) : (s.answer k t p).latchUnit = s.latchUnit := rfl

theorem budgetStored_touch (s : State) : OnlyLatches s (budgetStored s) :=
  ⟨s.latches, s.latchUnit.queue, s.custody, s.lanes, s.prov.queue, s.prov.pointer, [], derateNow s, budgetNow s,
    s.alloc.passAsked, rfl⟩

theorem runAsked_quiet {s : State} (quiet : s.alloc.passAsked = false) : runAsked s = s := by
  simp only [runAsked, quiet, Bool.false_eq_true, false_and, if_false]
  rw [← quiet]

theorem clampLatch_eq (c : LatchSettings) : clampLatch c =
    { noise := min 127 c.noise, window := max 1 (min 120 c.window), closeSettle := max 100 (min 5000 c.closeSettle)
      travel := max 100 (min 3000 c.travel), movers := max 1 (min 8 c.movers), draw := min 80 c.draw } := by
  simp only [clampLatch, clamp_zero]
  rfl

/-- R120: the state after the Budget Unit has been told of a changed M or A, and the pass that the new B asks for. -/
def moversTold (changed : Prop) [Decidable changed] (s : State) : State :=
  if changed then runAsked (recompute s) else s

/-- R119, R125: the arbitration step of a raised M. -/
def moversRaised (raised : Prop) [Decidable raised] (s : State) : State := if raised then arbitrate s else s

section Set
variable (changed raised : Prop) [Decidable changed] [Decidable raised] (s : State)

theorem moversTold_pass : OnlyPass (if changed then budgetStored s else s) (moversTold changed s) := by
  unfold moversTold
  split
  · exact (recompute_pass s).trans (runAsked_pass _)
  · exact .refl s

theorem moversTold_latches : (moversTold changed s).latches = s.latches ∧
    (moversTold changed s).latchUnit = s.latchUnit := by
  have pass := moversTold_pass changed s
  refine ⟨pass.latches.trans ?_, pass.latchUnit.trans ?_⟩ <;> split <;> rfl

theorem moversTold_only : OnlyLatchesPass s (moversTold changed s) := by
  refine ⟨_, ?_, moversTold_pass changed s⟩
  split
  · exact budgetStored_touch s
  · exact .refl s

/-- R120: a changed M or A leaves B as its inputs give it. -/
theorem moversTold_computed (h : changed) :
    (moversTold changed s).budget.computed = budgetNow (moversTold changed s) := by
  have pass := moversTold_pass changed s
  rw [if_pos h] at pass
  exact pass.computed.trans pass.budgetNow_eq.symm

theorem moversRaised_untold : Untold s (moversRaised raised s) := (arbitrate_untold s).when_

theorem budgetNow_moversRaised : budgetNow (moversRaised raised s) = budgetNow s := by
  unfold moversRaised
  split
  · exact budgetNow_arbitrate s
  · rfl

end Set

/-- The fields of the LATCH-SET answer, with the latches moving and the motions waiting in `u`. -/
def latchAnswer (asked : LatchSettings) (u : State) : List Byte :=
  let c := clampLatch asked
  (doneOr (c ≠ asked)).code :: (num16 c.noise ++ num16 c.window ++ num16 c.closeSettle ++ num16 c.travel ++
    num16 c.movers ++ num16 c.draw ++ [byte u.moving, byte u.latchUnit.queue.length])

/-- R125: what is left of LATCH-SET once the Budget Unit has been told: the arbitration step of a raised M, the answer and
the end of the event. -/
def latchSetEnds (tag : Byte) (asked : LatchSettings) (raised : Prop) [Decidable raised] (u : State) : State :=
  finish ((moversRaised raised u).answer 0xA0 tag (latchAnswer asked (moversRaised raised u)))

/-- R125: the state with the latch settings replaced. -/
def latchSettingsTaken (c : LatchSettings) (s : State) : State := { s with latchUnit := { s.latchUnit with settings := c } }

theorem takeLatchSet_eq (tag : Byte) (asked : LatchSettings) (s : State) : takeLatchSet tag asked s =
    let c := clampLatch asked
    latchSetEnds tag asked (s.latchUnit.settings.movers < c.movers)
      (moversTold (c.movers ≠ s.latchUnit.settings.movers ∨ c.draw ≠ s.latchUnit.settings.draw)
        (latchSettingsTaken c s)) := rfl

section Ends
variable (tag : Byte) (asked : LatchSettings) (raised : Prop) [Decidable raised] (u : State)

theorem latchSetEnds_pass : OnlyPass ((moversRaised raised u).answer 0xA0 tag (latchAnswer asked (moversRaised raised u)))
    (latchSetEnds tag asked raised u) := finish_pass _

theorem latchSetEnds_moving : (latchSetEnds tag asked raised u).moving = (moversRaised raised u).moving :=
  moving_congr (latchSetEnds_pass tag asked raised u).latches

theorem latchSetEnds_latchUnit : (latchSetEnds tag asked raised u).latchUnit = (moversRaised raised u).latchUnit :=
  (latchSetEnds_pass tag asked raised u).latchUnit

theorem latchAnswer_latchSetEnds :
    latchAnswer asked (latchSetEnds tag asked raised u) = latchAnswer asked (moversRaised raised u) := by
  simp only [latchAnswer, latchSetEnds_moving, latchSetEnds_latchUnit]

theorem latchSetEnds_only {s : State} (h : OnlyLatchesPass s u) :
    OnlyLatchesPass (s.answer 0xA0 tag (latchAnswer asked (latchSetEnds tag asked raised u)))
      (latchSetEnds tag asked raised u) := by
  rw [latchAnswer_latchSetEnds]
  exact ((h.thenLatches (moversRaised_untold raised u).latches).answer _ _ _).thenPass (finish_pass _)

theorem latchSetEnds_computed (h : u.budget.computed = budgetNow u) :
    (latchSetEnds tag asked raised u).budget.computed = budgetNow (latchSetEnds tag asked raised u) := by
  have pass := latchSetEnds_pass tag asked raised u
  calc (latchSetEnds tag asked raised u).budget.computed
    _ = (moversRaised raised u).budget.computed := pass.computed
    _ = u.budget.computed := by rw [(moversRaised_untold raised u).budget]
    _ = budgetNow u := h
    _ = budgetNow (moversRaised raised u) := (budgetNow_moversRaised raised u).symm
    _ = budgetNow (latchSetEnds tag asked raised u) := pass.budgetNow_eq.symm

/-- R45: the pass that ran before the arbitration step, or one after it, divided the budget as it stands. -/
theorem latchSetEnds_last {b : Nat} (computed : u.budget.computed = b) (last : u.budget.lastPass = some b) :
    (latchSetEnds tag asked raised u).budget.lastPass = some b := by
  have budget := (moversRaised_untold raised u).budget
  have work : PassWork ((moversRaised raised u).answer 0xA0 tag (latchAnswer asked (moversRaised raised u)))
    (latchSetEnds tag asked raised u) := finish_passWork _
  rcases work.lastPass with h | h
  · exact h.trans ((congrArg BudgetUnit.lastPass budget).trans last)
  · exact h.trans (congrArg some ((congrArg BudgetUnit.computed budget).trans computed))

end Ends

/-- R125, R176: the payload of the LATCH-SET answer, field by field. -/
theorem latchAnswer_fields {noise window closeSettle travel movers draw : Word16} {c : LatchSettings}
    (taken : clampLatch (latchFields noise window closeSettle travel movers draw) = c) (u : State) :
    latchAnswer (latchFields noise window closeSettle travel movers draw) u =
      (if c.noise = noise.toNat ∧ c.window = window.toNat ∧ c.closeSettle = closeSettle.toNat ∧
          c.travel = travel.toNat ∧ c.movers = movers.toNat ∧ c.draw = draw.toNat then 0x00 else 0x02) ::
        (num16 c.noise ++ num16 c.window ++ num16 c.closeSettle ++ num16 c.travel ++ num16 c.movers ++ num16 c.draw ++
          [byte u.moving, byte u.latchUnit.queue.length]) := by
  unfold latchAnswer
  rw [taken]
  cases c
  simp only [latchFields, doneOr_code, ne_eq, LatchSettings.mk.injEq, ite_not]

/-- R125: LATCH-SET, the settings taken being `c` and its answer's payload `payload`. -/
theorem latchSet_taken (tag : Byte) {asked c : LatchSettings} {payload : State → List Byte} (taken : clampLatch asked = c)
    (answer : ∀ u, latchAnswer asked u = payload u) (s : State) :
    let old := s.latchUnit.settings
    let v := latchSettingsTaken c s
    let t := takeLatchSet tag asked s
    let done := fun u : State =>
      let u := if old.movers < c.movers then arbitrate u else u
      finish (u.answer 0xA0 tag (payload u))
    OnlyLatchesPass (v.answer 0xA0 tag (payload t)) t ∧
      (c.movers ≠ old.movers ∨ c.draw ≠ old.draw → t.budget.computed = budgetNow t) ∧
      (c.movers ≤ old.movers → t.latches = s.latches ∧ t.latchUnit.queue = s.latchUnit.queue) ∧
      (old.movers < c.movers → t.latchUnit.queue = [] ∨ c.movers ≤ t.moving) ∧
      (c.movers = old.movers → c.draw = old.draw → t = done v) ∧
      (c.movers ≠ old.movers ∨ c.draw ≠ old.draw →
        (s.budget.established = true → NewBudgetAsks s (budgetNow v) →
          t.budget.lastPass = some (budgetNow v) ∧ t = done (runAsked (askPass (budgetStored v)))) ∧
        (s.alloc.passAsked = false → s.budget.established = false ∨ ¬ NewBudgetAsks s (budgetNow v) →
          t = done (budgetStored v))) := by
  intro old v t done
  obtain ⟨u, told⟩ : ∃ u, moversTold (c.movers ≠ old.movers ∨ c.draw ≠ old.draw) v = u := ⟨_, rfl⟩
  have t_eq : t = latchSetEnds tag asked (old.movers < c.movers) u := by
    subst taken told
    exact takeLatchSet_eq tag asked s
  have ends : t = done u := by
    rw [t_eq, latchSetEnds, answer]
    rfl
  have only : OnlyLatchesPass v u := told ▸ moversTold_only _ v
  obtain ⟨latches, unit⟩ : u.latches = v.latches ∧ u.latchUnit = v.latchUnit := told ▸ moversTold_latches _ v
  refine ⟨?_, fun changed => ?_, fun low => ?_, fun raised => ?_, fun movers draw => ?_,
    fun changed => ⟨fun est asks => ⟨?_, ?_⟩, fun quiet still => ?_⟩⟩
  · rw [← answer, t_eq]
    exact latchSetEnds_only tag asked (old.movers < c.movers) u only
  · rw [t_eq]
    exact latchSetEnds_computed tag asked (old.movers < c.movers) u (told ▸ moversTold_computed _ v changed)
  · have same : moversRaised (old.movers < c.movers) u = u := if_neg (by omega)
    have pass := latchSetEnds_pass tag asked (old.movers < c.movers) u
    have queue : u.latchUnit.queue = s.latchUnit.queue := by rw [unit]; rfl
    rw [same] at pass
    rw [t_eq]
    exact ⟨pass.latches.trans latches, (congrArg LatchUnit.queue pass.latchUnit).trans queue⟩
  · have step : moversRaised (old.movers < c.movers) u = arbitrate u := if_pos raised
    have done := arbitrate_ends u
    rw [unit] at done
    rwa [t_eq, latchSetEnds_moving, latchSetEnds_latchUnit, step]
  · rw [ends, ← told, moversTold, if_neg (by simp [movers, draw])]
  all_goals rw [moversTold, if_pos changed] at told
  · rw [recompute_asks (s := v) est asks] at told
    have pass := runAsked_pass (askPass (budgetStored v))
    rw [t_eq, ← told]
    exact latchSetEnds_last tag asked _ _ pass.computed (runAsked_last rfl est)
  · rw [ends, ← told, recompute_asks (s := v) est asks]
  · rw [ends, ← told, recompute_quiet (s := v) still, runAsked_quiet (s := budgetStored v) quiet]

/-! ### The release windows that end -/

/-- R111: the release window of a RELEASED latch runs. -/
def LatchRec.windowRuns (l : LatchRec) : Bool := l.window ≠ none ∧ l.state = some .released

/-- R111: the latch record with its release window ended, if it runs. -/
def LatchRec.windowEnded (l : LatchRec) : LatchRec := if l.windowRuns then { l with window := none } else l

theorem endWindow_eq (b : Bay) (s : State) : endWindow b s =
    if (s.latch b).windowRuns then queueMotion b .extend (s.setLatch b { s.latch b with window := none }) else s := by
  unfold endWindow LatchRec.windowRuns
  dsimp only
  split
  · rename_i runs state
    rw [if_pos (by simp [runs, state])]
  · rename_i other
    refine (if_neg fun runs => ?_).symm
    obtain ⟨window, state⟩ := of_decide_eq_true runs
    obtain ⟨e, window⟩ := Option.ne_none_iff_exists'.1 window
    exact other e window state

/-- R121, R122: the release windows of the bays of a list end, each asking for an EXTEND. -/
theorem endWindow_fold {l : List Bay} (once : l.Nodup) (s : State) :
    let t := l.foldl (fun s b => endWindow b s) s
    t = { s with
      latches := t.latches
      latchUnit := { s.latchUnit with
        queue := s.latchUnit.queue ++ (l.filter fun b => (s.latch b).windowRuns).map fun b => (b, Motion.extend) } } ∧
      ∀ b, t.latch b = if b ∈ l then (s.latch b).windowEnded else s.latch b := by
  induction l generalizing s with
  | nil => exact ⟨by simp, fun b => rfl⟩
  | cons a l ih =>
    obtain ⟨new, once⟩ := List.nodup_cons.1 once
    have own : (endWindow a s).latch a = (s.latch a).windowEnded := by
      rw [endWindow_eq, LatchRec.windowEnded]
      split
      · exact latch_setLatch_self s a _
      · rfl
    have others (b : Bay) (ne : b ≠ a) : (endWindow a s).latch b = s.latch b := by
      rw [endWindow_eq]
      split
      · exact latch_setLatch_ne s a b _ ne
      · rfl
    have later : (l.filter fun b => ((endWindow a s).latch b).windowRuns) = l.filter fun b => (s.latch b).windowRuns :=
      List.filter_congr fun b mem => by rw [others b fun e => new (e ▸ mem)]
    obtain ⟨rest, latches⟩ := ih once (endWindow a s)
    rw [later] at rest
    refine ⟨?_, fun b => ?_⟩
    · rw [List.foldl_cons, rest, List.filter_cons]
      rw [endWindow_eq]
      split
      · simp [queueMotion, State.setMotions, State.setLatch]
      · rfl
    · rw [List.foldl_cons, latches b]
      by_cases at_ : b = a
      · subst at_
        rw [if_neg new, if_pos List.mem_cons_self, own]
      · simp only [others b at_, List.mem_cons, at_, false_or]

/-- The release windows of all RELEASED latches end, bay by bay (R121, R122). -/
theorem eachBay_endWindow (s : State) : eachBay endWindow s =
    { s with
      latches := Vector.ofFn fun b => (s.latch b).windowEnded
      latchUnit := { s.latchUnit with
        queue := s.latchUnit.queue ++
          (allBays.filter fun b => (s.latch b).windowRuns).map fun b => (b, Motion.extend) } } := by
  obtain ⟨rest, latches⟩ := endWindow_fold allBays_nodup s
  have all : (eachBay endWindow s).latches = Vector.ofFn fun b => (s.latch b).windowEnded := by
    ext1 k lt
    simpa [State.latch, mem_allBays, eachBay] using latches ⟨k, lt⟩
  rw [← all]
  exact rest

/-! ### LOCKDOWN -/

/-- R121: what LOCKDOWN leaves of a latch for which no motion waits. -/
theorem latchLockdown_latch {b : Bay} {s : State} (none : NoMotion s b) :
    ((s.latch b).windowRuns = false → (latchLockdown s).latch b = s.latch b) ∧
    ((s.latch b).windowRuns = true → (s.latch b).boltOut.on = false →
      ((latchLockdown s).latch b = { s.latch b with window := Option.none } ∧
        (b, Motion.extend) ∈ (latchLockdown s).latchUnit.queue) ∨
      (latchLockdown s).latch b = (s.latch b).drivenOut s.time.ms s.latchUnit.settings.travel) := by
  obtain ⟨u, ended⟩ : ∃ u, eachBay endWindow s = u := ⟨_, rfl⟩
  have explicit := ended.symm.trans (eachBay_endWindow s)
  have own : u.latch b = (s.latch b).windowEnded := by simp [explicit, State.latch]
  have time : u.time = s.time := by rw [explicit]
  have settings : u.latchUnit.settings = s.latchUnit.settings := by rw [explicit]
  have mem (x : Bay × Motion) (at_ : x.1 = b) :
      x ∈ u.latchUnit.queue ↔ x.2 = .extend ∧ (s.latch b).windowRuns = true := by
    obtain ⟨c, m⟩ := x
    cases at_
    have out : (c, m) ∉ s.latchUnit.queue := fun mem => none _ mem rfl
    simp only [explicit, List.mem_append, out, false_or, List.mem_map, List.mem_filter, mem_allBays, true_and,
      Prod.mk.injEq]
    exact ⟨fun ⟨_, runs, e, extend⟩ => ⟨extend.symm, e ▸ runs⟩, fun ⟨extend, runs⟩ => ⟨c, runs, rfl, extend.symm⟩⟩
  rw [latchLockdown, ended]
  refine ⟨fun still => ?_, fun runs unthrown => ?_⟩
  · have noMotion : NoMotion u b := fun x waits at_ => by simpa [still] using (mem x at_).1 waits
    rw [(arbitrate_arbitrated u).bystander b noMotion, own, LatchRec.windowEnded, still]
    rfl
  · have ended : u.latch b = { s.latch b with window := Option.none } := by
      rw [own, LatchRec.windowEnded, if_pos runs]
    have follows : ExtendWaitsOrDriven b u (arbitrate u) :=
      arbitrate_extend ((mem _ rfl).2 ⟨rfl, runs⟩) (fun x waits at_ => ((mem x at_).1 waits).1) (by rw [ended]; exact unthrown)
    rw [ExtendWaitsOrDriven, ended, time, settings] at follows
    exact follows.imp id And.left

theorem windowRuns_iff (l : LatchRec) : l.windowRuns = true ↔ l.window ≠ none ∧ l.state = some .released :=
  decide_eq_true_iff

theorem windowEnded_eq (l : LatchRec) : l.windowEnded =
    if l.window ≠ none ∧ l.state = some .released then { l with window := none } else l := by
  simp only [LatchRec.windowEnded, windowRuns_iff]

/-- R121, R145: LOCKDOWN(on). -/
theorem takeLockdownOn_eq (tag : Byte) (s : State) : takeLockdownOn tag s =
    let on : State := { s with link := { s.link with lockdown := true } }
    finish ((if s.link.lockdown then on else latchLockdown on).answer 0xA2 tag [0x00, 1]) := rfl

/-- Settles O42: LATCH-SET tells the Budget Unit before a raised M lets motions start; LOCKDOWN ends the windows that run. -/
theorem latchSetAndLockdownAreTaken : Obligations.LatchSetAndLockdownAreTaken := by
  refine ⟨fun tag noise window closeSettle travel movers draw s free => ?_, fun tag s free => ⟨next_request free rfl, ?_⟩⟩
  · refine ⟨_, next_request free rfl, ?_⟩
    have taken := latchSet_taken tag (clampLatch_eq _)
      (fun u => latchAnswer_fields (clampLatch_eq (latchFields noise window closeSettle travel movers draw)) u) s
    exact taken
  have set (was : s.link.lockdown = false) : takeLockdownOn tag s =
      finish ((latchLockdown { s with link := { s.link with lockdown := true } }).answer 0xA2 tag [0x00, 1]) := by
    rw [takeLockdownOn_eq]
    simp only [was, Bool.false_eq_true, if_false]
  intro ends
  refine ⟨fun was => next_request free ?_, ⟨_, next_request free rfl, fun was => ?_, fun was => ⟨?_, fun b none => ?_⟩⟩⟩
  · rw [set was, latchLockdown, eachBay_endWindow]
    simp only [windowEnded_eq]
    rfl
  · rw [takeLockdownOn_eq, was]
    exact finish_pass _
  · rw [set was]
    have only := (latchLockdown_touch { s with link := { s.link with lockdown := true } }).answer 0xA2 tag [0x00, 1]
    exact only.pass (finish_pass _)
  · obtain ⟨on, on_eq⟩ : ∃ on : State, { s with link := { s.link with lockdown := true } } = on := ⟨_, rfl⟩
    have latch : on.latch b = s.latch b := by rw [← on_eq]; rfl
    have time : on.time = s.time := by rw [← on_eq]
    have unit : on.latchUnit = s.latchUnit := by rw [← on_eq]
    have pass := finish_pass ((latchLockdown on).answer 0xA2 tag [0x00, 1])
    obtain ⟨left, ended⟩ := latchLockdown_latch (s := on) (b := b) (by rwa [NoMotion, unit])
    rw [latch] at left ended
    rw [time, unit] at ended
    have own : (takeLockdownOn tag s).latch b = (latchLockdown on).latch b := by rw [set was, on_eq, pass.latch, latch_answer]
    have queue : (takeLockdownOn tag s).latchUnit = (latchLockdown on).latchUnit := by
      rw [set was, on_eq, pass.latchUnit, latchUnit_answer]
    rw [own, queue]
    refine ⟨fun idle => left (Bool.eq_false_iff.2 fun runs => ?_), fun runs state unthrown => ended ?_ ?_⟩
    · obtain ⟨window, state⟩ := (windowRuns_iff _).1 runs
      exact idle.elim (fun none => window none) fun other => other state
    · exact (windowRuns_iff _).2 ⟨runs, state⟩
    · exact decide_eq_false unthrown

end Sys2Proof.Machine
end

