-- ==== Sys2Proof/Proofs/AutonomousLanes.lean ====
section
/-! PROOF. The lanes in AUTONOMOUS mode: an assignment run takes nothing, and lanes that hold no bay hold none after any
pass (R156, R166, R181). -/

namespace Sys2Proof.Machine

/-! ### An assignment run in AUTONOMOUS mode -/

section Idle
variable {s : State} (auto : s.link.mode = .autonomous)
include auto

theorem classCandidate_autonomous (c : ProvClass) : classCandidate s c = none := by
  have none_ (e : Entry) : eligibleEntry s e = false := by simp [eligibleEntry, auto]
  simp [classCandidate, none_, oldest]

theorem searchFrom_autonomous (tries p : Nat) : searchFrom s tries p = none := by
  induction tries generalizing p with
  | zero => rfl
  | succ tries ih =>
    simp only [searchFrom, classCandidate_autonomous auto, ih]
    split <;> rfl

theorem assignLanes_autonomous (ls : List Lane) : assignLanes ls s = s := by
  induction ls with
  | nil => rfl
  | cons l ls ih => simp only [assignLanes, search, searchFrom_autonomous auto, ih, ite_self]

/-- R156: in AUTONOMOUS mode no entry is eligible, so an assignment run does nothing. -/
theorem assignmentRun_autonomous : assignmentRun s = s := assignLanes_autonomous auto _

end Idle

/-! ### Lanes that hold no bay -/

/-- Work that keeps the mode, and in AUTONOMOUS mode lets no lane take a bay where none holds one. -/
structure IdleKept (s t : State) : Prop where
  mode : t.link.mode = s.link.mode
  kept : s.link.mode = .autonomous → (∀ l, (s.lane l).state.held = none) → ∀ l, (t.lane l).state.held = none

theorem IdleKept.refl (s : State) : IdleKept s s := ⟨rfl, fun _ => id⟩

theorem IdleKept.trans {s t u : State} (h : IdleKept s t) (h' : IdleKept t u) : IdleKept s u :=
  ⟨h'.mode.trans h.mode, fun auto none => h'.kept (h.mode.trans auto) (h.kept auto none)⟩

theorem IdleKept.of_lanes {s t : State} (mode : t.link.mode = s.link.mode) (lanes : t.lanes = s.lanes) :
    IdleKept s t := ⟨mode, fun _ none l => by rw [State.lane, lanes]; exact none l⟩

theorem IdleKept.when_ {p : Prop} [Decidable p] {s t : State} (h : IdleKept s t) : IdleKept s (if p then t else s) := by
  split
  · exact h
  · exact .refl s

theorem eachBay_idleKept {f : Bay → State → State} (h : ∀ b s, IdleKept s (f b s)) (s : State) :
    IdleKept s (eachBay f s) := eachBay_rel .refl .trans h s

theorem assignmentRun_idleKept (s : State) : IdleKept s (assignmentRun s) :=
  ⟨(assignmentRun_touch s).pass.mode, fun auto none => by rwa [assignmentRun_autonomous auto]⟩

theorem release_idleKept (l : Lane) (c : ReleaseCause) (s : State) : IdleKept s (release l c s) :=
  ⟨(release_touch l c s).pass.mode, fun _ none => by
    have idle : release l c s = s := by simp only [release, none l]
    rwa [idle]⟩

theorem removeQueued_idleKept (b : Bay) (r : Byte) (s : State) : IdleKept s (removeQueued b r s) := by
  refine ⟨(removeQueued_touch b r s).pass.mode, fun _ none => ?_⟩
  unfold removeQueued
  split
  · exact none
  · exact none

theorem schedChange_idleKept (b : Bay) (o n : BayState) (s : State) : IdleKept s (schedChange b o n s) := by
  unfold schedChange
  refine IdleKept.trans (IdleKept.when_ ?_) (removeQueued_idleKept b 3 _).when_
  split
  · exact release_idleKept _ _ _
  · exact (removeQueued_idleKept b 1 s).when_

theorem powerTest_idleKept (l : Lane) (s : State) : IdleKept s (powerTest l s) := by
  unfold powerTest
  split
  · exact .refl s
  · exact (release_idleKept l .power s).when_

theorem schedPassResult_idleKept (before : Bay → Bool) (s : State) : IdleKept s (schedPassResult before s) := by
  have counted : IdleKept s (countHolds before s) := .of_lanes rfl rfl
  exact (counted.trans (eachLane_rel .refl .trans powerTest_idleKept _)).trans (assignmentRun_idleKept _)

theorem setTimer_idleKept (s : State) (t : Timer) : IdleKept s { s with alloc := { s.alloc with settleTimer := t } } :=
  .of_lanes rfl rfl

theorem supersede_idleKept (s : State) : IdleKept s (supersede s) := by
  unfold supersede
  refine (setTimer_idleKept s none).trans (eachBay_idleKept (fun b s => ?_) _)
  exact .of_lanes rfl rfl

theorem storeTargets_idleKept (xs : List Share) (s : State) : IdleKept s (storeTargets xs s) := by
  refine eachBay_idleKept (fun b s => ?_) s
  split
  · exact .of_lanes rfl rfl
  · exact .refl s

theorem markBudget_idleKept (s : State) : IdleKept s (markBudget s) := by
  refine .of_lanes (markBudget_pass s).mode ?_
  unfold markBudget
  dsimp only
  split <;> rfl

theorem markRemainder_idleKept (r : Nat) (s : State) : IdleKept s (markRemainder r s) := .of_lanes rfl rfl

theorem applyTarget_idleKept (b : Bay) (t : Nat) (s : State) : IdleKept s (applyTarget b t s) := by
  unfold applyTarget
  dsimp only
  split
  · exact .of_lanes rfl rfl
  split
  · refine IdleKept.trans ?_ (schedChange_idleKept b .charging .waiting _)
    exact .of_lanes rfl rfl
  split
  · exact .of_lanes rfl rfl
  · exact .refl s

theorem applyTargets_idleKept (xs : List Share) (s : State) : IdleKept s (applyTargets xs s) := by
  refine eachBay_idleKept (fun b s => ?_) s
  split
  · exact applyTarget_idleKept b _ s
  · exact .refl s

theorem applyIncrease_idleKept (b : Bay) (s : State) : IdleKept s (applyIncrease b s) := by
  unfold applyIncrease
  split
  · exact .refl s
  · dsimp only
    split
    · exact .of_lanes rfl rfl
    · exact .of_lanes rfl rfl

theorem applyIncreases_idleKept (s : State) : IdleKept s (applyIncreases s) :=
  eachBay_idleKept applyIncrease_idleKept s

theorem recordIncrease_idleKept (b : Bay) (s : State) : IdleKept s (recordIncrease b s) := by
  refine IdleKept.when_ ?_
  exact .of_lanes rfl rfl

theorem stageIncreases_idleKept (lowered : Bool) (s : State) : IdleKept s (stageIncreases lowered s) := by
  unfold stageIncreases
  refine (eachBay_idleKept recordIncrease_idleKept s).trans ?_
  split
  · exact setTimer_idleKept _ _
  · exact applyIncreases_idleKept _

theorem runPass_idleKept (s : State) : IdleKept s (runPass s) := by
  rw [runPass_eq]
  refine IdleKept.trans ?_ (schedPassResult_idleKept _ _)
  refine IdleKept.trans ?_ (stageIncreases_idleKept _ _)
  refine IdleKept.trans ?_ (applyTargets_idleKept _ _)
  refine IdleKept.trans ?_ (markRemainder_idleKept _ _)
  refine IdleKept.trans ?_ (markBudget_idleKept _)
  exact (supersede_idleKept s).trans (storeTargets_idleKept _ _)

theorem settleIfDue_idleKept (s : State) : IdleKept s (settleIfDue s) := by
  refine IdleKept.when_ ?_
  unfold settleExpires
  split
  · exact .refl s
  · exact (applyIncreases_idleKept s).trans (setTimer_idleKept _ none)

theorem runAsked_idleKept (s : State) : IdleKept s (runAsked s) := by
  have asked : IdleKept s { s with alloc := { s.alloc with passAsked := false } } := .of_lanes rfl rfl
  unfold runAsked
  dsimp only
  split
  · exact (asked.trans (runPass_idleKept _)).trans (settleIfDue_idleKept _)
  · exact asked

theorem retier_idleKept (b : Bay) (s : State) : IdleKept s (retier b s) := by
  refine IdleKept.when_ ?_
  exact .of_lanes rfl rfl

theorem retierAll_idleKept (s : State) : IdleKept s (retierAll s) := eachBay_idleKept retier_idleKept s

theorem settle_idleKept (n : Nat) (s : State) : IdleKept s (settle n s) := by
  induction n generalizing s with
  | zero => exact retierAll_idleKept s
  | succ n ih =>
    rw [settle_succ]
    split
    · exact ((retierAll_idleKept s).trans (runAsked_idleKept _)).trans (ih _)
    · exact retierAll_idleKept s

/-- R166: in AUTONOMOUS mode the end of an event lets no lane take a bay. -/
theorem finish_idleKept (s : State) : IdleKept s (finish s) := settle_idleKept _ s

end Sys2Proof.Machine
end

