-- ==== Sys2Proof/Proofs/AutonomousEntry.lean ====
section
/-! PROOF. The entry to AUTONOMOUS mode (R122, R166, R181): lane by lane the releases, bay by bay the reversals, the RETRACTs
removed and the windows ended, and what the arbitration step and the passes after them keep. -/

namespace Sys2Proof.Machine

/-! ### The lanes let their bays go -/

/-- R166: a lane that holds a bay is FREE, any other lane is left. -/
def LaneRec.letGone (r : LaneRec) : LaneRec := if r.state.held = none then r else { r with state := .free }

/-- R166, R170: the PROV_ABORTED notice of a lane, reason 9, if it holds a bay. -/
def abortedAt (minute : Word16) (l : Lane) (r : LaneRec) : Option Notice :=
  r.state.held.map fun e =>
    ⟨.provAborted, bayNumber e.bay, minute, 9, laneNumber l, hiByte e.jobTag, loByte e.jobTag⟩

/-- R166: the state in which lane `l` has released its bay. -/
def laneLetGo (l : Lane) (s : State) : State :=
  State.notices ((s.setLane l (s.lane l).letGone).setQueue
    (s.prov.queue ++ (s.lane l).state.held.toList.map fun e => { e with hold := 0 }))
    (abortedAt s.time.minute l (s.lane l)).toList

theorem release_autonomous {s : State} (auto : s.link.mode = .autonomous) (l : Lane) :
    release l .autonomous s = laneLetGo l s := by
  cases held : (s.lane l).state.held with
  | none => simp [release, laneLetGo, LaneRec.letGone, abortedAt, held, State.setQueue, State.notices]
  | some e =>
    have kept := (letGo_touch l .autonomous e s).trans (releaseNotices_touch l .autonomous e _)
    rw [release_eq .autonomous held, assignmentRun_autonomous (kept.pass.mode.trans auto)]
    simp [letGo, releaseNotices, leavesService, strikesAfter, exhausts, requeued, ReleaseCause.drops, ReleaseCause.spends,
      ReleaseCause.reason, ReleaseCause.finished, laneLetGo, LaneRec.letGone, abortedAt, held, provNote, note_notices]

/-- R166: the releases of the lanes of a list, in its order. -/
theorem release_fold {ls : List Lane} (once : ls.Nodup) {s : State} (auto : s.link.mode = .autonomous) :
    let t := ls.foldl (fun s l => release l .autonomous s) s
    t = { s with
      lanes := t.lanes
      prov := { s.prov with queue := s.prov.queue ++
        (ls.filterMap fun l => (s.lane l).state.held).map fun e => { e with hold := 0 } }
      link := s.link.queueAll (ls.filterMap fun l => abortedAt s.time.minute l (s.lane l)) } ∧
      ∀ l, t.lane l = if l ∈ ls then (s.lane l).letGone else s.lane l := by
  induction ls generalizing s with
  | nil => exact ⟨by simp, fun l => rfl⟩
  | cons a ls ih =>
    obtain ⟨new, once⟩ := List.nodup_cons.1 once
    obtain ⟨u, first⟩ : ∃ u, laneLetGo a s = u := ⟨_, rfl⟩
    have lane (l : Lane) : u.lane l = if l = a then (s.lane a).letGone else s.lane l := by
      rw [← first]
      exact lane_setLane s a l _
    have others (l : Lane) (mem : l ∈ ls) : u.lane l = s.lane l := by
      rw [lane, if_neg fun e => new (by rwa [← e])]
    have time : u.time = s.time := by rw [← first]; rfl
    have mode : u.link.mode = .autonomous := by
      rw [← first, ← auto]
      exact queueAll_mode _ _
    obtain ⟨rest, lanes⟩ := ih once mode
    rw [List.filterMap_congr fun l mem => by rw [others l mem], time,
      List.filterMap_congr (l := ls) (f := fun l => abortedAt s.time.minute l (u.lane l))
        fun l mem => by rw [others l mem]] at rest
    rw [List.foldl_cons, release_autonomous auto, first]
    refine ⟨?_, fun l => ?_⟩
    · rw [rest, ← first]
      cases held : (s.lane a).state.held with
      | none => simp [laneLetGo, State.notices, State.setQueue, State.setLane, abortedAt, held]
      | some e =>
        simp [laneLetGo, State.notices, State.setQueue, State.setLane, abortedAt, held]
        rfl
    · rw [lanes, lane]
      by_cases at_ : l = a
      · subst at_
        simp [new]
      · simp [at_]

theorem allLanes_nodup : allLanes.Nodup := by decide

theorem schedAutonomous_eq {s : State} (auto : s.link.mode = .autonomous) : schedAutonomous s =
    { s with
      lanes := Vector.ofFn fun l => (s.lane l).letGone
      prov := { s.prov with queue := s.prov.queue ++ (heldEntries s).map fun e => { e with hold := 0 } }
      link := s.link.queueAll (allLanes.filterMap fun l => abortedAt s.time.minute l (s.lane l)) } := by
  obtain ⟨rest, lanes⟩ := release_fold allLanes_nodup auto
  have all : (schedAutonomous s).lanes = Vector.ofFn fun l => (s.lane l).letGone := by
    ext1 k lt
    simpa [State.lane, mem_allLanes, schedAutonomous, eachLane] using lanes ⟨k, lt⟩
  rw [← all]
  exact rest

/-! ### Latches reversed -/

/-- R122: a RETRACTING latch turned to EXTENDING, any other latch left. -/
def LatchRec.reversed (r : LatchRec) (now travel : Nat) : LatchRec :=
  if r.state = some .retracting then r.drivenOut now travel else r

theorem reverseLatch_eq (b : Bay) (s : State) :
    reverseLatch b s = s.setLatch b ((s.latch b).reversed s.time.ms s.latchUnit.settings.travel) := by
  unfold reverseLatch LatchRec.reversed
  dsimp only
  split
  · rfl
  · exact (setLatch_latch s b).symm

theorem reverseLatch_fold {l : List Bay} (once : l.Nodup) (s : State) :
    let t := l.foldl (fun s b => reverseLatch b s) s
    t = { s with latches := t.latches } ∧ ∀ b, t.latch b =
      if b ∈ l then (s.latch b).reversed s.time.ms s.latchUnit.settings.travel else s.latch b := by
  induction l generalizing s with
  | nil => exact ⟨rfl, fun b => rfl⟩
  | cons a l ih =>
    obtain ⟨new, once⟩ := List.nodup_cons.1 once
    obtain ⟨rest, latches⟩ := ih once (reverseLatch a s)
    rw [List.foldl_cons]
    refine ⟨?_, fun b => ?_⟩
    · rw [rest, reverseLatch_eq]
      rfl
    · rw [latches, reverseLatch_eq, latch_setLatch]
      by_cases at_ : b = a
      · subst at_
        simp [new]
      · simp [at_]

theorem eachBay_reverseLatch (s : State) : eachBay reverseLatch s =
    { s with latches := Vector.ofFn fun b => (s.latch b).reversed s.time.ms s.latchUnit.settings.travel } := by
  obtain ⟨rest, latches⟩ := reverseLatch_fold allBays_nodup s
  have all : (eachBay reverseLatch s).latches =
      Vector.ofFn fun b => (s.latch b).reversed s.time.ms s.latchUnit.settings.travel := by
    ext1 k lt
    simpa [State.latch, mem_allBays, eachBay] using latches ⟨k, lt⟩
  rw [← all]
  exact rest

/-! ### RETRACTs removed -/

theorem lapseNote_notices (b : Bay) (p : Purpose) (s : State) :
    lapseNote b p s = s.notices (lapsed b s.time.minute (latchCode (s.latch b).state) (some p)) := by
  cases p <;> rfl

theorem endReservation_autonomous {s : State} (auto : s.link.mode = .autonomous) (b : Bay) :
    endReservation b s = s.setCust b { s.cust b with reservation := none } := by
  cases reservation : (s.cust b).reservation with
  | none =>
    have same : { s.cust b with reservation := none } = s.cust b := by rw [← reservation]
    rw [endReservation, reservation, same, setCust_cust]
  | some r =>
    have run : assignmentRun (s.setCust b { s.cust b with reservation := none }) =
        s.setCust b { s.cust b with reservation := none } := assignmentRun_autonomous auto
    rw [endReservation, reservation]
    exact run

theorem relocked_unpurposed {c : CustodyRec} (none : c.purpose = none) (presence : Bool) : c.relocked presence = c := by
  cases c
  cases none
  simp [CustodyRec.relocked]

/-- R132: in AUTONOMOUS mode Relocked writes the custody record and queues the notice of the purpose that lapses. -/
theorem custodyRelocked_autonomous {s : State} (auto : s.link.mode = .autonomous) (b : Bay) : custodyRelocked b s =
    (s.setCust b ((s.cust b).relocked (s.bay b).presence)).notices
      (lapsed b s.time.minute (latchCode (s.latch b).state) (s.cust b).purpose) := by
  cases purpose : (s.cust b).purpose with
  | none => simp [custodyRelocked, lapsePurpose, purpose, relocked_unpurposed purpose, lapsed, State.notices]
  | some p =>
    have lapse : lapsePurpose b s = (s.setCust b { s.cust b with purpose := none }).notices
        (lapsed b s.time.minute (latchCode (s.latch b).state) (some p)) := by
      rw [lapsePurpose, purpose]
      exact lapseNote_notices b p _
    have bay : (lapsePurpose b s).bay b = s.bay b := by rw [lapse]; rfl
    have relocks : custodyRelocked b s =
        if (s.cust b).purpose = some .service ∧ (s.cust b).status = .inCart ∧ (s.bay b).presence = false then
          endReservation b ((lapsePurpose b s).setCust b { (lapsePurpose b s).cust b with status := .vacant })
        else lapsePurpose b s := by rw [← bay]; rfl
    rw [relocks]
    split
    · rename_i vacated
      obtain ⟨service, status, presence⟩ := vacated
      obtain rfl : p = .service := Option.some.inj (purpose.symm.trans service)
      have silent : lapsePurpose b s = s.setCust b { s.cust b with purpose := none } := lapse
      have vacant : (s.cust b).relocked (s.bay b).presence = ⟨.vacant, none, none⟩ := by
        simp only [CustodyRec.relocked, purpose, status, presence, and_self, if_true]
      rw [silent, cust_setCust_self, setCust_setCust, endReservation_autonomous (s := s.setCust b _) auto,
        cust_setCust_self, setCust_setCust, vacant]
      rfl
    · rename_i stays
      have kept : (s.cust b).relocked (s.bay b).presence = { s.cust b with purpose := none } := by
        simp only [CustodyRec.relocked, stays, if_false]
      rw [lapse, kept]

/-- R122: a RETRACT of the bay waits for a LOCKED latch, so that the purpose of the release lapses. -/
def lapsesAt (s : State) (b : Bay) : Bool := (s.latch b).state = some .locked ∧ (b, Motion.retract) ∈ s.latchUnit.queue

/-- R122, R132: the custody record of a bay once no RETRACT of it waits. -/
def custAfter (s : State) (b : Bay) : CustodyRec :=
  if lapsesAt s b then (s.cust b).relocked (s.bay b).presence else s.cust b

/-- R122, R132: the notice of the purpose that lapses with the RETRACT of a bay. -/
def lapseNotices (s : State) (b : Bay) : List Notice :=
  if lapsesAt s b then lapsed b s.time.minute 0 (s.cust b).purpose else []

/-- R122: the state in which no RETRACT of bay `b` waits. -/
def retractRemoved (b : Bay) (s : State) : State :=
  State.notices ((s.setMotions (s.latchUnit.queue.filter fun m => m ≠ (b, .retract))).setCust b (custAfter s b))
    (lapseNotices s b)

theorem removeRetract_autonomous {s : State} (auto : s.link.mode = .autonomous) (b : Bay) :
    removeRetract b s = retractRemoved b s := by
  obtain ⟨u, dropped⟩ : ∃ u, s.setMotions (s.latchUnit.queue.filter fun m => m ≠ (b, .retract)) = u := ⟨_, rfl⟩
  have mode : u.link.mode = .autonomous := by rw [← dropped]; exact auto
  have cust : u.cust b = s.cust b := by rw [← dropped]; rfl
  have latch : u.latch b = s.latch b := by rw [← dropped]; rfl
  have bay : u.bay b = s.bay b := by rw [← dropped]; rfl
  have time : u.time = s.time := by rw [← dropped]; rfl
  unfold removeRetract retractRemoved custAfter lapseNotices
  rw [dropped]
  by_cases waits : (b, Motion.retract) ∈ s.latchUnit.queue
  · rw [if_pos waits]
    by_cases locked : (s.latch b).state = some .locked
    · have lapses : lapsesAt s b = true := decide_eq_true ⟨locked, waits⟩
      have relocked := custodyRelocked_autonomous mode b
      rw [cust, latch, bay, time, locked] at relocked
      rw [if_pos lapses, if_pos lapses]
      dsimp only
      rw [latch, if_pos locked, handOn, relocked, assignmentRun_autonomous]
      · rfl
      · exact (queueAll_mode _ _).trans mode
    · have stays : lapsesAt s b = false := decide_eq_false fun h => locked h.1
      dsimp only
      rw [latch, if_neg locked, stays]
      simp [State.notices, ← cust]
  · have stays : lapsesAt s b = false := decide_eq_false fun h => waits h.2
    have all : (s.latchUnit.queue.filter fun m => m ≠ (b, .retract)) = s.latchUnit.queue :=
      List.filter_eq_self.2 fun m mem => by
        rw [decide_eq_true_eq]
        rintro rfl
        exact waits mem
    have same : u = s := by rw [← dropped, all]; rfl
    rw [if_neg waits, stays, same]
    simp [State.notices]

/-- R122: the RETRACTs of the bays of a list removed, in its order. -/
theorem removeRetract_fold {l : List Bay} (once : l.Nodup) {s : State} (auto : s.link.mode = .autonomous) :
    let t := l.foldl (fun s b => removeRetract b s) s
    t = { s with
      custody := t.custody
      latchUnit := { s.latchUnit with
        queue := s.latchUnit.queue.filter fun m => ¬ (m.2 = .retract ∧ m.1 ∈ l) }
      link := s.link.queueAll (l.flatMap (lapseNotices s)) } ∧
      ∀ b, t.cust b = if b ∈ l then custAfter s b else s.cust b := by
  induction l generalizing s with
  | nil => exact ⟨by simp, fun b => rfl⟩
  | cons a l ih =>
    obtain ⟨new, once⟩ := List.nodup_cons.1 once
    obtain ⟨u, first⟩ : ∃ u, retractRemoved a s = u := ⟨_, rfl⟩
    have ne (b : Bay) (mem : b ∈ l) : b ≠ a := fun e => new (by rwa [← e])
    have queue : u.latchUnit.queue = s.latchUnit.queue.filter fun m => m ≠ (a, .retract) := by rw [← first]; rfl
    have cust (b : Bay) : u.cust b = if b = a then custAfter s a else s.cust b := by
      rw [← first]
      exact cust_setCust _ a b _
    have lapses (b : Bay) (other : b ≠ a) : lapsesAt u b = lapsesAt s b := by
      have latch : u.latch b = s.latch b := by rw [← first]; rfl
      simp [lapsesAt, latch, queue, other]
    have time : u.time = s.time := by rw [← first]; rfl
    have bay (b : Bay) : u.bay b = s.bay b := by rw [← first]; rfl
    have later (b : Bay) (mem : b ∈ l) : lapseNotices u b = lapseNotices s b ∧ custAfter u b = custAfter s b := by
      simp only [lapseNotices, custAfter, lapses b (ne b mem), cust, if_neg (ne b mem), time, bay, and_self]
    have mode : u.link.mode = .autonomous := by
      rw [← first, ← auto]
      exact queueAll_mode _ _
    obtain ⟨rest, custs⟩ := ih once mode
    have notices : l.flatMap (lapseNotices u) = l.flatMap (lapseNotices s) := by
      simp only [List.flatMap]
      rw [List.map_congr_left fun b mem => (later b mem).1]
    have left : (u.latchUnit.queue.filter fun m => ¬ (m.2 = .retract ∧ m.1 ∈ l)) =
        s.latchUnit.queue.filter fun m => ¬ (m.2 = .retract ∧ m.1 ∈ a :: l) := by
      rw [queue, List.filter_filter]
      refine List.filter_congr fun m _ => ?_
      obtain ⟨b, m⟩ := m
      cases m <;> simp [Bool.and_comm]
    rw [notices, left] at rest
    rw [List.foldl_cons, removeRetract_autonomous auto, first]
    refine ⟨?_, fun b => ?_⟩
    · rw [rest, ← first, List.flatMap_cons]
      simp only [retractRemoved, State.notices, State.setCust, State.setMotions, queueAll_queueAll]
    · rw [custs, cust]
      by_cases at_ : b = a
      · subst at_
        simp [new]
      · by_cases mem : b ∈ l
        · simp [mem, (later b mem).2]
        · simp [mem, at_]

theorem eachBay_removeRetract {s : State} (auto : s.link.mode = .autonomous) : eachBay removeRetract s =
    { s with
      custody := Vector.ofFn fun b => custAfter s b
      latchUnit := { s.latchUnit with queue := s.latchUnit.queue.filter fun m => m.2 ≠ .retract }
      link := s.link.queueAll (allBays.flatMap (lapseNotices s)) } := by
  obtain ⟨rest, custs⟩ := removeRetract_fold allBays_nodup auto
  have all : (eachBay removeRetract s).custody = Vector.ofFn fun b => custAfter s b := by
    ext1 k lt
    simpa [State.cust, mem_allBays, eachBay] using custs ⟨k, lt⟩
  have left : (s.latchUnit.queue.filter fun m => ¬ (m.2 = .retract ∧ m.1 ∈ allBays)) =
      s.latchUnit.queue.filter fun m => m.2 ≠ .retract :=
    List.filter_congr fun m _ => by simp [mem_allBays]
  rw [← all, ← left]
  exact rest

/-! ### The entry, up to the arbitration step -/

/-- R122: the latch record of a bay once RETRACTING latches have turned and release windows have ended. -/
def LatchRec.turned (r : LatchRec) (now travel : Nat) : LatchRec :=
  if r.state = some .retracting then r.drivenOut now travel
  else if r.state = some .released ∧ r.window ≠ none then { r with window := none }
  else r

theorem windowEnded_reversed (r : LatchRec) (now travel : Nat) :
    (r.reversed now travel).windowEnded = r.turned now travel := by
  unfold LatchRec.reversed LatchRec.turned
  by_cases retracting : r.state = some .retracting
  · simp [retracting, windowEnded_eq, LatchRec.drivenOut]
  · simp [retracting, windowEnded_eq, and_comm]

theorem windowRuns_reversed (r : LatchRec) (now travel : Nat) : (r.reversed now travel).windowRuns =
    decide (r.state = some .released ∧ r.window ≠ none) := by
  unfold LatchRec.reversed LatchRec.windowRuns
  by_cases retracting : r.state = some .retracting
  · simp [retracting, LatchRec.drivenOut]
  · simp [retracting, and_comm]

theorem locked_reversed (r : LatchRec) (now travel : Nat) :
    (r.reversed now travel).state = some .locked ↔ r.state = some .locked := by
  unfold LatchRec.reversed
  by_cases retracting : r.state = some .retracting <;> simp [retracting, LatchRec.drivenOut]

/-- R122, R166, R181: the state in which the arbitration step of the entry to AUTONOMOUS mode runs. -/
def autonomousEntered (s : State) : State :=
  { s with
    lanes := Vector.ofFn fun l => (s.lane l).letGone
    prov := { s.prov with queue := s.prov.queue ++ (heldEntries s).map fun e => { e with hold := 0 } }
    latches := Vector.ofFn fun b => (s.latch b).turned s.time.ms s.latchUnit.settings.travel
    latchUnit := { s.latchUnit with
      queue := (s.latchUnit.queue.filter fun m => m.2 ≠ .retract) ++
        (allBays.filter fun b => (s.latch b).state = some .released ∧ (s.latch b).window ≠ none).map
          fun b => (b, Motion.extend) }
    custody := Vector.ofFn fun b => custAfter s b
    link := s.link.queueAll ((allLanes.filterMap fun l => abortedAt s.time.minute l (s.lane l)) ++
      allBays.flatMap (lapseNotices s)) }

theorem latchAutonomous_sched {s : State} (auto : s.link.mode = .autonomous) :
    latchAutonomous (schedAutonomous s) = arbitrate (autonomousEntered s) := by
  obtain ⟨u, lanes⟩ : ∃ u, schedAutonomous s = u := ⟨_, rfl⟩
  obtain ⟨v, reversed⟩ : ∃ v, eachBay reverseLatch u = v := ⟨_, rfl⟩
  obtain ⟨w, removed⟩ : ∃ w, eachBay removeRetract v = w := ⟨_, rfl⟩
  have u_eq := lanes.symm.trans (schedAutonomous_eq auto)
  have v_eq := reversed.symm.trans (eachBay_reverseLatch u)
  have mode : v.link.mode = .autonomous := by
    rw [v_eq, u_eq]
    exact (queueAll_mode _ _).trans auto
  have w_eq := removed.symm.trans (eachBay_removeRetract mode)
  have latch (b : Bay) : w.latch b = (s.latch b).reversed s.time.ms s.latchUnit.settings.travel := by
    simp [w_eq, v_eq, u_eq, State.latch]
  have lapses (b : Bay) : lapsesAt v b = lapsesAt s b := by
    have own : v.latch b = (s.latch b).reversed s.time.ms s.latchUnit.settings.travel := by
      simp [v_eq, u_eq, State.latch]
    have queue : v.latchUnit = s.latchUnit := by rw [v_eq, u_eq]
    simp only [lapsesAt, own, queue, locked_reversed]
  have records : v.custody = s.custody ∧ v.bays = s.bays := by rw [v_eq, u_eq]; exact ⟨rfl, rfl⟩
  have cust (b : Bay) : v.cust b = s.cust b := by simp only [State.cust, records.1]
  have bay (b : Bay) : v.bay b = s.bay b := by simp only [State.bay, records.2]
  have time : v.time = s.time := by rw [v_eq, u_eq]
  have custody (b : Bay) : custAfter v b = custAfter s b := by simp only [custAfter, lapses, cust, bay]
  have notices (b : Bay) : lapseNotices v b = lapseNotices s b := by simp only [lapseNotices, lapses, cust, time]
  simp only [custody, funext notices] at w_eq
  rw [latchAutonomous, lanes, reversed, removed, eachBay_endWindow]
  simp only [latch, windowEnded_reversed, windowRuns_reversed]
  simp only [w_eq, v_eq, u_eq, autonomousEntered, queueAll_queueAll]

/-! ### What the arbitration step and the passes keep -/

/-- R122, R166, R181: what holds from the arbitration step of the entry on. -/
structure Autonomous (s : State) : Prop where
  mode : s.link.mode = .autonomous
  lanes : ∀ l, (s.lane l).state.held = none
  turned : ∀ b, (s.latch b).state ≠ some .retracting
  ended : ∀ b, (s.latch b).state = some .released → (s.latch b).window = none
  motions : ∀ m ∈ s.latchUnit.queue, m.2 = .extend

theorem Autonomous.law {s : State} (h : Autonomous s) : AutonomousLaw s := fun _ => ⟨h.lanes, h.turned, h.motions⟩

theorem extended_state (r : LatchRec) (now travel : Nat) :
    (r.extended now travel).state = some .locked ∨ (r.extended now travel).state = some .extending := by
  unfold LatchRec.extended
  split
  · exact .inl rfl
  · exact .inr rfl

theorem grantExtend_lanes {s : State} (auto : s.link.mode = .autonomous) (b : Bay) :
    (grant b .extend s).lanes = s.lanes := by
  unfold grant grantExtend
  dsimp only
  split
  · unfold enterLocked handOn
    dsimp only
    rw [custodyRelocked_autonomous (by exact auto), assignmentRun_autonomous]
    · rfl
    · exact (queueAll_mode _ _).trans auto
  · rfl

theorem Autonomous.grant {s : State} (h : Autonomous s) {b : Bay} {m : Motion} (waits : (b, m) ∈ s.latchUnit.queue) :
    Autonomous (grant b m s) := by
  obtain rfl : m = .extend := h.motions _ waits
  have own (c : Bay) := latch_grant_extend b c s
  refine ⟨(grant_untold b .extend s).mode.trans h.mode, fun l => ?_, fun c => ?_, fun c => ?_, fun x mem => ?_⟩
  · rw [State.lane, grantExtend_lanes h.mode]
    exact h.lanes l
  · rw [own]
    split
    · rcases extended_state (s.latch b) s.time.ms s.latchUnit.settings.travel with e | e <;> simp [e]
    · exact h.turned c
  · rw [own]
    split
    · rcases extended_state (s.latch b) s.time.ms s.latchUnit.settings.travel with e | e <;> simp [e]
    · exact h.ended c
  · exact h.motions x (mem_grant_queue.1 mem).1

theorem Autonomous.arbitrate {s : State} (h : Autonomous s) : Autonomous (arbitrate s) :=
  arbitrate_rel (R := fun s t => Autonomous s → Autonomous t) (fun _ => id) (fun h h' => h' ∘ h)
    (fun _ _ _ waits _ h => h.grant waits) s h

theorem Autonomous.recomputed {s : State} (h : Autonomous s) : Autonomous (finish (recompute s)) := by
  have stored : Autonomous (recompute s) := by
    rw [recompute_eq]
    split <;> exact ⟨h.mode, h.lanes, h.turned, h.ended, h.motions⟩
  have pass := finish_pass (recompute s)
  refine ⟨pass.mode.trans stored.mode, (finish_idleKept _).kept stored.mode stored.lanes, fun b => ?_, fun b => ?_, ?_⟩
  · rw [pass.latch]; exact stored.turned b
  · rw [pass.latch]; exact stored.ended b
  · rw [pass.latchUnit]; exact stored.motions

theorem autonomousEntered_autonomous {s : State} (auto : s.link.mode = .autonomous) : Autonomous (autonomousEntered s) := by
  have latch (b : Bay) : (autonomousEntered s).latch b = (s.latch b).turned s.time.ms s.latchUnit.settings.travel := by
    simp [autonomousEntered, State.latch]
  refine ⟨(queueAll_mode _ _).trans auto, fun l => ?_, fun b => ?_, fun b => ?_, fun m mem => ?_⟩
  · have lane : (autonomousEntered s).lane l = (s.lane l).letGone := by simp [autonomousEntered, State.lane]
    rw [lane, LaneRec.letGone]
    split
    · assumption
    · rfl
  · rw [latch, LatchRec.turned]
    split
    · simp [LatchRec.drivenOut]
    · split <;> assumption
  · rw [latch, LatchRec.turned]
    split
    · simp [LatchRec.drivenOut]
    · split
      · exact fun _ => rfl
      · rename_i still
        exact fun released => by_contra fun runs => still ⟨released, runs⟩
  · simp only [autonomousEntered, List.mem_append, List.mem_filter, List.mem_map] at mem
    rcases mem with ⟨_, kept⟩ | ⟨b, _, rfl⟩
    · obtain ⟨b, m⟩ := m
      cases m
      · simp at kept
      · rfl
    · rfl

theorem lapsesAt_iff (s : State) (b : Bay) : lapsesAt s b = true ↔
    (s.latch b).state = some .locked ∧ (b, Motion.retract) ∈ s.latchUnit.queue := decide_eq_true_iff

theorem custAfter_eq (s : State) (b : Bay) : custAfter s b =
    if (s.latch b).state = some .locked ∧ (b, Motion.retract) ∈ s.latchUnit.queue then
      (s.cust b).relocked (s.bay b).presence else s.cust b := by
  simp only [custAfter, lapsesAt_iff]

theorem lapseNotices_eq (s : State) (b : Bay) : lapseNotices s b =
    if (s.latch b).state = some .locked ∧ (b, Motion.retract) ∈ s.latchUnit.queue then
      lapsed b s.time.minute 0 (s.cust b).purpose else [] := by
  simp only [lapseNotices, lapsesAt_iff]

/-- R181: the mode is AUTONOMOUS, the count stopped, and AUTONOMOUS_ENTERED queued. -/
def modeEntered (s : State) : State :=
  State.notices { s with link := { s.link with watchdog := none, mode := .autonomous } }
    [⟨.autonomousEntered, 0, s.time.minute, byte s.link.period, 0, 0, 0⟩]

theorem modeEntered_mode (s : State) : (modeEntered s).link.mode = .autonomous := queueAll_mode _ _

theorem watchdogExpires_normal {s : State} (runs : s.link.watchdog ≠ none) (normal : s.link.mode = .normal) :
    watchdogExpires s = finish (recompute (latchAutonomous (schedAutonomous (modeEntered s)))) := by
  obtain ⟨e, watchdog⟩ := Option.ne_none_iff_exists'.1 runs
  simp only [watchdogExpires, watchdog, normal]
  rfl

theorem watchdogExpires_autonomous {s : State} (runs : s.link.watchdog ≠ none) (auto : s.link.mode = .autonomous) :
    watchdogExpires s = { s with link := { s.link with watchdog := none } } := by
  obtain ⟨e, watchdog⟩ := Option.ne_none_iff_exists'.1 runs
  simp only [watchdogExpires, watchdog, auto]

/-- The latch of a bay for which no motion waits, from the entry to the end of the event. -/
theorem autonomousEntered_finish {s : State} {b : Bay} (none : NoMotion s b)
    (retracting : (s.latch b).state = some .retracting) :
    (finish (recompute (arbitrate (autonomousEntered s)))).latch b =
      (s.latch b).drivenOut s.time.ms s.latchUnit.settings.travel := by
  have stored : (recompute (arbitrate (autonomousEntered s))).latches = (arbitrate (autonomousEntered s)).latches := by
    rw [recompute_eq]
    split <;> rfl
  have noMotion : NoMotion (autonomousEntered s) b := by
    intro m mem
    simp only [autonomousEntered, List.mem_append, List.mem_filter, List.mem_map, decide_eq_true_eq] at mem
    rcases mem with ⟨mem, _⟩ | ⟨c, ⟨_, released, _⟩, rfl⟩
    · exact none m mem
    · rintro rfl
      simp [retracting] at released
  calc (finish (recompute (arbitrate (autonomousEntered s)))).latch b
    _ = (recompute (arbitrate (autonomousEntered s))).latch b := (finish_pass _).latch b
    _ = (arbitrate (autonomousEntered s)).latch b := by simp only [State.latch, stored]
    _ = (autonomousEntered s).latch b := (arbitrate_arbitrated _).bystander b noMotion
    _ = (s.latch b).turned s.time.ms s.latchUnit.settings.travel := by simp [autonomousEntered, State.latch]
    _ = (s.latch b).drivenOut s.time.ms s.latchUnit.settings.travel := if_pos retracting

theorem autonomousEntered_purpose {s : State} {b : Bay} (lapses : lapsesAt s b = true) :
    ((finish (recompute (arbitrate (autonomousEntered s)))).cust b).purpose = none := by
  have stored : (recompute (arbitrate (autonomousEntered s))).custody = (arbitrate (autonomousEntered s)).custody := by
    rw [recompute_eq]
    split <;> rfl
  have own : (autonomousEntered s).cust b = custAfter s b := by simp [autonomousEntered, State.cust]
  have before : ((autonomousEntered s).cust b).purpose = none := by
    rw [own, custAfter, if_pos lapses]
    rfl
  rw [(finish_pass _).cust, State.cust, stored]
  exact arbitrate_purposesEnd _ b before

/-- Settles O15: the entry's work up to the arbitration step as one state, which the step and the passes then keep
autonomous. -/
theorem watchdogExpiryEntersAutonomous : Obligations.WatchdogExpiryEntersAutonomous := by
  refine fun s free => ⟨fun stopped => next_live free (by rw [watchdogExpires, stopped]),
    fun runs auto => next_live free (watchdogExpires_autonomous runs auto), fun runs normal => ?_⟩
  refine ⟨_, next_live free (watchdogExpires_normal runs normal), ?_, ?_⟩
  · exact (((schedAutonomous_touch _).custody.latches.trans (latchAutonomous_touch _)).trans (recompute_touch _)).pass
      (finish_pass _)
  obtain ⟨u, entered⟩ : ∃ u, modeEntered s = u := ⟨_, rfl⟩
  have latch (b : Bay) : u.latch b = s.latch b := by rw [← entered]; rfl
  have unit : u.latchUnit = s.latchUnit := by rw [← entered]; rfl
  have time : u.time = s.time := by rw [← entered]; rfl
  have mode : u.link.mode = .autonomous := entered ▸ modeEntered_mode s
  have end_ := (autonomousEntered_autonomous mode).arbitrate.recomputed
  rw [entered, latchAutonomous_sched mode]
  refine ⟨end_.law, fun b retracting none => ?_, fun b locked waits => autonomousEntered_purpose ?_, end_.ended,
    (finish_recomputed _).told.2.1, ?_⟩
  · rw [autonomousEntered_finish (by rwa [NoMotion, unit]) (by rwa [latch]), latch, time, unit]
    rfl
  · exact (lapsesAt_iff u b).2 (by rw [latch, unit]; exact ⟨locked, waits⟩)
  · intro at_ aborted lapses ends start
    have explicit : autonomousEntered u = start.notices
        (at_ .autonomousEntered 0 (byte s.link.period) 0 0 0 :: (aborted ++
          allBays.flatMap fun b => if lapses b then lapsed b s.time.minute 0 (s.cust b).purpose else [])) := by
      rw [← entered]
      simp only [autonomousEntered, custAfter_eq, funext (lapseNotices_eq _)]
      rfl
    rw [← explicit]
    exact finish_recomputed _

end Sys2Proof.Machine
end

