-- ==== Sys2Proof/Proofs/PassFloors.lean ====
section
/-! PROOF. The floor stage of a pass as first fit over the bays in order (R59). -/

namespace Sys2Proof.Machine

/-! ### First fit -/

/-- R59: the bays of a list that have their floors, each where its floor fits in what those before it left of `r`. -/
def firstFit (floor : Bay → Nat) : List Bay → Nat → List Bay
  | [], _ => []
  | b :: bs, r => if floor b ≤ r then b :: firstFit floor bs (r - floor b) else firstFit floor bs r

/-- R59: what the floors of a list of bays leave of `r`. -/
def floorsLeft (floor : Bay → Nat) (bays : List Bay) (r : Nat) : Nat := r - ((firstFit floor bays r).map floor).sum

section FirstFit
variable (floor : Bay → Nat)

theorem firstFit_sublist (bays : List Bay) (r : Nat) : (firstFit floor bays r).Sublist bays := by
  induction bays generalizing r with
  | nil => exact .slnil
  | cons b bs ih =>
    unfold firstFit
    split
    · exact (ih _).cons_cons b
    · exact (ih _).cons b

/-- The floors given never add up to more than the power there is. -/
theorem firstFit_sum_le (bays : List Bay) (r : Nat) : ((firstFit floor bays r).map floor).sum ≤ r := by
  induction bays generalizing r with
  | nil => exact Nat.zero_le r
  | cons b bs ih =>
    unfold firstFit
    split
    · have := ih (r - floor b)
      rw [List.map_cons, List.sum_cons]
      omega
    · exact ih r

theorem firstFit_sum (bays : List Bay) (r : Nat) :
    ((firstFit floor bays r).map floor).sum + floorsLeft floor bays r = r :=
  Nat.add_sub_cancel' (firstFit_sum_le floor bays r)

theorem floorsLeft_cons (b : Bay) (bs : List Bay) (r : Nat) : floorsLeft floor (b :: bs) r =
    floorsLeft floor bs (if floor b ≤ r then r - floor b else r) := by
  unfold floorsLeft
  rw [firstFit]
  split
  · rw [List.map_cons, List.sum_cons, Nat.sub_sub]
  · rfl

theorem firstFit_append (xs ys : List Bay) (r : Nat) :
    firstFit floor (xs ++ ys) r = firstFit floor xs r ++ firstFit floor ys (floorsLeft floor xs r) := by
  induction xs generalizing r with
  | nil => rfl
  | cons b bs ih =>
    rw [List.cons_append, firstFit, firstFit, floorsLeft_cons]
    split
    · rw [ih, List.cons_append]
    · exact ih r

theorem floorsLeft_append (xs ys : List Bay) (r : Nat) :
    floorsLeft floor (xs ++ ys) r = floorsLeft floor ys (floorsLeft floor xs r) := by
  have all := firstFit_sum floor (xs ++ ys) r
  have first := firstFit_sum floor xs r
  have second := firstFit_sum floor ys (floorsLeft floor xs r)
  rw [firstFit_append, List.map_append, List.sum_append] at all
  omega

/-- The power left does not grow from bay to bay. -/
theorem floorsLeft_le (bays : List Bay) (r : Nat) : floorsLeft floor bays r ≤ r := Nat.sub_le _ _

section Split
variable {before after : List Bay} {b : Bay} {r : Nat} (once : (before ++ b :: after).Nodup)
include once

/-- R59: a bay has its floor just when that fits in what the floors before it left. -/
theorem mem_firstFit_iff : b ∈ firstFit floor (before ++ b :: after) r ↔ floor b ≤ floorsLeft floor before r := by
  obtain ⟨_, tail, apart⟩ := List.nodup_append.1 once
  have early : b ∉ firstFit floor before r := fun mem =>
    apart b ((firstFit_sublist floor before r).subset mem) b (.head _) rfl
  have late (r : Nat) : b ∉ firstFit floor after r := fun mem =>
    (List.nodup_cons.1 tail).1 ((firstFit_sublist floor after r).subset mem)
  rw [firstFit_append, List.mem_append, firstFit]
  split
  · simp [*]
  · simp [*]

/-- The bays before `b` that have their floors are those of the whole order that stand before it. -/
theorem mem_firstFit_before {a : Bay} :
    a ∈ firstFit floor before r ↔ a ∈ before ∧ a ∈ firstFit floor (before ++ b :: after) r := by
  obtain ⟨_, _, apart⟩ := List.nodup_append.1 once
  have inside (mem : a ∈ firstFit floor before r) : a ∈ before := (firstFit_sublist floor before r).subset mem
  refine ⟨fun mem => ⟨inside mem, ?_⟩, fun ⟨early, mem⟩ => ?_⟩
  · rw [firstFit_append]
    exact List.mem_append_left _ mem
  · rw [firstFit_append, List.mem_append] at mem
    exact mem.resolve_right fun late => apart a early a ((firstFit_sublist floor _ _).subset late) rfl

end Split
end FirstFit

/-! ### The stage over shares -/

/-- The share of a bay when a pass begins (R57). -/
def freshShare (floor ceil : Bay → Nat) (b : Bay) : Share := ⟨b, floor b, ceil b, 0, false⟩

/-- The share of a bay that has its floor and `gain b` above it, or is deferred. -/
def shareOf (floor ceil : Bay → Nat) (given : Bay → Bool) (gain : Bay → Nat) (b : Bay) : Share :=
  ⟨b, floor b, ceil b, if given b then floor b + gain b else 0, !given b⟩

section Stage
variable (floor ceil : Bay → Nat)

/-- R59: the floor stage over the bays of a list. -/
theorem floorStage_fresh {bays : List Bay} (once : bays.Nodup) (r : Nat) :
    floorStage (bays.map (freshShare floor ceil)) r =
      (bays.map (shareOf floor ceil (fun b => b ∈ firstFit floor bays r) fun _ => 0), floorsLeft floor bays r) := by
  induction bays generalizing r with
  | nil => rfl
  | cons b bs ih =>
    obtain ⟨new, once⟩ := List.nodup_cons.1 once
    have out (r : Nat) : b ∉ firstFit floor bs r := fun mem => new ((firstFit_sublist floor bs r).subset mem)
    have rest (r : Nat) (l : List Bay) (same : ∀ c ∈ bs, c ∈ l ↔ c ∈ firstFit floor bs r) :
        bs.map (shareOf floor ceil (fun c => c ∈ firstFit floor bs r) fun _ => 0) =
          bs.map (shareOf floor ceil (fun c => c ∈ l) fun _ => 0) :=
      List.map_congr_left fun c mem => by simp only [shareOf, same c mem]
    rw [List.map_cons, floorStage, floorsLeft_cons, firstFit]
    by_cases fits : floor b ≤ r
    · have others : ∀ c ∈ bs, c ∈ b :: firstFit floor bs (r - floor b) ↔ c ∈ firstFit floor bs (r - floor b) :=
        fun c mem => by simp [show c ≠ b from fun e => new (e ▸ mem)]
      simp only [freshShare, fits, if_true, ih once, rest _ _ others]
      simp [shareOf]
    · simp only [freshShare, fits, if_false, ih once]
      simp [shareOf, out]

/-- R59: the floor stage over a stretch of the order, with what the floors before it left. -/
theorem floorStage_stretch {before bays after : List Bay} (once : (before ++ bays ++ after).Nodup) (r : Nat) :
    floorStage (bays.map (freshShare floor ceil)) (floorsLeft floor before r) =
      (bays.map (shareOf floor ceil (fun b => b ∈ firstFit floor (before ++ bays ++ after) r) fun _ => 0),
        floorsLeft floor (before ++ bays) r) := by
  obtain ⟨front, _, apart⟩ := List.nodup_append.1 once
  obtain ⟨_, own, early⟩ := List.nodup_append.1 front
  have same (b : Bay) (mem : b ∈ bays) :
      b ∈ firstFit floor bays (floorsLeft floor before r) ↔ b ∈ firstFit floor (before ++ bays ++ after) r := by
    have notEarly : b ∉ firstFit floor before r := fun h =>
      early b ((firstFit_sublist floor before r).subset h) b mem rfl
    have notLate (r : Nat) : b ∉ firstFit floor after r := fun h =>
      apart b (List.mem_append_right _ mem) b ((firstFit_sublist floor after r).subset h) rfl
    simp only [firstFit_append, List.mem_append, notEarly, notLate, false_or, or_false]
  rw [floorStage_fresh floor ceil own, ← floorsLeft_append]
  refine congrArg (·, floorsLeft floor (before ++ bays) r) (List.map_congr_left fun b mem => ?_)
  simp only [shareOf, same b mem]

end Stage

end Sys2Proof.Machine
end

