-- ==== Sys2Proof/Proofs/PassFill.lean ====
section
/-! PROOF. The fill stage of one tier (R60): its rounds raise the bays that have their floors to one level, under their
ceilings, and the last units go one each to the first bays that are not at their ceilings. -/

namespace Sys2Proof.Machine

/-! ### The stage over any shares -/

theorem gains_le (xs : List Share) (n : Nat) : gains xs n ≤ xs.countP Share.inFill * n := by
  induction xs with
  | nil => exact Nat.zero_le _
  | cons x xs ih =>
    simp only [gains, List.map_cons, List.sum_cons, List.countP_cons, Share.gain] at ih ⊢
    split
    · rw [Nat.succ_mul]
      omega
    · rw [Nat.add_zero]
      omega

/-- The sum of the targets of shares. -/
def targetSum (xs : List Share) : Nat := (xs.map Share.target).sum

theorem targetSum_giveShares (xs : List Share) (n : Nat) : targetSum (giveShares xs n) = targetSum xs + gains xs n := by
  simp only [targetSum, giveShares, gains, List.map_map]
  rw [← List.sum_map_add]
  rfl

theorem targetSum_giveOnes (xs : List Share) (k : Nat) (le : k ≤ xs.countP Share.inFill) :
    targetSum (giveOnes xs k) = targetSum xs + k := by
  induction xs generalizing k with
  | nil =>
    obtain rfl : k = 0 := Nat.le_zero.1 le
    rfl
  | cons x xs ih =>
    cases k with
    | zero => rfl
    | succ k =>
      rw [List.countP_cons] at le
      unfold giveOnes
      by_cases fills : x.inFill = true
      · have rest := ih k (by simp only [fills, if_true] at le; omega)
        simp only [targetSum, fills, if_true, List.map_cons, List.sum_cons] at rest ⊢
        omega
      · have rest := ih (k + 1) (by simp only [fills, Bool.false_eq_true, if_false] at le; omega)
        simp only [targetSum, fills, Bool.false_eq_true, if_false, List.map_cons, List.sum_cons] at rest ⊢
        omega

/-- R60: the stage gives out what it takes from the balance. -/
theorem fillTier_sum (fuel : Nat) (xs : List Share) (r : Nat) :
    targetSum (fillTier fuel xs r).1 + (fillTier fuel xs r).2 = targetSum xs + r := by
  induction fuel generalizing xs r with
  | zero => rfl
  | succ fuel ih =>
    unfold fillTier
    dsimp only
    split
    · rfl
    · rename_i some_
      obtain ⟨_, fills⟩ := not_or.1 some_
      split
      · rename_i few
        have le : r ≤ xs.countP Share.inFill := by
          rcases Nat.div_eq_zero_iff.1 few with none | lt <;> omega
        rw [targetSum_giveOnes xs r le]
        rfl
      · have le : gains xs (r / xs.countP Share.inFill) ≤ r :=
          (gains_le xs _).trans (Nat.mul_div_le r _)
        rw [ih, targetSum_giveShares]
        omega

/-! ### Levels -/

section Levels
variable (floor ceil : Bay → Nat) (given : Bay → Bool)

/-- R60: the gain of a bay at a level: the level, or the room under its ceiling. -/
def levelGain (level : Nat) (b : Bay) : Nat := min (ceil b - floor b) level

/-- R60: a bay has its floor and more room than the level. -/
def roomAbove (level : Nat) (b : Bay) : Bool := given b && decide (level < ceil b - floor b)

/-- The shares of a tier at a level. -/
def leveled (bays : List Bay) (level : Nat) : List Share :=
  bays.map (shareOf floor ceil given (levelGain floor ceil level))

theorem inFill_leveled (level : Nat) (b : Bay) :
    (shareOf floor ceil given (levelGain floor ceil level) b).inFill = roomAbove floor ceil given level b := by
  cases has : given b with
  | false => simp [Share.inFill, shareOf, roomAbove, has]
  | true =>
    simp only [Share.inFill, shareOf, roomAbove, levelGain, has, Bool.not_true, if_true, true_and, Bool.true_and,
      decide_eq_decide]
    omega

theorem countP_leveled (bays : List Bay) (level : Nat) :
    (leveled floor ceil given bays level).countP Share.inFill = bays.countP (roomAbove floor ceil given level) := by
  rw [leveled, List.countP_map]
  exact List.countP_congr fun b _ => by rw [Function.comp_apply, inFill_leveled]

/-- R60, step 3: equal shares raise the level. -/
theorem giveShares_leveled (bays : List Bay) (level n : Nat) :
    giveShares (leveled floor ceil given bays level) n = leveled floor ceil given bays (level + n) := by
  simp only [giveShares, leveled, List.map_map]
  refine List.map_congr_left fun b _ => ?_
  simp only [Function.comp_apply, Share.gain, inFill_leveled, roomAbove]
  cases has : given b with
  | false => simp [shareOf, has]
  | true =>
    simp only [shareOf, levelGain, has, if_true, Bool.true_and, decide_eq_true_eq, Bool.not_true, Share.mk.injEq, and_true,
      true_and]
    split <;> omega

/-- Bays that all have room for another share gain it whole. -/
theorem gains_leveled_ge (bays : List Bay) (level n : Nat) :
    bays.countP (roomAbove floor ceil given (level + n)) * n ≤ gains (leveled floor ceil given bays level) n := by
  induction bays with
  | nil => simp [gains, leveled]
  | cons b bs ih =>
    have cons : gains (leveled floor ceil given (b :: bs) level) n =
        (shareOf floor ceil given (levelGain floor ceil level) b).gain n + gains (leveled floor ceil given bs level) n := rfl
    rw [cons, List.countP_cons]
    split
    · rename_i room
      simp only [roomAbove, Bool.and_eq_true, decide_eq_true_eq] at room
      obtain ⟨has, room⟩ := room
      have whole : (shareOf floor ceil given (levelGain floor ceil level) b).gain n = n := by
        have fills : level < ceil b - floor b := by omega
        rw [Share.gain, inFill_leveled, roomAbove, has, decide_eq_true fills]
        simp only [Bool.and_self, if_true, shareOf, has, levelGain]
        omega
      rw [whole, Nat.succ_mul]
      omega
    · rw [Nat.add_zero]
      omega

theorem countP_roomAbove_le (bays : List Bay) (level n : Nat) :
    bays.countP (roomAbove floor ceil given (level + n)) ≤ bays.countP (roomAbove floor ceil given level) := by
  refine List.countP_mono_left fun b _ room => ?_
  simp only [roomAbove, Bool.and_eq_true, decide_eq_true_eq] at room ⊢
  exact ⟨room.1, by omega⟩

/-- R60: the stage ends with the bays at one level and the last units given out singly, and power is left over only when no
bay has room. Each round but the last takes a bay out of those with room, or leaves less than one unit for each. -/
theorem fillTier_leveled (fuel : Nat) (bays : List Bay) (level r : Nat)
    (enough : bays.countP (roomAbove floor ceil given level) + 1 ≤ fuel ∨
      (1 ≤ fuel ∧ r < bays.countP (roomAbove floor ceil given level))) :
    ∃ level' k left, fillTier fuel (leveled floor ceil given bays level) r =
        (giveOnes (leveled floor ceil given bays level') k, left) ∧
      (left = 0 ∨ (k = 0 ∧ ∀ b ∈ bays, roomAbove floor ceil given level' b = false)) := by
  induction fuel generalizing level r with
  | zero => omega
  | succ fuel ih =>
    have none_ (xs : List Share) : giveOnes xs 0 = xs := by cases xs <;> rfl
    have fillTier_eq : fillTier (fuel + 1) (leveled floor ceil given bays level) r =
        if r = 0 ∨ bays.countP (roomAbove floor ceil given level) = 0 then (leveled floor ceil given bays level, r)
        else if r / bays.countP (roomAbove floor ceil given level) = 0 then
          (giveOnes (leveled floor ceil given bays level) r, 0)
        else fillTier fuel (leveled floor ceil given bays (level + r / bays.countP (roomAbove floor ceil given level)))
          (r - gains (leveled floor ceil given bays level) (r / bays.countP (roomAbove floor ceil given level))) := by
      rw [fillTier, countP_leveled]
      simp only [giveShares_leveled]
    generalize counted : bays.countP (roomAbove floor ceil given level) = n at fillTier_eq enough
    rw [fillTier_eq]
    by_cases done : r = 0 ∨ n = 0
    · rw [if_pos done]
      refine ⟨level, 0, r, by rw [none_], done.imp_right fun none => ⟨rfl, fun b mem => ?_⟩⟩
      exact Bool.eq_false_iff.2 (List.countP_eq_zero.1 (counted.trans none) b mem)
    obtain ⟨_, some_⟩ := not_or.1 done
    rw [if_neg done]
    by_cases few : r / n = 0
    · rw [if_pos few]
      exact ⟨level, r, 0, rfl, .inl rfl⟩
    rw [if_neg few]
    have many : n ≤ r := by
      by_contra lt
      exact few (Nat.div_eq_of_lt (Nat.lt_of_not_le lt))
    refine ih _ _ ?_
    have fewer := countP_roomAbove_le floor ceil given bays level (r / n)
    have whole := gains_leveled_ge floor ceil given bays level (r / n)
    rw [counted] at fewer
    rcases fewer.lt_or_eq with lt | same
    · exact .inl (by omega)
    · rw [same] at whole ⊢
      have rest := Nat.div_add_mod r n
      have small := Nat.mod_lt r (Nat.pos_of_ne_zero some_)
      exact .inr ⟨by omega, by omega⟩

/-- R60, step 2: the first bays with room above the level have one unit more. -/
theorem giveOnes_leveled {bays : List Bay} (once : bays.Nodup) (level k : Nat) :
    giveOnes (leveled floor ceil given bays level) k = bays.map (shareOf floor ceil given fun b =>
      levelGain floor ceil level b + if b ∈ (bays.filter (roomAbove floor ceil given level)).take k then 1 else 0) := by
  induction bays generalizing k with
  | nil => cases k <;> rfl
  | cons b bs ih =>
    obtain ⟨new, once⟩ := List.nodup_cons.1 once
    have out (k : Nat) : b ∉ (bs.filter (roomAbove floor ceil given level)).take k := fun mem =>
      new (List.mem_of_mem_filter (List.mem_of_mem_take mem))
    cases k with
    | zero => simp [leveled, giveOnes]
    | succ k =>
      have cons : leveled floor ceil given (b :: bs) level =
          shareOf floor ceil given (levelGain floor ceil level) b :: leveled floor ceil given bs level := rfl
      rw [cons, giveOnes, inFill_leveled, List.filter_cons, List.map_cons]
      by_cases room : roomAbove floor ceil given level b = true
      · have has : given b = true := (Bool.and_eq_true_iff.1 room).1
        rw [if_pos room, if_pos room, ih once k, List.take_succ_cons]
        refine congrArg₂ List.cons (by simp [shareOf, has, Nat.add_assoc]) (List.map_congr_left fun c mem => ?_)
        simp only [shareOf, List.mem_cons, show c ≠ b from fun e => new (e ▸ mem), false_or]
      · rw [if_neg room, if_neg room, ih once (k + 1)]
        simp [shareOf, out]

/-! ### What the stage gives a tier -/

/-- R60: what the fill stage gives the bays of a tier, in order, out of `r`, leaving `left`: the gains of the bays that have
their floors. -/
structure TierFilled (bays : List Bay) (gain : Bay → Nat) (r left : Nat) : Prop where
  sum : (bays.map fun b => if given b then gain b else 0).sum + left = r
  level : ∃ level, ∀ b ∈ bays, given b = true → gain b ≤ ceil b - floor b ∧
    (gain b = min (ceil b - floor b) level ∨ gain b = level + 1)
  order : bays.Pairwise fun a b => given a = true → given b = true → gain a < ceil a - floor a → gain b ≤ gain a
  full : left = 0 ∨ ∀ b ∈ bays, given b = true → gain b = ceil b - floor b

/-- Of the elements with a property the first are taken: none is taken after one that is not. -/
theorem pairwise_take_filter {α : Type} (p : α → Bool) {l : List α} (once : l.Nodup) (k : Nat) :
    l.Pairwise fun a b => p a = true → a ∉ (l.filter p).take k → b ∉ (l.filter p).take k := by
  induction l generalizing k with
  | nil => exact .nil
  | cons x xs ih =>
    obtain ⟨new, once⟩ := List.nodup_cons.1 once
    cases k with
    | zero => exact List.pairwise_of_forall fun a b _ _ => by simp
    | succ k =>
      rw [List.filter_cons]
      by_cases has : p x = true
      · rw [if_pos has, List.take_succ_cons, List.pairwise_cons]
        refine ⟨fun b _ _ out => absurd List.mem_cons_self out, ?_⟩
        refine (ih once k).imp_of_mem fun {a b} _ memb h pa out => ?_
        have ne : b ≠ x := fun e => new (e ▸ memb)
        simp only [List.mem_cons, not_or, ne, not_false_iff, true_and] at out ⊢
        exact h pa out.2
      · rw [if_neg has, List.pairwise_cons]
        exact ⟨fun b _ px => absurd px has, ih once (k + 1)⟩

theorem targetSum_shareOf (bays : List Bay) (gain : Bay → Nat) :
    targetSum (bays.map (shareOf floor ceil given gain)) =
      targetSum (bays.map (shareOf floor ceil given fun _ => 0)) +
        (bays.map fun b => if given b then gain b else 0).sum := by
  simp only [targetSum, List.map_map]
  rw [← List.sum_map_add]
  refine congrArg List.sum (List.map_congr_left fun b _ => ?_)
  simp only [Function.comp_apply, shareOf]
  split <;> omega

/-- R60: the fill stage of a tier of at most 32 bays. -/
theorem fillTier_filled {bays : List Bay} (once : bays.Nodup) (few : bays.length ≤ 32) (r : Nat) : ∃ gain left,
    fillTier 33 (bays.map (shareOf floor ceil given fun _ => 0)) r = (bays.map (shareOf floor ceil given gain), left) ∧
      TierFilled floor ceil given bays gain r left := by
  have start : leveled floor ceil given bays 0 = bays.map (shareOf floor ceil given fun _ => 0) := by
    simp [leveled, levelGain, shareOf]
  have enough : bays.countP (roomAbove floor ceil given 0) + 1 ≤ 33 :=
    Nat.succ_le_succ (List.countP_le_length.trans few)
  obtain ⟨level, k, left, ends, full⟩ := fillTier_leveled floor ceil given 33 bays 0 r (.inl enough)
  rw [giveOnes_leveled floor ceil given once] at ends
  generalize taken : (bays.filter (roomAbove floor ceil given level)).take k = ones at ends
  have room (b : Bay) (mem : b ∈ ones) : level < ceil b - floor b := by
    have := (List.mem_filter.1 (List.mem_of_mem_take (taken ▸ mem))).2
    simp only [roomAbove, Bool.and_eq_true, decide_eq_true_eq] at this
    exact this.2
  rw [start] at ends
  refine ⟨_, left, ends, ?_, ⟨level, fun b _ _ => ?_⟩, ?_, full.imp_right fun ⟨zero, still⟩ b mem has => ?_⟩
  · have total := fillTier_sum 33 (bays.map (shareOf floor ceil given fun _ => 0)) r
    rw [ends, targetSum_shareOf] at total
    dsimp only at total
    omega
  · unfold levelGain
    split
    · have := room b ‹_›
      omega
    · omega
  · rw [← taken]
    refine (pairwise_take_filter (roomAbove floor ceil given level) once k).imp fun {a b} later hasA hasB below => ?_
    rw [taken] at later below ⊢
    unfold levelGain at below ⊢
    by_cases one : a ∈ ones
    · have := room a one
      rw [if_pos one]
      split <;> omega
    · simp only [one, if_false] at below ⊢
      have above : roomAbove floor ceil given level a = true := by
        rw [roomAbove, hasA, decide_eq_true (by omega : level < ceil a - floor a), Bool.and_self]
      simp only [later above one, if_false]
      omega
  · subst zero
    obtain rfl : ones = [] := by rw [← taken, List.take_zero]
    have at_ := still b mem
    simp only [roomAbove, has, Bool.true_and, decide_eq_false_iff_not] at at_
    simp only [levelGain, List.not_mem_nil, if_false]
    omega

end Levels

end Sys2Proof.Machine
end

