-- ==== Sys2Proof/Proofs/PassDivision.lean ====
section
/-! PROOF. How a pass divides the budget (R54, R57 to R61): the order of the bays, the floors first fit over it, and the
fill of the four tiers one after another. -/

namespace Sys2Proof.Machine

/-! ### The order of a pass -/

/-- R55, R58: the place of a tier in a pass. -/
def tierRank : Tier → Nat
  | .lane => 0
  | .reserved => 1
  | .normal => 2
  | .topping => 3

/-- R58: how far a bay stands behind the rotation pointer. -/
def turnOf (rho b : Bay) : Nat := (b.val + 32 - rho.val) % 32

theorem allBays_eq : allBays = List.finRange 32 := by decide

/-- R58: the rotation order takes the bays from the pointer on and round. -/
theorem rotationOrder_sorted (rho : Bay) : (rotationOrder rho).Pairwise fun a b => turnOf rho a < turnOf rho b := by
  have sorted : allBays.Pairwise (· < ·) := by
    rw [allBays_eq]
    exact List.pairwise_lt_finRange 32
  have at_ (k : Nat) (lt : k < allBays.length) : (allBays[k]).val = k := by simp [allBays_eq]
  have front (b : Bay) (mem : b ∈ allBays.take rho.val) : b.val < rho.val := by
    obtain ⟨k, lt, rfl⟩ := List.getElem_of_mem mem
    rw [List.getElem_take, at_]
    exact (List.length_take_le _ _).trans_lt' lt
  have back (b : Bay) (mem : b ∈ allBays.drop rho.val) : rho.val ≤ b.val := by
    obtain ⟨k, lt, rfl⟩ := List.getElem_of_mem mem
    rw [List.getElem_drop, at_]
    exact Nat.le_add_right _ _
  have inRange (b : Bay) : b.val < 32 := b.isLt
  refine List.pairwise_append.2 ⟨?_, ?_, fun a memA b memB => ?_⟩
  · refine (sorted.sublist (List.drop_sublist _ _)).imp_of_mem fun {a b} memA memB lt => ?_
    have := back a memA
    have := back b memB
    have := inRange b
    have : a.val < b.val := lt
    unfold turnOf
    omega
  · refine (sorted.sublist (List.take_sublist _ _)).imp_of_mem fun {a b} memA memB lt => ?_
    have := front a memA
    have := front b memB
    have := inRange b
    have : a.val < b.val := lt
    unfold turnOf
    omega
  · have := back a memA
    have := front b memB
    have := inRange a
    unfold turnOf
    omega

/-- R54, R58: the eligible bays of a tier, in rotation order. -/
def tierBays (s : State) (t : Tier) : List Bay :=
  (rotationOrder s.alloc.rotation).filter fun b => (s.bay b).state.eligible ∧ (s.chg b).tier = t

/-- R58: the eligible bays in the order of a pass. -/
def passOrder (s : State) : List Bay :=
  tierBays s .lane ++ tierBays s .reserved ++ tierBays s .normal ++ tierBays s .topping

/-- R58: bay `a` is taken before bay `b`. -/
abbrev Sooner (s : State) (a b : Bay) : Prop :=
  tierRank (s.chg a).tier < tierRank (s.chg b).tier ∨
    (tierRank (s.chg a).tier = tierRank (s.chg b).tier ∧ turnOf s.alloc.rotation a < turnOf s.alloc.rotation b)

theorem Sooner.asymm {s : State} {a b : Bay} (h : Sooner s a b) : ¬ Sooner s b a := by
  unfold Sooner at h ⊢
  omega

theorem mem_tierBays {s : State} {t : Tier} {b : Bay} :
    b ∈ tierBays s t ↔ (s.bay b).state.eligible = true ∧ (s.chg b).tier = t := by
  simp [tierBays, mem_rotationOrder]

theorem tierBays_sorted (s : State) (t : Tier) : (tierBays s t).Pairwise (Sooner s) := by
  refine ((rotationOrder_sorted s.alloc.rotation).sublist List.filter_sublist).imp_of_mem fun {a b} memA memB lt => ?_
  have tierA := (mem_tierBays.1 memA).2
  have tierB := (mem_tierBays.1 memB).2
  exact .inr ⟨by rw [tierA, tierB], lt⟩

theorem tierBays_before {s : State} {t u : Tier} (lt : tierRank t < tierRank u) :
    ∀ a ∈ tierBays s t, ∀ b ∈ tierBays s u, Sooner s a b := by
  intro a memA b memB
  refine .inl ?_
  rwa [(mem_tierBays.1 memA).2, (mem_tierBays.1 memB).2]

/-- R58: the order of a pass is tier by tier, and in rotation in each tier. -/
theorem passOrder_sorted (s : State) : (passOrder s).Pairwise (Sooner s) := by
  have front : (tierBays s .lane ++ tierBays s .reserved).Pairwise (Sooner s) :=
    List.pairwise_append.2 ⟨tierBays_sorted s _, tierBays_sorted s _, tierBays_before (by decide)⟩
  have three : (tierBays s .lane ++ tierBays s .reserved ++ tierBays s .normal).Pairwise (Sooner s) := by
    refine List.pairwise_append.2 ⟨front, tierBays_sorted s _, fun a mem => ?_⟩
    rcases List.mem_append.1 mem with mem | mem
    · exact tierBays_before (by decide) a mem
    · exact tierBays_before (by decide) a mem
  refine List.pairwise_append.2 ⟨three, tierBays_sorted s _, fun a mem => ?_⟩
  rcases List.mem_append.1 mem with mem | mem
  · rcases List.mem_append.1 mem with mem | mem
    · exact tierBays_before (by decide) a mem
    · exact tierBays_before (by decide) a mem
  · exact tierBays_before (by decide) a mem

theorem passOrder_nodup (s : State) : (passOrder s).Nodup :=
  (passOrder_sorted s).imp fun {a b} h => by
    rintro rfl
    exact h.asymm h

theorem mem_passOrder {s : State} {b : Bay} : b ∈ passOrder s ↔ (s.bay b).state.eligible = true := by
  simp only [passOrder, List.mem_append, mem_tierBays]
  cases (s.chg b).tier <;> simp

/-- The bays before a bay in the order of a pass are those taken sooner. -/
theorem mem_before_iff {s : State} {before after : List Bay} {a b : Bay} (split : passOrder s = before ++ b :: after) :
    a ∈ before ↔ a ∈ passOrder s ∧ Sooner s a b := by
  have sorted := passOrder_sorted s
  rw [split] at sorted ⊢
  obtain ⟨_, tail, across⟩ := List.pairwise_append.1 sorted
  have later := (List.pairwise_cons.1 tail).1
  refine ⟨fun mem => ⟨List.mem_append_left _ mem, across a mem b List.mem_cons_self⟩, fun ⟨mem, sooner⟩ => ?_⟩
  rcases List.mem_append.1 mem with mem | mem
  · exact mem
  · rcases List.mem_cons.1 mem with rfl | mem
    · exact absurd sooner sooner.asymm
    · exact absurd sooner (later a mem).asymm

/-- The bays of the eligible set, in ascending number and in the order of a pass. -/
theorem eligible_perm (s : State) : (allBays.filter fun b => (s.bay b).state.eligible).Perm (passOrder s) :=
  (List.perm_ext_iff_of_nodup (allBays_nodup.filter _) (passOrder_nodup s)).2 fun b => by
    rw [mem_passOrder, List.mem_filter]
    simp [mem_allBays]

/-! ### The division -/

/-- R57: the effective floor and the effective ceiling of a bay. -/
def floorOf (s : State) (b : Bay) : Nat := effFloor s.alloc.settings.provFloor (s.chg b) (s.profile b)
def ceilOf (s : State) (b : Bay) : Nat := effCeiling (s.chg b) (s.profile b)

/-- R59: the bay has its floor. -/
def passGiven (s : State) (b : Bay) : Bool := b ∈ firstFit (floorOf s) (passOrder s) s.budget.computed

theorem floorOf_le (s : State) (b : Bay) : floorOf s b ≤ ceilOf s b := by
  unfold floorOf ceilOf effFloor
  split
  · exact le_rfl
  · exact min_le_right _ _
  · exact min_le_right _ _

theorem tierShares_eq (s : State) (t : Tier) :
    tierShares s t = (tierBays s t).map (freshShare (floorOf s) (ceilOf s)) := by
  unfold tierShares tierBays
  induction rotationOrder s.alloc.rotation with
  | nil => rfl
  | cons b bs ih =>
    rw [List.filterMap_cons, List.filter_cons]
    by_cases own : (s.bay b).state.eligible = true ∧ (s.chg b).tier = t
    · simp only [own, and_self, if_true, decide_true, ih]
      rfl
    · simp only [own, if_false, decide_false, Bool.false_eq_true, ih]

theorem TierFilled.congr {floor ceil : Bay → Nat} {given : Bay → Bool} {bays : List Bay} {gain gain' : Bay → Nat}
    {r left : Nat} (h : TierFilled floor ceil given bays gain r left) (same : ∀ b ∈ bays, gain' b = gain b) :
    TierFilled floor ceil given bays gain' r left where
  sum := by
    rw [← h.sum]
    exact congrArg (fun l => List.sum l + left) (List.map_congr_left fun b mem => by rw [same b mem])
  level := by
    obtain ⟨level, at_⟩ := h.level
    exact ⟨level, fun b mem has => by rw [same b mem]; exact at_ b mem has⟩
  order := h.order.imp_of_mem fun {a b} memA memB later => by rwa [same a memA, same b memB]
  full := h.full.imp_right fun full b mem has => by rw [same b mem]; exact full b mem has

/-- R59 to R61: how a pass computed over the shares of a state divides its budget. -/
structure Divided (s : State) (gain : Bay → Nat) (rem : Nat → Nat) : Prop where
  shares : (computePass s).shares = (passOrder s).map (shareOf (floorOf s) (ceilOf s) (passGiven s) gain)
  remainder : (computePass s).remainder = rem 4
  start : rem 0 = floorsLeft (floorOf s) (passOrder s) s.budget.computed
  falls : Antitone rem
  tier : ∀ t, TierFilled (floorOf s) (ceilOf s) (passGiven s) (tierBays s t) gain (rem (tierRank t)) (rem (tierRank t + 1))

theorem tierBays_length (s : State) (t : Tier) : (tierBays s t).length ≤ 32 := by
  have all : (rotationOrder s.alloc.rotation).length = 32 := by
    simp only [rotationOrder, List.length_append, List.length_drop, List.length_take, allBays_eq, List.length_finRange]
    have := s.alloc.rotation.isLt
    omega
  exact (List.length_filter_le _ _).trans all.le

/-- The gain of a bay, from those of its tier. -/
def tierGain (lane reserved normal topping : Bay → Nat) (s : State) (b : Bay) : Nat :=
  match (s.chg b).tier with
  | .lane => lane b
  | .reserved => reserved b
  | .normal => normal b
  | .topping => topping b

/-- The power left before the fill of each tier, by its rank, and after the last. -/
def tierRem (r0 r1 r2 r3 r4 : Nat) : Nat → Nat
  | 0 => r0
  | 1 => r1
  | 2 => r2
  | 3 => r3
  | _ => r4

theorem computePass_divided (s : State) : ∃ gain rem, Divided s gain rem := by
  have once := passOrder_nodup s
  have stage (before bays after : List Bay) (split : passOrder s = before ++ bays ++ after) :
      floorStage (bays.map (freshShare (floorOf s) (ceilOf s))) (floorsLeft (floorOf s) before s.budget.computed) =
        (bays.map (shareOf (floorOf s) (ceilOf s) (passGiven s) fun _ => 0),
          floorsLeft (floorOf s) (before ++ bays) s.budget.computed) := by
    rw [floorStage_stretch (floorOf s) (ceilOf s) (after := after) (split ▸ once), ← split]
    rfl
  have fill (t : Tier) (r : Nat) := fillTier_filled (floorOf s) (ceilOf s) (passGiven s)
    ((tierBays_sorted s t).imp fun {a b} h => by rintro rfl; exact h.asymm h) (tierBays_length s t) r
  have first := stage [] (tierBays s .lane) (tierBays s .reserved ++ tierBays s .normal ++ tierBays s .topping)
    (by simp only [passOrder, List.append_assoc, List.nil_append])
  have second := stage (tierBays s .lane) (tierBays s .reserved) (tierBays s .normal ++ tierBays s .topping)
    (by simp only [passOrder, List.append_assoc])
  have third := stage _ (tierBays s .normal) _ rfl
  have fourth := stage _ (tierBays s .topping) [] (List.append_nil _).symm
  rw [List.nil_append, show floorsLeft (floorOf s) [] s.budget.computed = s.budget.computed from rfl] at first
  obtain ⟨g0, r1, fill0, tier0⟩ := fill .lane (floorsLeft (floorOf s) (passOrder s) s.budget.computed)
  obtain ⟨g1, r2, fill1, tier1⟩ := fill .reserved r1
  obtain ⟨g2, r3, fill2, tier2⟩ := fill .normal r2
  obtain ⟨g3, r4, fill3, tier3⟩ := fill .topping r3
  have order : tierBays s .lane ++ tierBays s .reserved ++ tierBays s .normal ++ tierBays s .topping = passOrder s := rfl
  rw [order] at fourth
  have own (t : Tier) (g : Bay → Nat) (same : ∀ b, (s.chg b).tier = t → tierGain g0 g1 g2 g3 s b = g b) :
      ∀ b ∈ tierBays s t, tierGain g0 g1 g2 g3 s b = g b := fun b mem => same b (mem_tierBays.1 mem).2
  have own0 := own .lane g0 fun b tier => by rw [tierGain, tier]
  have own1 := own .reserved g1 fun b tier => by rw [tierGain, tier]
  have own2 := own .normal g2 fun b tier => by rw [tierGain, tier]
  have own3 := own .topping g3 fun b tier => by rw [tierGain, tier]
  refine ⟨tierGain g0 g1 g2 g3 s, tierRem (floorsLeft (floorOf s) (passOrder s) s.budget.computed) r1 r2 r3 r4, ?_, ?_,
    rfl, ?_, fun t => ?_⟩
  · have shares (t : Tier) (g : Bay → Nat) (same : ∀ b ∈ tierBays s t, tierGain g0 g1 g2 g3 s b = g b) :
        (tierBays s t).map (shareOf (floorOf s) (ceilOf s) (passGiven s) (tierGain g0 g1 g2 g3 s)) =
          (tierBays s t).map (shareOf (floorOf s) (ceilOf s) (passGiven s) g) :=
      List.map_congr_left fun b mem => by simp only [shareOf, same b mem]
    simp only [computePass, divide, tierShares_eq, first, second, third, fourth, fill0, fill1, fill2, fill3]
    simp only [passOrder, List.map_append, shares _ _ own0, shares _ _ own1, shares _ _ own2, shares _ _ own3]
  · simp only [computePass, divide, tierShares_eq, first, second, third, fourth, fill0, fill1, fill2, fill3, tierRem]
  · have sums := And.intro tier0.sum (And.intro tier1.sum (And.intro tier2.sum tier3.sum))
    refine antitone_nat_of_succ_le fun n => ?_
    match n with
    | 0 => simp only [tierRem]; omega
    | 1 => simp only [tierRem]; omega
    | 2 => simp only [tierRem]; omega
    | 3 => simp only [tierRem]; omega
    | n + 4 => exact le_rfl
  · cases t
    · exact tier0.congr own0
    · exact tier1.congr own1
    · exact tier2.congr own2
    · exact tier3.congr own3

/-! ### The budget is shared out whole -/

theorem floorStage_sum (xs : List Share) (r : Nat) : targetSum (floorStage xs r).1 + (floorStage xs r).2 = r := by
  induction xs generalizing r with
  | nil => simp [floorStage, targetSum]
  | cons x xs ih =>
    unfold floorStage
    split
    · have rest := ih (r - x.floor)
      simp only [targetSum, List.map_cons, List.sum_cons] at rest ⊢
      omega
    · have rest := ih r
      simp only [targetSum, List.map_cons, List.sum_cons] at rest ⊢
      omega

theorem targetSum_append (xs ys : List Share) : targetSum (xs ++ ys) = targetSum xs + targetSum ys := by
  simp [targetSum]

/-- R59 to R61: the targets and the remainder add up to the budget divided. -/
theorem divide_sum (lane reserved normal topping : List Share) (b : Nat) :
    targetSum (divide lane reserved normal topping b).shares + (divide lane reserved normal topping b).remainder = b := by
  simp only [divide, targetSum_append]
  have floors0 := floorStage_sum lane b
  generalize floorStage lane b = f0 at floors0 ⊢
  have floors1 := floorStage_sum reserved f0.2
  generalize floorStage reserved f0.2 = f1 at floors1 ⊢
  have floors2 := floorStage_sum normal f1.2
  generalize floorStage normal f1.2 = f2 at floors2 ⊢
  have floors3 := floorStage_sum topping f2.2
  generalize floorStage topping f2.2 = f3 at floors3 ⊢
  have fill0 := fillTier_sum 33 f0.1 f3.2
  generalize fillTier 33 f0.1 f3.2 = g0 at fill0 ⊢
  have fill1 := fillTier_sum 33 f1.1 g0.2
  generalize fillTier 33 f1.1 g0.2 = g1 at fill1 ⊢
  have fill2 := fillTier_sum 33 f2.1 g1.2
  generalize fillTier 33 f2.1 g1.2 = g2 at fill2 ⊢
  have fill3 := fillTier_sum 33 f3.1 g2.2
  generalize fillTier 33 f3.1 g2.2 = g3 at fill3 ⊢
  omega

/-! ### The target of each bay -/

theorem targetIn_map (f : Bay → Share) (keys : ∀ b, (f b).bay = b) {bays : List Bay} {b : Bay} (mem : b ∈ bays) :
    targetIn (bays.map f) b = some (f b).target := by
  induction bays with
  | nil => cases mem
  | cons c bs ih =>
    by_cases at_ : c = b
    · subst at_
      simp [targetIn, keys]
    · have rest := ih ((List.mem_cons.1 mem).resolve_left fun e => at_ e.symm)
      simpa [targetIn, keys, at_] using rest

/-- R59, R60: the target of an eligible bay: its floor and its gain, or 0. -/
def passTarget (s : State) (gain : Bay → Nat) (b : Bay) : Nat := if passGiven s b then floorOf s b + gain b else 0

section Division
variable {s : State} {gain : Bay → Nat} {rem : Nat → Nat} (h : Divided s gain rem)
include h

theorem Divided.target {b : Bay} (elig : (s.bay b).state.eligible = true) :
    targetIn (computePass s).shares b = some (passTarget s gain b) := by
  rw [h.shares]
  exact targetIn_map _ (fun _ => rfl) (mem_passOrder.2 elig)

theorem Divided.sum : ((allBays.filter fun b => (s.bay b).state.eligible).map (passTarget s gain)).sum +
    (computePass s).remainder = s.budget.computed := by
  have shared := divide_sum (tierShares s .lane) (tierShares s .reserved) (tierShares s .normal) (tierShares s .topping)
    s.budget.computed
  have targets : targetSum (computePass s).shares = ((passOrder s).map (passTarget s gain)).sum := by
    rw [h.shares, targetSum, List.map_map]
    rfl
  rw [((eligible_perm s).map _).sum_eq, ← targets]
  exact shared

variable {b : Bay} (elig : (s.bay b).state.eligible = true)
include elig

theorem Divided.gain_le (has : passGiven s b = true) : gain b ≤ ceilOf s b - floorOf s b := by
  obtain ⟨level, at_⟩ := (h.tier (s.chg b).tier).level
  exact (at_ b (mem_tierBays.2 ⟨elig, rfl⟩) has).1

theorem Divided.target_le : passTarget s gain b ≤ ceilOf s b := by
  have floor := floorOf_le s b
  unfold passTarget
  split
  · have := h.gain_le elig ‹_›
    omega
  · exact Nat.zero_le _

omit h in
/-- R59: a bay has its floor just when that and the floors given sooner fit in the budget. -/
theorem passGiven_iff : passGiven s b = true ↔ floorOf s b + (((allBays.filter fun b => (s.bay b).state.eligible).filter
    fun a => passGiven s a = true ∧ Sooner s a b).map (floorOf s)).sum ≤ s.budget.computed := by
  obtain ⟨before, after, split⟩ := List.append_of_mem (mem_passOrder.2 elig)
  have once := passOrder_nodup s
  have fits := mem_firstFit_iff (floorOf s) (r := s.budget.computed) (split ▸ once)
  have early (a : Bay) := mem_firstFit_before (floorOf s) (r := s.budget.computed) (a := a) (split ▸ once)
  rw [← split] at fits
  simp only [← split, mem_before_iff split] at early
  have sooner : ((allBays.filter fun b => (s.bay b).state.eligible).filter fun a => passGiven s a = true ∧ Sooner s a b).Perm
      (firstFit (floorOf s) before s.budget.computed) := by
    have first : before.Nodup := (List.nodup_append.1 (split ▸ once)).1
    refine (List.perm_ext_iff_of_nodup ((allBays_nodup.filter _).filter _)
      ((firstFit_sublist _ _ _).nodup first)).2 fun a => ?_
    simp only [early, List.mem_filter, mem_allBays, true_and, decide_eq_true_eq, mem_passOrder, passGiven]
    exact ⟨fun ⟨elig, has, sooner⟩ => ⟨⟨elig, sooner⟩, has⟩, fun ⟨⟨elig, sooner⟩, has⟩ => ⟨elig, has, sooner⟩⟩
  have le := firstFit_sum_le (floorOf s) before s.budget.computed
  rw [(sooner.map _).sum_eq, passGiven, decide_eq_true_eq, fits, floorsLeft]
  omega

omit h in
/-- R59: a bay without its floor stands before less power than that. -/
theorem passGiven_left (has : passGiven s b = false) :
    floorsLeft (floorOf s) (passOrder s) s.budget.computed < floorOf s b := by
  obtain ⟨before, after, split⟩ := List.append_of_mem (mem_passOrder.2 elig)
  have fits := mem_firstFit_iff (floorOf s) (r := s.budget.computed) (split ▸ passOrder_nodup s)
  rw [← split] at fits
  have short : floorsLeft (floorOf s) before s.budget.computed < floorOf s b :=
    Nat.lt_of_not_le fun le => of_decide_eq_false has (fits.2 le)
  rw [split, floorsLeft_append]
  exact (floorsLeft_le _ _ _).trans_lt short

/-- R61: power is left over only when every eligible bay has its ceiling or could not have its floor. -/
theorem Divided.left_over (left : 0 < (computePass s).remainder) : passTarget s gain b = ceilOf s b ∨
    (passTarget s gain b = 0 ∧ (computePass s).remainder < floorOf s b) := by
  have floor := floorOf_le s b
  rw [h.remainder] at left ⊢
  cases has : passGiven s b with
  | false =>
    have short := passGiven_left elig has
    have le := h.falls (Nat.zero_le 4)
    rw [h.start] at le
    exact .inr ⟨by simp [passTarget, has], le.trans_lt short⟩
  | true =>
    have last : tierRank (s.chg b).tier + 1 ≤ 4 := by cases (s.chg b).tier <;> decide
    have le := h.falls last
    have full := (h.tier (s.chg b).tier).full.resolve_left (by omega) b (mem_tierBays.2 ⟨elig, rfl⟩) has
    refine .inl ?_
    rw [passTarget, if_pos has, full]
    omega

/-- R60: a bay below its ceiling takes what a bay served later would gain. -/
theorem Divided.served {a : Bay} (eligA : (s.bay a).state.eligible = true) (hasA : passGiven s a = true)
    (hasB : passGiven s b = true) (sooner : Sooner s a b) (below : passTarget s gain a < ceilOf s a) :
    (tierRank (s.chg a).tier = tierRank (s.chg b).tier → gain b ≤ gain a) ∧
      (tierRank (s.chg a).tier ≠ tierRank (s.chg b).tier → gain b = 0) := by
  have room : gain a < ceilOf s a - floorOf s a := by
    rw [passTarget, if_pos hasA] at below
    omega
  have memA : a ∈ tierBays s (s.chg a).tier := mem_tierBays.2 ⟨eligA, rfl⟩
  have memB : b ∈ tierBays s (s.chg b).tier := mem_tierBays.2 ⟨elig, rfl⟩
  refine ⟨fun same => ?_, fun other => ?_⟩
  · have tier : (s.chg a).tier = (s.chg b).tier := by
      revert same
      cases (s.chg a).tier <;> cases (s.chg b).tier <;> decide
    rw [tier] at memA
    obtain ⟨l, r, split⟩ := List.append_of_mem memB
    have order := (h.tier (s.chg b).tier).order
    have sorted := tierBays_sorted s (s.chg b).tier
    rw [split] at order sorted memA
    have early : a ∈ l := by
      rcases List.mem_append.1 memA with mem | mem
      · exact mem
      · rcases List.mem_cons.1 mem with rfl | mem
        · exact absurd sooner sooner.asymm
        · have later := (List.pairwise_cons.1 (List.pairwise_append.1 sorted).2.1).1 a mem
          exact absurd sooner later.asymm
    exact (List.pairwise_append.1 order).2.2 a early b List.mem_cons_self hasA hasB room
  · have earlier : tierRank (s.chg a).tier + 1 ≤ tierRank (s.chg b).tier := by
      rcases sooner with lt | ⟨same, _⟩
      · exact lt
      · exact absurd same other
    have spent : rem (tierRank (s.chg a).tier + 1) = 0 :=
      (h.tier (s.chg a).tier).full.resolve_right fun full => by
        have := full a memA hasA
        omega
    have before : rem (tierRank (s.chg b).tier) = 0 := Nat.le_zero.1 (spent ▸ h.falls earlier)
    have sum := (h.tier (s.chg b).tier).sum
    rw [before] at sum
    have none_ := List.sum_eq_zero_iff.1 (Nat.add_eq_zero_iff.1 sum).1 _ (List.mem_map.2 ⟨b, memB, rfl⟩)
    rwa [if_pos hasB] at none_

end Division

end Sys2Proof.Machine
end

