-- ==== Sys2Proof/Proofs/PassResult.lean ====
section
/-! PROOF. What a pass makes of its division: the targets, the remainder, the rotation pointer and the BUDGET notice
(R45, R51, R61). -/

namespace Sys2Proof.Machine

/-! ### Up to the targets -/

/-- Work that leaves the Budget Unit, the link and the rotation pointer. -/
structure Unmarked (s t : State) : Prop where
  budget : t.budget = s.budget
  link : t.link = s.link
  rotation : t.alloc.rotation = s.alloc.rotation

theorem Unmarked.refl (s : State) : Unmarked s s := ⟨rfl, rfl, rfl⟩

theorem Unmarked.trans {s t u : State} (h : Unmarked s t) (h' : Unmarked t u) : Unmarked s u :=
  ⟨h'.budget.trans h.budget, h'.link.trans h.link, h'.rotation.trans h.rotation⟩

theorem setChg_unmarked (s : State) (b : Bay) (r : ChargeRec) : Unmarked s (s.setChg b r) := ⟨rfl, rfl, rfl⟩

theorem supersede_unmarked (s : State) : Unmarked s (supersede s) := by
  have timer : Unmarked s { s with alloc := { s.alloc with settleTimer := none } } := ⟨rfl, rfl, rfl⟩
  exact timer.trans (eachBay_rel .refl .trans (fun b s => setChg_unmarked s b _) _)

theorem storeTargets_unmarked (xs : List Share) (s : State) : Unmarked s (storeTargets xs s) := by
  refine eachBay_rel .refl .trans (fun b s => ?_) s
  split
  · exact setChg_unmarked s b _
  · exact .refl s

/-- R67: what a pass drops of the one before it is nothing that its division reads. -/
theorem computePass_supersede (s : State) : computePass (supersede s) = computePass s := by
  obtain ⟨view, recs⟩ := supersede_records s
  obtain ⟨budget, _, rotation⟩ := supersede_unmarked s
  generalize supersede s = u at view recs budget rotation ⊢
  have bay (b : Bay) : u.bay b = s.bay b := congrArg Prod.fst (recs b)
  have chg (b : Bay) : u.chg b = { s.chg b with pendingInc := none } := congrArg Prod.snd (recs b)
  simp only [passView, Prod.mk.injEq] at view
  obtain ⟨_, profiles, settings, _⟩ := view
  have profile (b : Bay) : u.profile b = s.profile b := by simp only [State.profile, profiles, chg]
  have floor (b : Bay) : floorOf u b = floorOf s b := by simp only [floorOf, settings, chg, profile, effFloor, effCeiling]
  have ceiling (b : Bay) : ceilOf u b = ceilOf s b := by simp only [ceilOf, chg, profile, effCeiling]
  have shares (t : Tier) : tierShares u t = tierShares s t := by
    simp only [tierShares_eq, tierBays, rotation, bay, chg, funext floor, funext ceiling]
  simp only [computePass, shares, budget]

/-- R51: the target of an eligible bay after a pass is the one divided. -/
theorem runPass_target {s : State} {b : Bay} {t : Nat} (at_ : targetIn (computePass s).shares b = some t) :
    ((runPass s).chg b).target = t := by
  rw [← computePass_supersede] at at_
  have taken := (runPass_records s).2 b t at_
  generalize runPass s = u at taken ⊢
  have chg : (u.chg b) = (passRecords s.time.ms s.alloc.profiles (passLowers s) t (s.bay b, s.chg b)).2 :=
    congrArg Prod.snd taken
  have staged (x : Records) : (increaseRecorded x).2.target = x.2.target := by
    unfold increaseRecorded
    split <;> rfl
  have applied (x : Records) : (increaseApplied s.alloc.profiles x).2.target = x.2.target := by
    unfold increaseApplied
    split <;> rfl
  have kept (x : Records) : (targetTaken s.time.ms s.alloc.profiles t x).2.target = x.2.target := by
    unfold targetTaken
    split
    · rfl
    split
    · rfl
    split <;> rfl
  rw [chg, passRecords]
  dsimp only
  split
  · rw [staged, kept]
  · rw [applied, staged, kept]

/-! ### From the BUDGET notice on -/

/-- Work that leaves the rotation pointer and the remainder, and queues no BUDGET notice. -/
structure ResultKept (s t : State) : Prop where
  rotation : t.alloc.rotation = s.alloc.rotation
  remainder : t.alloc.remainder = s.alloc.remainder
  queues : ∃ ns, t.link = s.link.queueAll ns ∧ ∀ n ∈ ns, n.kind ≠ .budget

theorem ResultKept.refl (s : State) : ResultKept s s := ⟨rfl, rfl, [], rfl, by simp⟩

theorem ResultKept.trans {s t u : State} (h : ResultKept s t) (h' : ResultKept t u) : ResultKept s u := by
  refine ⟨h'.rotation.trans h.rotation, h'.remainder.trans h.remainder, ?_⟩
  obtain ⟨ns, link, kinds⟩ := h.queues
  obtain ⟨ms, link', kinds'⟩ := h'.queues
  refine ⟨ns ++ ms, by rw [link', link, queueAll_queueAll], fun n mem => ?_⟩
  exact (List.mem_append.1 mem).elim (kinds n) (kinds' n)

/-- Work on other fields than the pointer and the remainder that queues nothing. -/
theorem ResultKept.of_link {s t : State} (rotation : t.alloc.rotation = s.alloc.rotation)
    (remainder : t.alloc.remainder = s.alloc.remainder) (link : t.link = s.link) : ResultKept s t :=
  ⟨rotation, remainder, [], link, by simp⟩

theorem ResultKept.when_ {p : Prop} [Decidable p] {s t : State} (h : ResultKept s t) :
    ResultKept s (if p then t else s) := by
  split
  · exact h
  · exact .refl s

theorem eachBay_resultKept {f : Bay → State → State} (h : ∀ b s, ResultKept s (f b s)) (s : State) :
    ResultKept s (eachBay f s) := eachBay_rel .refl .trans h s

theorem note_resultKept {k : NoticeKind} (other : k ≠ .budget) (b d1 d2 d3 d4 : Byte) (s : State) :
    ResultKept s (note k b d1 d2 d3 d4 s) :=
  ⟨rfl, rfl, [⟨k, b, s.time.minute, d1, d2, d3, d4⟩], rfl, by simpa using other⟩

theorem assignLanes_link (ls : List Lane) (s : State) : (assignLanes ls s).link = s.link := by
  induction ls generalizing s with
  | nil => rfl
  | cons l ls ih =>
    unfold assignLanes
    split
    · split
      · rfl
      · exact ih _
    · exact ih s

theorem assignmentRun_resultKept (s : State) : ResultKept s (assignmentRun s) := by
  have alloc := (assignmentRun_touch s).alloc
  exact .of_link (by rw [alloc]) (by rw [alloc]) (assignLanes_link _ s)

theorem releaseNotices_resultKept (l : Lane) (c : ReleaseCause) (e : Entry) (s : State) :
    ResultKept s (releaseNotices l c e s) := by
  have first : ResultKept s
      (match c.reason with
      | some r => provNote .provAborted (bayNumber e.bay) r (laneNumber l) e.jobTag s
      | none => s) := by
    split
    · exact note_resultKept (by decide) _ _ _ _ _ s
    · exact .refl s
  have second (s : State) : ResultKept s
      (match c.finished (exhausts c e) with
      | some r => provNote .provFinished (bayNumber e.bay) r (laneNumber l) e.jobTag s
      | none => s) := by
    split
    · exact note_resultKept (by decide) _ _ _ _ _ s
    · exact .refl s
  exact (first.trans (second _)).trans (note_resultKept (by decide) _ _ _ _ _ _).when_

theorem letGo_resultKept (l : Lane) (c : ReleaseCause) (e : Entry) (s : State) : ResultKept s (letGo l c e s) := by
  simp only [letGo]
  split
  · exact .of_link rfl rfl rfl
  · exact .of_link rfl rfl rfl

theorem release_resultKept (l : Lane) (c : ReleaseCause) (s : State) : ResultKept s (release l c s) := by
  unfold release
  split
  · exact .refl s
  · exact ((letGo_resultKept _ _ _ _).trans (releaseNotices_resultKept _ _ _ _)).trans (assignmentRun_resultKept _)

theorem removeQueued_resultKept (b : Bay) (r : Byte) (s : State) : ResultKept s (removeQueued b r s) := by
  unfold removeQueued
  split
  · exact .refl s
  · refine ResultKept.trans (t := s.setQueue (dropEntry b s.prov.queue)) ?_ (note_resultKept (by decide) _ _ _ _ _ _)
    exact .of_link rfl rfl rfl

theorem schedChange_resultKept (b : Bay) (o n : BayState) (s : State) : ResultKept s (schedChange b o n s) := by
  unfold schedChange
  refine ResultKept.trans (ResultKept.when_ ?_) (removeQueued_resultKept b 3 _).when_
  split
  · exact release_resultKept _ _ _
  · exact (removeQueued_resultKept b 1 s).when_

theorem powerTest_resultKept (l : Lane) (s : State) : ResultKept s (powerTest l s) := by
  unfold powerTest
  split
  · exact .refl s
  · exact (release_resultKept l .power s).when_

theorem schedPassResult_resultKept (before : Bay → Bool) (s : State) : ResultKept s (schedPassResult before s) := by
  have counted : ResultKept s (countHolds before s) := .of_link rfl rfl rfl
  exact (counted.trans (eachLane_rel .refl .trans powerTest_resultKept _)).trans (assignmentRun_resultKept _)

theorem applyTarget_resultKept (b : Bay) (t : Nat) (s : State) : ResultKept s (applyTarget b t s) := by
  unfold applyTarget
  dsimp only
  split
  · exact .of_link rfl rfl rfl
  split
  · refine ResultKept.trans ?_ (schedChange_resultKept b .charging .waiting _)
    exact .of_link rfl rfl rfl
  split
  · exact .of_link rfl rfl rfl
  · exact .refl s

theorem applyTargets_resultKept (xs : List Share) (s : State) : ResultKept s (applyTargets xs s) := by
  refine eachBay_resultKept (fun b s => ?_) s
  split
  · exact applyTarget_resultKept b _ s
  · exact .refl s

theorem applyIncreases_resultKept (s : State) : ResultKept s (applyIncreases s) := by
  refine eachBay_resultKept (fun b s => ?_) s
  unfold applyIncrease
  split
  · exact .refl s
  · dsimp only
    split
    · exact .of_link rfl rfl rfl
    · exact .of_link rfl rfl rfl

theorem recordIncrease_resultKept (b : Bay) (s : State) : ResultKept s (recordIncrease b s) := by
  refine ResultKept.when_ ?_
  exact .of_link rfl rfl rfl

theorem setTimer_resultKept (s : State) (t : Timer) :
    ResultKept s { s with alloc := { s.alloc with settleTimer := t } } := .of_link rfl rfl rfl

theorem stageIncreases_resultKept (lowered : Bool) (s : State) : ResultKept s (stageIncreases lowered s) := by
  unfold stageIncreases
  refine (eachBay_resultKept recordIncrease_resultKept s).trans ?_
  split
  · exact setTimer_resultKept _ _
  · exact applyIncreases_resultKept _

/-- R45: the BUDGET notice of a pass, for a budget that differs from the one of the last pass. -/
def budgetNotices (s : State) : List Notice :=
  if s.budget.lastPass = some s.budget.computed then []
  else [⟨.budget, 0, s.time.minute, hiByte (word s.budget.computed), loByte (word s.budget.computed),
    hiByte (word (s.budget.lastPass.getD 0)), loByte (word (s.budget.lastPass.getD 0))⟩]

theorem markBudget_unit (s : State) : (markBudget s).alloc = s.alloc ∧
    (markBudget s).link = s.link.queueAll (budgetNotices s) := by
  unfold markBudget budgetNotices
  dsimp only
  split
  · exact ⟨rfl, rfl⟩
  · exact ⟨rfl, rfl⟩

/-- R45, R61: the rotation pointer, the remainder and the notices of a pass. -/
theorem runPass_result (s : State) :
    (runPass s).alloc.rotation = s.alloc.rotation + 1 ∧ (runPass s).alloc.remainder = (computePass s).remainder ∧
      ∃ ns, (runPass s).link = s.link.queueAll (budgetNotices s ++ ns) ∧ ∀ n ∈ ns, n.kind ≠ .budget := by
  have start := (supersede_unmarked s).trans (storeTargets_unmarked (computePass s).shares _)
  have time := ((supersede_pass s).trans (storeTargets_pass (computePass s).shares _)).time
  rw [runPass_eq, computePass_supersede]
  generalize storeTargets (computePass s).shares (supersede s) = t at start time ⊢
  obtain ⟨alloc, link⟩ := markBudget_unit t
  have notices : budgetNotices t = budgetNotices s := by simp only [budgetNotices, start.budget, time]
  obtain ⟨rotation, remainder, ns, queued, kinds⟩ :=
    ((applyTargets_resultKept (computePass s).shares (markRemainder (computePass s).remainder (markBudget t))).trans
      (stageIncreases_resultKept (allBays.any (isLowered (supersede s) (computePass s).shares)) _)).trans
      (schedPassResult_resultKept (holding (supersede s).prov.queue) _)
  refine ⟨?_, remainder, ns, ?_, kinds⟩
  · rw [rotation, markRemainder, alloc, start.rotation]
  · rw [queued, show (markRemainder (computePass s).remainder (markBudget t)).link = (markBudget t).link from rfl, link,
      notices, start.link, queueAll_queueAll]

/-! ### The lanes -/

/-- R158, R164: a pass ends in an assignment run. -/
theorem runPass_served {s : State} (slot : SlotLaw s) : LanesServed (runPass s) := by
  rw [runPass_eq]
  refine assignmentRun_served (SlotKept.kept ?_ slot)
  refine SlotKept.trans ?_ (eachLane_rel .refl .trans powerTest_work _).slotKept
  refine SlotKept.trans ?_ (countHolds_work _ _).slotKept
  refine SlotKept.trans ?_ (stageIncreases_slotKept _ _)
  refine SlotKept.trans ?_ (applyTargets_slotKept _ _)
  refine SlotKept.trans ?_ (markRemainder_slotKept _ _)
  refine SlotKept.trans ?_ (markBudget_slotKept _)
  exact (supersede_slotKept s).trans (storeTargets_slotKept _ _)

/-! ### The end of an event -/

/-- Work that asks for a pass unless it changes nothing. -/
def AsksOrKeeps (s t : State) : Prop := t.alloc.passAsked = true ∨ t = s

theorem AsksOrKeeps.trans {s t u : State} (h : AsksOrKeeps s t) (h' : AsksOrKeeps t u) : AsksOrKeeps s u := by
  rcases h' with asked | rfl
  · exact .inl asked
  · exact h

/-- R56: a recomputation of a tier that changes it asks for a pass. -/
theorem retier_asksOrKeeps (b : Bay) (s : State) : AsksOrKeeps s (retier b s) := by
  unfold retier
  split
  · exact .inl rfl
  · exact .inr rfl

theorem retierAll_asksOrKeeps (s : State) : AsksOrKeeps s (retierAll s) :=
  eachBay_rel (fun _ => .inr rfl) .trans retier_asksOrKeeps s

/-- R52, R56: a pass asked for, or a tier that its conditions change, brings a pass. -/
theorem retierAll_asked {s : State} (h : s.alloc.passAsked = true ∨
    ∃ b, (s.bay b).state.eligible = true ∧ (s.chg b).tier ≠ s.tierOf b) : (retierAll s).alloc.passAsked = true := by
  rcases h with asked | ⟨b, elig, other⟩
  · exact (retierAll_leaves s).1 asked
  · refine (retierAll_asksOrKeeps s).resolve_right fun same => ?_
    have law := retierAll_tierLaw s
    rw [same] at law
    exact other ((tierLaw_iff s).1 law b elig)

theorem finish_asked_eq {s : State} (asked : (retierAll s).alloc.passAsked = true) :
    finish s = settle 39 (runAsked (retierAll s)) := by
  rw [finish, show Config.passesPerEvent = 39 + 1 from rfl, settle_succ, if_pos asked]

theorem runAsked_served {s : State} (asked : s.alloc.passAsked = true) (est : s.budget.established = true)
    (slot : SlotLaw s) : LanesServed (runAsked s) := by
  have unasked : SlotLaw { s with alloc := { s.alloc with passAsked := false } } := slot
  have served := (settleIfDue_servedWork _).served ((runPass_servedWork _).slot unasked) (runPass_served unasked)
  simpa [runAsked, asked, est] using served

/-- R45, R158: what the passes of an event leave, when one is asked for. -/
theorem finish_ran {s : State} (est : s.budget.established = true) (asked : (retierAll s).alloc.passAsked = true) :
    (finish s).budget.lastPass = some s.budget.computed ∧ (SlotLaw s → LanesServed (finish s)) := by
  have retier := (retierAll_passWork s).pass
  have est' := retier.established.trans est
  rw [finish_asked_eq asked]
  refine ⟨?_, fun slot => ?_⟩
  · have rest := (settle_passWork 39 (runAsked (retierAll s))).lastPass
    rw [(runAsked_passWork _).pass.computed, runAsked_last asked est', retier.computed, or_self] at rest
    exact rest
  · have slot' := (retierAll_servedWork s).slot slot
    exact (settle_servedWork 39 _).served ((runAsked_servedWork _).slot slot') (runAsked_served asked est' slot')

/-! ### The obligation -/

theorem ceilOf_eq (s : State) (b : Bay) : ceilOf s b =
    if (s.chg b).phase = .full then min (s.profile b).maintenance (s.profile b).ceiling else (s.chg b).dynCeiling := by
  unfold ceilOf effCeiling
  cases (s.chg b).phase <;> rfl

theorem floorOf_eq (s : State) (b : Bay) : floorOf s b =
    if (s.chg b).phase = .full then ceilOf s b
    else if (s.chg b).tier = .lane then min (max (s.profile b).floor s.alloc.settings.provFloor) (ceilOf s b)
    else min (s.profile b).floor (ceilOf s b) := by
  unfold floorOf ceilOf effFloor
  cases (s.chg b).phase
  case full => rfl
  all_goals by_cases lane : (s.chg b).tier = .lane <;> simp [lane]

/-- R60: the gain that the bays of each tier have in common, by the rank of the tier. -/
theorem Divided.levels {s : State} {gain : Bay → Nat} {rem : Nat → Nat} (h : Divided s gain rem) :
    ∃ level : Nat → Nat, ∀ b, (s.bay b).state.eligible = true → passGiven s b = true →
      gain b = min (ceilOf s b - floorOf s b) (level (tierRank (s.chg b).tier)) ∨
        gain b = level (tierRank (s.chg b).tier) + 1 := by
  have each (t : Tier) : ∃ level, ∀ b ∈ tierBays s t, passGiven s b = true →
      gain b = min (ceilOf s b - floorOf s b) level ∨ gain b = level + 1 := by
    obtain ⟨level, at_⟩ := (h.tier t).level
    exact ⟨level, fun b mem has => (at_ b mem has).2⟩
  choose level at_ using each
  refine ⟨fun n => if n = 0 then level .lane else if n = 1 then level .reserved else if n = 2 then level .normal
    else level .topping, fun b elig has => ?_⟩
  have own := at_ (s.chg b).tier b (mem_tierBays.2 ⟨elig, rfl⟩) has
  cases tier : (s.chg b).tier <;> rw [tier] at own <;> exact own

/-- Settles O32: a pass acts on its division, and the end of an event runs the pass that its tiers ask for. -/
theorem passDividesTheBudget : Obligations.PassDividesTheBudget := by
  refine ⟨fun s => ?_, fun s => ⟨fun est asked => finish_ran est (retierAll_asked asked), finish_settled s, finish_tierLaw s⟩⟩
  obtain ⟨gain, rem, division⟩ := computePass_divided s
  obtain ⟨level, levels⟩ := division.levels
  obtain ⟨rotation, remainder, notices⟩ := runPass_result s
  have target (b : Bay) (elig : (s.bay b).state.eligible = true) : ((runPass s).chg b).target = passTarget s gain b :=
    runPass_target (division.target elig)
  simp only [← ceilOf_eq, ← floorOf_eq]
  refine ⟨?_, fun b elig => ?_, fun b out => ?_, ⟨passGiven s, level, fun b elig => ⟨passGiven_iff elig, ?_, ?_⟩⟩,
    rotation, runPass_last s, runPass_served, notices⟩
  · rw [remainder, ← division.sum]
    refine congrArg (fun l => List.sum l + (computePass s).remainder) (List.map_congr_left fun b mem => ?_)
    exact target b (List.mem_filter.1 mem).2
  · rw [target b elig, remainder]
    exact ⟨division.target_le elig, division.left_over elig⟩
  · exact ⟨((runPass_pass s).bayKept b).outside out, (runPass_passWork s).target b out⟩
  · intro without
    rw [target b elig, passTarget, if_neg (by simp [without])]
  · intro has
    have own (a : Bay) (eligA : (s.bay a).state.eligible = true) (hasA : passGiven s a = true) :
        ((runPass s).chg a).target - floorOf s a = gain a := by
      rw [target a eligA, passTarget, if_pos hasA, Nat.add_sub_cancel_left]
    refine ⟨?_, ?_, fun a eligA hasA sooner below => ?_⟩
    · rw [target b elig, passTarget, if_pos has]
      exact Nat.le_add_right _ _
    · rw [own b elig has]
      exact levels b elig has
    · rw [own b elig has, own a eligA hasA]
      rw [target a eligA] at below
      exact division.served elig eligA hasA has sooner below

end Sys2Proof.Machine
end

