-- ==== Sys2Proof/Proofs/SettleTimer.lean ====
section
/-! PROOF. What the expiry of the settle timer does, when it follows its pass at once, and what CHARGE-SET brings (R65, R66,
R70). -/

namespace Sys2Proof.Machine

/-! ### Applying the pending increases -/

/-- R66: the increases applied, bay by bay. -/
theorem applyIncreases_records (s : State) : passView (applyIncreases s) = passView s ∧
    ∀ b, records (applyIncreases s) b = increaseApplied s.alloc.profiles (records s b) :=
  applyIncrease_stage.each s

/-- R66: a bay's pending increase, applied, is cleared. -/
theorem increaseApplied_cleared (profiles : Vector Profile 8) (x : Records) :
    (increaseApplied profiles x).2 = { x.2 with pendingInc := none } := by
  unfold increaseApplied
  split
  · rename_i idle
    rw [← idle]
  · rfl

/-- R66: the applied grant after a bay's pending increase is applied. -/
theorem increaseApplied_bay (profiles : Vector Profile 8) (x : Records) :
    (increaseApplied profiles x).1 = match x.2.pendingInc with
      | none => x.1
      | some inc =>
        if x.1.state = .charging then { x.1 with grant := min profiles[x.2.profile].ceiling inc } else x.1 := by
  unfold increaseApplied
  split <;> simp_all

/-- R66: applying the increases writes the records of the bays and nothing else. -/
theorem applyIncreases_frame (s : State) :
    applyIncreases s = { s with bays := (applyIncreases s).bays, charge := (applyIncreases s).charge } := by
  refine eachBay_rel (R := fun s t => t = { s with bays := t.bays, charge := t.charge }) (fun _ => rfl)
    (fun h h' => by rw [h', h]) (fun b s => ?_) s
  unfold applyIncrease
  split
  · rfl
  · dsimp only
    split <;> rfl

theorem applyIncreases_eq (s : State) : applyIncreases s =
    { s with
      bays := Vector.ofFn fun b => match (s.chg b).pendingInc with
        | none => s.bay b
        | some inc =>
          if (s.bay b).state = .charging then { s.bay b with grant := min (s.profile b).ceiling inc } else s.bay b
      charge := Vector.ofFn fun b => { s.chg b with pendingInc := none } } := by
  obtain ⟨_, recs⟩ := applyIncreases_records s
  have frame := applyIncreases_frame s
  generalize applyIncreases s = t at recs frame ⊢
  have bays : t.bays = Vector.ofFn fun b => match (s.chg b).pendingInc with
      | none => s.bay b
      | some inc =>
        if (s.bay b).state = .charging then { s.bay b with grant := min (s.profile b).ceiling inc } else s.bay b := by
    ext1 k lt
    rw [Vector.getElem_ofFn]
    exact (congrArg Prod.fst (recs ⟨k, lt⟩)).trans (increaseApplied_bay _ _)
  have charge : t.charge = Vector.ofFn fun b => { s.chg b with pendingInc := none } := by
    ext1 k lt
    rw [Vector.getElem_ofFn]
    exact (congrArg Prod.snd (recs ⟨k, lt⟩)).trans (increaseApplied_cleared _ _)
  rw [frame, bays, charge]

/-! ### The expiry -/

theorem settleExpires_running {s : State} (running : s.alloc.settleTimer ≠ none) : settleExpires s =
    { applyIncreases s with alloc := { (applyIncreases s).alloc with settleTimer := none } } := by
  unfold settleExpires
  split
  · exact absurd ‹_› running
  · rfl

/-- R65: with the settle interval at 0 a timer that a pass has started is due at once; with a longer one it is not. -/
theorem runPass_due (s : State) : (runPass s).alloc.settleTimer.due (runPass s).time.ms = true ↔
    s.alloc.settings.settle = 0 ∧ (runPass s).alloc.settleTimer ≠ none := by
  have timer := (runPass_records s).1
  rw [(runPass_pass s).time, timer]
  split <;> simp [Timer.due]

theorem settleIfDue_due {s : State} (due : s.alloc.settleTimer.due s.time.ms = true) :
    settleIfDue s = settleExpires s := if_pos due

theorem settleIfDue_idle {s : State} (idle : ¬ s.alloc.settleTimer.due s.time.ms = true) : settleIfDue s = s :=
  if_neg idle

theorem runAsked_ran {s : State} (asked : s.alloc.passAsked = true) (est : s.budget.established = true) :
    runAsked s = settleIfDue (runPass { s with alloc := { s.alloc with passAsked := false } }) := by
  simp [runAsked, asked, est]

/-- Settles O34: the expiry applies every increase, bay by bay, and a pass runs it when its timer is due at once. -/
theorem settleExpiryAppliesTheIncreases : Obligations.SettleExpiryAppliesTheIncreases := by
  refine ⟨fun s free asked est => ?_, fun s free running => next_live free ?_⟩
  · have due := runPass_due { s with alloc := { s.alloc with passAsked := false } }
    have held := (runPass_pass { s with alloc := { s.alloc with passAsked := false } }).held.trans free
    rw [runAsked_ran asked est]
    generalize runPass { s with alloc := { s.alloc with passAsked := false } } = u at due held ⊢
    refine ⟨fun zero started => next_live held (settleIfDue_due (due.2 ⟨zero, started⟩)).symm, fun not =>
      settleIfDue_idle fun now => ?_⟩
    exact not.elim (fun longer => longer (due.1 now).1) (due.1 now).2
  · exact (settleExpires_running running).trans
      (congrArg (fun t : State => { t with alloc := { t.alloc with settleTimer := none } }) (applyIncreases_eq s))

/-! ### A settle interval of 0 -/

/-- R66: no increase is pending and the settle timer is stopped. -/
structure Unstaged (s : State) : Prop where
  timer : s.alloc.settleTimer = none
  pending : ∀ b, (s.chg b).pendingInc = none

theorem unstaged_iff (s : State) :
    Unstaged s ↔ s.alloc.settleTimer = none ∧ ∀ b, (s.chg b).pendingInc = none :=
  ⟨fun h => ⟨h.timer, h.pending⟩, fun h => ⟨h.1, h.2⟩⟩

theorem settleExpires_unstaged {s : State} (running : s.alloc.settleTimer ≠ none) : Unstaged (settleExpires s) := by
  rw [settleExpires_running running]
  refine ⟨rfl, fun b => ?_⟩
  have own := congrArg Prod.snd ((applyIncreases_records s).2 b)
  generalize applyIncreases s = t at own ⊢
  rw [increaseApplied_cleared] at own
  exact congrArg ChargeRec.pendingInc own

/-- R67: a bay outside the eligible set has no pending increase after a pass. -/
theorem runPass_outside {s : State} {b : Bay} (out : (s.bay b).state.eligible = false) :
    ((runPass s).chg b).pendingInc = none := by
  have dropped := (supersede_records s).2 b
  have rest := ((storeTargets_computed (supersede s)).trans (markBudget_passWork _)).trans
    (runPass_rest (computePass (supersede s)) (holding (supersede s).prov.queue) (passLowers s) _)
  rw [passLowers, ← runPass_eq] at rest
  refine rest.pending b ?_ (congrArg (fun x => x.2.pendingInc) dropped)
  rw [supersede_bay]
  exact out

/-- R65: a pass that starts no settle timer leaves no increase pending. -/
theorem runPass_unstaged {s : State} (stopped : (runPass s).alloc.settleTimer = none) : Unstaged (runPass s) := by
  obtain ⟨timer, recs⟩ := runPass_records s
  have unlowered : passLowers s = false := by
    by_contra lowers
    rw [stopped, if_pos (Bool.not_eq_false _ ▸ lowers)] at timer
    cases timer
  refine ⟨stopped, fun b => ?_⟩
  cases elig : (s.bay b).state.eligible with
  | false => exact runPass_outside elig
  | true =>
    obtain ⟨t, found⟩ := eligible_target elig
    have own := congrArg Prod.snd (recs b t found)
    rw [unlowered, passRecords] at own
    simp only [Bool.false_eq_true, if_false, increaseApplied_cleared] at own
    exact congrArg ChargeRec.pendingInc own

/-- R65: with the settle interval at 0 a pass that runs leaves no increase pending. -/
theorem runAsked_unstaged {s : State} (zero : s.alloc.settings.settle = 0) (asked : s.alloc.passAsked = true)
    (est : s.budget.established = true) : Unstaged (runAsked s) := by
  have due := runPass_due { s with alloc := { s.alloc with passAsked := false } }
  have unstaged := runPass_unstaged (s := { s with alloc := { s.alloc with passAsked := false } })
  rw [runAsked_ran asked est]
  generalize runPass { s with alloc := { s.alloc with passAsked := false } } = u at due unstaged ⊢
  by_cases stopped : u.alloc.settleTimer = none
  · rw [settleIfDue_idle fun now => (due.1 now).2 stopped]
    exact unstaged stopped
  · rw [settleIfDue_due (due.2 ⟨zero, stopped⟩)]
    exact settleExpires_unstaged stopped

theorem retierAll_unstaged {s : State} (h : Unstaged s) : Unstaged (retierAll s) := by
  refine eachBay_rel (R := fun s t => Unstaged s → Unstaged t) (fun _ => id) (fun h h' => h' ∘ h) (fun b s h => ?_) s h
  unfold retier
  split
  · refine ⟨h.timer, fun c => ?_⟩
    rw [chg_askPass, chg_setChg]
    split
    · exact h.pending b
    · exact h.pending c
  · exact h

theorem OnlyPass.settle {s t : State} (h : OnlyPass s t) : t.alloc.settings = s.alloc.settings := by
  obtain ⟨_, _, _, _, _, _, _, _, _, _, _, rfl, _⟩ := h; rfl

/-- R65: the passes after one that left no increase pending leave none either, the settle interval being 0. -/
theorem settle_unstaged (n : Nat) {s : State} (zero : s.alloc.settings.settle = 0)
    (est : s.budget.established = true) (h : Unstaged s) : Unstaged (settle n s) := by
  induction n generalizing s with
  | zero => exact retierAll_unstaged h
  | succ n ih =>
    have retier := retierAll_pass s
    have run := runAsked_pass (retierAll s)
    have zero' : (retierAll s).alloc.settings.settle = 0 := by rw [retier.settle, zero]
    have est' := retier.established.trans est
    rw [settle_succ]
    split
    · refine ih ?_ (run.established.trans est') (runAsked_unstaged zero' ‹_› est')
      rw [run.settle, zero']
    · exact retierAll_unstaged h

theorem finish_unstaged {s : State} (zero : s.alloc.settings.settle = 0) (est : s.budget.established = true)
    (asked : s.alloc.passAsked = true) : Unstaged (finish s) := by
  have retier := retierAll_pass s
  have asked' := (retierAll_leaves s).1 asked
  have zero' : (retierAll s).alloc.settings.settle = 0 := by rw [retier.settle, zero]
  have est' := retier.established.trans est
  have run := runAsked_pass (retierAll s)
  rw [finish_asked_eq asked']
  refine settle_unstaged 39 ?_ (run.established.trans est') (runAsked_unstaged zero' asked' est')
  rw [run.settle, zero']

/-! ### CHARGE-SET -/

theorem clampCharge_eq (c : ChargeSettings) : clampCharge c =
    { provFloor := min 160 c.provFloor, settle := min 500 c.settle, reclaimCount := max 1 (min 15 c.reclaimCount)
      reclaimMargin := min 40 c.reclaimMargin, pressMargin := min 40 c.pressMargin
      pressStep := max 1 (min 40 c.pressStep), taperCount := max 1 (min 60 c.taperCount)
      fullCount := max 1 (min 60 c.fullCount), wakeCount := max 1 (min 60 c.wakeCount) } := by
  simp only [clampCharge, clamp_zero]
  rfl

/-- Settles O35: the settings are taken and the pass asked for runs, its expiry with it when the interval is 0. -/
theorem chargeSetBringsAPass : Obligations.ChargeSetBringsAPass := by
  intro tag a b c d e f g h i s free
  refine ⟨_, next_request free rfl, ?_⟩
  unfold takeChargeSet
  simp only [clampCharge_eq, reply_answer, doneOr_code, chargeFields, ne_eq, ite_not]
  refine ⟨⟨(askPass_pass _).trans (finish_pass _), fun est => finish_last rfl est⟩, fun zero est => ?_⟩
  have settle : min 500 b.toNat = 0 := by rw [zero]; rfl
  exact (unstaged_iff _).1 (finish_unstaged settle est rfl)

end Sys2Proof.Machine
end

