-- ==== Sys2Proof/Proofs/Rations.lean ====
section
/-! PROOF. The laws of grants, targets and power bay by bay, and under the passes (R12, R66, R68). -/

namespace Sys2Proof.Machine

/-! ### The ration of a bay -/

/-- What the laws of grants, targets and power read of a bay. -/
structure Ration where
  state : BayState
  grant : Nat
  target : Nat
  pending : Option Nat
  ceiling : Nat

def State.ration (s : State) (b : Bay) : Ration :=
  ⟨(s.bay b).state, (s.bay b).grant, (s.chg b).target, (s.chg b).pendingInc, (s.profile b).ceiling⟩

namespace Ration

/-- R12: the applied grant is at most the profile ceiling, and 0 outside CHARGING. -/
def Granted (x : Ration) : Prop := x.grant ≤ x.ceiling ∧ (x.state ≠ .charging → x.grant = 0)

/-- R66, R68: the applied grant is at most the target, which is 0 outside the eligible set, and a pending increase stands
at the target, in CHARGING. -/
def Aimed (x : Ration) : Prop :=
  x.grant ≤ x.target ∧ (x.state.eligible = false → x.target = 0) ∧
    ∀ inc, x.pending = some inc → inc = x.target ∧ x.state = .charging

/-- What the bay may draw before another pass. -/
def committed (x : Ration) : Nat := max x.grant (x.pending.getD 0)

/-- A bay whose ration goes from `x` to `y` keeps the laws and may draw no more than before. -/
structure Kept (x y : Ration) : Prop where
  granted : x.Granted → y.Granted
  aimed : x.Granted → x.Aimed → y.Aimed
  committed : x.Granted → y.committed ≤ x.committed

theorem Kept.refl (x : Ration) : Kept x x := ⟨id, fun _ => id, fun _ => le_rfl⟩

/-- The ration of a bay after a reset. -/
def Cleared (x : Ration) : Prop := x.grant = 0 ∧ x.target = 0 ∧ x.pending = none

theorem Cleared.laws {x : Ration} (h : x.Cleared) : x.Granted ∧ x.Aimed ∧ x.committed = 0 := by
  obtain ⟨grant, target, pending⟩ := h
  simp [Granted, Aimed, Ration.committed, grant, target, pending]

end Ration

theorem grantLaw_iff (s : State) : GrantLaw s ↔ ∀ b, (s.ration b).Granted := Iff.rfl

theorem targetLaw_iff (s : State) : TargetLaw s ↔ ∀ b, (s.ration b).Aimed := Iff.rfl

/-- R68: what the bays may draw stays within the budget of the last pass, and is nothing before the first. -/
def Within (draws : Bay → Nat) : Option Nat → Prop
  | none => ∀ b, draws b = 0
  | some budget => (allBays.map draws).sum ≤ budget

theorem powerLaw_iff (s : State) :
    PowerLaw s ↔ GrantLaw s ∧ Within (fun b => (s.ration b).committed) s.budget.lastPass := by
  unfold PowerLaw
  cases s.budget.lastPass <;> rfl

theorem sum_le_of_le {f g : Bay → Nat} (h : ∀ b, f b ≤ g b) : (allBays.map f).sum ≤ (allBays.map g).sum :=
  List.sum_le_sum fun b _ => h b

theorem Within.mono {f g : Bay → Nat} (h : ∀ b, f b ≤ g b) {last : Option Nat} (w : Within g last) : Within f last := by
  cases last with
  | none => exact fun b => Nat.le_zero.1 ((h b).trans (w b).le)
  | some budget => exact (sum_le_of_le h).trans w

/-! ### Work that keeps the laws -/

/-- From `s` to `t` the laws of grants, targets and power are kept. -/
structure GrantsKept (s t : State) : Prop where
  grants : GrantLaw s → GrantLaw t
  targets : GrantLaw s → TargetLaw s → TargetLaw t
  power : PowerLaw s → PowerLaw t

theorem GrantsKept.refl (s : State) : GrantsKept s s := ⟨id, fun _ => id, id⟩

theorem GrantsKept.trans {s t u : State} (h : GrantsKept s t) (h' : GrantsKept t u) : GrantsKept s u :=
  ⟨h'.grants ∘ h.grants, fun grants targets => h'.targets (h.grants grants) (h.targets grants targets),
    h'.power ∘ h.power⟩

theorem GrantsKept.ite {p : Prop} [Decidable p] {s t u : State} (h : p → GrantsKept s t) (h' : ¬ p → GrantsKept s u) :
    GrantsKept s (if p then t else u) := by
  split
  · exact h ‹_›
  · exact h' ‹_›

theorem GrantsKept.when_ {p : Prop} [Decidable p] {s t : State} (h : p → GrantsKept s t) :
    GrantsKept s (if p then t else s) := .ite h fun _ => .refl s

theorem eachBay_grantsKept {f : Bay → State → State} (h : ∀ b s, GrantsKept s (f b s)) (s : State) :
    GrantsKept s (eachBay f s) := eachBay_rel .refl .trans h s

theorem eachLane_grantsKept {f : Lane → State → State} (h : ∀ l s, GrantsKept s (f l s)) (s : State) :
    GrantsKept s (eachLane f s) := eachLane_rel .refl .trans h s

/-- The laws are kept bay by bay. -/
theorem GrantsKept.of_rations {s t : State} (last : t.budget.lastPass = s.budget.lastPass)
    (h : ∀ b, (s.ration b).Kept (t.ration b)) : GrantsKept s t where
  grants law := (grantLaw_iff t).2 fun b => (h b).granted ((grantLaw_iff s).1 law b)
  targets law aimed := (targetLaw_iff t).2 fun b => (h b).aimed (law b) ((targetLaw_iff s).1 aimed b)
  power law := by
    rw [powerLaw_iff] at law ⊢
    obtain ⟨law, within⟩ := law
    rw [last]
    exact ⟨fun b => (h b).granted (law b), within.mono fun b => (h b).committed (law b)⟩

/-- From `s` to `t` the budget of the last pass and the rations of the bays are left as they are. -/
structure RationsLeft (s t : State) : Prop where
  last : t.budget.lastPass = s.budget.lastPass
  ration : ∀ b, t.ration b = s.ration b

theorem RationsLeft.refl (s : State) : RationsLeft s s := ⟨rfl, fun _ => rfl⟩

theorem RationsLeft.trans {s t u : State} (h : RationsLeft s t) (h' : RationsLeft t u) : RationsLeft s u :=
  ⟨h'.last.trans h.last, fun b => (h'.ration b).trans (h.ration b)⟩

theorem RationsLeft.kept {s t : State} (h : RationsLeft s t) : GrantsKept s t :=
  .of_rations h.last fun b => h.ration b ▸ .refl _

/-- Everything that the rations of the bays and the laws about them are made of. -/
def rationView (s : State) := (s.bays, s.charge, s.alloc.profiles, s.budget.lastPass)

theorem RationsLeft.of_view {s t : State} (h : rationView t = rationView s) : RationsLeft s t := by
  simp only [rationView, Prod.mk.injEq] at h
  obtain ⟨bays, charge, profiles, last⟩ := h
  exact ⟨last, fun b => by simp only [State.ration, State.bay, State.chg, State.profile, bays, charge, profiles]⟩

theorem GrantsKept.of_view {s t : State} (h : rationView t = rationView s) : GrantsKept s t :=
  (RationsLeft.of_view h).kept

theorem OnlyLatches.rationsLeft {s t : State} (h : OnlyLatches s t) : RationsLeft s t := by
  obtain ⟨_, _, _, _, _, _, _, _, _, _, rfl⟩ := h
  exact .of_view rfl

theorem OnlyCustody.rationsLeft {s t : State} (h : OnlyCustody s t) : RationsLeft s t := h.latches.rationsLeft

theorem OnlyLanes.rationsLeft {s t : State} (h : OnlyLanes s t) : RationsLeft s t := h.custody.rationsLeft

/-- R19, R50, R72: a reset leaves no grant, no target, no pending increase and no last pass, and so meets the laws. -/
theorem GrantsKept.of_cleared {s t : State} (last : t.budget.lastPass = none) (h : ∀ b, (t.ration b).Cleared) :
    GrantsKept s t where
  grants _ b := (h b).laws.1
  targets _ _ b := (h b).laws.2.1
  power _ := by
    rw [powerLaw_iff, last]
    exact ⟨fun b => (h b).laws.1, fun b => (h b).laws.2.2⟩

/-! ### One record written -/

theorem ration_setBay (s : State) (b c : Bay) (r : BayRec) : (s.setBay b r).ration c =
    if c = b then { s.ration b with state := r.state, grant := r.grant } else s.ration c := by
  by_cases at_ : c = b
  · subst at_
    simp only [State.ration, bay_setBay_self, if_true]
    rfl
  · simp only [State.ration, bay_setBay_ne s b c r at_, if_neg at_]
    rfl

theorem setBay_rationsLeft (s : State) (b : Bay) (r : BayRec) (state : r.state = (s.bay b).state := by rfl)
    (grant : r.grant = (s.bay b).grant := by rfl) : RationsLeft s (s.setBay b r) := by
  refine ⟨rfl, fun c => ?_⟩
  rw [ration_setBay, state, grant]
  split
  · subst_vars; rfl
  · rfl

theorem ration_setChg (s : State) (b c : Bay) {r : ChargeRec} (profile : r.profile = (s.chg b).profile) :
    (s.setChg b r).ration c =
      if c = b then { s.ration b with target := r.target, pending := r.pendingInc } else s.ration c := by
  by_cases at_ : c = b
  · subst at_
    simp only [State.ration, chg_setChg_self, bay_setChg, profile_setChg_same s profile, if_true]
  · simp only [State.ration, chg_setChg_ne s b c r at_, bay_setChg, profile_setChg_ne s r at_, if_neg at_]

theorem setChg_rationsLeft (s : State) (b : Bay) (r : ChargeRec) (profile : r.profile = (s.chg b).profile := by rfl)
    (target : r.target = (s.chg b).target := by rfl) (pending : r.pendingInc = (s.chg b).pendingInc := by rfl) :
    RationsLeft s (s.setChg b r) := by
  refine ⟨rfl, fun c => ?_⟩
  rw [ration_setChg s b c profile, target, pending]
  split
  · subst_vars; rfl
  · rfl

/-! ### A change of bay state reported -/

/-- R54, R67: what the report of a change of bay state does to the bay's ration. -/
def Ration.reported (x : Ration) (o n : BayState) : Ration :=
  { x with
    target := if o.eligible = n.eligible then x.target else 0
    pending := if o.eligible = n.eligible ∧ ¬ (o = .charging ∧ n ≠ .charging) then x.pending else none }

theorem leaving_view (c : ChargeRec) (o n : BayState) : (c.leaving o n).target = c.target ∧
    (c.leaving o n).pendingInc = if o = .charging ∧ n ≠ .charging then none else c.pendingInc := by
  unfold ChargeRec.leaving
  split <;> exact ⟨rfl, rfl⟩

theorem ration_allocChange (b : Bay) (o n : BayState) (s : State) (c : Bay) :
    (allocChange b o n s).ration c = if c = b then (s.ration b).reported o n else s.ration c := by
  have profile := (leaving_kept (s.chg b) o n).profile
  obtain ⟨target, pending⟩ := leaving_view (s.chg b) o n
  have asked (u : State) : (askPass u).ration c = u.ration c := (RationsLeft.of_view rfl).ration c
  by_cases same : o.eligible = n.eligible
  · rw [allocChange_stays same, ration_setChg s b c profile, target, pending]
    simp only [Ration.reported, same, true_and, ite_not]
    rfl
  · have moved : (s.ration b).reported o n = { s.ration b with target := 0, pending := none } := by
      simp only [Ration.reported, same, false_and, if_false]
    rw [moved]
    cases before : o.eligible with
    | false =>
      rw [allocChange_enters before (by simpa [before] using same), asked]
      exact ration_setChg s b c profile
    | true =>
      rw [allocChange_leaves before (by simpa [before] using same), asked]
      exact ration_setChg s b c profile

theorem ration_reportChange (b : Bay) (o n : BayState) (s : State) (c : Bay) :
    (reportChange b o n s).ration c = if c = b then (s.ration b).reported o n else s.ration c := by
  by_cases same : o = n
  · subst same
    have idle : (s.ration b).reported o o = s.ration b := by simp [Ration.reported]
    rw [reportChange, if_pos rfl, idle]
    split
    · subst_vars; rfl
    · rfl
  · rw [reportChange_ne s same, ((schedChange_touch b o n _).rationsLeft).ration, ration_allocChange]

theorem reportChange_last (b : Bay) (o n : BayState) (s : State) :
    (reportChange b o n s).budget.lastPass = s.budget.lastPass := by
  have changed : (allocChange b o n s).budget = s.budget := by
    unfold allocChange
    dsimp only
    split
    · rfl
    · split <;> rfl
  by_cases same : o = n
  · rw [reportChange, if_pos same]
  · rw [reportChange_ne s same, (schedChange_touch b o n _).rationsLeft.last, changed]

/-- R12, R67: a bay that takes another state than CHARGING, its grant at 0, and has the change reported. -/
theorem Ration.moved_kept (x : Ration) {n : BayState} (out : n ≠ .charging) :
    Kept x ({ x with state := n, grant := 0 }.reported x.state n) where
  granted _ := ⟨Nat.zero_le _, fun _ => rfl⟩
  aimed _ aimed := by
    obtain ⟨_, outside, pending⟩ := aimed
    refine ⟨Nat.zero_le _, fun none => ?_, fun inc some => ?_⟩
    · simp only [reported] at none ⊢
      split
      · exact outside (by simp_all)
      · rfl
    · simp only [reported] at some
      split at some
      · rename_i left
        exact absurd ⟨(pending inc some).2, out⟩ left.2
      · cases some
  committed _ := by
    simp only [Ration.committed, reported]
    split <;> simp

/-- Work between a change of bay state and its report leaves the rations; the change and its report keep the laws. -/
theorem report_grantsKept {s v : State} {b : Bay} {r : BayRec} {n : BayState} (left : RationsLeft (s.setBay b r) v)
    (out : n ≠ .charging := by decide) (state : r.state = n := by rfl) (grant : r.grant = 0 := by rfl) :
    GrantsKept s (reportChange b (s.bay b).state n v) := by
  refine .of_rations ((reportChange_last _ _ _ v).trans left.last) fun c => ?_
  rw [ration_reportChange, left.ration, left.ration, ration_setBay, ration_setBay, if_pos rfl, grant, state]
  by_cases at_ : c = b
  · subst at_
    rw [if_pos rfl]
    exact (s.ration c).moved_kept out
  · rw [if_neg at_, if_neg at_]
    exact .refl _

/-! ### The increases -/

/-- R66: the ration of a bay once its pending increase is applied. -/
def Ration.increased (x : Ration) : Ration :=
  match x.pending with
  | none => x
  | some inc => { x with grant := if x.state = .charging then min x.ceiling inc else x.grant, pending := none }

/-- R66: an increase applied keeps the laws: it stands at the target, and is what the bay might draw already. -/
theorem Ration.increased_kept (x : Ration) : Kept x x.increased := by
  unfold increased
  split
  · exact .refl x
  · rename_i inc pending
    refine ⟨fun granted => ?_, fun granted aimed => ?_, fun granted => ?_⟩
    · obtain ⟨cap, zero⟩ := granted
      refine ⟨?_, fun out => ?_⟩
      · dsimp only
        split
        · exact Nat.min_le_left _ _
        · exact cap
      · exact (if_neg out).trans (zero out)
    · obtain ⟨le, outside, at_⟩ := aimed
      refine ⟨?_, outside, fun _ none => by cases none⟩
      dsimp only
      split
      · exact (Nat.min_le_right _ _).trans (at_ inc pending).1.le
      · exact le
    · simp only [Ration.committed, pending]
      split
      · simp
      · simp

theorem ration_applyIncreases (s : State) (b : Bay) : (applyIncreases s).ration b = (s.ration b).increased := by
  obtain ⟨view, recs⟩ := applyIncreases_records s
  generalize applyIncreases s = t at view recs ⊢
  simp only [passView, Prod.mk.injEq] at view
  obtain ⟨_, profiles, _, _⟩ := view
  have bay := (congrArg Prod.fst (recs b)).trans (increaseApplied_bay _ _)
  have chg := (congrArg Prod.snd (recs b)).trans (increaseApplied_cleared _ _)
  simp only [records] at bay chg
  simp only [State.ration, State.profile, profiles, bay, chg, Ration.increased]
  cases pending : (s.chg b).pendingInc with
  | none => rfl
  | some inc => by_cases charging : (s.bay b).state = .charging <;> simp [charging]

theorem settleExpires_grantsKept (s : State) : GrantsKept s (settleExpires s) := by
  by_cases stopped : s.alloc.settleTimer = none
  · rw [settleExpires, stopped]
    exact .refl s
  · have last : (applyIncreases s).budget.lastPass = s.budget.lastPass := by rw [applyIncreases_frame]
    have increased : GrantsKept s (applyIncreases s) :=
      .of_rations last fun b => by rw [ration_applyIncreases]; exact Ration.increased_kept _
    rw [settleExpires_running stopped]
    generalize applyIncreases s = t at increased ⊢
    exact increased.trans (.of_view rfl)

/-! ### The passes -/

/-- The ration of a bay with these records and this profile ceiling. -/
def rationOf (ceiling : Nat) (x : Records) : Ration := ⟨x.1.state, x.1.grant, x.2.target, x.2.pendingInc, ceiling⟩

theorem rationOf_records (s : State) (b : Bay) : rationOf (s.profile b).ceiling (records s b) = s.ration b := rfl

/-- R64 to R66: a bay that a pass gives a target has its grant and its pending increase within it. -/
theorem Staged.drawn {now ceiling t : Nat} {lowered : Bool} {x y : Records} (staged : Staged now ceiling lowered t x y)
    (cap : x.1.grant ≤ ceiling) (raises : lowered = false → ¬ (x.1.state = .charging ∧ t < x.1.grant)) :
    (rationOf ceiling y).Granted ∧ (rationOf ceiling y).Aimed ∧ (rationOf ceiling y).committed ≤ t := by
  have drawn : y.1.grant ≤ ceiling ∧ y.1.grant ≤ t ∧
      (y.2.pendingInc = none ∨ y.2.pendingInc = some t ∧ y.1.grant < t) := by
    cases lowered with
    | false =>
      obtain ⟨grant, pending⟩ := staged.atOnce rfl (raises rfl)
      rw [grant]
      exact ⟨Nat.min_le_left _ _, Nat.min_le_right _ _, .inl pending⟩
    | true =>
      obtain ⟨grant, pending⟩ := staged.later rfl
      refine ⟨grant.le.trans ((Nat.min_le_left _ _).trans cap), grant.le.trans (Nat.min_le_right _ _), ?_⟩
      split at pending
      · exact .inr ⟨pending, ‹_›⟩
      · exact .inl pending
  obtain ⟨le, least, pending⟩ := drawn
  have zero : y.1.state ≠ .charging → t = 0 := fun out => by
    by_contra pos
    exact out (staged.state.trans (if_neg pos))
  have inside : y.1.state.eligible = true := by
    rw [staged.state]
    split <;> rfl
  refine ⟨⟨le, fun out => Nat.le_zero.1 (least.trans (zero out).le)⟩, ⟨?_, fun out => ?_, fun inc some => ?_⟩, ?_⟩
  · exact least.trans staged.target.ge
  · exact absurd inside (by simpa [rationOf] using out)
  · rcases pending with none | ⟨at_, lt⟩
    · exact absurd (none.symm.trans some) (by simp)
    · refine ⟨(Option.some.inj (at_.symm.trans some)).symm.trans staged.target.symm, ?_⟩
      by_contra out
      exact absurd (zero out) (Nat.ne_of_gt (Nat.zero_lt_of_lt lt))
  · refine max_le least ?_
    rcases pending with none | ⟨at_, _⟩
    · simp [rationOf, none]
    · simp [rationOf, at_]

/-- R64 to R68: what a pass leaves of a bay: the laws hold of it, and it may draw its target at most. -/
theorem runPass_ration {s : State} (law : GrantLaw s) (b : Bay) :
    ((runPass s).ration b).Granted ∧
    (TargetLaw s → ((runPass s).ration b).Aimed) ∧
    ((runPass s).ration b).committed ≤ if (s.bay b).state.eligible then ((runPass s).chg b).target else 0 := by
  have pass := runPass_pass s
  have profile := pass.profile b
  obtain ⟨cap, zero⟩ := law b
  cases elig : (s.bay b).state.eligible with
  | false =>
    have bay := (pass.bayKept b).outside elig
    have target := (runPass_passWork s).target b elig
    have pending := runPass_outside elig
    have zero : (s.bay b).grant = 0 := zero fun charging => by simp [charging, BayState.eligible] at elig
    generalize runPass s = t at profile bay target pending ⊢
    refine ⟨?_, fun aimed => ?_, ?_⟩
    · simp [Ration.Granted, State.ration, bay, zero]
    · obtain ⟨_, out, _⟩ := aimed b
      simp [Ration.Aimed, State.ration, bay, zero, target, out elig, pending]
    · simp [Ration.committed, State.ration, bay, zero, pending]
  | true =>
    obtain ⟨t, _, staged⟩ := runPass_staged_bay law elig
    have target : ((runPass s).chg b).target = t := staged.target
    have raises : passLowers s = false → ¬ ((s.bay b).state = .charging ∧ t < (s.bay b).grant) := fun no own => by
      simp [(passLowers_iff law).2 ⟨b, own.1, target ▸ own.2⟩] at no
    have drawn := staged.drawn cap raises
    rw [← profile, rationOf_records] at drawn
    obtain ⟨granted, aimed, committed⟩ := drawn
    exact ⟨granted, fun _ => aimed, by rwa [if_pos rfl, target]⟩

theorem sum_filter_map (e : Bay → Bool) (f : Bay → Nat) (bs : List Bay) :
    ((bs.filter e).map f).sum = (bs.map fun b => if e b then f b else 0).sum := by
  induction bs with
  | nil => rfl
  | cons b bs ih => cases inside : e b <;> simp [inside, ih]

/-- R63, R68: the targets of a pass sum to no more than the budget it divides. -/
theorem runPass_within (s : State) :
    (allBays.map fun b => if (s.bay b).state.eligible then ((runPass s).chg b).target else 0).sum ≤ s.budget.computed := by
  obtain ⟨divided, _⟩ := passDividesTheBudget.1 s
  rw [← sum_filter_map, ← divided]
  exact Nat.le_add_right _ _

/-- R12, R66, R68: a pass keeps the laws. -/
theorem runPass_grantsKept (s : State) : GrantsKept s (runPass s) := by
  have ration (law : GrantLaw s) := runPass_ration law
  have last := runPass_last s
  have within := runPass_within s
  generalize runPass s = t at ration last within ⊢
  refine ⟨fun law b => ?_, fun law aims b => ?_, fun law => ?_⟩
  · obtain ⟨granted, _⟩ := ration law b
    exact granted
  · obtain ⟨_, aimed, _⟩ := ration law b
    exact aimed aims
  · obtain ⟨grants, _⟩ := (powerLaw_iff s).1 law
    rw [powerLaw_iff, last]
    refine ⟨fun b => (ration grants b).1, (sum_le_of_le fun b => ?_).trans within⟩
    obtain ⟨_, _, committed⟩ := ration grants b
    exact committed

/-! ### The end of an event -/

theorem settleIfDue_grantsKept (s : State) : GrantsKept s (settleIfDue s) :=
  .when_ fun _ => settleExpires_grantsKept s

theorem runAsked_grantsKept (s : State) : GrantsKept s (runAsked s) := by
  have cleared : GrantsKept s { s with alloc := { s.alloc with passAsked := false } } := .of_view rfl
  by_cases asked : s.alloc.passAsked = true
  · by_cases est : s.budget.established = true
    · rw [runAsked_ran asked est]
      exact (cleared.trans (runPass_grantsKept _)).trans (settleIfDue_grantsKept _)
    · simpa [runAsked, asked, est] using cleared
  · simpa [runAsked, asked] using cleared

/-- R56: the tiers are nothing that the laws read. -/
theorem retier_grantsKept (b : Bay) (s : State) : GrantsKept s (retier b s) := by
  refine .when_ fun _ => ?_
  exact (setChg_rationsLeft s b _).kept.trans (.of_view rfl)

theorem retierAll_grantsKept (s : State) : GrantsKept s (retierAll s) := eachBay_grantsKept retier_grantsKept s

theorem settle_grantsKept (n : Nat) (s : State) : GrantsKept s (settle n s) := by
  induction n generalizing s with
  | zero => exact retierAll_grantsKept s
  | succ n ih =>
    rw [settle_succ]
    have retier := retierAll_grantsKept s
    exact .ite (fun _ => (retier.trans (runAsked_grantsKept _)).trans (ih _)) fun _ => retier

theorem finish_grantsKept (s : State) : GrantsKept s (finish s) := settle_grantsKept _ s

end Sys2Proof.Machine
end

