-- ==== Sys2Proof/Proofs/RationMoves.lean ====
section
/-! PROOF. The events of the bays, the samples and rounds, and the settings of the Allocator and the Budget Unit keep the laws
of grants, targets and power (R12, R66, R68). -/

namespace Sys2Proof.Machine

/-! ### The end of an event -/

theorem GrantsKept.finished {s t : State} (h : GrantsKept s t) : GrantsKept s (finish t) := h.trans (finish_grantsKept t)

theorem reply_rationsLeft (k tag : Byte) (r : Result) (l : List Byte) (s : State) :
    RationsLeft s (reply k tag r l s) := .of_view rfl

theorem answer_rationsLeft (k tag : Byte) (l : List Byte) (s : State) : RationsLeft s (s.answer k tag l) := .of_view rfl

theorem GrantsKept.replied {s t : State} (h : GrantsKept s t) (k tag : Byte) (r : Result) (l : List Byte) :
    GrantsKept s (reply k tag r l t) := h.trans (reply_rationsLeft k tag r l t).kept

theorem GrantsKept.answered {s t : State} (h : GrantsKept s t) (k tag : Byte) (r : Result) (l : List Byte) :
    GrantsKept s (finish (reply k tag r l t)) := (h.replied k tag r l).finished

theorem refuse_grantsKept (k tag : Byte) (r : Reason) (s : State) : GrantsKept s (refuse k tag r s) := .of_view rfl

theorem askPass_rationsLeft (s : State) : RationsLeft s (askPass s) := .of_view rfl

theorem note_rationsLeft (k : NoticeKind) (b d1 d2 d3 d4 : Byte) (s : State) :
    RationsLeft s (note k b d1 d2 d3 d4 s) := (note_touch k b d1 d2 d3 d4 s).rationsLeft

theorem OnlyLatches.kept {s t : State} (h : OnlyLatches s t) : GrantsKept s t := h.rationsLeft.kept

theorem OnlyCustody.kept {s t : State} (h : OnlyCustody s t) : GrantsKept s t := h.rationsLeft.kept

theorem OnlyLanes.kept {s t : State} (h : OnlyLanes s t) : GrantsKept s t := h.rationsLeft.kept

/-! ### The bays -/

theorem changeBay_grantsKept (b : Bay) {n : BayState} (out : n ≠ .charging) (s : State) :
    GrantsKept s (changeBay b n s) :=
  report_grantsKept (r := (s.bay b).moved n) (.refl _) out rfl (if_neg out)

theorem enterQualifying_grantsKept (b : Bay) (s : State) : GrantsKept s (enterQualifying b s) :=
  report_grantsKept (.refl _)

theorem leaveHold_grantsKept (b : Bay) (s : State) : GrantsKept s (leaveHold b s) :=
  (setBay_rationsLeft s b _).kept.trans (enterQualifying_grantsKept b _)

theorem probeFault_grantsKept (b : Bay) (s : State) : GrantsKept s (probeFault b s) :=
  report_grantsKept (note_rationsLeft _ _ _ _ _ _ _)

theorem faultState_out (n limit : Nat) : faultState n limit ≠ .charging := by
  rcases faultState_cases n limit with e | e <;> simp [e]

theorem transientFault_grantsKept (b : Bay) (kind : FaultKind) (detail : Byte) (s : State) :
    GrantsKept s (transientFault b kind detail s) :=
  report_grantsKept (note_rationsLeft _ _ _ _ _ _ _) (faultState_out _ _) rfl (if_neg (faultState_out _ _))

theorem allocAttach_rationsLeft (b : Bay) (s : State) : RationsLeft s (allocAttach b s) := setChg_rationsLeft s b _

theorem allocDetach_rationsLeft (b : Bay) (s : State) : RationsLeft s (allocDetach b s) := setChg_rationsLeft s b _

/-- R3: an attach seats the tablet of a bay whose state goes on, or starts the probe of an EMPTY bay. -/
theorem attach_grantsKept (b : Bay) (s : State) : GrantsKept s (attach b s) := by
  have handed (u : State) (k : Byte) : RationsLeft u (allocAttach b (custodyAttach b (note .attached (bayNumber b) k 0 0 0 u))) :=
    ((note_rationsLeft _ _ _ _ _ _ u).trans (custodyAttach_touch b _).rationsLeft).trans (allocAttach_rationsLeft b _)
  refine GrantsKept.finished ?_
  by_cases empty : (s.bay b).state = .empty
  · rw [attached_empty s.time.ms empty]
    exact report_grantsKept (n := .qualifying) (handed _ _)
  · rw [attached_seated s.time.ms empty]
    dsimp only
    rw [reportChange, if_pos rfl]
    exact ((setBay_rationsLeft s b _).trans (handed _ _)).kept

theorem attachEvent_grantsKept (b : Bay) (s : State) : GrantsKept s (attachEvent b s) := by
  have pin : GrantsKept s (setSignature b true s) := .of_view rfl
  exact .ite (fun _ => .refl s) fun _ => pin.trans (attach_grantsKept b _)

theorem detach_grantsKept (b : Bay) (s : State) : GrantsKept s (detach b s) := by
  have out : (s.bay b).detached.state ≠ .charging := by
    rcases afterDetach_cases (s.bay b).state with e | e | e <;> simp [BayRec.detached, BayRec.moved, e]
  unfold detach
  refine GrantsKept.finished (GrantsKept.trans (report_grantsKept ?_ out) (schedDetach_touch b _).kept)
  exact ((note_rationsLeft _ _ _ _ _ _ _).trans (custodyDetach_touch b _).rationsLeft).trans
    (allocDetach_rationsLeft b _)

theorem detachEvent_grantsKept (b : Bay) (s : State) : GrantsKept s (detachEvent b s) := by
  have pin : GrantsKept s (setSignature b false s) := .of_view rfl
  exact .when_ fun _ => pin.trans (detach_grantsKept b _)

theorem probeCompletes_grantsKept (b : Bay) (n : Nat) (short : Bool) (s : State) :
    GrantsKept s (probeCompletes b n short s) :=
  .when_ fun _ => GrantsKept.finished (.ite (fun _ => probeFault_grantsKept b s) fun _ =>
    changeBay_grantsKept b (by simp) s)

theorem shortTrip_grantsKept (b : Bay) (s : State) : GrantsKept s (shortTrip b s) :=
  .when_ fun _ => (transientFault_grantsKept b _ _ s).finished

theorem backoffExpires_grantsKept (b : Bay) (s : State) : GrantsKept s (backoffExpires b s) := by
  unfold backoffExpires
  dsimp only
  split
  · exact .ite (fun _ => (leaveHold_grantsKept b s).finished) fun _ => (setBay_rationsLeft s b _).kept
  · exact .refl s

theorem cleanChargeExpires_grantsKept (b : Bay) (s : State) : GrantsKept s (cleanChargeExpires b s) := by
  unfold cleanChargeExpires
  dsimp only
  split
  · exact .refl s
  · exact (setBay_rationsLeft s b _).kept

theorem takeBayEnableOff_grantsKept (t b : Byte) (s : State) : GrantsKept s (takeBayEnableOff t b s) := by
  unfold takeBayEnableOff
  split
  · exact refuse_grantsKept _ _ _ s
  · exact GrantsKept.answered (.ite (fun _ => .refl s) fun _ => changeBay_grantsKept _ (by simp) s) _ _ _ _

theorem takeBayEnableOn_grantsKept (t b : Byte) (s : State) : GrantsKept s (takeBayEnableOn t b s) := by
  unfold takeBayEnableOn
  split
  · exact refuse_grantsKept _ _ _ s
  · exact GrantsKept.answered (.when_ fun _ => .ite (fun _ => enterQualifying_grantsKept _ s) fun _ =>
      changeBay_grantsKept _ (by simp) s) _ _ _ _

theorem clearFault_grantsKept (b : Bay) (s : State) : GrantsKept s (clearFault b s) := by
  have cleared := (setBay_rationsLeft s b { s.bay b with retries := 0, lastFault := none }).kept
  unfold clearFault
  dsimp only
  split
  · exact cleared.trans (.ite (fun _ => enterQualifying_grantsKept b _) fun _ => changeBay_grantsKept b (by simp) _)
  · exact cleared.trans (enterQualifying_grantsKept b _)
  all_goals exact cleared

theorem takeFaultClear_grantsKept (t b : Byte) (s : State) : GrantsKept s (takeFaultClear t b s) := by
  unfold takeFaultClear
  split
  · exact refuse_grantsKept _ _ _ s
  · exact (clearFault_grantsKept _ s).answered _ _ _ _

theorem takeBayQuery_grantsKept (t b : Byte) (s : State) : GrantsKept s (takeBayQuery t b s) := by
  unfold takeBayQuery
  split
  · exact refuse_grantsKept _ _ _ s
  · exact (reply_rationsLeft _ _ _ _ s).kept

/-! ### Samples and rounds -/

/-- What the Allocator's tests of a sample leave of a bay's record: its profile, its target and its pending increase. -/
def aimView (c : ChargeRec) := (c.profile, c.target, c.pendingInc)

theorem pressTest_aim (cfg : ChargeSettings) (c : ChargeRec) (p : Profile) (draw : Nat) :
    aimView (pressTest cfg c p draw).record = aimView c := by
  unfold pressTest
  split
  · split <;> rfl
  · rfl

theorem reclaimTest_aim (cfg : ChargeSettings) (c : ChargeRec) (p : Profile) (draw : Nat) :
    aimView (reclaimTest cfg c p draw).record = aimView c := by
  unfold reclaimTest
  split
  · split
    · dsimp only
      split <;> rfl
    · exact pressTest_aim _ _ _ _
  · exact pressTest_aim _ _ _ _

/-- R79 to R84: a counted sample leaves what a pass has aimed at. -/
theorem countSample_aim (cfg : ChargeSettings) (c : ChargeRec) (p : Profile) (grant draw : Nat) :
    aimView (countSample cfg c p grant draw).record = aimView c := by
  unfold countSample
  split
  · dsimp only
    split
    · rfl
    · exact reclaimTest_aim _ _ _ _
  · dsimp only
    split
    · rfl
    · exact reclaimTest_aim _ _ _ _
  · split
    · split <;> rfl
    · rfl

theorem allocSample_grantsKept (b : Bay) (draw : Byte) (s : State) : GrantsKept s (allocSample b draw s) := by
  have aim := countSample_aim s.alloc.settings (s.chg b) (s.profile b) (s.bay b).grant draw.toNat
  simp only [aimView, Prod.mk.injEq] at aim
  obtain ⟨profile, target, pending⟩ := aim
  have set := setChg_rationsLeft s b _ profile target pending
  refine .when_ fun _ => RationsLeft.kept ?_
  unfold takeAction
  split <;> rename_i action <;> rw [action] at set
  · exact set
  · exact (set.trans (note_rationsLeft _ _ _ _ _ _ _)).trans (askPass_rationsLeft _)
  · exact set.trans (askPass_rationsLeft _)

theorem faultChecks_grantsKept (b : Bay) (draw : Byte) (reading : Option Byte) (s : State) :
    GrantsKept s (faultChecks b draw reading s) := by
  unfold faultChecks
  refine GrantsKept.trans ?_ (setBay_rationsLeft _ b _).kept
  split
  · exact transientFault_grantsKept b _ _ s
  · exact (setBay_rationsLeft s b _).kept

theorem coolDownSample_grantsKept (b : Bay) (reading : Option Byte) (s : State) :
    GrantsKept s (coolDownSample b reading s) := by
  unfold coolDownSample
  split
  · exact .refl s
  · exact .when_ fun _ => leaveHold_grantsKept b s

theorem energySample_kept (now : Nat) (draw : Byte) (r : BayRec) :
    (energySample now draw r).state = r.state ∧ (energySample now draw r).grant = r.grant := by
  unfold energySample
  dsimp only
  split <;> exact ⟨rfl, rfl⟩

theorem baySample_grantsKept (b : Bay) (draw : Byte) (reading : Option Byte) (s : State) :
    GrantsKept s (baySample b draw reading s) := by
  obtain ⟨state, grant⟩ := energySample_kept s.time.ms draw (s.bay b)
  exact ((setBay_rationsLeft s b _ state grant).kept.trans (faultChecks_grantsKept b draw reading _)).trans
    (coolDownSample_grantsKept b reading _)

theorem askNext_rationView (s : State) : rationView (askNext s) = rationView s := by
  unfold askNext
  split <;> rfl

theorem recordSample_grantsKept (b : Bay) (d t : Byte) (s : State) : GrantsKept s (recordSample b d t s) := by
  unfold recordSample
  refine GrantsKept.finished (GrantsKept.trans ?_ (allocSample_grantsKept b d _))
  refine GrantsKept.trans (.of_view ((askNext_rationView _).trans ?_)) (baySample_grantsKept b d _ _)
  rw [writeSample_eq]
  rfl

theorem sampleArrives_grantsKept (b : Bay) (d t : Byte) (s : State) : GrantsKept s (sampleArrives b d t s) :=
  .when_ fun _ => recordSample_grantsKept b d t s

theorem recordZone_grantsKept (z : Zone) (v : Byte) (s : State) : GrantsKept s (recordZone z v s) :=
  .of_view (askNext_rationView _)

theorem zoneArrives_grantsKept (z : Zone) (v : Byte) (s : State) : GrantsKept s (zoneArrives z v s) :=
  .when_ fun _ => recordZone_grantsKept z v s

theorem readingMissed_grantsKept (s : State) : GrantsKept s (readingMissed s) := by
  unfold readingMissed
  split
  · exact .refl s
  · exact recordSample_grantsKept _ _ _ s
  · exact recordZone_grantsKept _ _ s

theorem recompute_grantsKept (s : State) : GrantsKept s (recompute s) := (recompute_touch s).kept

theorem thermalCompletion_grantsKept (z : Vector Byte 4) (s : State) : GrantsKept s (thermalCompletion z s) := by
  have taken : GrantsKept s (zonesTaken z s) := .of_view rfl
  have computed := taken.trans (recompute_grantsKept _)
  rw [thermalCompletion_eq]
  exact .ite (fun _ => computed.trans (askPass_rationsLeft _).kept) fun _ => computed

theorem completeRound_grantsKept (r : Round) (s : State) : GrantsKept s (completeRound r s) := by
  have published : GrantsKept s (publish r.thermal s) := .of_view rfl
  have after (s : State) : GrantsKept s (afterRound s) := by rw [afterRound_eq]; exact .of_view rfl
  unfold completeRound
  refine GrantsKept.finished (GrantsKept.trans ?_ (after _))
  refine GrantsKept.trans ?_ (.when_ fun _ => (note_rationsLeft _ _ _ _ _ _ _).kept)
  exact published.trans (.when_ fun _ => (thermalCompletion_grantsKept _ _).trans (runAsked_grantsKept _))

theorem roundCompletes_grantsKept (s : State) : GrantsKept s (roundCompletes s) := by
  unfold roundCompletes
  split
  · exact .refl s
  · exact .when_ fun _ => completeRound_grantsKept _ s

theorem periodExpires_grantsKept (s : State) : GrantsKept s (periodExpires s) := by
  unfold periodExpires
  split
  · exact .of_view rfl
  · exact .refl s

theorem takeMeasure_grantsKept (t : Byte) (s : State) : GrantsKept s (takeMeasure t s) := by
  unfold takeMeasure
  dsimp only
  split <;> exact .of_view rfl

theorem takeScanSet_grantsKept (t m p : Byte) (s : State) : GrantsKept s (takeScanSet t m p s) := by
  unfold takeScanSet
  split
  · exact refuse_grantsKept _ _ _ s
  · simp only [applyScan_eq]
    exact .of_view rfl

/-! ### Profiles, and the settings of the Allocator and the Budget Unit -/

/-- R12, R76: a bay whose profile ceiling changes has its applied grant capped. -/
theorem Ration.capped_kept (x : Ration) (ceiling : Nat) :
    Kept x { x with grant := min ceiling x.grant, ceiling := ceiling } where
  granted law := ⟨Nat.min_le_left _ _, fun out => by simp [law.2 out]⟩
  aimed _ aimed := ⟨(Nat.min_le_right _ _).trans aimed.1, aimed.2⟩
  committed _ := max_le_max (Nat.min_le_right _ _) le_rfl

theorem profileSet_ration (i : Fin 8) (p : Profile) (s : State) (b : Bay) :
    (profileSet i p s).ration b = if (s.chg b).profile = i
      then { s.ration b with grant := min p.ceiling (s.bay b).grant, ceiling := p.ceiling } else s.ration b := by
  have profiles : (profileSet i p s).alloc.profiles = s.alloc.profiles.set i p := rfl
  simp only [State.ration, State.profile, profiles, chg_profileSet, bay_profileSet, followedCharge, followedBay]
  by_cases uses : (s.chg b).profile = i
  · simp [uses]
  · have other : (s.alloc.profiles.set i p)[(s.chg b).profile] = s.alloc.profiles[(s.chg b).profile] :=
      Vector.getElem_set_ne _ _ fun e => uses (Fin.ext e.symm)
    simp only [if_neg uses, other]

theorem profileSet_grantsKept (i : Fin 8) (p : Profile) (s : State) : GrantsKept s (profileSet i p s) := by
  refine .of_rations rfl fun b => ?_
  rw [profileSet_ration]
  split
  · exact Ration.capped_kept _ _
  · exact .refl _

theorem takeProfileSet_grantsKept (t index : Byte) (a : Profile) (s : State) :
    GrantsKept s (takeProfileSet t index a s) := by
  by_cases above : 7 < index.toNat
  · unfold takeProfileSet
    rw [profileOf_none above]
    exact refuse_grantsKept _ _ _ s
  · rw [takeProfileSet_eq (i := ⟨index.toNat, by omega⟩) rfl]
    refine GrantsKept.finished (GrantsKept.trans ?_ (.when_ fun _ => (askPass_rationsLeft _).kept))
    exact (profileSet_grantsKept _ _ s).trans (answer_rationsLeft _ _ _ _).kept

theorem bayProfiled_ration (b : Bay) (i : Fin 8) (s : State) (c : Bay) :
    (bayProfiled b i s).ration c = if c = b
      then { s.ration b with
        grant := min s.alloc.profiles[i].ceiling (s.bay b).grant, ceiling := s.alloc.profiles[i].ceiling }
      else s.ration c := by
  unfold bayProfiled
  rw [ration_setBay]
  by_cases at_ : c = b
  · simp only [if_pos at_, State.ration, State.profile, bay_setChg, chg_setChg_self, setChg_alloc]
  · simp only [if_neg at_, State.ration, State.profile, bay_setChg, chg_setChg_ne s b c _ at_, setChg_alloc]

theorem bayProfiled_grantsKept (b : Bay) (i : Fin 8) (s : State) : GrantsKept s (bayProfiled b i s) := by
  refine .of_rations rfl fun c => ?_
  rw [bayProfiled_ration]
  split
  · subst_vars
    exact Ration.capped_kept _ _
  · exact .refl _

theorem takeBayProfile_grantsKept (t bay index : Byte) (s : State) : GrantsKept s (takeBayProfile t bay index s) := by
  by_cases refused : bayOf bay = none ∨ 7 < index.toNat
  · rw [takeBayProfile_range refused]
    exact .of_view rfl
  · obtain ⟨some, le⟩ := not_or.1 refused
    obtain ⟨b, named⟩ := Option.ne_none_iff_exists'.1 some
    rw [takeBayProfile_eq (i := ⟨index.toNat, by omega⟩) named rfl]
    refine GrantsKept.finished (GrantsKept.trans ?_ (askPass_rationsLeft _).kept)
    exact (bayProfiled_grantsKept b _ s).trans (answer_rationsLeft _ _ _ _).kept

theorem takeChargeSet_grantsKept (t : Byte) (a : ChargeSettings) (s : State) : GrantsKept s (takeChargeSet t a s) := by
  have set : GrantsKept s { s with alloc := { s.alloc with settings := clampCharge a } } := .of_view rfl
  exact ((set.replied _ _ _ _).trans (askPass_rationsLeft _).kept).finished

theorem takeBudgetSet_grantsKept (t : Byte) (a : BudgetSettings) (s : State) : GrantsKept s (takeBudgetSet t a s) := by
  have set : GrantsKept s { s with budget := { s.budget with settings := clampBudget a } } := .of_view rfl
  exact ((set.replied _ _ _ _).trans (recompute_grantsKept _)).finished

theorem shedAccepts_grantsKept (a : Bool) (s : State) : GrantsKept s (shedAccepts a s) := by
  unfold shedAccepts
  refine .ite (fun _ => .of_view rfl) fun _ => GrantsKept.finished (GrantsKept.trans ?_ (recompute_grantsKept _))
  exact .of_view rfl

end Sys2Proof.Machine
end

