-- ==== Sys2Proof/Proofs/RationDoors.lean ====
section
/-! PROOF. The latches, the custody records and the lanes keep the laws of grants, targets and power (R66, R68). -/

namespace Sys2Proof.Machine

/-! ### The latches -/

theorem contactEvent_grantsKept (b : Bay) (c : Contact) (a : Bool) (s : State) : GrantsKept s (contactEvent b c a s) := by
  have pin : GrantsKept s (setContactPin b c a s) := .of_view rfl
  exact ((pin.trans (acceptLevel_touch b c a _).kept).trans
    (.when_ fun _ => ((startMachine_touch b _).trans (arbitrate_touch _)).kept)).finished

theorem latchMachineStart_grantsKept (b : Bay) (o i d : Bool) (s : State) :
    GrantsKept s (latchMachineStart b o i d s) := by
  refine .ite (fun _ => .refl s) fun _ => GrantsKept.finished ?_
  refine GrantsKept.trans ?_ ((startMachine_touch b _).trans (arbitrate_touch _)).kept
  exact .of_view rfl

theorem travelTimeout_grantsKept (b : Bay) (s : State) : GrantsKept s (travelTimeout b s) := by
  unfold travelTimeout
  dsimp only
  split
  · exact ((((setLatch_touch s b _).trans (latchNote_touch _ _ _ _ _)).trans (handOnLatches_touch _ _ _)).trans
      (moverFreed_touch _ _)).kept.finished
  · exact .ite (fun _ => (((setLatch_touch s b _).trans (latchNote_touch _ _ _ _ _)).trans
      (moverFreed_touch _ _)).kept.finished) fun _ => (setLatch_touch s b _).kept
  · exact .refl s

theorem retryPauseExpires_grantsKept (b : Bay) (s : State) : GrantsKept s (retryPauseExpires b s) := by
  unfold retryPauseExpires
  dsimp only
  split
  · exact (setLatch_touch s b _).kept
  · exact .refl s

theorem windowExpires_grantsKept (b : Bay) (s : State) : GrantsKept s (windowExpires b s) := by
  unfold windowExpires
  split
  · exact ((endWindow_touch b s).trans (arbitrate_touch _)).kept.finished
  · exact .refl s

theorem closeSettleExpires_grantsKept (b : Bay) (s : State) : GrantsKept s (closeSettleExpires b s) := by
  unfold closeSettleExpires
  dsimp only
  split
  · exact (((setLatch_touch s b _).trans (queueMotion_touch b _ _)).trans (arbitrate_touch _)).kept.finished
  · exact .refl s

theorem takeLatchSet_grantsKept (t : Byte) (a : LatchSettings) (s : State) : GrantsKept s (takeLatchSet t a s) := by
  have set : GrantsKept s { s with latchUnit := { s.latchUnit with settings := clampLatch a } } := .of_view rfl
  unfold takeLatchSet
  exact GrantsKept.answered ((set.trans
    (.when_ fun _ => (recompute_grantsKept _).trans (runAsked_grantsKept _))).trans
    (.when_ fun _ => (arbitrate_touch _).kept)) _ _ _ _

theorem takeLockdownOn_grantsKept (t : Byte) (s : State) : GrantsKept s (takeLockdownOn t s) := by
  have set : GrantsKept s { s with link := { s.link with lockdown := true } } := .of_view rfl
  unfold takeLockdownOn
  exact GrantsKept.answered (.ite (fun _ => set) fun _ => set.trans (latchLockdown_touch _).kept) _ _ _ _

/-! ### Custody -/

theorem acceptCheckout_grantsKept (t : Byte) (b : Bay) (h : Word16) (g : Byte) (d : Nat) (s : State) :
    GrantsKept s (acceptCheckout t b h g d s) := by
  unfold acceptCheckout
  refine GrantsKept.answered (GrantsKept.trans ?_ (releaseRequest_touch b _).kept) _ _ _ _
  exact (((abortForCheckout_touch b s).custody.trans (endReservation_touch b _)).trans (setPurpose_touch b _ _)).kept

theorem takeCheckout_grantsKept (t b : Byte) (h : Word16) (g : Byte) (d : Word16) (f : Byte) (s : State) :
    GrantsKept s (takeCheckout t b h g d f s) := by
  have refused := fun r => refuse_grantsKept 0x30 t r s
  have accepted := fun b => acceptCheckout_grantsKept t b h g (dueTime d) s
  unfold takeCheckout
  refine .ite (fun _ => refused _) fun _ => .ite (fun _ => refused _) fun _ => .ite (fun _ => refused _) fun _ => ?_
  split
  · refine .ite (fun _ => refused _) fun _ => ?_
    split
    · exact refused _
    · exact accepted _
  · split
    · exact refused _
    · exact .ite (fun _ => refused _) fun _ => accepted _

theorem takeReturn_grantsKept (t : Byte) (h : Word16) (s : State) : GrantsKept s (takeReturn t h s) := by
  have refused := fun r => refuse_grantsKept 0x31 t r s
  unfold takeReturn
  refine .ite (fun _ => refused _) fun _ => .ite (fun _ => refused _) fun _ => .ite (fun _ => refused _) fun _ => ?_
  split
  · exact refused _
  · refine .ite (fun _ => refused _) fun _ => .ite (fun _ => refused _) fun _ => GrantsKept.answered ?_ _ _ _ _
    exact ((setPurpose_touch _ _ s).latches.trans (releaseRequest_touch _ _)).kept

theorem acceptService_grantsKept (t : Byte) (b : Bay) (s : State) : GrantsKept s (acceptService t b s) := by
  unfold acceptService
  refine GrantsKept.answered (GrantsKept.trans ?_ (releaseRequest_touch b _).kept) _ _ _ _
  refine GrantsKept.trans ?_ (setPurpose_touch b _ _).kept
  refine GrantsKept.trans ?_ (.when_ fun _ => (lapsePurpose_touch b _).kept)
  split
  · exact (release_touch _ _ s).kept
  · exact .refl s

theorem takeServiceOpen_grantsKept (t b f : Byte) (s : State) : GrantsKept s (takeServiceOpen t b f s) := by
  have refused := fun r => refuse_grantsKept 0x21 t r s
  unfold takeServiceOpen
  refine .ite (fun _ => refused _) fun _ => ?_
  split
  · exact refused _
  · exact .ite (fun _ => refused _) fun _ => .ite (fun _ => refused _) fun _ => .ite (fun _ => refused _) fun _ =>
      acceptService_grantsKept t _ s

theorem giveReservations_touch (g : Byte) (due : Word16) (bs : List Bay) (s : State) :
    OnlyCustody s (bs.foldl (fun s b => giveReservation g due b s) s) :=
  foldl_rel .refl .trans (fun b s => setCust_touch s b _) bs s

theorem acceptReserve_grantsKept (t g : Byte) (n : Nat) (d : Word16) (s : State) :
    GrantsKept s (acceptReserve t g n d s) := by
  unfold acceptReserve
  exact GrantsKept.answered ((giveReservations_touch g _ _ s).kept.trans (eachBay_grantsKept (fun b s =>
    .when_ fun _ => (testHorizon_touch b s).kept) _)) _ _ _ _

theorem takeReserve_grantsKept (t g c : Byte) (d : Word16) (s : State) : GrantsKept s (takeReserve t g c d s) :=
  .ite (fun _ => refuse_grantsKept _ _ _ s) fun _ => .ite (fun _ => refuse_grantsKept _ _ _ s) fun _ =>
    acceptReserve_grantsKept _ _ _ _ s

theorem takeReserveCancel_grantsKept (t g : Byte) (s : State) : GrantsKept s (takeReserveCancel t g s) :=
  .ite (fun _ => refuse_grantsKept _ _ _ s) fun _ => GrantsKept.answered (eachBay_grantsKept (fun b s =>
    .when_ fun _ => (endReservation_touch b s).kept) s) _ _ _ _

theorem takeCustodyLoad_grantsKept (t b : Byte) (h d : Word16) (s : State) :
    GrantsKept s (takeCustodyLoad t b h d s) := by
  have refused := fun r => refuse_grantsKept 0x34 t r s
  unfold takeCustodyLoad
  split
  · exact refused _
  · exact .ite (fun _ => refused _) fun _ => .ite (fun _ => refused _) fun _ => .ite (fun _ => refused _) fun _ =>
      (setCust_touch s _ _).kept.replied _ _ _ _

theorem takeCustodySet_grantsKept (t : Byte) (a : CustodySettings) (s : State) :
    GrantsKept s (takeCustodySet t a s) := by
  have set : GrantsKept s { s with custodySet := clampCustody a } := .of_view rfl
  refine .ite (fun _ => refuse_grantsKept _ _ _ s) fun _ => GrantsKept.answered (set.trans ?_) _ _ _ _
  exact eachBay_grantsKept (fun b s => ((testExpiry_touch b s).trans (testHorizon_touch b _)).kept) _

theorem advanceMinute_grantsKept (s : State) : GrantsKept s (advanceMinute s) := by
  refine GrantsKept.finished (GrantsKept.trans ?_ (custodyMinute_touch _).kept)
  exact .of_view rfl

/-! ### The lanes -/

theorem takeProvAdd_grantsKept (t b c : Byte) (j : Word16) (a : Byte) (s : State) :
    GrantsKept s (takeProvAdd t b c j a s) := by
  have added : ∀ b c n, GrantsKept s (addEntry b c j n s) := fun _ _ _ => .of_view rfl
  unfold takeProvAdd
  split
  · split
    · exact refuse_grantsKept _ _ _ s
    · exact ((added _ _ _).trans (assignmentRun_touch _).kept).answered _ _ _ _
  · exact refuse_grantsKept _ _ _ s

theorem takeProvCancel_grantsKept (t b : Byte) (s : State) : GrantsKept s (takeProvCancel t b s) := by
  unfold takeProvCancel
  split
  · exact refuse_grantsKept _ _ _ s
  · split
    · exact (release_touch _ _ s).kept.answered _ _ _ _
    · split
      · exact (setQueue_touch s _).kept.replied _ _ _ _
      · exact (reply_rationsLeft _ _ _ _ s).kept

theorem takeProvDone_grantsKept (t l b : Byte) (j : Word16) (r : Byte) (s : State) :
    GrantsKept s (takeProvDone t l b j r s) := by
  unfold takeProvDone
  split
  · exact .ite (fun _ => (release_touch _ _ s).kept.answered _ _ _ _) fun _ => refuse_grantsKept _ _ _ s
  · exact refuse_grantsKept _ _ _ s

theorem takeLaneServiceOut_grantsKept (t l : Byte) (s : State) : GrantsKept s (takeLaneServiceOut t l s) := by
  unfold takeLaneServiceOut
  split
  · exact refuse_grantsKept _ _ _ s
  · exact (laneOut_touch _ s).kept.answered _ _ _ _

theorem takeLaneServiceIn_grantsKept (t l : Byte) (s : State) : GrantsKept s (takeLaneServiceIn t l s) := by
  unfold takeLaneServiceIn
  split
  · exact refuse_grantsKept _ _ _ s
  · exact (laneIn_touch _ s).kept.answered _ _ _ _

theorem putSlots_grantsKept (slots : List ProvClass) (s : State) : GrantsKept s (putSlots slots s) := by
  refine GrantsKept.trans ?_ (assignmentRun_touch _).kept
  exact .of_view rfl

theorem takeSlotTable_grantsKept (t n : Byte) (cs : List Byte) (s : State) :
    GrantsKept s (takeSlotTable t n cs s) := by
  refine .ite (fun _ => (reply_rationsLeft _ _ _ _ s).kept) fun _ => .ite (fun _ => refuse_grantsKept _ _ _ s) fun _ => ?_
  split
  · exact refuse_grantsKept _ _ _ s
  · exact (putSlots_grantsKept _ s).answered _ _ _ _

theorem lineCheckReturns_grantsKept (l : Lane) (n : Nat) (d : DataLine) (s : State) :
    GrantsKept s (lineCheckReturns l n d s) := by
  unfold lineCheckReturns
  split
  · exact .when_ fun _ => .ite (fun _ => (setLane_touch s _ _).kept) fun _ =>
      ((setBay_rationsLeft s _ _).kept.trans (release_touch _ _ _).kept).finished
  · exact .refl s

theorem lineCheckMissed_grantsKept (l : Lane) (s : State) : GrantsKept s (lineCheckMissed l s) := by
  unfold lineCheckMissed
  split
  · exact (release_touch _ _ s).kept.finished
  · exact .refl s

theorem patternEnds_grantsKept (l : Lane) (k n : Nat) (s : State) : GrantsKept s (patternEnds l k n s) := by
  have active (e : Entry) (u : State) : OnlyLanes u (enterActive l e u) :=
    (setLane_touch u _ _).trans (provNote_touch _ _ _ _ _ _)
  unfold patternEnds
  split
  · exact .when_ fun _ => .ite (fun _ => ((setLane_touch s _ _).trans (active _ _)).kept) fun _ =>
      ((setLane_touch s _ _).trans (release_touch _ _ _)).kept.finished
  · exact .refl s

theorem sessionExpires_grantsKept (l : Lane) (s : State) : GrantsKept s (sessionExpires l s) := by
  unfold sessionExpires
  split
  · exact (release_touch _ _ s).kept.finished
  · exact .refl s

end Sys2Proof.Machine
end

