-- ==== Sys2Proof/Proofs/RationsKept.lean ====
section
/-! PROOF. The store, the resets, the link and the tick keep the laws of grants, targets and power, and so does every step
(R12, R66, R68). -/

namespace Sys2Proof.Machine

/-! ### The store and the resets -/

theorem takeStoreSave_grantsKept (t : Byte) (s : State) : GrantsKept s (takeStoreSave t s) := by
  unfold takeStoreSave
  split <;> exact .of_view rfl

theorem saveCompletes_grantsKept (s : State) : GrantsKept s (saveCompletes s) := by
  unfold saveCompletes
  split
  · exact .refl s
  · exact .of_view rfl

theorem ration_resetTo (s : State) (c : Settings) (store : Store) (free : Nat) (held : Option ResetCause)
    (round : Option Round) (b : Bay) : ((resetTo s c store free held round).ration b).Cleared := by
  simp [Ration.Cleared, State.ration, State.bay, State.chg, resetTo, BayRec.initial]

theorem resetPart_grantsKept (s : State) : GrantsKept s (resetPart s) := by
  obtain ⟨words, free, _, e⟩ := resetPart_eq s
  rw [e]
  exact .of_cleared rfl (ration_resetTo s _ _ _ _ _)

theorem setHeld_grantsKept (s : State) (h : Option ResetCause) : GrantsKept s { s with held := h } := .of_view rfl

theorem startRound_grantsKept (m : Bool) (s : State) : GrantsKept s (startRound m s) := .of_view rfl

theorem endReset_grantsKept (s : State) : GrantsKept s (endReset s) :=
  (setHeld_grantsKept s none).trans (startRound_grantsKept false _)

theorem fullReset_grantsKept (c : ResetCause) (s : State) : GrantsKept s (fullReset c s) := by
  have reset := resetPart_grantsKept s
  cases c
  case powerOn => exact reset.trans (setHeld_grantsKept _ _)
  case rstLow => exact reset.trans (setHeld_grantsKept _ _)
  case restartFull => exact .ite (fun _ => .refl s) fun _ => reset.trans (endReset_grantsKept _)

theorem resetEnds_grantsKept (s : State) : GrantsKept s (resetEnds s) := by
  unfold resetEnds
  split
  · exact .refl s
  · exact endReset_grantsKept s

theorem ration_clearBlocks (s : State) (b : Bay) : ((clearBlocks s).ration b).Cleared := by
  simp [Ration.Cleared, State.ration, chg_clearBlocks, BayRec.cleared, BayRec.initial, ChargeRec.initial]

/-- R192: a warm restart leaves no grant, no target, no pending increase and no last pass. -/
theorem warmRestart_grantsKept (s : State) : GrantsKept s (warmRestart s) := by
  have cleared (s : State) : GrantsKept s (clearBlocks s) := .of_cleared rfl (ration_clearBlocks s)
  obtain ⟨st, n, e⟩ := abandonSave_eq s
  have abandoned : GrantsKept s (abandonSave s) := by rw [e]; exact .of_view rfl
  exact (abandoned.trans (cleared _)).trans (startRound_grantsKept false _)

/-! ### The link -/

theorem enterAutonomous_grantsKept (s : State) : GrantsKept s (enterAutonomous s) := by
  have set : GrantsKept s (setMode .autonomous s) := .of_view rfl
  refine GrantsKept.finished (GrantsKept.trans ?_ (recompute_grantsKept _))
  exact ((set.trans (note_touch _ _ _ _ _ _ _).kept).trans (schedAutonomous_touch _).kept).trans
    (latchAutonomous_touch _).kept

theorem watchdogExpires_grantsKept (s : State) : GrantsKept s (watchdogExpires s) := by
  have stopped : GrantsKept s { s with link := { s.link with watchdog := none } } := .of_view rfl
  unfold watchdogExpires
  split
  · exact .refl s
  · dsimp only
    split
    · exact stopped.trans (enterAutonomous_grantsKept _)
    · exact stopped

theorem takeResume_grantsKept (t : Byte) (s : State) : GrantsKept s (takeResume t s) := by
  have set : GrantsKept s (setMode .normal s) := .of_view rfl
  unfold takeResume
  split
  · exact (reply_rationsLeft _ _ _ _ s).kept
  · exact ((set.trans (recompute_grantsKept _)).trans (assignmentRun_touch _).kept).answered _ _ _ _

theorem takeLinkSet_grantsKept (t c : Byte) (s : State) : GrantsKept s (takeLinkSet t c s) :=
  .ite (fun _ => refuse_grantsKept _ _ _ s) fun _ => .of_view rfl

/-- R175: a request that its owning block serves keeps the laws. -/
theorem serve_grantsKept (i : Instr) (s : State) : GrantsKept s (serve i s) := by
  cases i <;> simp only [serve]
  case status => exact .of_view rfl
  case notices => exact .of_view rfl
  case snapshot => exact .of_view rfl
  case bayQuery => exact takeBayQuery_grantsKept _ _ s
  case measure => exact takeMeasure_grantsKept _ s
  case scanSet => exact takeScanSet_grantsKept _ _ _ s
  case budgetSet => exact takeBudgetSet_grantsKept _ _ s
  case profileSet => exact takeProfileSet_grantsKept _ _ _ s
  case bayProfile => exact takeBayProfile_grantsKept _ _ _ s
  case bayEnableOff => exact takeBayEnableOff_grantsKept _ _ s
  case bayEnableOn => exact takeBayEnableOn_grantsKept _ _ s
  case chargeSet => exact takeChargeSet_grantsKept _ _ s
  case supervisionSet => exact .of_view rfl
  case faultClear => exact takeFaultClear_grantsKept _ _ s
  case latchSet => exact takeLatchSet_grantsKept _ _ s
  case serviceOpen => exact takeServiceOpen_grantsKept _ _ _ s
  case lockdownOn => exact takeLockdownOn_grantsKept _ s
  case lockdownOff => exact .of_view rfl
  case checkout => exact takeCheckout_grantsKept _ _ _ _ _ _ s
  case returnTablet => exact takeReturn_grantsKept _ _ s
  case reserve => exact takeReserve_grantsKept _ _ _ _ s
  case reserveCancel => exact takeReserveCancel_grantsKept _ _ s
  case custodyLoad => exact takeCustodyLoad_grantsKept _ _ _ _ s
  case custodySet => exact takeCustodySet_grantsKept _ _ s
  case provAdd => exact takeProvAdd_grantsKept _ _ _ _ _ s
  case provCancel => exact takeProvCancel_grantsKept _ _ s
  case provDone => exact takeProvDone_grantsKept _ _ _ _ _ s
  case laneServiceOut => exact takeLaneServiceOut_grantsKept _ _ s
  case laneServiceIn => exact takeLaneServiceIn_grantsKept _ _ s
  case slotTable => exact takeSlotTable_grantsKept _ _ _ s
  case provSet => exact .of_view rfl
  case watchdogArm => exact .of_view rfl
  case resume => exact takeResume_grantsKept _ s
  case storeSave => exact takeStoreSave_grantsKept _ s
  case restartFull => exact .of_view rfl
  case restartWarm => exact (warmRestart_grantsKept s).replied _ _ _ _
  case linkSet => exact takeLinkSet_grantsKept _ _ s
  case unknownKind => exact .of_view rfl
  all_goals exact .refl s

theorem takeFrame_grantsKept (f : Frame) (s : State) : GrantsKept s (takeFrame f s) := by
  unfold takeFrame
  split
  · exact serve_grantsKept _ s
  · exact (reply_rationsLeft _ _ _ _ s).kept
  · exact refuse_grantsKept _ _ _ s

theorem takeNext_grantsKept (s : State) : GrantsKept s (takeNext s) := by
  unfold takeNext
  split
  · rename_i f rest _ _
    have taken : GrantsKept s { s with link := { s.link with buffer := rest } } := .of_view rfl
    exact taken.trans (takeFrame_grantsKept f _)
  · exact .refl s

theorem bufferFrame_grantsKept (f : Frame) (s : State) : GrantsKept s (bufferFrame f s) :=
  .ite (fun _ => .of_view rfl) fun _ => .of_view rfl

theorem discardFrame_grantsKept (s : State) : GrantsKept s (discardFrame s) := .of_view rfl

theorem setRx_grantsKept (r : Receiver) (s : State) : GrantsKept s (setRx r s) := .of_view rfl

theorem frameCompletes_grantsKept (bytes : List Byte) (s : State) : GrantsKept s (frameCompletes bytes s) := by
  have watched (s : State) : GrantsKept s (startWatchdog s) := .of_view rfl
  unfold frameCompletes
  split
  · exact discardFrame_grantsKept s
  · exact (((setRx_grantsKept _ s).trans (.when_ fun _ => watched _)).trans (bufferFrame_grantsKept _ _)).trans
      (takeNext_grantsKept _)

theorem huntByte_grantsKept (v : Byte) (g : Bool) (s : State) : GrantsKept s (huntByte v g s) :=
  .when_ fun _ => setRx_grantsKept _ s

theorem byteArrives_grantsKept (v : Byte) (g : Bool) (s : State) : GrantsKept s (byteArrives v g s) := by
  have discarded := discardFrame_grantsKept s
  unfold byteArrives
  split
  · exact huntByte_grantsKept _ _ s
  · exact .ite (fun _ => discarded.trans (huntByte_grantsKept _ _ _)) fun _ =>
      .ite (fun _ => .ite (fun _ => discarded) fun _ =>
        .ite (fun _ => frameCompletes_grantsKept _ s) fun _ => setRx_grantsKept _ s) fun _ => discarded

theorem gapExpires_grantsKept (s : State) : GrantsKept s (gapExpires s) := by
  unfold gapExpires
  split
  · exact .refl s
  · exact discardFrame_grantsKept s

theorem answerEnds_grantsKept (s : State) : GrantsKept s (answerEnds s) := by
  unfold answerEnds
  split
  · exact .refl s
  · refine .ite (fun _ => fullReset_grantsKept _ s) fun _ => GrantsKept.trans ?_ (takeNext_grantsKept _)
    exact .of_view rfl

/-! ### The tick -/

/-- R3, R4: the presence filter counts, or tells of an attach or a detach. -/
theorem samplePresence_grantsKept (b : Bay) (s : State) : GrantsKept s (samplePresence b s) := by
  have attached := attach_grantsKept b s
  have detached := detach_grantsKept b s
  unfold samplePresence
  refine .ite (fun _ => .ite (fun _ => ?_) fun _ => .ite (fun _ => detached) fun _ => ?_) fun _ =>
    .ite (fun _ => ?_) fun _ => .ite (fun _ => attached) fun _ => ?_
  all_goals exact (setBay_rationsLeft s b _).kept

theorem sampleShed_grantsKept (s : State) : GrantsKept s (sampleShed s) :=
  .ite (fun _ => .of_view rfl) fun _ => .ite (fun _ => shedAccepts_grantsKept _ s) fun _ => .of_view rfl

theorem sampleContact_grantsKept (b : Bay) (c : Contact) (s : State) : GrantsKept s (sampleContact b c s) :=
  .ite (fun _ => (acceptLevel_touch b c _ s).kept.finished) fun _ => (setLatch_touch s b _).kept

theorem startMachines_grantsKept (s : State) : GrantsKept s (startMachines s) := by
  have started : OnlyLatches s (eachBay startIfReady s) := eachBay_rel .refl .trans startIfReady_touch s
  exact .when_ fun _ => (started.trans (arbitrate_touch _)).kept.finished

theorem tickFilters_grantsKept (s : State) : GrantsKept s (tickFilters s) :=
  (((eachBay_grantsKept samplePresence_grantsKept s).trans (sampleShed_grantsKept _)).trans (eachBay_grantsKept (fun b s =>
    ((sampleContact_grantsKept b _ s).trans (sampleContact_grantsKept b _ _)).trans (sampleContact_grantsKept b _ _)) _)).trans
    (startMachines_grantsKept _)

theorem tickReading_grantsKept (s : State) : GrantsKept s (tickReading s) := by
  unfold tickReading
  split
  · exact .refl s
  · exact .when_ fun _ => readingMissed_grantsKept s

theorem tickBackoff_grantsKept (b : Bay) (s : State) : GrantsKept s (tickBackoff b s) := by
  unfold tickBackoff
  split
  · exact .when_ fun _ => backoffExpires_grantsKept b s
  · exact .refl s
  · exact .refl s

theorem tickCharge_grantsKept (s : State) : GrantsKept s (tickCharge s) := by
  have wait (s : State) : GrantsKept s (tickWait s) := .when_ fun _ => periodExpires_grantsKept s
  have clean (b : Bay) (s : State) : GrantsKept s (tickClean b s) := .when_ fun _ => cleanChargeExpires_grantsKept b s
  exact (((((settleIfDue_grantsKept s).trans (tickReading_grantsKept _)).trans (roundCompletes_grantsKept _)).trans
    (wait _)).trans (eachBay_grantsKept tickBackoff_grantsKept _)).trans (eachBay_grantsKept clean _)

theorem tickLatches_grantsKept (s : State) : GrantsKept s (tickLatches s) := by
  have travel (b : Bay) (s : State) : GrantsKept s (tickTravel b s) := .when_ fun _ => travelTimeout_grantsKept b s
  have pause (b : Bay) (s : State) : GrantsKept s (tickPause b s) := .when_ fun _ => retryPauseExpires_grantsKept b s
  have window (b : Bay) (s : State) : GrantsKept s (tickWindow b s) := .when_ fun _ => windowExpires_grantsKept b s
  have close (b : Bay) (s : State) : GrantsKept s (tickCloseSettle b s) :=
    .when_ fun _ => closeSettleExpires_grantsKept b s
  exact (((eachBay_grantsKept travel s).trans (eachBay_grantsKept pause _)).trans (eachBay_grantsKept window _)).trans
    (eachBay_grantsKept close _)

theorem tickLineCheck_grantsKept (l : Lane) (s : State) : GrantsKept s (tickLineCheck l s) := by
  unfold tickLineCheck
  split
  · exact .when_ fun _ => lineCheckMissed_grantsKept l s
  · exact .refl s

theorem tickSession_grantsKept (l : Lane) (s : State) : GrantsKept s (tickSession l s) := by
  unfold tickSession
  split
  · exact .when_ fun _ => sessionExpires_grantsKept l s
  · exact .refl s

theorem tickGap_grantsKept (s : State) : GrantsKept s (tickGap s) := by
  unfold tickGap
  split
  · exact .refl s
  · exact .when_ fun _ => gapExpires_grantsKept s

theorem tickLink_grantsKept (s : State) : GrantsKept s (tickLink s) := by
  have watchdog (s : State) : GrantsKept s (tickWatchdog s) := .when_ fun _ => watchdogExpires_grantsKept s
  exact (((eachLane_grantsKept tickLineCheck_grantsKept s).trans (eachLane_grantsKept tickSession_grantsKept _)).trans
    (watchdog _)).trans (tickGap_grantsKept _)

theorem live_grantsKept {f : State → State} {s : State} (h : GrantsKept s (f s)) : GrantsKept s (live f s) :=
  .ite (fun _ => .refl s) fun _ => h

/-- R193: a tick keeps the laws. -/
theorem tick_grantsKept (s : State) : GrantsKept s (tick s) := by
  have count : GrantsKept s (countTick s) := .of_view rfl
  have minute (s : State) : GrantsKept s (tickMinute s) := .when_ fun _ => advanceMinute_grantsKept s
  exact live_grantsKept (((((count.trans (minute _)).trans (tickFilters_grantsKept _)).trans
    (tickCharge_grantsKept _)).trans (tickLatches_grantsKept _)).trans (tickLink_grantsKept _))

/-! ### Every command -/

theorem request_grantsKept (i : Instr) (s : State) : GrantsKept s (request i (serve i) s) := by
  refine live_grantsKept (.ite (fun _ => serve_grantsKept i s) fun _ => ?_)
  split
  · exact bufferFrame_grantsKept _ s
  · exact .refl s

/-- Every command answers a state in which the laws still hold. -/
theorem exec_grantsKept (i : Instr) (s : State) : ∃ t, exec i s = .next t ∧ GrantsKept s t := by
  cases i
  case frameReceived v => exact ⟨_, rfl, live_grantsKept (byteArrives_grantsKept v true s)⟩
  case interbyteGapTimeout => exact ⟨_, rfl, live_grantsKept (gapExpires_grantsKept s)⟩
  case answerSent => exact ⟨_, rfl, live_grantsKept (answerEnds_grantsKept s)⟩
  case attach b => exact ⟨_, rfl, live_grantsKept (attachEvent_grantsKept b s)⟩
  case detach b => exact ⟨_, rfl, live_grantsKept (detachEvent_grantsKept b s)⟩
  case probeComplete b n f => exact ⟨_, rfl, live_grantsKept (probeCompletes_grantsKept b n f s)⟩
  case shortEvent b => exact ⟨_, rfl, live_grantsKept (shortTrip_grantsKept b s)⟩
  case sample b d t => exact ⟨_, rfl, live_grantsKept (sampleArrives_grantsKept b d t s)⟩
  case readingDeadline => exact ⟨_, rfl, live_grantsKept (readingMissed_grantsKept s)⟩
  case zoneReading z v => exact ⟨_, rfl, live_grantsKept (zoneArrives_grantsKept z v s)⟩
  case roundComplete => exact ⟨_, rfl, live_grantsKept (roundCompletes_grantsKept s)⟩
  case periodExpiry => exact ⟨_, rfl, live_grantsKept (periodExpires_grantsKept s)⟩
  case backoffExpiry b => exact ⟨_, rfl, live_grantsKept (backoffExpires_grantsKept b s)⟩
  case cleanChargeExpiry b => exact ⟨_, rfl, live_grantsKept (cleanChargeExpires_grantsKept b s)⟩
  case shedChange a => exact ⟨_, rfl, live_grantsKept (shedAccepts_grantsKept a s)⟩
  case settleExpiry => exact ⟨_, rfl, live_grantsKept (settleExpires_grantsKept s)⟩
  case contactEvent b c a => exact ⟨_, rfl, live_grantsKept (contactEvent_grantsKept b c a s)⟩
  case latchMachineStart b o i d => exact ⟨_, rfl, live_grantsKept (latchMachineStart_grantsKept b o i d s)⟩
  case travelTimeout b => exact ⟨_, rfl, live_grantsKept (travelTimeout_grantsKept b s)⟩
  case retryPauseExpiry b => exact ⟨_, rfl, live_grantsKept (retryPauseExpires_grantsKept b s)⟩
  case windowExpiry b => exact ⟨_, rfl, live_grantsKept (windowExpires_grantsKept b s)⟩
  case closeSettleExpiry b => exact ⟨_, rfl, live_grantsKept (closeSettleExpires_grantsKept b s)⟩
  case minuteAdvance => exact ⟨_, rfl, live_grantsKept (advanceMinute_grantsKept s)⟩
  case lineCheckResult l n d => exact ⟨_, rfl, live_grantsKept (lineCheckReturns_grantsKept l n d s)⟩
  case lineCheckDeadline l => exact ⟨_, rfl, live_grantsKept (lineCheckMissed_grantsKept l s)⟩
  case patternCheckEnd l k n => exact ⟨_, rfl, live_grantsKept (patternEnds_grantsKept l k n s)⟩
  case sessionExpiry l => exact ⟨_, rfl, live_grantsKept (sessionExpires_grantsKept l s)⟩
  case watchdogExpiry => exact ⟨_, rfl, live_grantsKept (watchdogExpires_grantsKept s)⟩
  case storeWordWrite => exact ⟨_, rfl, live_grantsKept (.of_view rfl)⟩
  case saveComplete => exact ⟨_, rfl, live_grantsKept (saveCompletes_grantsKept s)⟩
  case fullReset c => exact ⟨_, rfl, fullReset_grantsKept c s⟩
  case byteReceived v g => exact ⟨_, rfl, live_grantsKept (byteArrives_grantsKept v g s)⟩
  case resetEnd => exact ⟨_, rfl, resetEnds_grantsKept s⟩
  all_goals exact ⟨_, rfl, request_grantsKept _ s⟩

/-- Every step keeps the laws. -/
theorem step_grantsKept {s t : State} (h : step s = .next t) : GrantsKept s t := by
  unfold step at h
  split at h
  · cases h
    exact tick_grantsKept s
  · rename_i c rest _
    obtain ⟨u, run, kept⟩ := exec_grantsKept c { s with pending := rest }
    rw [run] at h
    cases h
    have next : GrantsKept s { s with pending := rest } := .of_view rfl
    exact next.trans kept

/-! ### The obligation -/

/-- R68: the applied grants stay within the budget of the last pass, and are 0 before the first. -/
theorem PowerLaw.grants {s : State} (law : PowerLaw s) : Within (fun b => (s.bay b).grant) s.budget.lastPass :=
  Within.mono (fun _ => Nat.le_max_left _ _) ((powerLaw_iff s).1 law).2

/-- Settles O37: every command keeps the laws, whose committed power bounds the applied grants. -/
theorem grantsNeverExceedTheBudget : Obligations.GrantsNeverExceedTheBudget := by
  refine ⟨fun s t h => ?_, fun s law => ?_⟩
  · obtain ⟨grants, targets, power⟩ := step_grantsKept h
    exact ⟨grants, targets, power⟩
  · have within := law.grants
    refine ⟨fun budget last => ?_, fun first => ?_⟩
    · rw [last] at within
      exact within
    · rw [first] at within
      exact within

end Sys2Proof.Machine
end

