-- ==== Sys2Proof/Proofs/CountedSamples.lean ====
section
/-! PROOF. What a counted sample does to the phase, the dynamic ceiling and the five round counters of its bay (R78 to
R87): the tests as equations, case by case, then the passes that follow. -/

namespace Sys2Proof.Machine

/-! ### When the tests act -/

section Tests
variable (cfg : ChargeSettings) (c : ChargeRec) (p : Profile) (grant d : Nat)

/-- R83: this sample ends BULK. -/
abbrev ToTaper : Prop :=
  c.phase = .bulk ∧ d < p.taper ∧ d + cfg.reclaimMargin ≤ grant ∧ cfg.taperCount ≤ c.taperN + 1

/-- R83: this sample brings FULL. -/
abbrev ToFull : Prop :=
  c.phase = .taper ∧ d < p.full ∧ d + cfg.reclaimMargin ≤ grant ∧ cfg.fullCount ≤ c.fullN + 1

/-- R84: this sample ends FULL. -/
abbrev Wakes : Prop := c.phase = .full ∧ p.maintenance ≤ d + cfg.pressMargin ∧ cfg.wakeCount ≤ c.wakeN + 1

/-- R80: the reclaim counter acts, where its test is reached. -/
abbrev Reclaims : Prop := d + cfg.reclaimMargin < c.target ∧ cfg.reclaimCount ≤ c.reclaim + 1

/-- R81: the press counter acts, where its test is reached. -/
abbrev Presses : Prop :=
  c.target ≤ d + cfg.pressMargin ∧ c.dynCeiling < p.ceiling ∧ cfg.reclaimCount ≤ c.press + 1

/-! ### The values after the tests -/

/-- R83, R84: the phase after a counted sample. -/
def phaseAfter : Phase :=
  if ToTaper cfg c p grant d then .taper else if ToFull cfg c p grant d then .full
  else if Wakes cfg c p d then .taper else c.phase

/-- R80, R81: the dynamic ceiling after the reclaim and press tests. -/
def ceilingTested : Nat :=
  if Reclaims cfg c d then reclaimCeiling cfg c p d
  else if Presses cfg c p d then min p.ceiling (c.dynCeiling + cfg.pressStep) else c.dynCeiling

/-- R80, R81, R84, R85: the dynamic ceiling after a counted sample. -/
def ceilingAfter : Nat :=
  if ToTaper cfg c p grant d ∨ ToFull cfg c p grant d then c.dynCeiling
  else if c.phase = .full then (if Wakes cfg c p d then p.ceiling else c.dynCeiling)
  else ceilingTested cfg c p d

/-- R80: the reclaim count after its test. -/
def reclaimTested : Nat :=
  if Reclaims cfg c d then 0 else if d + cfg.reclaimMargin < c.target then c.reclaim + 1 else 0

/-- R80, R81: the press count after the reclaim and press tests. -/
def pressTested : Nat :=
  if Reclaims cfg c d ∨ Presses cfg c p d then 0
  else if c.target ≤ d + cfg.pressMargin ∧ c.dynCeiling < p.ceiling then c.press + 1 else 0

/-- R83: the taper or full count after a sample at which it does not act. -/
def runAfter (count limit : Nat) : Nat :=
  if d < limit then (if d + cfg.reclaimMargin ≤ grant then count + 1 else count) else 0

/-- R80, R81, R83, R84, R85: the five round counters after a counted sample. -/
def countsAfter : List Nat :=
  if phaseAfter cfg c p grant d ≠ c.phase then [0, 0, 0, 0, 0]
  else if c.phase = .full then
    [c.reclaim, c.press, c.taperN, c.fullN, if p.maintenance ≤ d + cfg.pressMargin then c.wakeN + 1 else 0]
  else
    [reclaimTested cfg c d, pressTested cfg c p d,
      if c.phase = .bulk then runAfter cfg grant d c.taperN p.taper else c.taperN,
      if c.phase = .taper then runAfter cfg grant d c.fullN p.full else c.fullN, c.wakeN]

end Tests

/-! ### What an action moves -/

/-- R79, R85: the action asks for a pass. -/
def Action.asks : Action → Bool
  | .counted _ => false
  | .phase _ _ => true
  | .ceiling _ => true

/-- The action leaves the record `c` with this phase, dynamic ceiling and these counters; it is a phase change where the
phase changes, and asks for a pass where the ceiling does. -/
structure Moves (c : ChargeRec) (phase : Phase) (ceiling : Nat) (counts : List Nat) (a : Action) : Prop where
  newPhase : a.record.phase = phase
  newCeiling : a.record.dynCeiling = ceiling
  newCounts : roundCounts a.record = counts
  changes : phase ≠ c.phase → a = .phase phase a.record
  asks : ceiling ≠ c.dynCeiling → a.asks = true

theorem Moves.asks_pass {c : ChargeRec} {phase : Phase} {ceiling : Nat} {counts : List Nat} {a : Action}
    (h : Moves c phase ceiling counts a) (moved : phase ≠ c.phase ∨ ceiling ≠ c.dynCeiling) : a.asks = true := by
  refine moved.elim (fun new => ?_) h.asks
  rw [h.changes new]
  rfl

/-- What an action moves is measured against the phase and the ceiling before it alone. -/
theorem Moves.congr {c c' : ChargeRec} {phase : Phase} {ceiling : Nat} {counts : List Nat} {a : Action}
    (h : Moves c' phase ceiling counts a) (samePhase : c'.phase = c.phase) (sameCeiling : c'.dynCeiling = c.dynCeiling) :
    Moves c phase ceiling counts a :=
  ⟨h.newPhase, h.newCeiling, h.newCounts, samePhase ▸ h.changes, sameCeiling ▸ h.asks⟩

/-! ### The reclaim and press tests -/

section Tests
variable {cfg : ChargeSettings} {c : ChargeRec} {p : Profile} {grant d : Nat}

/-- R80: a reclaim asks for a pass where it changes the ceiling, and sets both counts to 0 in any case. -/
theorem reclaimTest_acts (acts : Reclaims cfg c d) : reclaimTest cfg c p d =
    if reclaimCeiling cfg c p d = c.dynCeiling then .counted { c with reclaim := 0, press := 0 }
    else .ceiling { c with reclaim := 0, press := 0, dynCeiling := reclaimCeiling cfg c p d } := by
  simp [reclaimTest, reclaimHolds, acts.1, acts.2]

/-- R80: where the reclaim counter does not act, the press test follows. -/
theorem reclaimTest_passes (idle : ¬ Reclaims cfg c d) :
    reclaimTest cfg c p d = pressTest cfg { c with reclaim := reclaimTested cfg c d } p d := by
  by_cases holds : d + cfg.reclaimMargin < c.target
  · have short : ¬ cfg.reclaimCount ≤ c.reclaim + 1 := fun le => idle ⟨holds, le⟩
    simp [reclaimTest, reclaimHolds, reclaimTested, idle, holds, short]
  · simp [reclaimTest, reclaimHolds, reclaimTested, holds]

theorem pressTest_acts (acts : Presses cfg c p d) : pressTest cfg c p d =
    .ceiling { c with press := 0, dynCeiling := min p.ceiling (c.dynCeiling + cfg.pressStep) } := by
  simp [pressTest, pressHolds, acts.1, acts.2.1, acts.2.2]

theorem pressTest_counts (idle : ¬ Presses cfg c p d) : pressTest cfg c p d = .counted { c with
    press := if c.target ≤ d + cfg.pressMargin ∧ c.dynCeiling < p.ceiling then c.press + 1 else 0 } := by
  by_cases holds : c.target ≤ d + cfg.pressMargin ∧ c.dynCeiling < p.ceiling
  · have short : ¬ cfg.reclaimCount ≤ c.press + 1 := fun le => idle ⟨holds.1, holds.2, le⟩
    simp [pressTest, pressHolds, holds, short]
  · simp [pressTest, pressHolds, holds]

/-- R80, R81: the reclaim and press tests move the ceiling and their two counts, and nothing else. -/
theorem reclaimTest_moves (cfg : ChargeSettings) (c : ChargeRec) (p : Profile) (d : Nat) :
    Moves c c.phase (ceilingTested cfg c p d)
      [reclaimTested cfg c d, pressTested cfg c p d, c.taperN, c.fullN, c.wakeN] (reclaimTest cfg c p d) := by
  by_cases reclaims : Reclaims cfg c d
  · have ceiling : ceilingTested cfg c p d = reclaimCeiling cfg c p d := if_pos reclaims
    have counts : reclaimTested cfg c d = 0 ∧ pressTested cfg c p d = 0 := ⟨if_pos reclaims, if_pos (.inl reclaims)⟩
    rw [reclaimTest_acts reclaims, ceiling, counts.1, counts.2]
    by_cases same : reclaimCeiling cfg c p d = c.dynCeiling
    · rw [if_pos same]
      exact ⟨rfl, same.symm, rfl, fun new => absurd rfl new, fun new => absurd same new⟩
    · rw [if_neg same]
      exact ⟨rfl, rfl, rfl, fun new => absurd rfl new, fun _ => rfl⟩
  · rw [reclaimTest_passes reclaims, ceilingTested, if_neg reclaims, pressTested]
    by_cases presses : Presses cfg c p d
    · rw [pressTest_acts (c := { c with reclaim := reclaimTested cfg c d }) presses, if_pos presses, if_pos (.inr presses)]
      exact ⟨rfl, rfl, rfl, fun new => absurd rfl new, fun _ => rfl⟩
    · rw [pressTest_counts (c := { c with reclaim := reclaimTested cfg c d }) presses, if_neg presses,
        if_neg (not_or.2 ⟨reclaims, presses⟩)]
      exact ⟨rfl, rfl, rfl, fun new => absurd rfl new, fun new => absurd rfl new⟩

/-! ### The tests of the phase -/

theorem phaseCount_eq (cfg : ChargeSettings) (grant d count limit : Nat) :
    phaseCount d limit cfg.reclaimMargin grant count = runAfter cfg grant d count limit := by
  simp [phaseCount, unconstrained, runAfter]

/-- R83: the taper or full counter acts at an unconstrained sample below its threshold that fills the count (entry 14). -/
theorem runAfter_acts (cfg : ChargeSettings) (grant d count limit due : Nat) :
    (phaseAdds d limit cfg.reclaimMargin grant = true ∧ due ≤ runAfter cfg grant d count limit) ↔
      d < limit ∧ d + cfg.reclaimMargin ≤ grant ∧ due ≤ count + 1 := by
  simp only [phaseAdds, unconstrained, decide_eq_true_eq, and_assoc]
  refine and_congr_right fun below => and_congr_right fun free => ?_
  rw [runAfter, if_pos below, if_pos free]

theorem countSample_bulk (bulk : c.phase = .bulk) : countSample cfg c p grant d =
    if ToTaper cfg c p grant d then .phase .taper { c.zeroCounts with phase := .taper }
    else reclaimTest cfg { c with taperN := runAfter cfg grant d c.taperN p.taper } p d := by
  simp only [countSample, bulk, phaseCount_eq, runAfter_acts, ToTaper, true_and]

theorem countSample_taper (taper : c.phase = .taper) : countSample cfg c p grant d =
    if ToFull cfg c p grant d then .phase .full { c.zeroCounts with phase := .full }
    else reclaimTest cfg { c with fullN := runAfter cfg grant d c.fullN p.full } p d := by
  simp only [countSample, taper, phaseCount_eq, runAfter_acts, ToFull, true_and]

theorem countSample_full (full : c.phase = .full) : countSample cfg c p grant d =
    if Wakes cfg c p d then .phase .taper { c.zeroCounts with phase := .taper, dynCeiling := p.ceiling }
    else .counted { c with wakeN := if p.maintenance ≤ d + cfg.pressMargin then c.wakeN + 1 else 0 } := by
  by_cases holds : p.maintenance ≤ d + cfg.pressMargin
  · by_cases fills : cfg.wakeCount ≤ c.wakeN + 1 <;> simp [countSample, full, wakeHolds, holds, fills]
  · simp [countSample, full, wakeHolds, holds]

/-! ### The whole sample -/

theorem not_toTaper (other : c.phase ≠ .bulk) : ¬ ToTaper cfg c p grant d := fun h => other h.1

theorem not_toFull (other : c.phase ≠ .taper) : ¬ ToFull cfg c p grant d := fun h => other h.1

theorem not_wakes (other : c.phase ≠ .full) : ¬ Wakes cfg c p d := fun h => other h.1

/-- R85: a phase change sets the five counters to 0. -/
theorem countsAfter_changed (new : phaseAfter cfg c p grant d ≠ c.phase) :
    countsAfter cfg c p grant d = [0, 0, 0, 0, 0] := if_pos new

/-- R79: in BULK and TAPER the reclaim and press tests follow where the phase stays. -/
theorem countsAfter_tested (same : phaseAfter cfg c p grant d = c.phase) (other : c.phase ≠ .full) :
    countsAfter cfg c p grant d = [reclaimTested cfg c d, pressTested cfg c p d,
      if c.phase = .bulk then runAfter cfg grant d c.taperN p.taper else c.taperN,
      if c.phase = .taper then runAfter cfg grant d c.fullN p.full else c.fullN, c.wakeN] := by
  rw [countsAfter, if_neg (not_not.2 same), if_neg other]

theorem ceilingAfter_tested (stays : ¬ (ToTaper cfg c p grant d ∨ ToFull cfg c p grant d)) (other : c.phase ≠ .full) :
    ceilingAfter cfg c p grant d = ceilingTested cfg c p d := by
  rw [ceilingAfter, if_neg stays, if_neg other]

/-- R79 to R85: a counted sample of a bay with the record `c` moves the phase, the ceiling and the counters to the values
above. -/
abbrev SampleMoves (cfg : ChargeSettings) (c : ChargeRec) (p : Profile) (grant d : Nat) : Prop :=
  Moves c (phaseAfter cfg c p grant d) (ceilingAfter cfg c p grant d) (countsAfter cfg c p grant d)
    (countSample cfg c p grant d)

/-- R79, R83: a counted sample in BULK. -/
theorem countSample_moves_bulk (bulk : c.phase = .bulk) : SampleMoves cfg c p grant d := by
  have notTaper : c.phase ≠ .taper := by simp [bulk]
  have notFull : c.phase ≠ .full := by simp [bulk]
  rw [SampleMoves, countSample_bulk bulk]
  by_cases acts : ToTaper cfg c p grant d
  · have new : phaseAfter cfg c p grant d = .taper := if_pos acts
    have ceiling : ceilingAfter cfg c p grant d = c.dynCeiling := if_pos (.inl acts)
    rw [if_pos acts, countsAfter_changed (new.trans_ne notTaper.symm), new, ceiling]
    exact ⟨rfl, rfl, rfl, fun _ => rfl, fun _ => rfl⟩
  · have same : phaseAfter cfg c p grant d = c.phase := by
      rw [phaseAfter, if_neg acts, if_neg (not_toFull notTaper), if_neg (not_wakes notFull)]
    rw [if_neg acts, ceilingAfter_tested (not_or.2 ⟨acts, not_toFull notTaper⟩) notFull,
      countsAfter_tested same notFull, same, if_pos bulk, if_neg notTaper]
    exact (reclaimTest_moves cfg { c with taperN := runAfter cfg grant d c.taperN p.taper } p d).congr rfl rfl

/-- R79, R83: a counted sample in TAPER. -/
theorem countSample_moves_taper (taper : c.phase = .taper) : SampleMoves cfg c p grant d := by
  have notBulk : c.phase ≠ .bulk := by simp [taper]
  have notFull : c.phase ≠ .full := by simp [taper]
  rw [SampleMoves, countSample_taper taper]
  by_cases acts : ToFull cfg c p grant d
  · have new : phaseAfter cfg c p grant d = .full := by
      rw [phaseAfter, if_neg (not_toTaper notBulk), if_pos acts]
    have ceiling : ceilingAfter cfg c p grant d = c.dynCeiling := if_pos (.inr acts)
    rw [if_pos acts, countsAfter_changed (new.trans_ne notFull.symm), new, ceiling]
    exact ⟨rfl, rfl, rfl, fun _ => rfl, fun _ => rfl⟩
  · have same : phaseAfter cfg c p grant d = c.phase := by
      rw [phaseAfter, if_neg (not_toTaper notBulk), if_neg acts, if_neg (not_wakes notFull)]
    rw [if_neg acts, ceilingAfter_tested (not_or.2 ⟨not_toTaper notBulk, acts⟩) notFull,
      countsAfter_tested same notFull, same, if_neg notBulk, if_pos taper]
    exact (reclaimTest_moves cfg { c with fullN := runAfter cfg grant d c.fullN p.full } p d).congr rfl rfl

/-- R84: a counted sample in FULL. -/
theorem countSample_moves_full (full : c.phase = .full) : SampleMoves cfg c p grant d := by
  have notBulk : c.phase ≠ .bulk := by simp [full]
  have notTaper : c.phase ≠ .taper := by simp [full]
  have ceiling : ceilingAfter cfg c p grant d = if Wakes cfg c p d then p.ceiling else c.dynCeiling := by
    rw [ceilingAfter, if_neg (not_or.2 ⟨not_toTaper notBulk, not_toFull notTaper⟩), if_pos full]
  rw [SampleMoves, countSample_full full, ceiling]
  by_cases acts : Wakes cfg c p d
  · have new : phaseAfter cfg c p grant d = .taper := by
      rw [phaseAfter, if_neg (not_toTaper notBulk), if_neg (not_toFull notTaper), if_pos acts]
    rw [if_pos acts, if_pos acts, countsAfter_changed (new.trans_ne notTaper.symm), new]
    exact ⟨rfl, rfl, rfl, fun _ => rfl, fun _ => rfl⟩
  · have same : phaseAfter cfg c p grant d = c.phase := by
      rw [phaseAfter, if_neg (not_toTaper notBulk), if_neg (not_toFull notTaper), if_neg acts]
    rw [if_neg acts, if_neg acts, countsAfter, if_neg (not_not.2 same), if_pos full, same]
    exact ⟨rfl, rfl, rfl, fun new => absurd rfl new, fun new => absurd rfl new⟩

/-- R79 to R85: what a counted sample moves, phase by phase. -/
theorem countSample_moves (cfg : ChargeSettings) (c : ChargeRec) (p : Profile) (grant d : Nat) :
    SampleMoves cfg c p grant d := by
  cases phase : c.phase with
  | bulk => exact countSample_moves_bulk phase
  | taper => exact countSample_moves_taper phase
  | full => exact countSample_moves_full phase

end Tests

/-! ### The action taken, and the passes after it -/

section Taken
variable {b : Bay} {a : Action} {s : State}

theorem takeAction_chg : (takeAction b a s).chg b = a.record := by
  cases a <;> exact chg_setChg_self s b _

theorem takeAction_bay (c : Bay) : (takeAction b a s).bay c = s.bay c := by cases a <;> rfl

theorem takeAction_time : (takeAction b a s).time = s.time := by cases a <;> rfl

theorem takeAction_budget : (takeAction b a s).budget = s.budget := by cases a <;> rfl

theorem takeAction_asks (asks : a.asks = true) : (takeAction b a s).alloc.passAsked = true := by
  cases a with
  | counted c => cases asks
  | phase new c => rfl
  | ceiling c => rfl

/-- R87: the link after a phase change. -/
theorem takeAction_phase_link (new : Phase) (c : ChargeRec) : (takeAction b (.phase new c) s).link =
    let e := word (min 65535 ((s.bay b).energy / 1440))
    s.link.queueAll
      [⟨.chargePhase, bayNumber b, s.time.minute, (s.chg b).phase.code, new.code, hiByte e, loByte e⟩] := rfl

/-- R85 to R87: what an action and the passes after it leave. -/
theorem finish_takeAction {phase : Phase} {ceiling : Nat} {counts : List Nat} (h : Moves (s.chg b) phase ceiling counts a) :
    let t := finish (takeAction b a s)
    (t.chg b).phase = phase ∧ (t.chg b).dynCeiling = ceiling ∧
      (roundCounts (t.chg b) = counts ∨
        (roundCounts (t.chg b) = [0, 0, 0, 0, 0] ∧ LeftCharging s.time.ms (t.bay b))) ∧
      (phase ≠ (s.chg b).phase → ∃ ns,
        let e := word (min 65535 ((t.bay b).energy / 1440))
        t.link = s.link.queueAll
          (⟨.chargePhase, bayNumber b, s.time.minute, (s.chg b).phase.code, phase.code, hiByte e, loByte e⟩ :: ns)) ∧
      (phase ≠ (s.chg b).phase ∨ ceiling ≠ (s.chg b).dynCeiling → s.budget.established = true →
        t.budget.lastPass = some s.budget.computed) := by
  have work := finish_passWork (takeAction b a s)
  have kept := work.pass.chargeKept b
  have counted := work.counts b
  rw [takeAction_chg] at kept counted
  rw [h.newCounts, takeAction_time] at counted
  refine ⟨kept.phase.trans h.newPhase, kept.dynCeiling.trans h.newCeiling, counted, fun new => ?_, fun moved est => ?_⟩
  · obtain ⟨ns, link⟩ := work.pass.queues
    have energy := (work.pass.bayKept b).energy
    rw [takeAction_bay] at energy
    refine ⟨ns, ?_⟩
    dsimp only
    rw [link, energy, h.changes new, takeAction_phase_link]
    exact queueAll_queueAll _ ns s.link
  · have asked := takeAction_asks (b := b) (s := s) (h.asks_pass moved)
    have last := finish_last asked
    rw [takeAction_budget] at last
    exact last est

end Taken

/-! ### A counted sample in which no fault is found -/

/-- R92, R93, R94: no fault is found in a valid draw within the allowance and a temperature below the limit. -/
theorem sampleFault_none {sup : SupervSettings} {r : BayRec} {draw temperature : Byte} {thermal : Bool} (valid : draw ≠ 255)
    (within : draw.toNat ≤ max r.grant r.prevGrant + sup.tolerance)
    (cool : thermal = true → temperature = 255 ∨ temperature.toNat < 2 * (sup.hotLimit + 20)) :
    sampleFault sup r draw (if thermal then some temperature else none) = none := by
  have sense : ¬ Config.senseRun ≤ senseRunAfter r draw := by
    rw [senseRunAfter, if_neg fun h => valid h.2]
    decide
  have overdraw : ¬ allowance r sup.tolerance < draw.toNat := Nat.not_lt.2 within
  unfold sampleFault
  rw [if_neg sense, if_neg fun h => overdraw h.2.2]
  cases thermal with
  | false => rfl
  | true => exact if_neg fun ⟨_, read, above⟩ => (cool rfl).elim read (Nat.not_lt.2 above)

/-- R92: a valid sample in which no fault is found ends the invalid-draw run and keeps its grant for the next. -/
theorem faultChecks_none {b : Bay} {draw : Byte} {reading : Option Byte} {s : State} (valid : draw ≠ 255)
    (none : sampleFault s.superv (s.bay b) draw reading = none) : faultChecks b draw reading s =
      s.setBay b { s.bay b with invalidRun := 0, prevGrant := (s.bay b).grant } := by
  have run : senseRunAfter (s.bay b) draw = 0 := if_neg fun h => valid h.2
  simp only [faultChecks, none, run, bay_setBay_self, setBay_setBay]

/-- R97: only a sample of a bay in HOLD ends the cool-down wait. -/
theorem coolDownSample_out {b : Bay} {reading : Option Byte} {s : State} (out : (s.bay b).state ≠ .hold) :
    coolDownSample b reading s = s := by
  cases reading <;> simp [coolDownSample, out]

/-- The bay record with which a valid sample without a fault reaches the Allocator. -/
def checkedBay (now : Nat) (draw : Byte) (r : BayRec) : BayRec :=
  { energySample now draw r with invalidRun := 0, prevGrant := r.grant }

theorem checkedBay_view (now : Nat) (draw : Byte) (r : BayRec) :
    (checkedBay now draw r).state = r.state ∧ (checkedBay now draw r).grant = r.grant := by
  rw [checkedBay, energySample_eq]
  exact ⟨rfl, rfl⟩

/-- R23, R79: a counted sample in which no fault is found is written, then takes its action, and passes follow. -/
theorem recordSample_counted {b : Bay} {draw temperature : Byte} {r : Round} {s : State} (round : s.scan.round = some r)
    (asked : r.awaiting = some (.bay b)) (charging : (s.bay b).state = .charging) (valid : draw ≠ 255)
    (idle : (s.chg b).pendingInc = none)
    (within : draw.toNat ≤ max (s.bay b).grant (s.bay b).prevGrant + s.superv.tolerance)
    (cool : r.thermal = true → temperature = 255 ∨ temperature.toNat < 2 * (s.superv.hotLimit + 20)) :
    recordSample b draw temperature s = finish (takeAction b
      (countSample s.alloc.settings (s.chg b) (s.profile b) (s.bay b).grant draw.toNat)
      ((sampleWritten b draw temperature r s).setBay b (checkedBay s.time.ms draw (s.bay b)))) := by
  have thermal : inThermal s = r.thermal := by simp [inThermal, round]
  have taken := sampleTaken_eq draw temperature round asked
  have bay : (sampleTaken b draw temperature s).bay b = energySample s.time.ms draw (s.bay b) := by
    rw [taken, bay_setBay_self]
  obtain ⟨state, grant⟩ := checkedBay_view s.time.ms draw (s.bay b)
  have noFault : sampleFault (sampleTaken b draw temperature s).superv ((sampleTaken b draw temperature s).bay b) draw
      (if r.thermal then some temperature else none) = none := by
    rw [bay, energySample_eq, taken]
    exact sampleFault_none valid within cool
  have checked : faultChecks b draw (if r.thermal then some temperature else none) (sampleTaken b draw temperature s) =
      (sampleWritten b draw temperature r s).setBay b (checkedBay s.time.ms draw (s.bay b)) := by
    rw [faultChecks_none valid noFault, bay, taken, setBay_setBay, checkedBay, energySample_eq]
  rw [recordSample_eq, thermal, checked]
  generalize v : (sampleWritten b draw temperature r s).setBay b (checkedBay s.time.ms draw (s.bay b)) = w
  have bayNow : w.bay b = checkedBay s.time.ms draw (s.bay b) := by rw [← v, bay_setBay_self]
  have chg : w.chg b = s.chg b := by rw [← v]; rfl
  have stateNow : (w.bay b).state = .charging := by rw [bayNow, state, charging]
  have counted : countedSample w b draw = true := decide_eq_true ⟨stateNow, valid, chg.symm ▸ idle⟩
  rw [coolDownSample_out (by rw [stateNow]; decide), allocSample, if_pos counted, bayNow, grant, ← v]
  rfl

/-- Settles O19: the sample is counted in the bay as the checks leave it; its action moves the phase, the ceiling and the
counters, and the passes after it keep them or end the counts. -/
theorem countedSampleMovesPhaseAndCeiling : Obligations.CountedSampleMovesPhaseAndCeiling := by
  intro b draw temperature r s free round asked charging valid idle within cool
  have awaits : awaited s = some (.bay b) := by simp [awaited, round, asked]
  have arrives : sampleArrives b draw temperature s = recordSample b draw temperature s := if_pos awaits
  have run := recordSample_counted round asked charging valid idle within cool
  have moves := countSample_moves s.alloc.settings (s.chg b) (s.profile b) (s.bay b).grant draw.toNat
  refine ⟨_, next_live free (arrives.trans run), ?_⟩
  exact finish_takeAction (s := (sampleWritten b draw temperature r s).setBay b (checkedBay s.time.ms draw (s.bay b))) moves

end Sys2Proof.Machine
end

