-- ==== Sys2Proof/Proofs/HoldEnds.lean ====
section
/-! PROOF. The expiries of the backoff and the clean-charge timer: what ends HOLD, and the cool-down condition as R97
states it. -/

namespace Sys2Proof.Machine

/-- R97: the bay record with which HOLD ends, a retry spent and a probe started. -/
def BayRec.retried (r : BayRec) (now : Nat) : BayRec :=
  { r with
    state := .qualifying, retries := r.retries + 1, backoff := .stopped, probe := some ⟨r.probes, now⟩
    probes := r.probes + 1, grant := 0, cleanTimer := none }

section Leave
variable {b : Bay} {s : State}

/-- R97: HOLD's end writes this record and is reported. -/
theorem leaveHold_report (hold : (s.bay b).state = .hold) :
    leaveHold b s = reportChange b .hold .qualifying (s.setBay b ((s.bay b).retried s.time.ms)) := by
  have out : (s.bay b).state ≠ .charging := by simp [hold]
  have record := probed_eq (r := { s.bay b with retries := (s.bay b).retries + 1 }) out s.time.ms
  rw [leaveHold_eq, record, hold]
  rfl

theorem bay_leaveHold (hold : (s.bay b).state = .hold) : (leaveHold b s).bay b = (s.bay b).retried s.time.ms := by
  rw [leaveHold_report hold, bay_reportChange, bay_setBay_self]

/-- R97: HOLD's end is one reported change of state. -/
theorem finish_leaveHold_pass (hold : (s.bay b).state = .hold) :
    OnlyPass (s.setBay b ((s.bay b).retried s.time.ms)) (finish (leaveHold b s)) := by
  rw [leaveHold_report hold]
  exact finish_report_pass b _ _ _

end Leave

theorem coolDownMet_iff (lastFault : Option FaultKind) (hotLimit : Nat) (reading : Byte) :
    coolDownMet lastFault hotLimit reading = true ↔
      lastFault ≠ some .hot ∨ (reading ≠ 255 ∧ reading.toNat < 2 * (hotLimit - 5 + 20)) := decide_eq_true_iff

section Expiry
variable {b : Bay} {s : State}

theorem backoffExpires_running {expiry : Nat} (hold : (s.bay b).state = .hold)
    (running : (s.bay b).backoff = .running expiry) : backoffExpires b s =
      if coolDownMet (s.bay b).lastFault s.superv.hotLimit s.scan.latestTemp[b] then finish (leaveHold b s)
      else s.setBay b { s.bay b with backoff := .coolDown } := by
  simp only [backoffExpires, hold, running]

theorem backoffExpires_idle (idle : (s.bay b).state ≠ .hold ∨ ∀ expiry, (s.bay b).backoff ≠ .running expiry) :
    backoffExpires b s = s := by
  unfold backoffExpires
  dsimp only
  split
  · rename_i hold running
    exact idle.elim (absurd hold) fun none => absurd running (none _)
  · rfl

theorem cleanChargeExpires_eq : cleanChargeExpires b s =
    if (s.bay b).cleanTimer = none then s
    else s.setBay b { s.bay b with retries := 0, lastFault := none, cleanTimer := none } := by
  cases timer : (s.bay b).cleanTimer <;> simp [cleanChargeExpires, timer]

end Expiry

/-- Settles O28: an expiry in HOLD ends HOLD or starts the wait to cool, by the cool-down condition. -/
theorem backoffAndCleanChargeExpire : Obligations.BackoffAndCleanChargeExpire := by
  intro b s free
  refine ⟨fun expiry hold running => ?_, fun idle => next_live free (backoffExpires_idle idle),
    next_live free cleanChargeExpires_eq⟩
  have expires := backoffExpires_running hold running
  have met := coolDownMet_iff (s.bay b).lastFault s.superv.hotLimit s.scan.latestTemp[b]
  exact ⟨fun cool => ⟨_, next_live free (expires.trans (if_pos (met.2 cool))), finish_leaveHold_pass hold⟩,
    fun warm => next_live free (expires.trans (if_neg fun yes => warm (met.1 yes)))⟩

end Sys2Proof.Machine
end

