-- ==== Sys2Proof/Proofs/DrawRuns.lean ====
section
/-! PROOF. The invalid-draw runs under passes (R92): a run stays, or its bay has been taken out of CHARGING. -/

namespace Sys2Proof.Machine

/-! ### The relation -/

/-- R92, R99: a bay record's invalid-draw run stays, or the bay has left CHARGING and it is 0; a bay that has left CHARGING
has left it still. -/
structure RunKept (now : Nat) (r r' : BayRec) : Prop where
  run : r'.invalidRun = r.invalidRun ∨ (r'.invalidRun = 0 ∧ LeftCharging now r')
  left : LeftCharging now r → LeftCharging now r'

theorem RunKept.refl (now : Nat) (r : BayRec) : RunKept now r r := ⟨.inl rfl, id⟩

theorem RunKept.trans {now : Nat} {r r' r'' : BayRec} (h : RunKept now r r') (h' : RunKept now r' r'') :
    RunKept now r r'' := by
  refine ⟨?_, h'.left ∘ h.left⟩
  rcases h'.run with same | ended
  · rw [same]
    exact h.run.imp_right fun ⟨zero, left⟩ => ⟨zero, h'.left left⟩
  · exact .inr ended

/-! ### The records of one bay -/

/-- R7, R64: a bay's target ends its run where it defers the bay. -/
theorem targetTaken_runKept (now : Nat) (profiles : Vector Profile 8) (t : Nat) (x : Records) :
    RunKept now x.1 (targetTaken now profiles t x).1 := by
  unfold targetTaken
  split
  · exact ⟨.inl rfl, fun _ => .inr rfl⟩
  split
  · rename_i defers
    have left : LeftCharging now (x.1.moved .waiting) := moved_left (by decide)
    exact ⟨.inr ⟨moved_invalidRun_leaves defers.1 (by decide), left⟩, fun _ => left⟩
  split
  · exact ⟨.inl rfl, id⟩
  · exact .refl now x.1

theorem increaseRecorded_runKept (now : Nat) (x : Records) : RunKept now x.1 (increaseRecorded x).1 := by
  unfold increaseRecorded
  split
  · exact .refl now x.1
  · exact .refl now x.1

/-- R66: an increase applied changes the grant alone. -/
theorem increaseApplied_runKept (now : Nat) (profiles : Vector Profile 8) (x : Records) :
    RunKept now x.1 (increaseApplied profiles x).1 := by
  rw [increaseApplied_bay]
  split
  · exact .refl now x.1
  split
  · exact ⟨.inl rfl, id⟩
  · exact .refl now x.1

theorem passRecords_runKept (now : Nat) (profiles : Vector Profile 8) (lowered : Bool) (t : Nat) (x : Records) :
    RunKept now x.1 (passRecords now profiles lowered t x).1 := by
  have recorded := (targetTaken_runKept now profiles t (x.1, { x.2 with pendingInc := none, target := t })).trans
    (increaseRecorded_runKept now _)
  cases lowered with
  | true => exact recorded
  | false => exact recorded.trans (increaseApplied_runKept now profiles _)

/-! ### Every bay -/

/-- Work within one ms under which every bay's run stays or ends as `RunKept` says. -/
structure RunsKept (s t : State) : Prop where
  time : t.time = s.time
  bay : ∀ b, RunKept s.time.ms (s.bay b) (t.bay b)

/-- The run of a bay is told by its records. -/
theorem RunsKept.of_records {s t : State} (time : t.time = s.time)
    (kept : ∀ b, RunKept s.time.ms (records s b).1 (records t b).1) : RunsKept s t := ⟨time, kept⟩

theorem RunsKept.of_bays {s t : State} (time : t.time = s.time) (bays : t.bays = s.bays) : RunsKept s t :=
  ⟨time, fun b => by simp only [State.bay, bays]; exact .refl _ _⟩

theorem RunsKept.refl (s : State) : RunsKept s s := .of_bays rfl rfl

theorem RunsKept.trans {s t u : State} (h : RunsKept s t) (h' : RunsKept t u) : RunsKept s u :=
  ⟨h'.time.trans h.time, fun b => (h.bay b).trans (h.time ▸ h'.bay b)⟩

/-! ### The passes -/

theorem runPass_runsKept (s : State) : RunsKept s (runPass s) := by
  refine .of_records (runPass_pass s).time fun b => ?_
  cases elig : (s.bay b).state.eligible with
  | false =>
    have same : (records (runPass s) b).1 = (records s b).1 := ((runPass_pass s).bayKept b).outside elig
    rw [same]
    exact .refl _ _
  | true =>
    obtain ⟨t, found⟩ := eligible_target elig
    rw [(runPass_records s).2 b t found]
    exact passRecords_runKept _ _ _ t (records s b)

theorem applyIncreases_runsKept (s : State) : RunsKept s (applyIncreases s) := by
  refine .of_records (applyIncreases_pass s).time fun b => ?_
  rw [(applyIncreases_records s).2 b]
  exact increaseApplied_runKept _ _ _

theorem settleIfDue_runsKept (s : State) : RunsKept s (settleIfDue s) := by
  have increased := applyIncreases_runsKept s
  unfold settleIfDue
  split
  · unfold settleExpires
    generalize applyIncreases s = t at increased ⊢
    split
    · exact .refl s
    · exact increased.trans (.of_bays rfl rfl)
  · exact .refl s

theorem runAsked_runsKept (s : State) : RunsKept s (runAsked s) := by
  have cleared : RunsKept s { s with alloc := { s.alloc with passAsked := false } } := .of_bays rfl rfl
  unfold runAsked
  dsimp only
  split
  · exact (cleared.trans (runPass_runsKept _)).trans (settleIfDue_runsKept _)
  · exact cleared

/-- R56: the tiers are no part of the bays' records. -/
theorem retierAll_runsKept (s : State) : RunsKept s (retierAll s) := by
  refine eachBay_rel .refl .trans (fun b s => ?_) s
  unfold retier
  split
  · exact .of_bays rfl rfl
  · exact .refl s

theorem settle_runsKept (n : Nat) (s : State) : RunsKept s (settle n s) := by
  induction n generalizing s with
  | zero => exact retierAll_runsKept s
  | succ n ih =>
    rw [settle_succ]
    split
    · exact ((retierAll_runsKept s).trans (runAsked_runsKept _)).trans (ih _)
    · exact retierAll_runsKept s

theorem finish_runsKept (s : State) : RunsKept s (finish s) := settle_runsKept _ s

end Sys2Proof.Machine
end

