-- ==== Sys2Proof/Proofs/SampleFaults.lean ====
section
/-! PROOF. The fault checks of a sample (R92 to R96), the end of HOLD at a sample (R97), and what the Allocator's count and
the passes after them leave of the bay. -/

namespace Sys2Proof.Machine

/-- R54: passes keep a bay's place in the eligible set. -/
theorem BayKept.eligible {r r' : BayRec} (h : BayKept r r') : r'.state.eligible = r.state.eligible := by
  cases e : r.state.eligible with
  | false => rw [h.outside e, e]
  | true => exact h.inside e

/-! ### The parts of a sample, case by case -/

/-- R97: a thermal sample in the cool-down wait, with the cool-down condition met. -/
abbrev CoolsDown (sup : SupervSettings) (r : BayRec) (thermal : Bool) (temperature : Byte) : Prop :=
  thermal = true ∧ r.backoff = .coolDown ∧
    (r.lastFault ≠ some .hot ∨ (temperature ≠ 255 ∧ temperature.toNat < 2 * (sup.hotLimit - 5 + 20)))

section Parts
variable {b : Bay} {draw : Byte} {reading : Option Byte} {s : State}

/-- R92: the fault checks as the conditions of the rule. -/
theorem sampleFault_eq (sup : SupervSettings) (r : BayRec) (draw temperature : Byte) (thermal : Bool) :
    sampleFault sup r draw (if thermal then some temperature else none) =
      if 3 ≤ senseRunAfter r draw then some (.sense, 255)
      else if (r.state = .charging ∨ r.state = .waiting) ∧ draw ≠ 255 ∧
          max r.grant r.prevGrant + sup.tolerance < draw.toNat then some (.overdraw, draw)
      else if thermal = true ∧ (r.state = .charging ∨ r.state = .waiting ∨ r.state = .qualifying) ∧
          temperature ≠ 255 ∧ 2 * (sup.hotLimit + 20) ≤ temperature.toNat then some (.hot, temperature)
      else none := by
  unfold sampleFault
  refine ite_congr rfl (fun _ => rfl) fun _ => ite_congr rfl (fun _ => rfl) fun _ => ?_
  cases thermal with
  | false => exact (if_neg fun h => Bool.false_ne_true h.1).symm
  | true => exact ite_congr (by simp [encodedLimit]) (fun _ => rfl) fun _ => rfl

/-- R92: a bay in HOLD is past its fault checks. -/
theorem sampleFault_hold {sup : SupervSettings} {r : BayRec} (hold : r.state = .hold) :
    sampleFault sup r draw reading = none := by
  refine Option.eq_none_iff_forall_ne_some.2 fun x found => ?_
  have state := sampleFault_state found
  simp [hold] at state

/-- R92: the bay record after a sample's checks that find no fault. -/
def clearedBay (draw : Byte) (r : BayRec) : BayRec := { r with invalidRun := senseRunAfter r draw, prevGrant := r.grant }

/-- R92: the checks that find no fault leave the run and the grant for the next sample. -/
theorem faultChecks_clear (clear : sampleFault s.superv (s.bay b) draw reading = none) :
    faultChecks b draw reading s = s.setBay b (clearedBay draw (s.bay b)) := by
  simp only [faultChecks, clear, bay_setBay_self, setBay_setBay, clearedBay]

theorem bay_transientFault (b : Bay) (kind : FaultKind) (detail : Byte) (s : State) :
    let new := faultState (s.bay b).retries s.superv.retryLimit
    (transientFault b kind detail s).bay b = (s.bay b).faulted kind new
      (if new = .hold then .running (s.time.ms + s.superv.backoff * 1000) else .stopped) := by
  dsimp only
  rw [transientFault_eq, bay_reportChange]
  exact bay_setBay_self s b _

/-- R94, R97: the bay record after a fault that a sample finds; the applied grant set to 0 is also the grant at previous
sample. -/
def faultedBay (sup : SupervSettings) (now : Nat) (kind : FaultKind) (r : BayRec) : BayRec :=
  let new := faultState r.retries sup.retryLimit
  { r.faulted kind new (if new = .hold then .running (now + sup.backoff * 1000) else .stopped) with prevGrant := 0 }

/-- R94, R97: the bay is out of the eligible set and does not wait to cool. -/
theorem faultedBay_outside (sup : SupervSettings) (now : Nat) (kind : FaultKind) (r : BayRec) :
    (faultedBay sup now kind r).state.eligible = false ∧ (faultedBay sup now kind r).backoff ≠ .coolDown := by
  refine ⟨faultState_outside _ _, ?_⟩
  dsimp only [faultedBay, BayRec.faulted]
  split <;> simp

/-- R96: the notice of a fault that a sample finds. -/
def faultNotice (b : Bay) (kind : FaultKind) (detail : Byte) (s : State) : Notice :=
  ⟨.bayFault, bayNumber b, s.time.minute, faultCode (some kind),
    (faultState (s.bay b).retries s.superv.retryLimit).code, byte (s.bay b).retries, detail⟩

/-- R92, R94, R96: a fault found writes the record and queues its notice before any other. -/
theorem faultChecks_found {kind : FaultKind} {detail : Byte}
    (found : sampleFault s.superv (s.bay b) draw reading = some (kind, detail)) :
    (faultChecks b draw reading s).bay b = faultedBay s.superv s.time.ms kind (s.bay b) ∧
      ∃ ns, (faultChecks b draw reading s).link = s.link.queueAll (faultNotice b kind detail s :: ns) := by
  have bay := bay_transientFault b kind detail s
  have grant : ((transientFault b kind detail s).bay b).grant = 0 := by rw [bay]; rfl
  have checks : faultChecks b draw reading s = (transientFault b kind detail s).setBay b
      { (transientFault b kind detail s).bay b with prevGrant := 0 } := by
    simp only [faultChecks, found, grant]
  obtain ⟨ns, link⟩ := (transientFault_pass b kind detail s).queues
  rw [checks, bay_setBay_self, bay]
  exact ⟨rfl, ns, link.trans (queueAll_queueAll _ ns s.link)⟩

/-- R97: outside the cool-down wait a sample ends no HOLD. -/
theorem coolDownSample_idle (idle : (s.bay b).backoff ≠ .coolDown) : coolDownSample b reading s = s := by
  cases reading <;> simp [coolDownSample, idle]

/-- R97: a sample of a bay in HOLD ends HOLD where the bay has cooled down, and does nothing otherwise. -/
theorem coolDownSample_hold (hold : (s.bay b).state = .hold) (thermal : Bool) (temperature : Byte) :
    coolDownSample b (if thermal then some temperature else none) s =
      if CoolsDown s.superv (s.bay b) thermal temperature then leaveHold b s else s := by
  cases thermal with
  | false => simp [coolDownSample]
  | true => exact if_congr (by simp [CoolsDown, hold, coolDownMet_iff]) rfl rfl

/-- R78: a sample of a bay outside CHARGING is not counted. -/
theorem allocSample_out (out : (s.bay b).state ≠ .charging) : allocSample b draw s = s := by
  simp [allocSample, countedSample, out]

theorem allocSample_bays (b : Bay) (draw : Byte) (s : State) :
    (∀ c, (allocSample b draw s).bay c = s.bay c) ∧ (allocSample b draw s).time = s.time := by
  unfold allocSample
  split
  · exact ⟨takeAction_bay, takeAction_time⟩
  · exact ⟨fun _ => rfl, rfl⟩

theorem not_charging_of_outside {st : BayState} (out : st.eligible = false) : st ≠ .charging := by
  rintro rfl
  cases out

/-- R54, R78: neither the Allocator's count nor passes touch the record of a bay outside the eligible set. -/
theorem finish_allocSample_outside (draw : Byte) (out : (s.bay b).state.eligible = false) :
    finish (allocSample b draw s) = finish s ∧ (finish s).bay b = s.bay b := by
  rw [allocSample_out (not_charging_of_outside out)]
  exact ⟨rfl, ((finish_pass s).bayKept b).outside out⟩

end Parts

/-! ### A sample once its energy is counted -/

/-- R23, R92: what follows the energy accumulator at a sample: the fault checks, the cool-down wait, the Allocator's count
and the passes. -/
def sampleActs (b : Bay) (draw : Byte) (reading : Option Byte) (s : State) : State :=
  finish (allocSample b draw (coolDownSample b reading (faultChecks b draw reading s)))

section Acts
variable {b : Bay} {draw : Byte} {s : State}

/-- R94, R96: a fault found at a sample leaves the bay in HOLD or LATCHED and queues BAY_FAULT first. -/
theorem sampleActs_fault {reading : Option Byte} {kind : FaultKind} {detail : Byte}
    (found : sampleFault s.superv (s.bay b) draw reading = some (kind, detail)) :
    (sampleActs b draw reading s).bay b = faultedBay s.superv s.time.ms kind (s.bay b) ∧
      ∃ ns, (sampleActs b draw reading s).link = s.link.queueAll (faultNotice b kind detail s :: ns) := by
  obtain ⟨bay, ns, link⟩ := faultChecks_found found
  obtain ⟨out, warm⟩ := faultedBay_outside s.superv s.time.ms kind (s.bay b)
  rw [← bay] at out warm
  obtain ⟨passes, same⟩ := finish_allocSample_outside draw out
  have acts : sampleActs b draw reading s = finish (faultChecks b draw reading s) := by
    rw [sampleActs, coolDownSample_idle warm, passes]
  obtain ⟨after, queued⟩ := (finish_pass (faultChecks b draw reading s)).queues
  rw [acts]
  refine ⟨same.trans bay, ns ++ after, ?_⟩
  rw [queued, link]
  exact queueAll_queueAll _ after s.link

/-- R92: a sample without a fault, of a bay outside HOLD, leaves the checked record to the passes. -/
theorem sampleActs_clear {reading : Option Byte} (clear : sampleFault s.superv (s.bay b) draw reading = none)
    (out : (s.bay b).state ≠ .hold) :
    BayKept (clearedBay draw (s.bay b)) ((sampleActs b draw reading s).bay b) ∧
      RunKept s.time.ms (clearedBay draw (s.bay b)) ((sampleActs b draw reading s).bay b) := by
  have checks : faultChecks b draw reading s = s.setBay b (clearedBay draw (s.bay b)) := faultChecks_clear clear
  have bay : (faultChecks b draw reading s).bay b = clearedBay draw (s.bay b) := by rw [checks, bay_setBay_self]
  have time : (faultChecks b draw reading s).time = s.time := by rw [checks]; rfl
  have acts : sampleActs b draw reading s = finish (allocSample b draw (faultChecks b draw reading s)) := by
    rw [sampleActs, coolDownSample_out (by rw [bay]; exact out)]
  obtain ⟨counted, same⟩ := allocSample_bays b draw (faultChecks b draw reading s)
  have kept := (finish_pass (allocSample b draw (faultChecks b draw reading s))).bayKept b
  have run := (finish_runsKept (allocSample b draw (faultChecks b draw reading s))).bay b
  rw [← acts, counted, bay] at kept run
  rw [same, time] at run
  exact ⟨kept, run⟩

/-- R97: HOLD ends at the sample at which the bay has cooled down, and no other. -/
theorem sampleActs_hold (thermal : Bool) (temperature : Byte) (hold : (s.bay b).state = .hold) :
    (sampleActs b draw (if thermal then some temperature else none) s).bay b =
      if CoolsDown s.superv (s.bay b) thermal temperature then (clearedBay draw (s.bay b)).retried s.time.ms
      else clearedBay draw (s.bay b) := by
  have checks : faultChecks b draw (if thermal then some temperature else none) s =
      s.setBay b (clearedBay draw (s.bay b)) := faultChecks_clear (sampleFault_hold hold)
  have bay : (s.setBay b (clearedBay draw (s.bay b))).bay b = clearedBay draw (s.bay b) := bay_setBay_self s b _
  have held : ((s.setBay b (clearedBay draw (s.bay b))).bay b).state = .hold := by rw [bay]; exact hold
  have cools := coolDownSample_hold held thermal temperature
  have left := bay_leaveHold held
  rw [bay] at cools left
  rw [sampleActs, checks]
  by_cases ends : CoolsDown s.superv (s.bay b) thermal temperature
  · obtain ⟨passes, same⟩ := finish_allocSample_outside (s := leaveHold b (s.setBay b (clearedBay draw (s.bay b)))) draw
      (by rw [left]; rfl)
    rw [cools.trans (if_pos ends), if_pos ends, passes, same, left]
    rfl
  · obtain ⟨passes, same⟩ := finish_allocSample_outside (s := s.setBay b (clearedBay draw (s.bay b))) draw
      (by rw [held]; rfl)
    rw [cools.trans (if_neg ends), if_neg ends, passes, same, bay]

end Acts

/-! ### The obligation -/

/-- R23: the awaited sample is written and its energy counted, and then it acts at its bay. -/
theorem recordSample_acts {b : Bay} {r : Round} {s : State} (draw temperature : Byte) (round : s.scan.round = some r)
    (asked : r.awaiting = some (.bay b)) : recordSample b draw temperature s =
      sampleActs b draw (if r.thermal then some temperature else none)
        ((sampleWritten b draw temperature r s).setBay b (energySample s.time.ms draw (s.bay b))) := by
  have thermal : inThermal s = r.thermal := by simp [inThermal, round]
  rw [recordSample_eq, sampleTaken_eq draw temperature round asked, thermal]
  rfl

/-- Settles O18: by the fault that the checks find, and with none found by whether the bay is in HOLD. -/
theorem sampleFaultChecks : Obligations.SampleFaultChecks := by
  intro b draw temperature r s free round asked
  have awaits : awaited s = some (.bay b) := by simp [awaited, round, asked]
  have arrives : sampleArrives b draw temperature s = recordSample b draw temperature s := if_pos awaits
  obtain ⟨sampled, energy, residue, counted⟩ : ∃ sampled energy residue, energySample s.time.ms draw (s.bay b) =
      { s.bay b with prevSample := sampled, energy := energy, residue := residue } :=
    ⟨_, _, _, energySample_eq s.time.ms draw (s.bay b)⟩
  have acts := recordSample_acts draw temperature round asked
  rw [counted] at acts
  generalize at_ : (sampleWritten b draw temperature r s).setBay b
    { s.bay b with prevSample := sampled, energy := energy, residue := residue } = u at acts
  have bay : u.bay b = { s.bay b with prevSample := sampled, energy := energy, residue := residue } := by
    rw [← at_, bay_setBay_self]
  have superv : u.superv = s.superv := by rw [← at_]; rfl
  have time : u.time = s.time := by rw [← at_]; rfl
  have link : u.link = s.link := by rw [← at_]; rfl
  have checks := sampleFault_eq u.superv (u.bay b) draw temperature r.thermal
  refine ⟨_, next_live free (arrives.trans acts), fun kind detail found => ?_, fun unfaulted out => ?_, fun hold => ?_⟩
  · have first : sampleFault u.superv (u.bay b) draw (if r.thermal then some temperature else none) =
        some (kind, detail) := by rw [checks, superv, bay]; exact found
    obtain ⟨after, ns, queued⟩ := sampleActs_fault first
    rw [after, queued, superv, time, bay, link, faultNotice, superv, time, bay]
    exact ⟨rfl, rfl, rfl, rfl, rfl, rfl, rfl, rfl, ns, rfl⟩
  · have clear : sampleFault u.superv (u.bay b) draw (if r.thermal then some temperature else none) =
        none := by rw [checks, superv, bay]; exact unfaulted
    obtain ⟨kept, run, _⟩ := sampleActs_clear clear (by rw [bay]; exact out)
    rw [bay] at kept run
    rw [time] at run
    refine ⟨kept.lastFault, kept.retries, run, kept.prevGrant, kept.eligible, fun outside => ?_⟩
    rw [kept.outside outside]
    rfl
  · have after := sampleActs_hold (s := u) (b := b) (draw := draw) r.thermal temperature (by rw [bay]; exact hold)
    rw [bay, superv, time] at after
    rw [after]
    dsimp only
    split
    · exact ⟨rfl, rfl, rfl, rfl, rfl, rfl, rfl⟩
    · exact ⟨rfl, rfl, hold, rfl, rfl, rfl, rfl⟩

end Sys2Proof.Machine
end

