-- ==== Sys2Proof/Proofs/DoorWork.lean ====
section
/-! PROOF. The laws of latch timers and motions, of the movers and of AUTONOMOUS mode (R108, R118, R119, R122, R181)
under the work of the Latch Controller and of every block that leaves the latches alone. -/

namespace Sys2Proof.Machine

/-! ### The motion that waits for a bay -/

/-- The motion of a bay in a motion queue. -/
def motionOf (q : List (Bay × Motion)) (b : Bay) : Option Motion := (q.find? fun m => m.1 == b).map Prod.snd

theorem pendingMotion_eq (s : State) (b : Bay) : s.pendingMotion b = motionOf s.latchUnit.queue b := rfl

theorem motionOf_eq_none {q : List (Bay × Motion)} {b : Bay} : motionOf q b = none ↔ ∀ x ∈ q, x.1 ≠ b := by
  simp [motionOf]

theorem noMotion_iff {s : State} {b : Bay} : NoMotion s b ↔ s.pendingMotion b = none := motionOf_eq_none.symm

theorem motionOf_mem {q : List (Bay × Motion)} {b : Bay} {m : Motion} (h : motionOf q b = some m) : (b, m) ∈ q := by
  obtain ⟨⟨c, n⟩, found, rfl⟩ := Option.map_eq_some_iff.1 h
  obtain rfl : c = b := by simpa using List.find?_some found
  exact List.mem_of_find?_eq_some found

/-- R118: with one entry per bay at most, an entry of the queue is its bay's motion. -/
theorem motionOf_of_mem {q : List (Bay × Motion)} (once : (q.map Prod.fst).Nodup) {b : Bay} {m : Motion}
    (h : (b, m) ∈ q) : motionOf q b = some m := by
  cases found : motionOf q b with
  | none => exact absurd rfl (motionOf_eq_none.1 found _ h)
  | some n =>
    have same := List.inj_on_of_nodup_map once (motionOf_mem found) h rfl
    rw [(Prod.mk.inj same).2]

theorem motionOf_append (q : List (Bay × Motion)) (b c : Bay) (m : Motion) : motionOf (q ++ [(b, m)]) c =
    (motionOf q c).or (if c = b then some m else none) := by
  simp only [motionOf, List.find?_append, Option.map_or]
  by_cases at_ : c = b
  · simp [at_]
  · simp [at_, Ne.symm at_]

/-- A part of the queue that holds every entry of a bay holds the bay's motion. -/
theorem motionOf_filter {q : List (Bay × Motion)} {p : Bay × Motion → Bool} {c : Bay}
    (all : ∀ x ∈ q, x.1 = c → p x = true) : motionOf (q.filter p) c = motionOf q c := by
  rw [motionOf, List.find?_filter]
  refine congrArg (Option.map Prod.snd) (List.find?_congr fun x mem => ?_)
  by_cases at_ : x.1 = c
  · simp [at_, all x mem at_]
  · simp [at_]

theorem motionOf_drop (q : List (Bay × Motion)) (b c : Bay) :
    motionOf (q.filter fun x => x.1 ≠ b) c = if c = b then none else motionOf q c := by
  split
  · subst_vars
    exact motionOf_eq_none.2 fun x mem => by simpa using (List.mem_filter.1 mem).2
  · rename_i other
    exact motionOf_filter fun x _ at_ => by simpa [at_] using other

/-! ### The law of one latch -/

/-- R108, R118: what the latch law says of one latch record and of the motion that waits for its bay. -/
def LatchOk (l : LatchRec) (motion : Option Motion) : Prop :=
  let noTravel := l.travel = none ∧ l.pause = none
  match l.state with
  | some .locked => noTravel ∧ l.window = none ∧ l.settle = none ∧ motion ≠ some .extend
  | some .jammed => noTravel ∧ l.window = none ∧ l.settle = none ∧ motion ≠ some .extend
  | some .retracting => l.travel ≠ none ∧ l.pause = none ∧ l.window = none ∧ l.settle = none ∧ motion = none
  | some .extending => (l.travel = none ↔ l.pause ≠ none) ∧ l.window = none ∧ l.settle = none ∧ motion = none
  | some .released =>
    noTravel ∧ l.settle = none ∧ motion ≠ some .retract ∧ (motion = some .extend ↔ l.window = none)
  | some .closing =>
    noTravel ∧ l.window = none ∧ motion ≠ some .retract ∧ (motion = some .extend ↔ l.settle = none)
  | some .opened => noTravel ∧ l.window = none ∧ l.settle = none ∧ motion = none
  | some .sensorFault => noTravel ∧ l.window = none ∧ l.settle = none ∧ motion = none
  | some .forced => noTravel ∧ l.window = none ∧ l.settle = none ∧ motion = none
  | none => noTravel ∧ l.window = none ∧ l.settle = none ∧ motion = none

theorem latchLaw_iff (s : State) : LatchLaw s ↔
    (s.latchUnit.queue.map Prod.fst).Nodup ∧ ∀ b, LatchOk (s.latch b) (s.pendingMotion b) := Iff.rfl

theorem LatchLaw.own {s : State} (law : LatchLaw s) (b : Bay) : LatchOk (s.latch b) (s.pendingMotion b) :=
  ((latchLaw_iff s).1 law).2 b

/-- R118: in most states no motion waits. -/
theorem LatchOk.unasked {l : LatchRec} {motion : Option Motion} (h : LatchOk l motion) {st : Option LatchState}
    (state : l.state = st) (rest : st ≠ some .locked ∧ st ≠ some .jammed ∧ st ≠ some .released ∧ st ≠ some .closing) :
    motion = none := by
  subst state
  unfold LatchOk at h
  dsimp only at h
  split at h <;> simp_all

/-- R108: no motion waiting, a latch at rest with every timer stopped meets the law in each of these states. -/
theorem latchOk_still (l : LatchRec) {st : LatchState} (h : st = .locked ∨ st = .jammed ∨ st = .opened ∨
    st = .sensorFault ∨ st = .forced) : LatchOk { l.still with state := some st } none := by
  rcases h with rfl | rfl | rfl | rfl | rfl <;> simp [LatchOk, LatchRec.still]

theorem latchOk_setFilter {l : LatchRec} {motion : Option Motion} (c : Contact) (f : Filter) (h : LatchOk l motion) :
    LatchOk (l.setFilter c f) motion := by
  cases c <;> exact h

/-! ### The relation -/

/-- From `s` to `t` the laws of the movers, of the latches and of AUTONOMOUS mode are kept. -/
structure DoorLaws (s t : State) : Prop where
  movers : MoversKept s t
  law : LatchLaw s → LatchLaw t
  autonomous : AutonomousLaw s → AutonomousLaw t

/-- Work that keeps these laws and leaves the latch settings, the movers limit among them. -/
structure DoorWork (s t : State) : Prop where
  laws : DoorLaws s t
  settings : t.latchUnit.settings = s.latchUnit.settings

theorem DoorWork.refl (s : State) : DoorWork s s := ⟨⟨Nat.le_max_right _ _, id, id⟩, rfl⟩

theorem DoorWork.trans {s t u : State} (h : DoorWork s t) (h' : DoorWork t u) : DoorWork s u := by
  obtain ⟨⟨movers, law, autonomous⟩, settings⟩ := h
  obtain ⟨⟨movers', law', autonomous'⟩, settings'⟩ := h'
  refine ⟨⟨?_, law' ∘ law, autonomous' ∘ autonomous⟩, settings'.trans settings⟩
  simp only [MoversKept, settings', settings] at movers movers' ⊢
  omega

theorem DoorWork.ite {p : Prop} [Decidable p] {s t u : State} (h : p → DoorWork s t) (h' : ¬ p → DoorWork s u) :
    DoorWork s (if p then t else u) := by
  split
  · exact h ‹_›
  · exact h' ‹_›

theorem DoorWork.when_ {p : Prop} [Decidable p] {s t : State} (h : p → DoorWork s t) :
    DoorWork s (if p then t else s) := .ite h fun _ => .refl s

theorem eachBay_doorWork {f : Bay → State → State} (h : ∀ b s, DoorWork s (f b s)) (s : State) :
    DoorWork s (eachBay f s) := eachBay_rel .refl .trans h s

theorem eachLane_doorWork {f : Lane → State → State} (h : ∀ l s, DoorWork s (f l s)) (s : State) :
    DoorWork s (eachLane f s) := eachLane_rel .refl .trans h s

/-! ### Work that leaves the latches alone -/

theorem latchLaw_congr {s t : State} (latches : t.latches = s.latches) (unit : t.latchUnit = s.latchUnit) :
    LatchLaw s → LatchLaw t := by
  simp only [latchLaw_iff, State.pendingMotion, State.latch, latches, unit]
  exact id

/-- Work of the other blocks: the latches and their queue are left, and in AUTONOMOUS mode idle lanes stay idle. -/
theorem IdleKept.doorWork {s t : State} (idle : IdleKept s t) (latches : t.latches = s.latches)
    (unit : t.latchUnit = s.latchUnit) : DoorWork s t where
  laws :=
    { movers := by
        rw [MoversKept, moving_congr latches]
        exact Nat.le_max_right _ _
      law := latchLaw_congr latches unit
      autonomous := fun law auto => by
        obtain ⟨lanes, turned, motions⟩ := law (idle.mode ▸ auto)
        refine ⟨idle.kept (idle.mode ▸ auto) lanes, fun b => ?_, by rwa [unit]⟩
        rw [State.latch, latches]
        exact turned b }
  settings := by rw [unit]

theorem OnlyPass.doorWork {s t : State} (h : OnlyPass s t) (idle : IdleKept s t) : DoorWork s t :=
  idle.doorWork h.latches h.latchUnit

theorem OnlyLanes.doorWork {s t : State} (h : OnlyLanes s t) (idle : IdleKept s t) : DoorWork s t :=
  h.pass.doorWork idle

/-- What the laws of the latches, the movers and AUTONOMOUS mode read of a state. -/
def doorView (s : State) := (s.latches, s.latchUnit, s.lanes, s.link.mode)

theorem DoorWork.of_view {s t : State} (h : doorView t = doorView s) : DoorWork s t := by
  simp only [doorView, Prod.mk.injEq] at h
  obtain ⟨latches, unit, lanes, mode⟩ := h
  exact (IdleKept.of_lanes mode lanes).doorWork latches unit

theorem DoorLaws.of_view_left {s t u : State} (view : doorView t = doorView s) (h : DoorLaws t u) : DoorLaws s u := by
  obtain ⟨⟨movers, law, autonomous⟩, settings⟩ := DoorWork.of_view view
  obtain ⟨movers', law', autonomous'⟩ := h
  refine ⟨?_, law' ∘ law, autonomous' ∘ autonomous⟩
  have moving : t.moving = s.moving := moving_congr (congrArg Prod.fst view)
  rwa [MoversKept, ← moving]

/-- Once the laws have been kept, work that leaves the latch settings keeps them on. -/
theorem DoorLaws.thenWork {s t u : State} (h : DoorLaws s t) (h' : DoorWork t u) : DoorLaws s u := by
  obtain ⟨movers, law, autonomous⟩ := h
  obtain ⟨⟨movers', law', autonomous'⟩, settings⟩ := h'
  refine ⟨?_, law' ∘ law, autonomous' ∘ autonomous⟩
  simp only [MoversKept, settings] at movers movers' ⊢
  omega

/-! ### Notices, the lanes and the custody records -/

theorem note_doorWork (k : NoticeKind) (b d1 d2 d3 d4 : Byte) (s : State) : DoorWork s (note k b d1 d2 d3 d4 s) :=
  (note_touch k b d1 d2 d3 d4 s).doorWork (.of_lanes (queued_mode _ _) rfl)

theorem latchNote_doorWork (k : NoticeKind) (b : Bay) (d1 d2 : Byte) (s : State) : DoorWork s (latchNote k b d1 d2 s) :=
  note_doorWork _ _ _ _ _ _ s

theorem setCust_doorWork (s : State) (b : Bay) (r : CustodyRec) : DoorWork s (s.setCust b r) := .of_view rfl

theorem assignmentRun_doorWork (s : State) : DoorWork s (assignmentRun s) :=
  (assignmentRun_touch s).doorWork (assignmentRun_idleKept s)

theorem release_doorWork (l : Lane) (c : ReleaseCause) (s : State) : DoorWork s (release l c s) :=
  (release_touch l c s).doorWork (release_idleKept l c s)

theorem removeQueued_doorWork (b : Bay) (r : Byte) (s : State) : DoorWork s (removeQueued b r s) :=
  (removeQueued_touch b r s).doorWork (removeQueued_idleKept b r s)

theorem schedLeftLocked_doorWork (b : Bay) (s : State) : DoorWork s (schedLeftLocked b s) := by
  unfold schedLeftLocked
  split
  · exact release_doorWork _ _ s
  · exact .refl s

theorem schedDetach_doorWork (b : Bay) (s : State) : DoorWork s (schedDetach b s) := by
  unfold schedDetach
  split
  · exact release_doorWork _ _ s
  · exact removeQueued_doorWork _ _ s

theorem endReservation_doorWork (b : Bay) (s : State) : DoorWork s (endReservation b s) := by
  unfold endReservation
  split
  · exact .refl s
  · exact (setCust_doorWork s b _).trans (assignmentRun_doorWork _)

theorem testHorizon_doorWork (b : Bay) (s : State) : DoorWork s (testHorizon b s) := by
  unfold testHorizon
  split
  · exact .refl s
  · have tested (r : CustodyRec) := setCust_doorWork s b r
    exact .ite (fun _ => .refl s) fun _ => .ite (fun _ => tested _) fun _ =>
      (tested _).trans (assignmentRun_doorWork _)

theorem testExpiry_doorWork (b : Bay) (s : State) : DoorWork s (testExpiry b s) := by
  unfold testExpiry
  split
  · exact .refl s
  · exact .when_ fun _ => (note_doorWork _ _ _ _ _ _ s).trans (endReservation_doorWork b _)

theorem testOverdue_doorWork (b : Bay) (s : State) : DoorWork s (testOverdue b s) := by
  unfold testOverdue
  split
  · split
    · exact .refl s
    · exact .when_ fun _ => (setCust_doorWork s b _).trans (note_doorWork _ _ _ _ _ _ _)
  · exact .refl s

theorem lapseNote_doorWork (b : Bay) (p : Purpose) (s : State) : DoorWork s (lapseNote b p s) := by
  cases p
  · exact note_doorWork _ _ _ _ _ _ _
  · exact note_doorWork _ _ _ _ _ _ _
  · exact .refl _

theorem lapsePurpose_doorWork (b : Bay) (s : State) : DoorWork s (lapsePurpose b s) := by
  unfold lapsePurpose
  split
  · exact .refl s
  · exact (setCust_doorWork s b { s.cust b with purpose := none }).trans (lapseNote_doorWork b _ _)

theorem custodyMinute_doorWork (s : State) : DoorWork s (custodyMinute s) :=
  eachBay_doorWork (fun b s => (((testExpiry_doorWork b s).trans (testHorizon_doorWork b _)).trans
    (testOverdue_doorWork b _)).trans (.when_ fun _ => lapsePurpose_doorWork b _)) s

theorem custodyAttach_doorWork (b : Bay) (s : State) : DoorWork s (custodyAttach b s) := by
  unfold custodyAttach
  dsimp only
  split
  · exact (setCust_doorWork s b _).trans (note_doorWork _ _ _ _ _ _ _)
  · exact .refl s
  · exact setCust_doorWork s b _
  · exact setCust_doorWork s b _

theorem custodyDetach_doorWork (b : Bay) (s : State) : DoorWork s (custodyDetach b s) := by
  have ended (r : CustodyRec) : DoorWork s (endReservation b (s.setCust b r)) :=
    (setCust_doorWork s b r).trans (endReservation_doorWork b _)
  have told (r : CustodyRec) (k : NoticeKind) (x d1 d2 d3 d4 : Byte) :
      DoorWork s (endReservation b (note k x d1 d2 d3 d4 (s.setCust b r))) :=
    ((setCust_doorWork s b r).trans (note_doorWork ..)).trans (endReservation_doorWork b _)
  rw [custodyDetach.eq_1]
  rcases (s.cust b).purpose with _ | ⟨_ | _ | _⟩ <;> rcases takenCause (s.latch b) with _ | cause
  case some.checkout.none | some.checkout.some => exact told ..
  case some.service.none | some.service.some => exact ended _
  case none.none | some.returning.none => exact note_doorWork ..
  case none.some | some.returning.some => exact told ..

theorem custodyRelocked_doorWork (b : Bay) (s : State) : DoorWork s (custodyRelocked b s) :=
  (lapsePurpose_doorWork b s).trans
    (.when_ fun _ => (setCust_doorWork _ b _).trans (endReservation_doorWork b _))

/-- R123: a latch event handed on. -/
theorem handOn_doorWork (b : Bay) (ev : LatchEvent) (s : State) : DoorWork s (handOn b ev s) := by
  cases ev with
  | released => exact .refl s
  | doorOpen => exact .refl s
  | releaseFailed => exact setCust_doorWork s b _
  | leftLocked => exact schedLeftLocked_doorWork b s
  | relocked => exact (custodyRelocked_doorWork b s).trans (assignmentRun_doorWork _)

theorem recompute_doorWork (s : State) : DoorWork s (recompute s) := by
  rw [recompute_eq]
  split <;> exact .of_view rfl

/-- The end of an event leaves the latches. -/
theorem finish_doorWork (s : State) : DoorWork s (finish s) := (finish_pass s).doorWork (finish_idleKept s)

theorem DoorWork.finished {s t : State} (h : DoorWork s t) : DoorWork s (finish t) := h.trans (finish_doorWork t)

theorem reply_doorWork (k tag : Byte) (r : Result) (l : List Byte) (s : State) : DoorWork s (reply k tag r l s) :=
  .of_view rfl

theorem refuse_doorWork (k tag : Byte) (r : Reason) (s : State) : DoorWork s (refuse k tag r s) := .of_view rfl

theorem DoorWork.replied {s t : State} (h : DoorWork s t) (k tag : Byte) (r : Result) (l : List Byte) :
    DoorWork s (reply k tag r l t) := h.trans (reply_doorWork k tag r l t)

theorem DoorWork.answered {s t : State} (h : DoorWork s t) (k tag : Byte) (r : Result) (l : List Byte) :
    DoorWork s (finish (reply k tag r l t)) := (h.replied k tag r l).finished

/-! ### A latch record and the motion queue changed together -/

/-- R108, R118: one latch apart, the law stands; that latch meets it with the motion that now waits. -/
theorem LatchLaw.relatch {s t : State} (law : LatchLaw s) {b : Bay} (others : ∀ c, c ≠ b → t.latch c = s.latch c)
    (once : (t.latchUnit.queue.map Prod.fst).Nodup) (motions : ∀ c, c ≠ b → t.pendingMotion c = s.pendingMotion c)
    (own : LatchOk (t.latch b) (t.pendingMotion b)) : LatchLaw t := by
  refine (latchLaw_iff t).2 ⟨once, fun c => ?_⟩
  by_cases at_ : c = b
  · subst at_
    exact own
  · rw [others c at_, motions c at_]
    exact law.own c

/-- What a change of one latch record and of the motion queue must meet to keep the laws. -/
structure Relatch (s : State) (b : Bay) (r : LatchRec) (q : List (Bay × Motion)) : Prop where
  still : r.isMoving = true → (s.latch b).isMoving = true
  turned : r.state = some .retracting → (s.latch b).state = some .retracting
  extends_ : ∀ x ∈ q, x ∈ s.latchUnit.queue ∨ x.2 = .extend
  law : LatchLaw s →
    (q.map Prod.fst).Nodup ∧ (∀ c, c ≠ b → motionOf q c = s.pendingMotion c) ∧ LatchOk r (motionOf q b)

theorem Relatch.doorWork {s : State} {b : Bay} {r : LatchRec} {q : List (Bay × Motion)} (h : Relatch s b r q) :
    DoorWork s ((s.setLatch b r).setMotions q) := by
  obtain ⟨t, made⟩ : ∃ t, (s.setLatch b r).setMotions q = t := ⟨_, rfl⟩
  have unit : t.latchUnit = { s.latchUnit with queue := q } := by rw [← made]; rfl
  have own : t.latch b = r := by rw [← made]; exact latch_setLatch_self s b r
  have others (c : Bay) (ne : c ≠ b) : t.latch c = s.latch c := by rw [← made]; exact latch_setLatch_ne s b c r ne
  have lanes : t.lanes = s.lanes := by rw [← made]; rfl
  have mode : t.link.mode = s.link.mode := by rw [← made]; rfl
  have queue : t.latchUnit.queue = q := by rw [unit]
  rw [made]
  refine ⟨⟨?_, fun law => ?_, fun law auto => ?_⟩, by rw [unit]⟩
  · have count := moving_one others
    have le : (t.latch b).isMoving.toNat ≤ (s.latch b).isMoving.toNat := by
      rw [own]
      cases moves : r.isMoving with
      | false => exact Nat.zero_le _
      | true => rw [h.still moves]
    rw [MoversKept]
    omega
  · obtain ⟨once, motions, ok⟩ := h.law law
    exact law.relatch others (by rwa [queue]) (fun c ne => by rw [pendingMotion_eq, queue, motions c ne])
      (by rwa [own, pendingMotion_eq, queue])
  · obtain ⟨idle, turned, extends_⟩ := law (mode ▸ auto)
    refine ⟨fun l => ?_, fun c => ?_, fun x mem => ?_⟩
    · rw [State.lane, lanes]
      exact idle l
    · by_cases at_ : c = b
      · subst at_
        rw [own]
        exact fun k => turned c (h.turned k)
      · rw [others c at_]
        exact turned c
    · rw [queue] at mem
      exact (h.extends_ x mem).elim (extends_ x) id

/-- A latch record changes, the motion queue left. -/
theorem setLatch_doorWork (s : State) (b : Bay) (r : LatchRec)
    (still : r.isMoving = true → (s.latch b).isMoving = true)
    (turned : r.state = some .retracting → (s.latch b).state = some .retracting)
    (own : LatchOk (s.latch b) (s.pendingMotion b) → LatchOk r (s.pendingMotion b)) : DoorWork s (s.setLatch b r) :=
  Relatch.doorWork (q := s.latchUnit.queue) ⟨still, turned, fun _ => .inl, fun law =>
    ⟨law.1, fun _ _ => rfl, own (law.own b)⟩⟩

theorem once_drop {q : List (Bay × Motion)} (once : (q.map Prod.fst).Nodup) (p : Bay × Motion → Bool) :
    ((q.filter p).map Prod.fst).Nodup := once.sublist (List.filter_sublist.map _)

theorem once_append {q : List (Bay × Motion)} {b : Bay} {m : Motion} (once : (q.map Prod.fst).Nodup)
    (none : motionOf q b = none) : ((q ++ [(b, m)]).map Prod.fst).Nodup := by
  rw [List.map_append, List.nodup_append]
  refine ⟨once, List.nodup_singleton _, fun a mem x at_ => ?_⟩
  obtain ⟨y, held, rfl⟩ := List.mem_map.1 mem
  obtain rfl : x = b := List.mem_singleton.1 at_
  exact motionOf_eq_none.1 none y held

/-- A latch comes to rest, its motion removed from the queue. -/
theorem dropLatch_doorWork (s : State) (b : Bay) (r : LatchRec) (still : r.isMoving = false) (own : LatchOk r none) :
    DoorWork s (dropMotion b (s.setLatch b r)) := by
  refine Relatch.doorWork ⟨fun moves => ?_, fun retracting => ?_, fun x mem => .inl (List.mem_filter.1 mem).1,
    fun law => ⟨once_drop law.1 _, fun c ne => ?_, ?_⟩⟩
  · rw [still] at moves
    cases moves
  · simp [LatchRec.isMoving, retracting] at still
  · rw [setLatch_latchUnit, motionOf_drop, if_neg ne, pendingMotion_eq]
  · rw [setLatch_latchUnit, motionOf_drop, if_pos rfl]
    exact own

/-- R118: an EXTEND joins the queue with a change of its latch, for which none waited. -/
theorem extendQueued_doorWork (s : State) (b : Bay) (r : LatchRec) (still : r.isMoving = false)
    (own : LatchOk (s.latch b) (s.pendingMotion b) → s.pendingMotion b = none ∧ LatchOk r (some .extend)) :
    DoorWork s (queueMotion b .extend (s.setLatch b r)) := by
  refine Relatch.doorWork ⟨fun moves => ?_, fun retracting => ?_, fun x mem => ?_, fun law => ?_⟩
  · rw [still] at moves
    cases moves
  · simp [LatchRec.isMoving, retracting] at still
  · rw [List.mem_append, List.mem_singleton] at mem
    exact mem.imp id (by rintro rfl; rfl)
  · obtain ⟨none, ok⟩ := own (law.own b)
    rw [pendingMotion_eq] at none
    refine ⟨once_append law.1 none, fun c ne => ?_, ?_⟩
    · rw [setLatch_latchUnit, motionOf_append, if_neg ne, pendingMotion_eq, Option.or_none]
    · rw [setLatch_latchUnit, motionOf_append, none, if_pos rfl]
      exact ok

/-! ### The latch states entered -/

theorem enterReleased_doorWork (b : Bay) (s : State) (h : (s.latch b).state = some .retracting) :
    DoorWork s (enterReleased b s) := by
  let r := { (s.latch b).still with
    state := some .released, window := some (s.time.ms + s.latchUnit.settings.window * 1000) }
  have entered : DoorWork s (s.setLatch b r) := by
    refine setLatch_doorWork s b r (by simp [r, LatchRec.isMoving]) (by simp [r]) fun ok => ?_
    rw [ok.unasked h (by decide)]
    simp [r, LatchOk, LatchRec.still]
  have told := entered.trans (latchNote_doorWork .released b 0 LatchState.released.code _)
  exact told.trans (handOn_doorWork b .released _)

/-- R113: a latch for which no motion waits enters LOCKED. -/
theorem enterLocked_doorWork (b : Bay) (s : State)
    (h : LatchOk (s.latch b) (s.pendingMotion b) → s.pendingMotion b = none) :
    DoorWork s (enterLocked b s) := by
  refine (setLatch_doorWork s b _ (by simp [LatchRec.isMoving]) (by simp) fun ok => ?_).trans (handOn_doorWork b _ _)
  rw [h ok]
  exact latchOk_still _ (.inl rfl)

theorem enterOpen_doorWork (b : Bay) (s : State) : DoorWork s (enterOpen b s) :=
  (dropLatch_doorWork s b _ rfl (latchOk_still _ (by simp))).trans (handOn_doorWork b _ _)

/-- R112: a latch for which no motion waits enters CLOSING. -/
theorem enterClosing_doorWork (b : Bay) (s : State)
    (h : LatchOk (s.latch b) (s.pendingMotion b) → s.pendingMotion b = none) :
    DoorWork s (enterClosing b s) := by
  refine setLatch_doorWork s b _ (by simp [LatchRec.isMoving]) (by simp) fun ok => ?_
  rw [h ok]
  simp [LatchOk, LatchRec.still]

theorem enterClosingExtend_doorWork (b : Bay) (s : State)
    (h : LatchOk (s.latch b) (s.pendingMotion b) → s.pendingMotion b = none) : DoorWork s (enterClosingExtend b s) :=
  extendQueued_doorWork s b _ rfl fun ok => ⟨h ok, by simp [LatchOk, LatchRec.still]⟩

theorem enterForced_doorWork (b : Bay) (st : LatchState) (s : State) : DoorWork s (enterForced b st s) := by
  have dropped := dropLatch_doorWork s b { (s.latch b).still with state := some .forced } rfl
    (latchOk_still _ (by simp))
  unfold enterForced
  exact ((((dropped.trans (.when_ fun _ => latchNote_doorWork ..)).trans (latchNote_doorWork ..)).trans
    (.when_ fun _ => handOn_doorWork b _ _)).trans (.when_ fun _ => handOn_doorWork b _ _)).trans
    (handOn_doorWork b _ _)

theorem enterSensorFault_doorWork (b : Bay) (st : LatchState) (s : State) : DoorWork s (enterSensorFault b st s) := by
  have dropped := dropLatch_doorWork s b { (s.latch b).still with state := some .sensorFault } rfl
    (latchOk_still _ (by simp))
  exact (((dropped.trans (.when_ fun _ => latchNote_doorWork ..)).trans (latchNote_doorWork ..)).trans
    (.when_ fun _ => handOn_doorWork b _ _)).trans (.when_ fun _ => handOn_doorWork b _ _)

/-! ### Motions granted -/

theorem latchOk_extended (l : LatchRec) (now travel : Nat) : LatchOk (l.extended now travel) none := by
  unfold LatchRec.extended
  split <;> simp [LatchOk, LatchRec.drivenOut]

theorem latchOk_retracted (l : LatchRec) (now travel window : Nat) : LatchOk (l.retracted now travel window) none := by
  unfold LatchRec.retracted
  split <;> simp [LatchOk, LatchRec.drivenIn]

/-- R119, R122: a grant made while a mover is free keeps the laws; in AUTONOMOUS mode only an EXTEND is granted. -/
theorem grant_doorWork (s : State) (b : Bay) (m : Motion) (waits : (b, m) ∈ s.latchUnit.queue)
    (free : s.moving < s.latchUnit.settings.movers) : DoorWork s (grant b m s) := by
  have unit := latchUnit_grant b m s
  have others (c : Bay) (ne : c ≠ b) := latch_grant_ne ne m s
  have settings : (grant b m s).latchUnit.settings = s.latchUnit.settings := by rw [unit]
  have motion (c : Bay) : (grant b m s).pendingMotion c = if c = b then none else s.pendingMotion c := by
    rw [pendingMotion_eq, unit, motionOf_drop, pendingMotion_eq]
  refine ⟨⟨?_, fun law => law.relatch others ?_ (fun c ne => ?_) ?_, fun law auto => ?_⟩, settings⟩
  · have one : (grant b m s).moving ≤ s.moving + 1 := moving_le_succ others
    rw [MoversKept, settings]
    omega
  · rw [unit]
    exact once_drop law.1 _
  · rw [motion, if_neg ne]
  · rw [motion, if_pos rfl]
    cases m
    · rw [latch_grant_retract, if_pos rfl]
      exact latchOk_retracted _ _ _ _
    · rw [latch_grant_extend, if_pos rfl]
      exact latchOk_extended _ _ _
  · have mode := (grant_untold b m s).mode
    obtain ⟨idle, turned, extends_⟩ := law (mode ▸ auto)
    obtain rfl : m = .extend := extends_ _ waits
    refine ⟨fun l => ?_, fun c => ?_, fun x mem => extends_ x (mem_grant_queue.1 mem).1⟩
    · rw [State.lane, grantExtend_lanes (mode ▸ auto)]
      exact idle l
    · rw [latch_grant_extend]
      split
      · rcases extended_state (s.latch b) s.time.ms s.latchUnit.settings.travel with e | e <;> simp [e]
      · exact turned c

/-- R119: an arbitration step keeps the laws. -/
theorem arbitrate_doorWork (s : State) : DoorWork s (arbitrate s) := arbitrate_rel .refl .trans grant_doorWork s

theorem moverFreed_doorWork (before s : State) : DoorWork s (moverFreed before s) :=
  (DoorWork.when_ fun _ => recompute_doorWork s).trans (arbitrate_doorWork _)

end Sys2Proof.Machine
end

