-- ==== Sys2Proof/Proofs/DoorMoves.lean ====
section
/-! PROOF. The laws of the latches, the movers and AUTONOMOUS mode under contact events, timers, windows, reversals and
release requests. -/

namespace Sys2Proof.Machine

/-! ### Contact events -/

theorem boltSlipped_doorWork (b : Bay) (s : State) (h : (s.latch b).state = some .locked) :
    DoorWork s (boltSlipped b s) := by
  refine .ite (fun _ => .refl s) fun retract => ?_
  refine ((enterClosingExtend_doorWork b s fun ok => ?_).trans (handOn_doorWork b _ _)).trans (arbitrate_doorWork _)
  rw [LatchOk, h] at ok
  obtain ⟨-, -, -, extend⟩ := ok
  rcases waits : s.pendingMotion b with _ | ⟨_ | _⟩
  · rfl
  · exact absurd waits retract
  · exact absurd waits extend

theorem sensorFaultTest_doorWork (b : Bay) (s : State) (h : (s.latch b).state = some .sensorFault) :
    DoorWork s (sensorFaultTest b s) := by
  have unasked (ok : LatchOk (s.latch b) (s.pendingMotion b)) : s.pendingMotion b = none :=
    ok.unasked h (by decide)
  unfold sensorFaultTest
  dsimp only
  split
  · exact .refl s
  split
  · exact enterOpen_doorWork b s
  split
  · exact enterLocked_doorWork b s unasked
  split
  · exact (enterClosingExtend_doorWork b s unasked).trans (arbitrate_doorWork _)
  · exact .refl s

/-- R110: the door of a latch in RETRACTING is opened. -/
theorem doorTaken_doorWork (b : Bay) (s : State) (h : (s.latch b).state = some .retracting) :
    DoorWork s (s.setLatch b { (s.latch b).still with state := some .opened }) := by
  refine setLatch_doorWork s b _ (by simp [LatchRec.isMoving]) (by simp) fun ok => ?_
  rw [ok.unasked h (by decide)]
  exact latchOk_still _ (by simp)

theorem doorOpened_doorWork (b : Bay) (st : LatchState) (s : State) (h : (s.latch b).state = some st) :
    DoorWork s (doorOpened b st s) := by
  cases st <;> simp only [doorOpened]
  case locked => exact enterForced_doorWork b .locked s
  case retracting =>
    exact (((doorTaken_doorWork b s h).trans (latchNote_doorWork ..)).trans
      ((handOn_doorWork ..).trans (handOn_doorWork ..))).trans (moverFreed_doorWork _ _)
  case released | closing => exact enterOpen_doorWork b s
  case extending => exact (enterOpen_doorWork b s).trans (moverFreed_doorWork _ _)
  case jammed => exact .ite (fun _ => enterForced_doorWork b .jammed s) fun _ => enterOpen_doorWork b s
  case opened | sensorFault | forced => exact .refl s

theorem doorShut_doorWork (b : Bay) (st : LatchState) (s : State) (h : (s.latch b).state = some st) :
    DoorWork s (doorShut b st s) := by
  cases st <;> simp only [doorShut]
  case opened => exact enterClosing_doorWork b s fun ok => ok.unasked h (by decide)
  case forced =>
    have unasked (ok : LatchOk (s.latch b) (s.pendingMotion b)) : s.pendingMotion b = none :=
      ok.unasked h (by decide)
    exact .ite (fun _ => enterLocked_doorWork b s unasked) fun _ => enterClosing_doorWork b s unasked
  all_goals exact .refl s

theorem boltMoved_doorWork (b : Bay) (st : LatchState) (c : Contact) (a : Bool) (s : State)
    (h : (s.latch b).state = some st) : DoorWork s (boltMoved b st c a s) := by
  unfold boltMoved
  split
  · rename_i moved
    exact (enterReleased_doorWork b s (by simp [h, moved.1])).trans (moverFreed_doorWork _ _)
  split
  · rename_i moved
    refine (enterLocked_doorWork b s fun ok => ?_).trans (moverFreed_doorWork _ _)
    exact ok.unasked h (by rw [moved.1]; decide)
  split
  · rename_i slipped
    exact boltSlipped_doorWork b s (by simp [h, slipped.1])
  · exact .refl s

theorem machineEvent_doorWork (b : Bay) (st : LatchState) (c : Contact) (a : Bool) (s : State)
    (h : (s.latch b).state = some st) : DoorWork s (machineEvent b st c a s) := by
  unfold machineEvent
  dsimp only
  split
  · exact sensorFaultTest_doorWork b s (by simp [*])
  split
  · have faulted := enterSensorFault_doorWork b st s
    exact .ite (fun _ => faulted.trans (moverFreed_doorWork _ _)) fun _ => faulted
  cases c
  · exact boltMoved_doorWork b st _ a s h
  · exact boltMoved_doorWork b st _ a s h
  · exact .ite (fun _ => doorShut_doorWork b st s h) fun _ => doorOpened_doorWork b st s h

theorem startMachine_doorWork (b : Bay) (s : State) (h : (s.latch b).state = none) : DoorWork s (startMachine b s) := by
  have unasked (ok : LatchOk (s.latch b) (s.pendingMotion b)) : s.pendingMotion b = none :=
    ok.unasked h (by decide)
  have starts (st : LatchState) (rest : st = .locked ∨ st = .opened ∨ st = .sensorFault) :
      DoorWork s (s.setLatch b { s.latch b with state := some st }) := by
    refine setLatch_doorWork s b _ ?_ ?_ fun ok => ?_
    · rcases rest with rfl | rfl | rfl <;> simp [LatchRec.isMoving]
    · rcases rest with rfl | rfl | rfl <;> simp
    · have none := unasked ok
      rw [none] at ok ⊢
      rw [LatchOk, h] at ok
      rcases rest with rfl | rfl | rfl <;> simpa [LatchOk] using ok
  unfold startMachine
  dsimp only
  split
  · exact (starts _ (by simp)).trans (latchNote_doorWork ..)
  split
  · exact starts _ (by simp)
  split
  · exact starts _ (by simp)
  split
  · exact enterClosing_doorWork b s unasked
  · exact enterClosingExtend_doorWork b s unasked

theorem startIfReady_doorWork (b : Bay) (s : State) : DoorWork s (startIfReady b s) :=
  .when_ fun h => startMachine_doorWork b s (readyToStart_state h)

theorem setFilter_doorWork (s : State) (b : Bay) (c : Contact) (f : Filter) :
    DoorWork s (s.setLatch b ((s.latch b).setFilter c f)) :=
  setLatch_doorWork s b _ (by simp [LatchRec.isMoving]) (by simp) (latchOk_setFilter c f)

theorem acceptLevel_doorWork (b : Bay) (c : Contact) (a : Bool) (s : State) : DoorWork s (acceptLevel b c a s) := by
  unfold acceptLevel
  dsimp only
  split
  · exact setFilter_doorWork s b c _
  · exact setFilter_doorWork s b c _
  · exact .ite (fun _ => .refl s) fun _ =>
      (setFilter_doorWork s b c _).trans (machineEvent_doorWork b _ c a _ (by simp [*]))

theorem contactEvent_doorWork (b : Bay) (c : Contact) (a : Bool) (s : State) : DoorWork s (contactEvent b c a s) := by
  have pin : DoorWork s (setContactPin b c a s) := .of_view rfl
  refine ((pin.trans (acceptLevel_doorWork b c a _)).trans (.when_ fun ready => ?_)).finished
  exact (startMachine_doorWork b _ (readyToStart_state ready)).trans (arbitrate_doorWork _)

theorem latchMachineStart_doorWork (b : Bay) (o i d : Bool) (s : State) : DoorWork s (latchMachineStart b o i d s) := by
  unfold latchMachineStart
  refine .ite (fun _ => .refl s) fun started => ?_
  have unstarted : (s.latch b).state = none := by simpa using started
  have pins : DoorWork s
      (setContactPin b .boltOut o (setContactPin b .boltIn i (setContactPin b .doorClosed d s))) := .of_view rfl
  refine (((pins.trans ?_).trans (startMachine_doorWork b _ ?_)).trans (arbitrate_doorWork _)).finished
  · exact setLatch_doorWork _ b _ id id id
  · rw [latch_setLatch_self]
    exact unstarted

/-! ### Timers -/

/-- R110, R113: the travel of a moving latch has timed out for good. -/
theorem jams_doorWork (b : Bay) (s : State) (h : (s.latch b).isMoving = true) :
    DoorWork s (s.setLatch b { (s.latch b).still with state := some .jammed }) := by
  refine setLatch_doorWork s b _ (fun _ => h) (by simp) fun ok => ?_
  rw [ok.unasked rfl]
  · exact latchOk_still _ (by simp)
  · refine ⟨?_, ?_, ?_, ?_⟩ <;> intro state <;> simp [LatchRec.isMoving, state] at h

theorem travelTimeout_doorWork (b : Bay) (s : State) : DoorWork s (travelTimeout b s) := by
  unfold travelTimeout
  dsimp only
  split
  · rename_i state
    exact ((((jams_doorWork b s (by simp [LatchRec.isMoving, state])).trans (latchNote_doorWork ..)).trans
      (handOn_doorWork ..)).trans (moverFreed_doorWork _ _)).finished
  · rename_i state
    refine .ite (fun _ => ?_) fun _ => ?_
    · exact (((jams_doorWork b s (by simp [LatchRec.isMoving, state])).trans (latchNote_doorWork ..)).trans
        (moverFreed_doorWork _ _)).finished
    · refine setLatch_doorWork s b _ id id fun ok => ?_
      simp only [LatchOk, state] at ok ⊢
      simpa using ok.2
  · exact .refl s

theorem retryPauseExpires_doorWork (b : Bay) (s : State) : DoorWork s (retryPauseExpires b s) := by
  unfold retryPauseExpires
  dsimp only
  split
  · rename_i state
    refine setLatch_doorWork s b _ id id fun ok => ?_
    simp only [LatchOk, state] at ok ⊢
    simpa using ok.2
  · exact .refl s

/-- R111: an EXTEND joins the queue as the window of a latch in RELEASED ends. -/
theorem endWindow_doorWork (b : Bay) (s : State) : DoorWork s (endWindow b s) := by
  unfold endWindow
  dsimp only
  split
  · rename_i window state
    refine extendQueued_doorWork s b _ (by simp [LatchRec.isMoving, state]) fun ok => ?_
    simp only [LatchOk, state, window] at ok ⊢
    obtain ⟨still, settle, retract, extend⟩ := ok
    refine ⟨?_, by simpa using ⟨still, settle⟩⟩
    rcases waits : s.pendingMotion b with _ | ⟨_ | _⟩ <;> simp_all
  · exact .refl s

theorem windowExpires_doorWork (b : Bay) (s : State) : DoorWork s (windowExpires b s) := by
  unfold windowExpires
  split
  · exact ((endWindow_doorWork b s).trans (arbitrate_doorWork _)).finished
  · exact .refl s

theorem closeSettleExpires_doorWork (b : Bay) (s : State) : DoorWork s (closeSettleExpires b s) := by
  unfold closeSettleExpires
  dsimp only
  split
  · rename_i settle state
    refine ((extendQueued_doorWork s b _ (by simp [LatchRec.isMoving, state]) fun ok => ?_).trans
      (arbitrate_doorWork _)).finished
    simp only [LatchOk, state, settle] at ok ⊢
    obtain ⟨still, window, retract, extend⟩ := ok
    refine ⟨?_, by simpa using ⟨still, window⟩⟩
    rcases waits : s.pendingMotion b with _ | ⟨_ | _⟩ <;> simp_all
  · exact .refl s

/-! ### Lockdown, AUTONOMOUS mode and release requests -/

theorem latchLockdown_doorWork (s : State) : DoorWork s (latchLockdown s) :=
  (eachBay_doorWork endWindow_doorWork s).trans (arbitrate_doorWork _)

/-- R122, step 1. -/
theorem reverseLatch_doorWork (b : Bay) (s : State) : DoorWork s (reverseLatch b s) := by
  refine .when_ fun h => setLatch_doorWork s b _ (fun _ => by simp [LatchRec.isMoving, h]) (by simp) fun ok => ?_
  rw [ok.unasked h (by decide)]
  simp [LatchOk, LatchRec.still]

theorem latchOk_unretracted {l : LatchRec} (h : LatchOk l (some .retract)) : LatchOk l none := by
  unfold LatchOk at h ⊢
  dsimp only at h ⊢
  split <;> simp_all

/-- R118: a motion taken out of the queue that is not an EXTEND. -/
theorem dropRetract_doorWork (b : Bay) (s : State) (waits : (b, Motion.retract) ∈ s.latchUnit.queue) :
    DoorWork s (s.setMotions (s.latchUnit.queue.filter fun m => m ≠ (b, Motion.retract))) := by
  have same : s.setMotions (s.latchUnit.queue.filter fun m => m ≠ (b, Motion.retract)) =
      (s.setLatch b (s.latch b)).setMotions (s.latchUnit.queue.filter fun m => m ≠ (b, Motion.retract)) := by
    rw [setLatch_latch]
  rw [same]
  refine Relatch.doorWork ⟨id, id, fun x mem => .inl (List.mem_filter.1 mem).1, fun law =>
    ⟨once_drop law.1 _, fun c ne => motionOf_filter fun x _ at_ => ?_, ?_⟩⟩
  · exact decide_eq_true fun e => ne (by rw [← at_, e])
  · have own := law.own b
    rw [pendingMotion_eq, motionOf_of_mem law.1 waits] at own
    have gone : motionOf (s.latchUnit.queue.filter fun m => m ≠ (b, Motion.retract)) b = none := by
      refine motionOf_eq_none.2 fun x mem at_ => ?_
      obtain ⟨held, ne⟩ := List.mem_filter.1 mem
      have motions := List.inj_on_of_nodup_map law.1 held waits at_
      simp [motions] at ne
    rw [gone]
    exact latchOk_unretracted own

/-- R122, step 2. -/
theorem removeRetract_doorWork (b : Bay) (s : State) : DoorWork s (removeRetract b s) :=
  .when_ fun waits => (dropRetract_doorWork b s waits).trans (.when_ fun _ => handOn_doorWork b _ _)

theorem latchAutonomous_doorWork (s : State) : DoorWork s (latchAutonomous s) :=
  (((eachBay_doorWork reverseLatch_doorWork s).trans (eachBay_doorWork removeRetract_doorWork _)).trans
    (eachBay_doorWork endWindow_doorWork _)).trans (arbitrate_doorWork _)

/-- R109, R118: a RETRACT joins the queue, in a mode other than AUTONOMOUS. -/
theorem queueRetract_doorWork (b : Bay) (s : State) (normal : s.link.mode = .normal)
    (state : (s.latch b).state = some .locked ∨ (s.latch b).state = some .jammed) (none : s.pendingMotion b = none) :
    DoorWork s (queueMotion b .retract s) := by
  refine ⟨⟨Nat.le_max_right _ _, fun law => ?_, fun _ auto => ?_⟩, rfl⟩
  · refine law.relatch (b := b) (fun _ _ => rfl) (once_append law.1 none) (fun c ne => ?_) ?_
    · rw [pendingMotion_eq, pendingMotion_eq]
      exact (motionOf_append _ b c _).trans (by rw [if_neg ne, Option.or_none])
    · have own := law.own b
      have waits : (queueMotion b .retract s).pendingMotion b = some .retract := by
        rw [pendingMotion_eq]
        refine (motionOf_append _ b b _).trans ?_
        rw [if_pos rfl, ← pendingMotion_eq, none]
        rfl
      rw [waits]
      rw [none] at own
      have same : (queueMotion b .retract s).latch b = s.latch b := rfl
      rw [same]
      rcases state with e | e <;> simpa [LatchOk, e] using own
  · have mode : (queueMotion b .retract s).link.mode = s.link.mode := rfl
    rw [mode, normal] at auto
    cases auto

theorem releaseRequest_doorWork (b : Bay) (s : State) : DoorWork s (releaseRequest b s) :=
  .when_ fun h => (queueRetract_doorWork b s h.1 h.2.1 h.2.2).trans (arbitrate_doorWork _)

end Sys2Proof.Machine
end

