-- ==== Sys2Proof/Proofs/DoorBays.lean ====
section
/-! PROOF. The events of the bays, the samples and rounds, and the settings of the Allocator and the Budget Unit keep
the laws of the latches, the movers and AUTONOMOUS mode. -/

namespace Sys2Proof.Machine

/-! ### The bays -/

theorem setBay_doorWork (s : State) (b : Bay) (r : BayRec) : DoorWork s (s.setBay b r) := .of_view rfl

theorem setChg_doorWork (s : State) (b : Bay) (r : ChargeRec) : DoorWork s (s.setChg b r) := .of_view rfl

theorem askPass_doorWork (s : State) : DoorWork s (askPass s) := .of_view rfl

theorem allocChange_doorWork (b : Bay) (o n : BayState) (s : State) : DoorWork s (allocChange b o n s) := by
  unfold allocChange
  exact .ite (fun _ => .of_view rfl) fun _ => .ite (fun _ => .of_view rfl) fun _ => .of_view rfl

/-- R6: a change of bay state reported to the Allocator and the Provisioning Scheduler. -/
theorem reportChange_doorWork (b : Bay) (o n : BayState) (s : State) : DoorWork s (reportChange b o n s) :=
  .ite (fun _ => .refl s) fun _ =>
    (allocChange_doorWork b o n s).trans ((schedChange_touch b o n _).doorWork (schedChange_idleKept b o n _))

theorem changeBay_doorWork (b : Bay) (n : BayState) (s : State) : DoorWork s (changeBay b n s) :=
  (setBay_doorWork s b _).trans (reportChange_doorWork b _ n _)

theorem enterQualifying_doorWork (b : Bay) (s : State) : DoorWork s (enterQualifying b s) :=
  (setBay_doorWork s b _).trans (reportChange_doorWork b _ _ _)

theorem leaveHold_doorWork (b : Bay) (s : State) : DoorWork s (leaveHold b s) :=
  (setBay_doorWork s b _).trans (enterQualifying_doorWork b _)

theorem probeFault_doorWork (b : Bay) (s : State) : DoorWork s (probeFault b s) :=
  ((setBay_doorWork s b _).trans (note_doorWork ..)).trans (reportChange_doorWork b _ _ _)

theorem transientFault_doorWork (b : Bay) (kind : FaultKind) (detail : Byte) (s : State) :
    DoorWork s (transientFault b kind detail s) :=
  ((setBay_doorWork s b _).trans (note_doorWork ..)).trans (reportChange_doorWork b _ _ _)

theorem attach_doorWork (b : Bay) (s : State) : DoorWork s (attach b s) := by
  unfold attach
  refine DoorWork.finished (DoorWork.trans ?_ (reportChange_doorWork b _ _ _))
  exact (((setBay_doorWork s b _).trans (note_doorWork ..)).trans (custodyAttach_doorWork b _)).trans
    (setChg_doorWork _ b _)

theorem attachEvent_doorWork (b : Bay) (s : State) : DoorWork s (attachEvent b s) := by
  have pin : DoorWork s (setSignature b true s) := .of_view rfl
  exact .ite (fun _ => .refl s) fun _ => pin.trans (attach_doorWork b _)

theorem detach_doorWork (b : Bay) (s : State) : DoorWork s (detach b s) := by
  unfold detach
  refine DoorWork.finished (DoorWork.trans ?_ (schedDetach_doorWork b _))
  refine DoorWork.trans ?_ (reportChange_doorWork b _ _ _)
  exact (((setBay_doorWork s b _).trans (note_doorWork ..)).trans (custodyDetach_doorWork b _)).trans
    (setChg_doorWork _ b _)

theorem detachEvent_doorWork (b : Bay) (s : State) : DoorWork s (detachEvent b s) := by
  have pin : DoorWork s (setSignature b false s) := .of_view rfl
  exact .when_ fun _ => pin.trans (detach_doorWork b _)

theorem probeCompletes_doorWork (b : Bay) (n : Nat) (short : Bool) (s : State) :
    DoorWork s (probeCompletes b n short s) :=
  .when_ fun _ => DoorWork.finished (.ite (fun _ => probeFault_doorWork b s) fun _ => changeBay_doorWork b _ s)

theorem shortTrip_doorWork (b : Bay) (s : State) : DoorWork s (shortTrip b s) :=
  .when_ fun _ => (transientFault_doorWork b _ _ s).finished

theorem backoffExpires_doorWork (b : Bay) (s : State) : DoorWork s (backoffExpires b s) := by
  unfold backoffExpires
  dsimp only
  split
  · exact .ite (fun _ => (leaveHold_doorWork b s).finished) fun _ => setBay_doorWork s b _
  · exact .refl s

theorem cleanChargeExpires_doorWork (b : Bay) (s : State) : DoorWork s (cleanChargeExpires b s) := by
  unfold cleanChargeExpires
  dsimp only
  split
  · exact .refl s
  · exact setBay_doorWork s b _

theorem takeBayEnableOff_doorWork (t b : Byte) (s : State) : DoorWork s (takeBayEnableOff t b s) := by
  unfold takeBayEnableOff
  split
  · exact refuse_doorWork _ _ _ s
  · exact DoorWork.answered (.ite (fun _ => .refl s) fun _ => changeBay_doorWork _ _ s) _ _ _ _

theorem takeBayEnableOn_doorWork (t b : Byte) (s : State) : DoorWork s (takeBayEnableOn t b s) := by
  unfold takeBayEnableOn
  split
  · exact refuse_doorWork _ _ _ s
  · exact DoorWork.answered (.when_ fun _ => .ite (fun _ => enterQualifying_doorWork _ s) fun _ =>
      changeBay_doorWork _ _ s) _ _ _ _

theorem clearFault_doorWork (b : Bay) (s : State) : DoorWork s (clearFault b s) := by
  have cleared := setBay_doorWork s b { s.bay b with retries := 0, lastFault := none }
  unfold clearFault
  dsimp only
  split
  · exact cleared.trans (.ite (fun _ => enterQualifying_doorWork b _) fun _ => changeBay_doorWork b _ _)
  · exact cleared.trans (enterQualifying_doorWork b _)
  all_goals exact cleared

theorem takeFaultClear_doorWork (t b : Byte) (s : State) : DoorWork s (takeFaultClear t b s) := by
  unfold takeFaultClear
  split
  · exact refuse_doorWork _ _ _ s
  · exact (clearFault_doorWork _ s).answered _ _ _ _

theorem takeBayQuery_doorWork (t b : Byte) (s : State) : DoorWork s (takeBayQuery t b s) := by
  unfold takeBayQuery
  split
  · exact refuse_doorWork _ _ _ s
  · exact reply_doorWork _ _ _ _ s

/-! ### Samples and rounds -/

theorem allocSample_doorWork (b : Bay) (draw : Byte) (s : State) : DoorWork s (allocSample b draw s) := by
  unfold allocSample
  refine .when_ fun _ => ?_
  unfold takeAction
  split
  · exact setChg_doorWork s b _
  · exact ((setChg_doorWork s b _).trans (note_doorWork ..)).trans (askPass_doorWork _)
  · exact (setChg_doorWork s b _).trans (askPass_doorWork _)

theorem faultChecks_doorWork (b : Bay) (draw : Byte) (reading : Option Byte) (s : State) :
    DoorWork s (faultChecks b draw reading s) := by
  unfold faultChecks
  refine DoorWork.trans ?_ (setBay_doorWork _ b _)
  split
  · exact transientFault_doorWork b _ _ s
  · exact setBay_doorWork s b _

theorem coolDownSample_doorWork (b : Bay) (reading : Option Byte) (s : State) :
    DoorWork s (coolDownSample b reading s) := by
  unfold coolDownSample
  split
  · exact .refl s
  · exact .when_ fun _ => leaveHold_doorWork b s

theorem baySample_doorWork (b : Bay) (draw : Byte) (reading : Option Byte) (s : State) :
    DoorWork s (baySample b draw reading s) :=
  ((setBay_doorWork s b _).trans (faultChecks_doorWork b draw reading _)).trans (coolDownSample_doorWork b reading _)

theorem askNext_doorWork (s : State) : DoorWork s (askNext s) := by
  unfold askNext
  split <;> exact .of_view rfl

theorem writeSample_doorWork (b : Bay) (d : Byte) (t : Option Byte) (s : State) : DoorWork s (writeSample b d t s) := by
  rw [writeSample_eq]
  exact .of_view rfl

theorem recordSample_doorWork (b : Bay) (d t : Byte) (s : State) : DoorWork s (recordSample b d t s) := by
  unfold recordSample
  exact ((((writeSample_doorWork b d _ s).trans (askNext_doorWork _)).trans (baySample_doorWork b d _ _)).trans
    (allocSample_doorWork b d _)).finished

theorem sampleArrives_doorWork (b : Bay) (d t : Byte) (s : State) : DoorWork s (sampleArrives b d t s) :=
  .when_ fun _ => recordSample_doorWork b d t s

theorem recordZone_doorWork (z : Zone) (v : Byte) (s : State) : DoorWork s (recordZone z v s) := by
  have recorded : DoorWork s { s with scan := { s.scan with
      working := { s.scan.working with zones := s.scan.working.zones.set z (some v) }
      latestZone := s.scan.latestZone.set z v } } := .of_view rfl
  exact recorded.trans (askNext_doorWork _)

theorem zoneArrives_doorWork (z : Zone) (v : Byte) (s : State) : DoorWork s (zoneArrives z v s) :=
  .when_ fun _ => recordZone_doorWork z v s

theorem readingMissed_doorWork (s : State) : DoorWork s (readingMissed s) := by
  unfold readingMissed
  split
  · exact .refl s
  · exact recordSample_doorWork _ _ _ s
  · exact recordZone_doorWork _ _ s

theorem thermalCompletion_doorWork (z : Vector Byte 4) (s : State) : DoorWork s (thermalCompletion z s) := by
  have taken : DoorWork s (zonesTaken z s) := .of_view rfl
  have computed := taken.trans (recompute_doorWork _)
  rw [thermalCompletion_eq]
  exact .ite (fun _ => computed.trans (askPass_doorWork _)) fun _ => computed

theorem runAsked_doorWork (s : State) : DoorWork s (runAsked s) := (runAsked_pass s).doorWork (runAsked_idleKept s)

theorem settleIfDue_doorWork (s : State) : DoorWork s (settleIfDue s) :=
  (settleIfDue_pass s).doorWork (settleIfDue_idleKept s)

theorem settleExpires_doorWork (s : State) : DoorWork s (settleExpires s) := by
  unfold settleExpires
  split
  · exact .refl s
  · have stopped (u : State) : DoorWork u { u with alloc := { u.alloc with settleTimer := none } } := .of_view rfl
    exact ((applyIncreases_pass s).doorWork (applyIncreases_idleKept s)).trans (stopped _)

theorem completeRound_doorWork (r : Round) (s : State) : DoorWork s (completeRound r s) := by
  have published : DoorWork s (publish r.thermal s) := .of_view rfl
  have after (s : State) : DoorWork s (afterRound s) := by rw [afterRound_eq]; exact .of_view rfl
  unfold completeRound
  refine DoorWork.finished (DoorWork.trans ?_ (after _))
  refine DoorWork.trans ?_ (.when_ fun _ => note_doorWork _ _ _ _ _ _ _)
  exact published.trans (.when_ fun _ => (thermalCompletion_doorWork _ _).trans (runAsked_doorWork _))

theorem roundCompletes_doorWork (s : State) : DoorWork s (roundCompletes s) := by
  unfold roundCompletes
  split
  · exact .refl s
  · exact .when_ fun _ => completeRound_doorWork _ s

theorem periodExpires_doorWork (s : State) : DoorWork s (periodExpires s) := by
  unfold periodExpires
  split
  · exact .of_view rfl
  · exact .refl s

theorem takeMeasure_doorWork (t : Byte) (s : State) : DoorWork s (takeMeasure t s) := by
  unfold takeMeasure
  dsimp only
  split <;> exact .of_view rfl

theorem takeScanSet_doorWork (t m p : Byte) (s : State) : DoorWork s (takeScanSet t m p s) := by
  unfold takeScanSet
  split
  · exact refuse_doorWork _ _ _ s
  · simp only [applyScan_eq]
    exact .of_view rfl

/-! ### Profiles, and the settings of the Allocator and the Budget Unit -/

theorem followProfile_doorWork (i : Fin 8) (old : Nat) (b : Bay) (s : State) : DoorWork s (followProfile i old b s) :=
  .when_ fun _ => (setChg_doorWork s b _).trans (setBay_doorWork _ b _)

theorem takeProfileSet_doorWork (t index : Byte) (a : Profile) (s : State) :
    DoorWork s (takeProfileSet t index a s) := by
  unfold takeProfileSet
  split
  · exact refuse_doorWork _ _ _ s
  · refine DoorWork.finished (DoorWork.trans ?_ (.when_ fun _ => askPass_doorWork _))
    refine DoorWork.replied (DoorWork.trans ?_ (eachBay_doorWork (followProfile_doorWork _ _) _)) _ _ _ _
    exact .of_view rfl

theorem takeBayProfile_doorWork (t bay index : Byte) (s : State) : DoorWork s (takeBayProfile t bay index s) := by
  unfold takeBayProfile
  split
  · exact DoorWork.finished ((DoorWork.replied ((setChg_doorWork s _ _).trans (setBay_doorWork _ _ _)) _ _ _ _).trans
      (askPass_doorWork _))
  · exact refuse_doorWork _ _ _ s

theorem takeChargeSet_doorWork (t : Byte) (a : ChargeSettings) (s : State) : DoorWork s (takeChargeSet t a s) := by
  have set : DoorWork s { s with alloc := { s.alloc with settings := clampCharge a } } := .of_view rfl
  exact ((set.replied _ _ _ _).trans (askPass_doorWork _)).finished

theorem takeBudgetSet_doorWork (t : Byte) (a : BudgetSettings) (s : State) : DoorWork s (takeBudgetSet t a s) := by
  have set : DoorWork s { s with budget := { s.budget with settings := clampBudget a } } := .of_view rfl
  exact ((set.replied _ _ _ _).trans (recompute_doorWork _)).finished

theorem shedAccepts_doorWork (a : Bool) (s : State) : DoorWork s (shedAccepts a s) := by
  unfold shedAccepts
  refine .ite (fun _ => .of_view rfl) fun _ => DoorWork.finished (DoorWork.trans ?_ (recompute_doorWork _))
  exact .of_view rfl

end Sys2Proof.Machine
end

