-- ==== Sys2Proof/Proofs/DoorRequests.lean ====
section
/-! PROOF. The requests of the Latch Controller, the Custody Table and the lanes, and the lanes' events, keep the laws
of the latches, the movers and AUTONOMOUS mode. -/

namespace Sys2Proof.Machine

/-! ### The latch settings and the lockdown -/

/-- R119, R125: the new movers limit is the one that the laws then speak of. -/
theorem takeLatchSet_doorLaws (t : Byte) (a : LatchSettings) (s : State) : DoorLaws s (takeLatchSet t a s) := by
  obtain ⟨u, set⟩ : ∃ u, { s with latchUnit := { s.latchUnit with settings := clampLatch a } } = u := ⟨_, rfl⟩
  have work : DoorWork u (takeLatchSet t a s) := by
    rw [← set]
    unfold takeLatchSet
    exact DoorWork.answered (DoorWork.trans (.when_ fun _ => (recompute_doorWork _).trans (runAsked_doorWork _))
      (.when_ fun _ => arbitrate_doorWork _)) _ _ _ _
  obtain ⟨movers, law, autonomous⟩ := work.laws
  subst set
  exact ⟨movers, law, autonomous⟩

theorem takeLockdownOn_doorWork (t : Byte) (s : State) : DoorWork s (takeLockdownOn t s) := by
  have set : DoorWork s { s with link := { s.link with lockdown := true } } := .of_view rfl
  unfold takeLockdownOn
  exact DoorWork.answered (.ite (fun _ => set) fun _ => set.trans (latchLockdown_doorWork _)) _ _ _ _

/-! ### Custody -/

theorem setPurpose_doorWork (b : Bay) (p : Purpose) (s : State) : DoorWork s (setPurpose b p s) :=
  setCust_doorWork s b _

theorem abortForCheckout_doorWork (b : Bay) (s : State) : DoorWork s (abortForCheckout b s) := by
  unfold abortForCheckout
  refine DoorWork.trans ?_ (removeQueued_doorWork b 5 _)
  split
  · exact release_doorWork _ _ s
  · exact .refl s

theorem acceptCheckout_doorWork (t : Byte) (b : Bay) (h : Word16) (g : Byte) (d : Nat) (s : State) :
    DoorWork s (acceptCheckout t b h g d s) := by
  unfold acceptCheckout
  refine DoorWork.answered (DoorWork.trans ?_ (releaseRequest_doorWork b _)) _ _ _ _
  exact ((abortForCheckout_doorWork b s).trans (endReservation_doorWork b _)).trans (setPurpose_doorWork b _ _)

theorem takeCheckout_doorWork (t b : Byte) (h : Word16) (g : Byte) (d : Word16) (f : Byte) (s : State) :
    DoorWork s (takeCheckout t b h g d f s) := by
  have refused := fun r => refuse_doorWork 0x30 t r s
  have accepted := fun b => acceptCheckout_doorWork t b h g (dueTime d) s
  unfold takeCheckout
  refine .ite (fun _ => refused _) fun _ => .ite (fun _ => refused _) fun _ => .ite (fun _ => refused _) fun _ => ?_
  split
  · refine .ite (fun _ => refused _) fun _ => ?_
    split
    · exact refused _
    · exact accepted _
  · split
    · exact refused _
    · exact .ite (fun _ => refused _) fun _ => accepted _

theorem takeReturn_doorWork (t : Byte) (h : Word16) (s : State) : DoorWork s (takeReturn t h s) := by
  have refused := fun r => refuse_doorWork 0x31 t r s
  unfold takeReturn
  refine .ite (fun _ => refused _) fun _ => .ite (fun _ => refused _) fun _ => .ite (fun _ => refused _) fun _ => ?_
  split
  · exact refused _
  · refine .ite (fun _ => refused _) fun _ => .ite (fun _ => refused _) fun _ => DoorWork.answered ?_ _ _ _ _
    exact (setPurpose_doorWork _ _ s).trans (releaseRequest_doorWork _ _)

theorem acceptService_doorWork (t : Byte) (b : Bay) (s : State) : DoorWork s (acceptService t b s) := by
  unfold acceptService
  refine DoorWork.answered (DoorWork.trans ?_ (releaseRequest_doorWork b _)) _ _ _ _
  refine DoorWork.trans ?_ (setPurpose_doorWork b _ _)
  refine DoorWork.trans ?_ (.when_ fun _ => lapsePurpose_doorWork b _)
  split
  · exact release_doorWork _ _ s
  · exact .refl s

theorem takeServiceOpen_doorWork (t b f : Byte) (s : State) : DoorWork s (takeServiceOpen t b f s) := by
  have refused := fun r => refuse_doorWork 0x21 t r s
  unfold takeServiceOpen
  refine .ite (fun _ => refused _) fun _ => ?_
  split
  · exact refused _
  · exact .ite (fun _ => refused _) fun _ => .ite (fun _ => refused _) fun _ => .ite (fun _ => refused _) fun _ =>
      acceptService_doorWork t _ s

theorem giveReservations_doorWork (g : Byte) (due : Word16) (bs : List Bay) (s : State) :
    DoorWork s (bs.foldl (fun s b => giveReservation g due b s) s) :=
  foldl_rel .refl .trans (fun b s => setCust_doorWork s b _) bs s

theorem acceptReserve_doorWork (t g : Byte) (n : Nat) (d : Word16) (s : State) :
    DoorWork s (acceptReserve t g n d s) := by
  unfold acceptReserve
  exact DoorWork.answered ((giveReservations_doorWork g _ _ s).trans (eachBay_doorWork (fun b s =>
    .when_ fun _ => testHorizon_doorWork b s) _)) _ _ _ _

theorem takeReserve_doorWork (t g c : Byte) (d : Word16) (s : State) : DoorWork s (takeReserve t g c d s) :=
  .ite (fun _ => refuse_doorWork _ _ _ s) fun _ => .ite (fun _ => refuse_doorWork _ _ _ s) fun _ =>
    acceptReserve_doorWork _ _ _ _ s

theorem takeReserveCancel_doorWork (t g : Byte) (s : State) : DoorWork s (takeReserveCancel t g s) :=
  .ite (fun _ => refuse_doorWork _ _ _ s) fun _ => DoorWork.answered (eachBay_doorWork (fun b s =>
    .when_ fun _ => endReservation_doorWork b s) s) _ _ _ _

theorem takeCustodyLoad_doorWork (t b : Byte) (h d : Word16) (s : State) :
    DoorWork s (takeCustodyLoad t b h d s) := by
  have refused := fun r => refuse_doorWork 0x34 t r s
  unfold takeCustodyLoad
  split
  · exact refused _
  · exact .ite (fun _ => refused _) fun _ => .ite (fun _ => refused _) fun _ => .ite (fun _ => refused _) fun _ =>
      (setCust_doorWork s _ _).replied _ _ _ _

theorem takeCustodySet_doorWork (t : Byte) (a : CustodySettings) (s : State) :
    DoorWork s (takeCustodySet t a s) := by
  have set : DoorWork s { s with custodySet := clampCustody a } := .of_view rfl
  refine .ite (fun _ => refuse_doorWork _ _ _ s) fun _ => DoorWork.answered (set.trans ?_) _ _ _ _
  exact eachBay_doorWork (fun b s => (testExpiry_doorWork b s).trans (testHorizon_doorWork b _)) _

theorem advanceMinute_doorWork (s : State) : DoorWork s (advanceMinute s) := by
  refine DoorWork.finished (DoorWork.trans ?_ (custodyMinute_doorWork _))
  exact .of_view rfl

/-! ### The lanes -/

/-- A lane record changes, and the lane holds no bay that held none. -/
theorem setLane_doorWork (s : State) (l : Lane) (r : LaneRec)
    (idle : (s.lane l).state.held = none → r.state.held = none) :
    DoorWork s (s.setLane l r) := by
  refine (setLane_touch s l r).doorWork ⟨rfl, fun _ none m => ?_⟩
  rw [lane_setLane]
  split
  · exact idle (none l)
  · exact none m

theorem laneOut_doorWork (l : Lane) (s : State) : DoorWork s (laneOut l s) := by
  unfold laneOut
  split
  · exact setLane_doorWork s l _ fun _ => rfl
  · exact release_doorWork l _ s
  · exact release_doorWork l _ s
  · exact .refl s

theorem laneIn_doorWork (l : Lane) (s : State) : DoorWork s (laneIn l s) := by
  unfold laneIn
  split
  · exact (setLane_doorWork s l _ fun _ => rfl).trans (assignmentRun_doorWork _)
  all_goals exact setLane_doorWork s l _ id

theorem takeProvAdd_doorWork (t b c : Byte) (j : Word16) (a : Byte) (s : State) :
    DoorWork s (takeProvAdd t b c j a s) := by
  have added : ∀ b c n, DoorWork s (addEntry b c j n s) := fun _ _ _ => .of_view rfl
  unfold takeProvAdd
  split
  · split
    · exact refuse_doorWork _ _ _ s
    · exact ((added _ _ _).trans (assignmentRun_doorWork _)).answered _ _ _ _
  · exact refuse_doorWork _ _ _ s

theorem takeProvCancel_doorWork (t b : Byte) (s : State) : DoorWork s (takeProvCancel t b s) := by
  have dropped (q : List Entry) : DoorWork s (s.setQueue q) := .of_view rfl
  unfold takeProvCancel
  split
  · exact refuse_doorWork _ _ _ s
  · split
    · exact (release_doorWork _ _ s).answered _ _ _ _
    · split
      · exact (dropped _).replied _ _ _ _
      · exact reply_doorWork _ _ _ _ s

theorem takeProvDone_doorWork (t l b : Byte) (j : Word16) (r : Byte) (s : State) :
    DoorWork s (takeProvDone t l b j r s) := by
  unfold takeProvDone
  split
  · exact .ite (fun _ => (release_doorWork _ _ s).answered _ _ _ _) fun _ => refuse_doorWork _ _ _ s
  · exact refuse_doorWork _ _ _ s

theorem takeLaneServiceOut_doorWork (t l : Byte) (s : State) : DoorWork s (takeLaneServiceOut t l s) := by
  unfold takeLaneServiceOut
  split
  · exact refuse_doorWork _ _ _ s
  · exact (laneOut_doorWork _ s).answered _ _ _ _

theorem takeLaneServiceIn_doorWork (t l : Byte) (s : State) : DoorWork s (takeLaneServiceIn t l s) := by
  unfold takeLaneServiceIn
  split
  · exact refuse_doorWork _ _ _ s
  · exact (laneIn_doorWork _ s).answered _ _ _ _

theorem putSlots_doorWork (slots : List ProvClass) (s : State) : DoorWork s (putSlots slots s) := by
  refine DoorWork.trans ?_ (assignmentRun_doorWork _)
  exact .of_view rfl

theorem takeSlotTable_doorWork (t n : Byte) (cs : List Byte) (s : State) :
    DoorWork s (takeSlotTable t n cs s) := by
  refine .ite (fun _ => reply_doorWork _ _ _ _ s) fun _ => .ite (fun _ => refuse_doorWork _ _ _ s) fun _ => ?_
  split
  · exact refuse_doorWork _ _ _ s
  · exact (putSlots_doorWork _ s).answered _ _ _ _

theorem lineCheckReturns_doorWork (l : Lane) (n : Nat) (d : DataLine) (s : State) :
    DoorWork s (lineCheckReturns l n d s) := by
  unfold lineCheckReturns
  split
  · rename_i state
    exact .when_ fun _ => .ite (fun _ => setLane_doorWork s l _ (by simp [state, LaneState.held])) fun _ =>
      ((setBay_doorWork s _ _).trans (release_doorWork _ _ _)).finished
  · exact .refl s

theorem lineCheckMissed_doorWork (l : Lane) (s : State) : DoorWork s (lineCheckMissed l s) := by
  unfold lineCheckMissed
  split
  · exact (release_doorWork _ _ s).finished
  · exact .refl s

theorem patternEnds_doorWork (l : Lane) (k n : Nat) (s : State) : DoorWork s (patternEnds l k n s) := by
  unfold patternEnds
  split
  · rename_i e _ _ state
    refine .when_ fun _ => ?_
    have counted := setLane_doorWork s l { s.lane l with lastErrors := min 255 n } id
    have active (u : State) (holds : (u.lane l).state.held ≠ none) : DoorWork u (enterActive l e u) :=
      (setLane_doorWork u l _ fun none => absurd none holds).trans (note_doorWork ..)
    refine .ite (fun _ => counted.trans (active _ ?_)) fun _ => (counted.trans (release_doorWork l _ _)).finished
    simp [state, LaneState.held]
  · exact .refl s

theorem sessionExpires_doorWork (l : Lane) (s : State) : DoorWork s (sessionExpires l s) := by
  unfold sessionExpires
  split
  · exact (release_doorWork _ _ s).finished
  · exact .refl s

end Sys2Proof.Machine
end

