-- ==== Sys2Proof/Proofs/DoorsKept.lean ====
section
/-! PROOF. The store, the resets, the link and the tick keep the laws of the latches, the movers and AUTONOMOUS mode,
and so does every step (R108, R118, R119, R122, R181). -/

namespace Sys2Proof.Machine

theorem DoorLaws.refl (s : State) : DoorLaws s s := (DoorWork.refl s).laws

theorem DoorLaws.ite {p : Prop} [Decidable p] {s t u : State} (h : p → DoorLaws s t) (h' : ¬ p → DoorLaws s u) :
    DoorLaws s (if p then t else u) := by
  split
  · exact h ‹_›
  · exact h' ‹_›

/-! ### The store and the resets -/

theorem takeStoreSave_doorWork (t : Byte) (s : State) : DoorWork s (takeStoreSave t s) := by
  unfold takeStoreSave
  split <;> exact .of_view rfl

theorem saveCompletes_doorWork (s : State) : DoorWork s (saveCompletes s) := by
  unfold saveCompletes
  split
  · exact .refl s
  · rename_i v _
    have written : DoorWork s { s with
        store := { writeRest s.store with save := none }
        budget := { s.budget with storedInlet := v.copy.budget.inlet } } := .of_view rfl
    exact written.trans (note_doorWork _ _ _ _ _ _ _)

/-- R126, R183: both kinds of reset stop every latch machine, empty the motion queue and end AUTONOMOUS mode. -/
theorem clearBlocks_doorLaws (s u : State) : DoorLaws s (clearBlocks u) := by
  have latch (b : Bay) : (clearBlocks u).latch b = LatchRec.initial := by simp [State.latch, clearBlocks]
  have stopped : (clearBlocks u).moving = 0 := by
    simp [State.moving, latch, LatchRec.isMoving, LatchRec.initial]
  refine ⟨?_, fun _ => (latchLaw_iff _).2 ⟨List.nodup_nil, fun b => ?_⟩, fun _ auto => ?_⟩
  · rw [MoversKept, stopped]
    exact Nat.zero_le _
  · rw [latch]
    exact ⟨⟨rfl, rfl⟩, rfl, rfl, rfl⟩
  · cases auto

theorem startRound_doorWork (s : State) : DoorWork s (startRound false s) := .of_view rfl

theorem endReset_doorWork (s : State) : DoorWork s (endReset s) := .of_view rfl

theorem fullReset_doorLaws (c : ResetCause) (s : State) : DoorLaws s (fullReset c s) := by
  have reset : DoorLaws s (resetPart s) := clearBlocks_doorLaws s _
  have held (h : Option ResetCause) : DoorWork (resetPart s) { resetPart s with held := h } := .of_view rfl
  cases c
  case powerOn => exact reset.thenWork (held _)
  case rstLow => exact reset.thenWork (held _)
  case restartFull =>
    rw [fullReset]
    split
    · exact .refl s
    · exact reset.thenWork (endReset_doorWork _)

theorem resetEnds_doorWork (s : State) : DoorWork s (resetEnds s) := by
  unfold resetEnds
  split
  · exact .refl s
  · exact endReset_doorWork s

theorem warmRestart_doorLaws (s : State) : DoorLaws s (warmRestart s) :=
  (clearBlocks_doorLaws s (abandonSave s)).thenWork (startRound_doorWork _)

/-! ### The link -/

theorem schedAutonomous_doorWork (s : State) : DoorWork s (schedAutonomous s) :=
  eachLane_doorWork (fun l s => release_doorWork l .autonomous s) s

/-- R122, R166, R181: the work of the entry leaves no lane QUALIFYING or ACTIVE, no latch RETRACTING and no RETRACT
waiting. -/
theorem enterAutonomous_doorWork (s : State) : DoorWork s (enterAutonomous s) := by
  obtain ⟨u, entered⟩ : ∃ u, note .autonomousEntered 0 (byte s.link.period) 0 0 0 (setMode .autonomous s) = u :=
    ⟨_, rfl⟩
  have mode : u.link.mode = .autonomous := by rw [← entered]; exact queued_mode _ _
  have latches : u.latches = s.latches := by rw [← entered]; rfl
  have unit : u.latchUnit = s.latchUnit := by rw [← entered]; rfl
  have work : DoorWork u (finish (recompute (latchAutonomous (schedAutonomous u)))) :=
    (((schedAutonomous_doorWork u).trans (latchAutonomous_doorWork _)).trans (recompute_doorWork _)).finished
  have end_ := (autonomousEntered_autonomous mode).arbitrate.recomputed.law
  rw [← latchAutonomous_sched mode] at end_
  have run : enterAutonomous s = finish (recompute (latchAutonomous (schedAutonomous u))) := by rw [← entered]; rfl
  obtain ⟨⟨movers, law, -⟩, settings⟩ := work
  rw [run]
  refine ⟨⟨?_, fun before => law (latchLaw_congr latches unit before), fun _ => end_⟩, by rw [settings, unit]⟩
  rwa [MoversKept, ← moving_congr latches]

theorem watchdogExpires_doorWork (s : State) : DoorWork s (watchdogExpires s) := by
  have stopped : DoorWork s { s with link := { s.link with watchdog := none } } := .of_view rfl
  unfold watchdogExpires
  split
  · exact .refl s
  · dsimp only
    split
    · exact stopped.trans (enterAutonomous_doorWork _)
    · exact stopped

/-- R182: NORMAL mode is set, so that the law of AUTONOMOUS mode asks for nothing. -/
theorem setNormal_doorWork (s : State) : DoorWork s (setMode .normal s) :=
  ⟨⟨Nat.le_max_right _ _, latchLaw_congr rfl rfl, fun _ auto => nomatch auto⟩, rfl⟩

theorem takeResume_doorWork (t : Byte) (s : State) : DoorWork s (takeResume t s) := by
  unfold takeResume
  split
  · exact reply_doorWork _ _ _ _ s
  · exact (((setNormal_doorWork s).trans (recompute_doorWork _)).trans (assignmentRun_doorWork _)).answered _ _ _ _

theorem takeLinkSet_doorWork (t c : Byte) (s : State) : DoorWork s (takeLinkSet t c s) :=
  .ite (fun _ => refuse_doorWork _ _ _ s) fun _ => .of_view rfl

/-- R175: a request that its owning block serves keeps the laws. -/
theorem serve_doorLaws (i : Instr) (s : State) : DoorLaws s (serve i s) := by
  cases i <;> simp only [serve]
  case latchSet => exact takeLatchSet_doorLaws _ _ s
  case restartWarm => exact (warmRestart_doorLaws s).thenWork (reply_doorWork _ _ _ _ _)
  all_goals refine DoorWork.laws ?_
  case status => exact .of_view rfl
  case notices => exact .of_view rfl
  case snapshot => exact .of_view rfl
  case bayQuery => exact takeBayQuery_doorWork _ _ s
  case measure => exact takeMeasure_doorWork _ s
  case scanSet => exact takeScanSet_doorWork _ _ _ s
  case budgetSet => exact takeBudgetSet_doorWork _ _ s
  case profileSet => exact takeProfileSet_doorWork _ _ _ s
  case bayProfile => exact takeBayProfile_doorWork _ _ _ s
  case bayEnableOff => exact takeBayEnableOff_doorWork _ _ s
  case bayEnableOn => exact takeBayEnableOn_doorWork _ _ s
  case chargeSet => exact takeChargeSet_doorWork _ _ s
  case supervisionSet => exact .of_view rfl
  case faultClear => exact takeFaultClear_doorWork _ _ s
  case serviceOpen => exact takeServiceOpen_doorWork _ _ _ s
  case lockdownOn => exact takeLockdownOn_doorWork _ s
  case lockdownOff => exact .of_view rfl
  case checkout => exact takeCheckout_doorWork _ _ _ _ _ _ s
  case returnTablet => exact takeReturn_doorWork _ _ s
  case reserve => exact takeReserve_doorWork _ _ _ _ s
  case reserveCancel => exact takeReserveCancel_doorWork _ _ s
  case custodyLoad => exact takeCustodyLoad_doorWork _ _ _ _ s
  case custodySet => exact takeCustodySet_doorWork _ _ s
  case provAdd => exact takeProvAdd_doorWork _ _ _ _ _ s
  case provCancel => exact takeProvCancel_doorWork _ _ s
  case provDone => exact takeProvDone_doorWork _ _ _ _ _ s
  case laneServiceOut => exact takeLaneServiceOut_doorWork _ _ s
  case laneServiceIn => exact takeLaneServiceIn_doorWork _ _ s
  case slotTable => exact takeSlotTable_doorWork _ _ _ s
  case provSet => exact .of_view rfl
  case watchdogArm => exact .of_view rfl
  case resume => exact takeResume_doorWork _ s
  case storeSave => exact takeStoreSave_doorWork _ s
  case restartFull => exact .of_view rfl
  case linkSet => exact takeLinkSet_doorWork _ _ s
  case unknownKind => exact .of_view rfl
  all_goals exact .refl s

theorem takeFrame_doorLaws (f : Frame) (s : State) : DoorLaws s (takeFrame f s) := by
  unfold takeFrame
  split
  · exact serve_doorLaws _ s
  · exact (reply_doorWork _ _ _ _ s).laws
  · exact (refuse_doorWork _ _ _ s).laws

theorem takeNext_doorLaws (s : State) : DoorLaws s (takeNext s) := by
  unfold takeNext
  split
  · rename_i f rest _ _
    exact .of_view_left (t := { s with link := { s.link with buffer := rest } }) rfl (takeFrame_doorLaws f _)
  · exact .refl s

theorem bufferFrame_doorView (f : Frame) (s : State) : doorView (bufferFrame f s) = doorView s := by
  unfold bufferFrame
  split <;> rfl

theorem discardFrame_doorWork (s : State) : DoorWork s (discardFrame s) := .of_view rfl

theorem setRx_doorWork (r : Receiver) (s : State) : DoorWork s (setRx r s) := .of_view rfl

theorem frameCompletes_doorLaws (bytes : List Byte) (s : State) : DoorLaws s (frameCompletes bytes s) := by
  unfold frameCompletes
  split
  · exact (discardFrame_doorWork s).laws
  · refine .of_view_left ((bufferFrame_doorView _ _).trans ?_) (takeNext_doorLaws _)
    split <;> rfl

theorem huntByte_doorWork (v : Byte) (g : Bool) (s : State) : DoorWork s (huntByte v g s) :=
  .when_ fun _ => setRx_doorWork _ s

theorem byteArrives_doorLaws (v : Byte) (g : Bool) (s : State) : DoorLaws s (byteArrives v g s) := by
  have discarded := discardFrame_doorWork s
  unfold byteArrives
  split
  · exact (huntByte_doorWork _ _ s).laws
  · exact .ite (fun _ => (discarded.trans (huntByte_doorWork _ _ _)).laws) fun _ =>
      .ite (fun _ => .ite (fun _ => discarded.laws) fun _ =>
        .ite (fun _ => frameCompletes_doorLaws _ s) fun _ => (setRx_doorWork _ s).laws) fun _ => discarded.laws

theorem gapExpires_doorWork (s : State) : DoorWork s (gapExpires s) := by
  unfold gapExpires
  split
  · exact .refl s
  · exact discardFrame_doorWork s

theorem answerEnds_doorLaws (s : State) : DoorLaws s (answerEnds s) := by
  unfold answerEnds
  split
  · exact .refl s
  · exact .ite (fun _ => fullReset_doorLaws _ s) fun _ =>
      .of_view_left (t := { s with link := { s.link with sending := none, lineRate := s.link.rate } }) rfl
        (takeNext_doorLaws _)

/-! ### The tick -/

/-- R3, R4: the presence filter counts, or tells of an attach or a detach. -/
theorem samplePresence_doorWork (b : Bay) (s : State) : DoorWork s (samplePresence b s) := by
  have attached := attach_doorWork b s
  have detached := detach_doorWork b s
  unfold samplePresence
  refine .ite (fun _ => .ite (fun _ => ?_) fun _ => .ite (fun _ => detached) fun _ => ?_) fun _ =>
    .ite (fun _ => ?_) fun _ => .ite (fun _ => attached) fun _ => ?_
  all_goals exact setBay_doorWork s b _

theorem sampleShed_doorWork (s : State) : DoorWork s (sampleShed s) :=
  .ite (fun _ => .of_view rfl) fun _ => .ite (fun _ => shedAccepts_doorWork _ s) fun _ => .of_view rfl

theorem sampleContact_doorWork (b : Bay) (c : Contact) (s : State) : DoorWork s (sampleContact b c s) :=
  .ite (fun _ => (acceptLevel_doorWork b c _ s).finished) fun _ => setFilter_doorWork s b c _

theorem startMachines_doorWork (s : State) : DoorWork s (startMachines s) :=
  .when_ fun _ => ((eachBay_doorWork startIfReady_doorWork s).trans (arbitrate_doorWork _)).finished

theorem tickFilters_doorWork (s : State) : DoorWork s (tickFilters s) :=
  (((eachBay_doorWork samplePresence_doorWork s).trans (sampleShed_doorWork _)).trans (eachBay_doorWork (fun b s =>
    ((sampleContact_doorWork b _ s).trans (sampleContact_doorWork b _ _)).trans
      (sampleContact_doorWork b _ _)) _)).trans (startMachines_doorWork _)

theorem tickReading_doorWork (s : State) : DoorWork s (tickReading s) := by
  unfold tickReading
  split
  · exact .refl s
  · exact .when_ fun _ => readingMissed_doorWork s

theorem tickBackoff_doorWork (b : Bay) (s : State) : DoorWork s (tickBackoff b s) := by
  unfold tickBackoff
  split
  · exact .when_ fun _ => backoffExpires_doorWork b s
  · exact .refl s
  · exact .refl s

theorem tickCharge_doorWork (s : State) : DoorWork s (tickCharge s) := by
  have wait (s : State) : DoorWork s (tickWait s) := .when_ fun _ => periodExpires_doorWork s
  have clean (b : Bay) (s : State) : DoorWork s (tickClean b s) := .when_ fun _ => cleanChargeExpires_doorWork b s
  exact (((((settleIfDue_doorWork s).trans (tickReading_doorWork _)).trans (roundCompletes_doorWork _)).trans
    (wait _)).trans (eachBay_doorWork tickBackoff_doorWork _)).trans (eachBay_doorWork clean _)

theorem tickLatches_doorWork (s : State) : DoorWork s (tickLatches s) := by
  have travel (b : Bay) (s : State) : DoorWork s (tickTravel b s) := .when_ fun _ => travelTimeout_doorWork b s
  have pause (b : Bay) (s : State) : DoorWork s (tickPause b s) := .when_ fun _ => retryPauseExpires_doorWork b s
  have window (b : Bay) (s : State) : DoorWork s (tickWindow b s) := .when_ fun _ => windowExpires_doorWork b s
  have close (b : Bay) (s : State) : DoorWork s (tickCloseSettle b s) :=
    .when_ fun _ => closeSettleExpires_doorWork b s
  exact (((eachBay_doorWork travel s).trans (eachBay_doorWork pause _)).trans (eachBay_doorWork window _)).trans
    (eachBay_doorWork close _)

theorem tickLineCheck_doorWork (l : Lane) (s : State) : DoorWork s (tickLineCheck l s) := by
  unfold tickLineCheck
  split
  · exact .when_ fun _ => lineCheckMissed_doorWork l s
  · exact .refl s

theorem tickSession_doorWork (l : Lane) (s : State) : DoorWork s (tickSession l s) := by
  unfold tickSession
  split
  · exact .when_ fun _ => sessionExpires_doorWork l s
  · exact .refl s

theorem tickGap_doorWork (s : State) : DoorWork s (tickGap s) := by
  unfold tickGap
  split
  · exact .refl s
  · exact .when_ fun _ => gapExpires_doorWork s

theorem tickLink_doorWork (s : State) : DoorWork s (tickLink s) := by
  have watchdog (s : State) : DoorWork s (tickWatchdog s) := .when_ fun _ => watchdogExpires_doorWork s
  exact (((eachLane_doorWork tickLineCheck_doorWork s).trans (eachLane_doorWork tickSession_doorWork _)).trans
    (watchdog _)).trans (tickGap_doorWork _)

theorem live_doorWork {f : State → State} {s : State} (h : DoorWork s (f s)) : DoorWork s (live f s) :=
  .ite (fun _ => .refl s) fun _ => h

theorem live_doorLaws {f : State → State} {s : State} (h : DoorLaws s (f s)) : DoorLaws s (live f s) :=
  .ite (fun _ => .refl s) fun _ => h

/-- R193: a tick keeps the laws. -/
theorem tick_doorWork (s : State) : DoorWork s (tick s) := by
  have count : DoorWork s (countTick s) := .of_view rfl
  have minute (s : State) : DoorWork s (tickMinute s) := .when_ fun _ => advanceMinute_doorWork s
  exact live_doorWork (((((count.trans (minute _)).trans (tickFilters_doorWork _)).trans
    (tickCharge_doorWork _)).trans (tickLatches_doorWork _)).trans (tickLink_doorWork _))

/-! ### Every command -/

theorem request_doorLaws (i : Instr) (s : State) : DoorLaws s (request i (serve i) s) := by
  refine live_doorLaws (.ite (fun _ => serve_doorLaws i s) fun _ => ?_)
  split
  · exact (DoorWork.of_view (bufferFrame_doorView _ s)).laws
  · exact .refl s

/-- Every command answers a state in which the laws still hold. -/
theorem exec_doorLaws (i : Instr) (s : State) : ∃ t, exec i s = .next t ∧ DoorLaws s t := by
  cases i
  case frameReceived v => exact ⟨_, rfl, live_doorLaws (byteArrives_doorLaws v true s)⟩
  case interbyteGapTimeout => exact ⟨_, rfl, (live_doorWork (gapExpires_doorWork s)).laws⟩
  case answerSent => exact ⟨_, rfl, live_doorLaws (answerEnds_doorLaws s)⟩
  case attach b => exact ⟨_, rfl, (live_doorWork (attachEvent_doorWork b s)).laws⟩
  case detach b => exact ⟨_, rfl, (live_doorWork (detachEvent_doorWork b s)).laws⟩
  case probeComplete b n f => exact ⟨_, rfl, (live_doorWork (probeCompletes_doorWork b n f s)).laws⟩
  case shortEvent b => exact ⟨_, rfl, (live_doorWork (shortTrip_doorWork b s)).laws⟩
  case sample b d t => exact ⟨_, rfl, (live_doorWork (sampleArrives_doorWork b d t s)).laws⟩
  case readingDeadline => exact ⟨_, rfl, (live_doorWork (readingMissed_doorWork s)).laws⟩
  case zoneReading z v => exact ⟨_, rfl, (live_doorWork (zoneArrives_doorWork z v s)).laws⟩
  case roundComplete => exact ⟨_, rfl, (live_doorWork (roundCompletes_doorWork s)).laws⟩
  case periodExpiry => exact ⟨_, rfl, (live_doorWork (periodExpires_doorWork s)).laws⟩
  case backoffExpiry b => exact ⟨_, rfl, (live_doorWork (backoffExpires_doorWork b s)).laws⟩
  case cleanChargeExpiry b => exact ⟨_, rfl, (live_doorWork (cleanChargeExpires_doorWork b s)).laws⟩
  case shedChange a => exact ⟨_, rfl, (live_doorWork (shedAccepts_doorWork a s)).laws⟩
  case settleExpiry => exact ⟨_, rfl, (live_doorWork (settleExpires_doorWork s)).laws⟩
  case contactEvent b c a => exact ⟨_, rfl, (live_doorWork (contactEvent_doorWork b c a s)).laws⟩
  case latchMachineStart b o i d => exact ⟨_, rfl, (live_doorWork (latchMachineStart_doorWork b o i d s)).laws⟩
  case travelTimeout b => exact ⟨_, rfl, (live_doorWork (travelTimeout_doorWork b s)).laws⟩
  case retryPauseExpiry b => exact ⟨_, rfl, (live_doorWork (retryPauseExpires_doorWork b s)).laws⟩
  case windowExpiry b => exact ⟨_, rfl, (live_doorWork (windowExpires_doorWork b s)).laws⟩
  case closeSettleExpiry b => exact ⟨_, rfl, (live_doorWork (closeSettleExpires_doorWork b s)).laws⟩
  case minuteAdvance => exact ⟨_, rfl, (live_doorWork (advanceMinute_doorWork s)).laws⟩
  case lineCheckResult l n d => exact ⟨_, rfl, (live_doorWork (lineCheckReturns_doorWork l n d s)).laws⟩
  case lineCheckDeadline l => exact ⟨_, rfl, (live_doorWork (lineCheckMissed_doorWork l s)).laws⟩
  case patternCheckEnd l k n => exact ⟨_, rfl, (live_doorWork (patternEnds_doorWork l k n s)).laws⟩
  case sessionExpiry l => exact ⟨_, rfl, (live_doorWork (sessionExpires_doorWork l s)).laws⟩
  case watchdogExpiry => exact ⟨_, rfl, (live_doorWork (watchdogExpires_doorWork s)).laws⟩
  case storeWordWrite => exact ⟨_, rfl, (live_doorWork (.of_view rfl)).laws⟩
  case saveComplete => exact ⟨_, rfl, (live_doorWork (saveCompletes_doorWork s)).laws⟩
  case fullReset c => exact ⟨_, rfl, fullReset_doorLaws c s⟩
  case byteReceived v g => exact ⟨_, rfl, live_doorLaws (byteArrives_doorLaws v g s)⟩
  case resetEnd => exact ⟨_, rfl, (resetEnds_doorWork s).laws⟩
  all_goals exact ⟨_, rfl, request_doorLaws _ s⟩

/-- Every step keeps the laws. -/
theorem step_doorLaws {s t : State} (h : step s = .next t) : DoorLaws s t := by
  unfold step at h
  split at h
  · cases h
    exact (tick_doorWork s).laws
  · rename_i c rest _
    obtain ⟨u, run, kept⟩ := exec_doorLaws c { s with pending := rest }
    rw [run] at h
    cases h
    exact .of_view_left (t := { s with pending := rest }) rfl kept

/-- Settles O43: every command keeps the laws. A change of one latch record goes with the change of the motion queue
that the law of that latch asks for, and a latch starts to move only by a grant made while a mover is free. -/
theorem latchLawsAreKept : Obligations.LatchLawsAreKept := by
  intro s t h
  obtain ⟨movers, law, autonomous⟩ := step_doorLaws h
  exact ⟨movers, law, autonomous⟩

end Sys2Proof.Machine
end

