-- ==== Sys2Proof/Proofs/ContactLevels.lean ====
section
/-! PROOF. What follows a contact filter's new level (R107): the latch that it leaves at rest, or the EXTEND that it
asks for, with the arbitration step and the end of the event after it. -/

namespace Sys2Proof.Machine

/-! ### A level taken -/

/-- The state with these pins and this record of a bay's latch. -/
def State.sampled (s : State) (pins : Pins) (b : Bay) (r : LatchRec) : State :=
  { s with pins := pins, latches := s.latches.set b r }

theorem latch_sampled_self (s : State) (pins : Pins) (b : Bay) (r : LatchRec) : (s.sampled pins b r).latch b = r :=
  latch_setLatch_self s b r

theorem latch_sampled_ne (s : State) (pins : Pins) (b : Bay) (r : LatchRec) {c : Bay} (ne : c ≠ b) :
    (s.sampled pins b r).latch c = s.latch c := latch_setLatch_ne s b c r ne

theorem sampled_moving (s : State) (pins : Pins) (b : Bay) (r : LatchRec) (same : r.state = (s.latch b).state) :
    (s.sampled pins b r).moving = s.moving := by
  have count := moving_one (s := s) (t := s.sampled pins b r) fun c ne => latch_sampled_ne s pins b r ne
  rw [latch_sampled_self, show r.isMoving = (s.latch b).isMoving by simp only [LatchRec.isMoving, same]] at count
  omega

theorem Filter.on_iff (f : Filter) : f.on = true ↔ f.level = some true := decide_eq_true_iff

theorem Filter.on_of {f : Filter} {level : Bool} (h : f.level = some level) : f.on = level := by
  cases level <;> simp [Filter.on, h]

/-! ### The end of the event -/

/-- An event in which the Budget Unit is not told leaves its budget, and writes what latches and passes write. -/
theorem Untold.finished {s t : State} (h : Untold s t) :
    OnlyLatchesPass s (finish t) ∧ BudgetKept s (finish t) ∧ ∃ ns, (finish t).link = t.link.queueAll ns := by
  have pass := finish_pass t
  exact ⟨⟨t, h.latches, pass⟩, ⟨by rw [pass.derate, h.budget], by rw [pass.computed, h.budget]⟩, pass.queues⟩

theorem Untold.arbitrated {s t : State} (h : Untold s t) : OnlyLatchesPass s (finish (arbitrate t)) ∧
    BudgetKept s (finish (arbitrate t)) ∧ ∃ ns, (finish (arbitrate t)).link = t.link.queueAll ns := by
  obtain ⟨only, kept, ms, second⟩ := (h.trans (arbitrate_untold t)).finished
  obtain ⟨ns, first⟩ := (arbitrate_untold t).latches.queues
  exact ⟨only, kept, ns ++ ms, by rw [second, first, queueAll_queueAll]⟩

/-- R119: the latches that an arbitration step after work at one bay leaves. -/
theorem rest_finish {b : Bay} {s v : State} (others : ∀ c, c ≠ b → v.latch c = s.latch c)
    (unit : v.latchUnit = s.latchUnit) (none : NoMotion s b) :
    OtherLatchesKept b s (finish (arbitrate v)) ∧ (finish (arbitrate v)).latch b = v.latch b := by
  have kept (c : Bay) (h : NoMotion s c) : (finish (arbitrate v)).latch c = v.latch c :=
    ((finish_pass _).latch c).trans ((arbitrate_arbitrated v).bystander c (by rwa [NoMotion, unit]))
  exact ⟨fun c ne h => (kept c h).trans (others c ne), kept b none⟩

/-- R118, R119: an EXTEND has been asked for with a change of its latch record, whatever else the Latch Controller has
handed on. -/
theorem extendAsked_finish {b : Bay} {s v : State} {r : LatchRec} (latches : v.latches = s.latches.set b r)
    (unit : v.latchUnit = { s.latchUnit with queue := s.latchUnit.queue ++ [(b, .extend)] }) (time : v.time = s.time)
    (none : NoMotion s b) (moving : r.isMoving = (s.latch b).isMoving) (unthrown : r.boltOut.level ≠ some true) :
    OtherLatchesKept b s (finish (arbitrate v)) ∧ ExtendFollows b r s (finish (arbitrate v)) := by
  obtain ⟨before, e⟩ : ∃ u : State, { v with latches := s.latches, latchUnit := s.latchUnit } = u := ⟨_, rfl⟩
  have asked : queueMotion b .extend (before.setLatch b r) = v := by
    rw [← e]
    simp only [queueMotion, State.setMotions, State.setLatch, ← latches, ← unit]
  have sameLatches : before.latches = s.latches := by rw [← e]
  have sameUnit : before.latchUnit = s.latchUnit := by rw [← e]
  have sameTime : before.time = s.time := by rw [← e]; exact time
  have latch (c : Bay) : before.latch c = s.latch c := by rw [State.latch, sameLatches]; rfl
  have noMotion (c : Bay) : NoMotion before c ↔ NoMotion s c := by rw [NoMotion, sameUnit]; rfl
  have followed := extendQueued_finish (r := r) ((noMotion b).2 none) (moving.trans (by rw [latch])) unthrown
  rw [asked] at followed
  obtain ⟨-, others, follows⟩ := followed
  rw [ExtendFollows, sameUnit, sameTime, moving_congr sameLatches] at follows
  exact ⟨fun c ne h => (others c ne ((noMotion c).2 h)).trans (latch c), follows⟩

end Sys2Proof.Machine
end

