-- ==== Sys2Proof/Proofs/LatchStarts.lean ====
section
/-! PROOF. The start of a latch machine from its first accepted levels (R107, R126). -/

namespace Sys2Proof.Machine

/-- R126: from `s`, whose bay's latch machine has not started, the levels accepted with `u` lead to `t`. -/
def LatchStarts (b : Bay) (s : State) (out inn shut : Bool) (u t : State) : Prop :=
  let r := u.latch b
  OnlyLatchesPass u t ∧ OtherLatchesKept b s t ∧ BudgetKept s t ∧
  (out = true → inn = true → t.latch b = { r with state := some .sensorFault } ∧
    ∃ ns, t.link = s.link.queueAll (⟨.latchFault, bayNumber b, s.time.minute, 2, 255, 0, 0⟩ :: ns)) ∧
  ((out = false ∨ inn = false) → shut = false → t.latch b = { r with state := some .opened }) ∧
  (out = true → inn = false → shut = true → t.latch b = { r with state := some .locked }) ∧
  let still := { r with state := some .closing, travel := none, pause := none, window := none, settle := none }
  (out = false → inn = true → shut = true →
    t.latch b = { still with settle := some (s.time.ms + s.latchUnit.settings.closeSettle) }) ∧
  (out = false → inn = false → shut = true → ExtendFollows b still s t)

section Levels
variable {b : Bay} {u : State} {out inn shut : Bool}
variable (atOut : (u.latch b).boltOut.level = some out) (atIn : (u.latch b).boltIn.level = some inn)
variable (atDoor : (u.latch b).door.level = some shut)
include atOut atIn atDoor

theorem startMachine_levels : startMachine b u =
    if out = true ∧ inn = true then
      latchNote .latchFault b 2 255 (u.setLatch b { u.latch b with state := some .sensorFault })
    else if shut = false then u.setLatch b { u.latch b with state := some .opened }
    else if out = true then u.setLatch b { u.latch b with state := some .locked }
    else if inn = true then enterClosing b u
    else enterClosingExtend b u := by
  simp only [startMachine, Filter.on_of atOut, Filter.on_of atIn, Filter.on_of atDoor]

/-- R126: only the start with neither bolt contact asserted asks for a motion. -/
theorem startMachine_rests (rests : out = true ∨ inn = true ∨ shut = false) :
    (startMachine b u).latchUnit = u.latchUnit ∧ ∀ c, c ≠ b → (startMachine b u).latch c = u.latch c := by
  have set (r : LatchRec) :
      (u.setLatch b r).latchUnit = u.latchUnit ∧ ∀ c, c ≠ b → (u.setLatch b r).latch c = u.latch c :=
    ⟨rfl, fun c ne => latch_setLatch_ne u b c r ne⟩
  rw [startMachine_levels atOut atIn atDoor]
  split_ifs
  · exact set _
  · exact set _
  · exact set _
  · exact set _
  · simp_all

end Levels

/-- R126: a latch machine starts, and an arbitration step follows. -/
theorem startMachine_starts {b : Bay} {s : State} {r : LatchRec} (pins : Pins) {out inn shut : Bool}
    (state : (s.latch b).state = none) (none : NoMotion s b)
    (atOut : r.boltOut.level = some out) (atIn : r.boltIn.level = some inn) (atDoor : r.door.level = some shut) :
    LatchStarts b s out inn shut (s.sampled pins b r) (finish (arbitrate (startMachine b (s.sampled pins b r)))) := by
  obtain ⟨u, e⟩ : ∃ u, s.sampled pins b r = u := ⟨_, rfl⟩
  have own : u.latch b = r := by rw [← e]; exact latch_sampled_self s pins b r
  have levels := startMachine_levels (b := b) (u := u) (by rwa [own]) (by rwa [own]) (by rwa [own])
  have others (c : Bay) (ne : c ≠ b) : u.latch c = s.latch c := by rw [← e]; exact latch_sampled_ne s pins b r ne
  have rests (asks : out = true ∨ inn = true ∨ shut = false) := by
    obtain ⟨unit, left⟩ := startMachine_rests (b := b) (u := u) (by rwa [own]) (by rwa [own]) (by rwa [own]) asks
    exact rest_finish (b := b) (fun c ne => (left c ne).trans (others c ne)) (unit.trans (by rw [← e]; rfl)) none
  have asked (asks : out = false ∧ inn = false ∧ shut = true) :
      OtherLatchesKept b s (finish (arbitrate (startMachine b u))) ∧
        ExtendFollows b { r.still with state := some .closing } s (finish (arbitrate (startMachine b u))) := by
    obtain ⟨rfl, rfl, rfl⟩ := asks
    have run : startMachine b u = enterClosingExtend b u := by simpa using levels
    rw [run, ← own]
    refine extendAsked_finish ?_ ?_ ?_ none ?_ ?_
    · rw [← e]
      exact Vector.set_set r b.isLt
    · rw [← e]; rfl
    · rw [← e]; rfl
    · simp [LatchRec.isMoving, state]
    · simp [LatchRec.still, own, atOut]
  obtain ⟨only, kept, ns, link⟩ := (startMachine_untold b u).arbitrated
  have budget : u.budget = s.budget := by rw [← e]; rfl
  have before : u.link = s.link := by rw [← e]; rfl
  have time : u.time = s.time := by rw [← e]; rfl
  have unit : u.latchUnit = s.latchUnit := by rw [← e]; rfl
  rw [e]
  refine ⟨only, ?_, by rwa [BudgetKept, budget] at kept, fun both both' => ?_, fun one opened => ?_,
    fun thrown free shut_ => ?_, fun free withdrawn shut_ => ?_, fun free free' shut_ => ?_⟩
  · by_cases asks : out = true ∨ inn = true ∨ shut = false
    · exact (rests asks).1
    · simp only [not_or, Bool.not_eq_true, Bool.not_eq_false] at asks
      exact (asked asks).1
  · rw [(rests (.inl both)).2, link, levels, if_pos ⟨both, both'⟩]
    refine ⟨latch_setLatch_self _ _ _, ns, ?_⟩
    rw [latchNote, note_notices, State.notices, queueAll_queueAll, ← before, ← time]
    rfl
  · rw [(rests (.inr (.inr opened))).2, levels, if_neg (by rcases one with e | e <;> simp [e]), if_pos opened]
    exact latch_setLatch_self _ _ _
  · rw [(rests (.inl thrown)).2, levels, if_neg (by simp [free]), if_neg (by simp [shut_]), if_pos thrown]
    exact latch_setLatch_self _ _ _
  · rw [(rests (.inr (.inl withdrawn))).2, levels, if_neg (by simp [free]), if_neg (by simp [shut_]),
      if_neg (by simp [free]), if_pos withdrawn, ← time, ← unit]
    exact latch_setLatch_self _ _ _
  · rw [own]
    exact (asked ⟨free, free', shut_⟩).2

/-- R107: the filter that has accepted a level. -/
def accepted (level : Bool) : Filter := ⟨some level, 0, some level⟩

/-- The pins with a contact line of a bay at a level. -/
def Pins.atContact (p : Pins) (b : Bay) (c : Contact) (level : Bool) : Pins :=
  { p with contacts := p.contacts.set b (p.contacts[b].set c level) }

/-- All three contact lines of a bay set. -/
theorem atContact_all (p : Pins) (b : Bay) (out inn shut : Bool) :
    ((p.atContact b .doorClosed shut).atContact b .boltIn inn).atContact b .boltOut out =
      { p with contacts := p.contacts.set b ⟨out, inn, shut⟩ } := by
  simp [Pins.atContact, RawContacts.set]

theorem latchMachineStart_eq {b : Bay} {s : State} (state : (s.latch b).state = none) (out inn shut : Bool) :
    latchMachineStart b out inn shut s = finish (arbitrate (startMachine b
      (s.sampled { s.pins with contacts := s.pins.contacts.set b ⟨out, inn, shut⟩ } b
        { s.latch b with boltOut := accepted out, boltIn := accepted inn, door := accepted shut }))) := by
  unfold latchMachineStart
  rw [if_neg (by simpa using state), ← atContact_all]
  rfl

/-- R107: a first accepted level is no contact event. -/
theorem contactEvent_first {b : Bay} {c : Contact} {s : State} (fresh : ((s.latch b).filter c).level = none)
    (a : Bool) :
    let u := s.sampled (s.pins.atContact b c a) b ((s.latch b).setFilter c (accepted a))
    contactEvent b c a s = finish (if readyToStart (u.latch b) then arbitrate (startMachine b u) else u) := by
  intro u
  have taken : acceptLevel b c a (setContactPin b c a s) = u := by
    have before : (((setContactPin b c a s).latch b).filter c).level = none := fresh
    unfold acceptLevel
    dsimp only
    rw [before]
    rfl
  rw [contactEvent, taken]

theorem readyToStart_iff (l : LatchRec) : readyToStart l = true ↔
    l.state = none ∧ l.boltOut.level ≠ none ∧ l.boltIn.level ≠ none ∧ l.door.level ≠ none := decide_eq_true_iff

/-- Settles O40: what the three first levels make of a latch machine, whether they come as one command or the last of
them by a contact event. -/
theorem latchMachineStartsFromItsContacts : Obligations.LatchMachineStartsFromItsContacts := by
  refine fun b s free => ⟨fun started out inn shut => next_live free (if_pos started), fun state none => ?_⟩
  intro starts taken
  refine ⟨fun out inn shut => ⟨_, next_live free (latchMachineStart_eq state out inn shut), ?_⟩,
    fun c a fresh => ?_⟩
  · exact startMachine_starts _ state none rfl rfl rfl
  intro r u
  have own : u.latch b = r := latch_sampled_self s _ b r
  have unstarted : r.state = Option.none := (setFilter_state _ c _).trans state
  have run := contactEvent_first fresh a
  refine ⟨_, next_live free run, fun missing => ?_, fun out inn shut atOut atIn atDoor => ?_⟩
  · rw [if_neg fun ready => ?_]
    · exact finish_pass u
    · obtain ⟨-, one, two, three⟩ := (readyToStart_iff _).1 ready
      rw [latch_sampled_self] at one two three
      exact missing.elim one fun rest => rest.elim two three
  · rw [if_pos]
    · exact startMachine_starts _ state none atOut atIn atDoor
    · rw [latch_sampled_self, readyToStart_iff]
      have known {x : Option Bool} {level : Bool} (h : x = some level) : x ≠ Option.none := by simp [h]
      exact ⟨unstarted, known atOut, known atIn, known atDoor⟩

end Sys2Proof.Machine
end

