-- ==== Sys2Proof/Proofs/LatchEntries.lean ====
section
/-! PROOF. What an entry to each latch state does (R110 to R117, R124, R132): the record and the timers, the notices,
the custody record, and what is left. -/

namespace Sys2Proof.Machine

/-! ### Relocked -/

/-- An assignment run ends with no lane FREE, or with no candidate. -/
theorem assignLanes_done (ls : List Lane) (s : State) :
    (∀ l ∈ ls, ((assignLanes ls s).lane l).state ≠ .free) ∨ search (assignLanes ls s) = none := by
  induction ls generalizing s with
  | nil => exact .inl (by simp)
  | cons l ls ih =>
    unfold assignLanes
    split
    · split
      · exact .inr ‹_›
      · refine (ih _).imp_left fun rest m mem => ?_
        rcases List.mem_cons.1 mem with rfl | mem
        · exact assignLanes_taken (by simp [takeEntry])
        · exact rest m mem
    · rename_i busy
      refine (ih s).imp_left fun rest m mem => ?_
      rcases List.mem_cons.1 mem with rfl | mem
      · exact assignLanes_taken busy
      · exact rest m mem

theorem assignLanes_idle {ls : List Lane} {s : State} (done : (∀ l ∈ ls, (s.lane l).state ≠ .free) ∨ search s = none) :
    assignLanes ls s = s := by
  induction ls with
  | nil => rfl
  | cons l ls ih =>
    unfold assignLanes
    split
    · rename_i free
      rcases done with busy | none
      · exact absurd free (busy l List.mem_cons_self)
      · rw [none]
    · exact ih (done.imp_left fun busy m mem => busy m (List.mem_cons_of_mem l mem))

/-- R157: an assignment run leaves nothing to a second one. -/
theorem assignmentRun_twice (s : State) : assignmentRun (assignmentRun s) = assignmentRun s :=
  assignLanes_idle (assignLanes_done allLanes s)

theorem assignmentRun_endReservation (b : Bay) (s : State) :
    assignmentRun (endReservation b s) = assignmentRun (s.setCust b { s.cust b with reservation := none }) := by
  cases reservation : (s.cust b).reservation with
  | none =>
    have same : { s.cust b with reservation := none } = s.cust b := by rw [← reservation]
    rw [endReservation, reservation, same, setCust_cust]
  | some r =>
    rw [endReservation, reservation]
    exact assignmentRun_twice _

theorem lapsePurpose_eq (b : Bay) (s : State) : lapsePurpose b s =
    (s.setCust b { s.cust b with purpose := none }).notices
      (lapsed b s.time.minute (latchCode (s.latch b).state) (s.cust b).purpose) := by
  cases purpose : (s.cust b).purpose with
  | none =>
    have same : { s.cust b with purpose := none } = s.cust b := by rw [← purpose]
    rw [lapsePurpose, purpose, same, setCust_cust]
    rfl
  | some p =>
    rw [lapsePurpose, purpose]
    exact lapseNote_notices b p _

/-- R132, R158: Relocked writes the custody record, queues the notice of the purpose that lapses, and runs assignment. -/
theorem handOn_relocked (b : Bay) (s : State) : handOn b .relocked s = assignmentRun
    ((s.setCust b ((s.cust b).relocked (s.bay b).presence)).notices
      (lapsed b s.time.minute (latchCode (s.latch b).state) (s.cust b).purpose)) := by
  have bay : (lapsePurpose b s).bay b = s.bay b := by rw [lapsePurpose_eq]; rfl
  have relocks : custodyRelocked b s =
      if (s.cust b).purpose = some .service ∧ (s.cust b).status = .inCart ∧ (s.bay b).presence = false then
        endReservation b ((lapsePurpose b s).setCust b { (lapsePurpose b s).cust b with status := .vacant })
      else lapsePurpose b s := by rw [← bay]; rfl
  rw [handOn, relocks]
  split
  · rename_i vacated
    obtain ⟨service, status, presence⟩ := vacated
    have silent : lapsePurpose b s = s.setCust b { s.cust b with purpose := none } := by
      rw [lapsePurpose_eq, service]
      rfl
    have vacant : (s.cust b).relocked (s.bay b).presence = ⟨.vacant, none, none⟩ := by
      simp only [CustodyRec.relocked, service, status, presence, and_self, if_true]
    rw [silent, cust_setCust_self, setCust_setCust, assignmentRun_endReservation, cust_setCust_self, setCust_setCust,
      vacant, service]
    rfl
  · rename_i stays
    have kept : (s.cust b).relocked (s.bay b).presence = { s.cust b with purpose := none } := by
      simp only [CustodyRec.relocked, stays, if_false]
    rw [lapsePurpose_eq, kept]

/-! ### One entry -/

/-- The latch unit with the motion of a bay taken out of its queue. -/
def LatchUnit.without (u : LatchUnit) (b : Bay) : LatchUnit := { u with queue := u.queue.filter fun m => m.1 ≠ b }

theorem without_noMotion {s : State} {b : Bay} (none : NoMotion s b) : s.latchUnit.without b = s.latchUnit := by
  have all : (s.latchUnit.queue.filter fun m => m.1 ≠ b) = s.latchUnit.queue :=
    List.filter_eq_self.2 fun m mem => decide_eq_true (none m mem)
  rw [LatchUnit.without, all]

/-- What an entry of the latch of `b` does: its record is `r` then and the custody record `c`, these notices are queued
first, the motion of the bay waits no longer, and every other latch and custody record is left. -/
structure Entered (b : Bay) (s : State) (r : LatchRec) (c : CustodyRec) (notices : List Notice) (t : State) : Prop where
  untold : Untold s t
  unit : t.latchUnit = s.latchUnit.without b
  latches : t.latches = s.latches.set b r
  own : t.cust b = c
  others : ∀ d, d ≠ b → t.cust d = s.cust d
  told : ∃ ns, t.link = s.link.queueAll (notices ++ ns)

theorem notices_untold (ns : List Notice) (s : State) : Untold s (s.notices ns) :=
  ⟨⟨s.latches, s.latchUnit.queue, s.custody, s.lanes, s.prov.queue, s.prov.pointer, ns, s.budget.derate,
    s.budget.computed, s.alloc.passAsked, rfl⟩, rfl, rfl⟩

/-- R118: an entry that takes the motion of its bay out of the queue. -/
theorem dropped_entered (b : Bay) (s : State) (r : LatchRec) (ns : List Notice) :
    Entered b s r (s.cust b) ns ((dropMotion b (s.setLatch b r)).notices ns) where
  untold := ((setLatch_untold s b r).trans (dropMotion_untold b _)).trans (notices_untold ns _)
  unit := rfl
  latches := rfl
  own := rfl
  others _ _ := rfl
  told := ⟨[], by rw [List.append_nil]; rfl⟩

/-- An entry with no motion of its bay waiting. -/
theorem set_entered {b : Bay} {s : State} (none : NoMotion s b) (r : LatchRec) (ns : List Notice) :
    Entered b s r (s.cust b) ns ((s.setLatch b r).notices ns) where
  untold := (setLatch_untold s b r).trans (notices_untold ns _)
  unit := (without_noMotion none).symm
  latches := rfl
  own := rfl
  others _ _ := rfl
  told := ⟨[], by rw [List.append_nil]; rfl⟩

/-- R165: an entry handed on as left LOCKED, which may release a lane. -/
theorem Entered.leftLocked {b : Bay} {s t : State} {r : LatchRec} {c : CustodyRec} {ns : List Notice}
    (h : Entered b s r c ns t) : Entered b s r c ns (handOn b .leftLocked t) where
  untold := h.untold.trans (handOn_untold b _ t)
  unit := (handOn_latchUnit b _ t).trans h.unit
  latches := (handOn_latches b _ t).trans h.latches
  own := ((schedLeftLocked_touch b t).pass.cust b).trans h.own
  others d ne := ((schedLeftLocked_touch b t).pass.cust d).trans (h.others d ne)
  told := by
    obtain ⟨ms, first⟩ := h.told
    obtain ⟨ks, second⟩ := (schedLeftLocked_touch b t).pass.queues
    exact ⟨ms ++ ks, by rw [handOn, second, first, queueAll_queueAll, List.append_assoc]⟩

/-- R115, R117: a RETRACT removed at the entry ends the release purpose. -/
theorem Entered.failed {b : Bay} {s t : State} {r : LatchRec} {c : CustodyRec} {ns : List Notice}
    (h : Entered b s r c ns t) : Entered b s r { c with purpose := none } ns (handOn b .releaseFailed t) where
  untold := h.untold.trans (handOn_untold b _ t)
  unit := h.unit
  latches := h.latches
  own := by
    rw [← h.own]
    exact cust_setCust_self t b _
  others d ne := (cust_setCust_ne t b d _ ne).trans (h.others d ne)
  told := h.told

theorem Entered.when_leftLocked {b : Bay} {s t : State} {r : LatchRec} {c : CustodyRec} {ns : List Notice}
    (h : Entered b s r c ns t) (p : Prop) [Decidable p] :
    Entered b s r c ns (if p then handOn b .leftLocked t else t) := by
  split
  · exact h.leftLocked
  · exact h

theorem Entered.when_failed {b : Bay} {s t : State} {r : LatchRec} {c : CustodyRec} {ns : List Notice}
    (h : Entered b s r c ns t) (p : Prop) [Decidable p] :
    Entered b s r (if p then { c with purpose := none } else c) ns (if p then handOn b .releaseFailed t else t) := by
  split
  · exact h.failed
  · exact h

/-! ### The entry to each state -/

/-- R115, R117: the notice of a RETRACT that an entry removes. -/
def failureAt (s : State) (b : Bay) (cause : Byte) (st : LatchState) : List Notice :=
  if s.pendingMotion b = some .retract then [⟨.releaseFailed, bayNumber b, s.time.minute, cause, st.code, 0, 0⟩] else []

/-- The custody record of a bay, its release purpose ended with a RETRACT that waited. -/
def custFailed (s : State) (b : Bay) : CustodyRec :=
  if s.pendingMotion b = some .retract then { s.cust b with purpose := none } else s.cust b

theorem when_note (p : Prop) [Decidable p] (k : NoticeKind) (b : Bay) (d1 d2 : Byte) (s : State) :
    (if p then latchNote k b d1 d2 s else s) =
      s.notices (if p then [⟨k, bayNumber b, s.time.minute, d1, d2, 0, 0⟩] else []) := by
  split <;> rfl

theorem enterForced_entered (b : Bay) (st : LatchState) (s : State) :
    Entered b s { (s.latch b).still with state := some .forced } (custFailed s b)
      (failureAt s b 2 .forced ++ [⟨.forced, bayNumber b, s.time.minute, st.code, 0, 0, 0⟩]) (enterForced b st s) := by
  have entered := dropped_entered b s { (s.latch b).still with state := some .forced }
    (failureAt s b 2 .forced ++ [⟨.forced, bayNumber b, s.time.minute, st.code, 0, 0, 0⟩])
  unfold enterForced
  dsimp only
  rw [when_note, latchNote, note_notices, State.notices, State.notices, queueAll_queueAll]
  exact (entered.when_failed _).when_leftLocked _

theorem enterSensorFault_entered (b : Bay) (st : LatchState) (s : State) :
    Entered b s { (s.latch b).still with state := some .sensorFault } (custFailed s b)
      (failureAt s b 3 .sensorFault ++ [⟨.latchFault, bayNumber b, s.time.minute, 2, st.code, 0, 0⟩])
      (enterSensorFault b st s) := by
  have entered := dropped_entered b s { (s.latch b).still with state := some .sensorFault }
    (failureAt s b 3 .sensorFault ++ [⟨.latchFault, bayNumber b, s.time.minute, 2, st.code, 0, 0⟩])
  unfold enterSensorFault
  dsimp only
  rw [when_note, latchNote, note_notices, State.notices, State.notices, queueAll_queueAll]
  exact (entered.when_failed _).when_leftLocked _

theorem enterOpen_entered (b : Bay) (s : State) :
    Entered b s { (s.latch b).still with state := some .opened } (s.cust b) [] (enterOpen b s) :=
  dropped_entered b s _ []

theorem enterClosing_entered {b : Bay} {s : State} (none : NoMotion s b) :
    Entered b s { (s.latch b).still with
      state := some .closing, settle := some (s.time.ms + s.latchUnit.settings.closeSettle) } (s.cust b) []
      (enterClosing b s) := set_entered none _ []

theorem enterReleased_entered {b : Bay} {s : State} (none : NoMotion s b) :
    Entered b s { (s.latch b).still with
      state := some .released, window := some (s.time.ms + s.latchUnit.settings.window * 1000) } (s.cust b)
      [⟨.released, bayNumber b, s.time.minute, 0, 2, 0, 0⟩] (enterReleased b s) := set_entered none _ _

/-- R110: the door of a latch in RETRACTING is opened. -/
def doorTaken (b : Bay) (s : State) : State :=
  handOn b .doorOpen (handOn b .released
    (latchNote .released b 1 LatchState.opened.code (s.setLatch b { (s.latch b).still with state := some .opened })))

theorem doorTaken_entered {b : Bay} {s : State} (none : NoMotion s b) :
    Entered b s { (s.latch b).still with state := some .opened } (s.cust b)
      [⟨.released, bayNumber b, s.time.minute, 1, 3, 0, 0⟩] (doorTaken b s) := set_entered none _ _

/-- R113, R132: the entry to LOCKED as one state, before its assignment run. -/
def relockedAt (b : Bay) (s : State) : State :=
  State.notices ((s.setLatch b { (s.latch b).still with state := some .locked }).setCust b
    ((s.cust b).relocked (s.bay b).presence)) (lapsed b s.time.minute 0 (s.cust b).purpose)

theorem enterLocked_eq (b : Bay) (s : State) : enterLocked b s = assignmentRun (relockedAt b s) := by
  rw [enterLocked, handOn_relocked, latch_setLatch_self]
  rfl

theorem enterLocked_entered {b : Bay} {s : State} (none : NoMotion s b) :
    Entered b s { (s.latch b).still with state := some .locked } ((s.cust b).relocked (s.bay b).presence)
      (lapsed b s.time.minute 0 (s.cust b).purpose) (enterLocked b s) := by
  have run := assignmentRun_touch (relockedAt b s)
  obtain ⟨ns, told⟩ := run.pass.queues
  have left := run.pass
  rw [enterLocked_eq]
  exact {
    untold := enterLocked_eq b s ▸ enterLocked_untold b s
    unit := left.latchUnit.trans (without_noMotion none).symm
    latches := left.latches
    own := (left.cust b).trans (cust_setCust_self _ b _)
    others := fun d ne => (left.cust d).trans (cust_setCust_ne _ b d _ ne)
    told := ⟨ns, by rw [told]; exact queueAll_queueAll _ _ _⟩ }

/-- R157: an entry to LOCKED leaves the lanes served. -/
theorem enterLocked_served {b : Bay} {s : State} (slot : SlotLaw s) : LanesServed (enterLocked b s) := by
  rw [enterLocked_eq]
  exact assignmentRun_served slot

end Sys2Proof.Machine
end

