-- ==== Sys2Proof/Proofs/MoverFreed.lean ====
section
/-! PROOF. The arbitration step and the end of the event after an entry of a latch (R46, R119, R120): what they leave of
the custody records, and that they leave served lanes served (R157). -/

namespace Sys2Proof.Machine

/-! ### Served lanes -/

theorem ServedWork.when_ {p : Prop} [Decidable p] {s t : State} (h : ServedWork s t) :
    ServedWork s (if p then t else s) := by
  split
  · exact h
  · exact .refl s

/-- R156: an entry whose bay's latch has left LOCKED is not eligible; every other stands as before. -/
theorem unlocked_servedWork {b : Bay} {s t : State} (lanes : t.lanes = s.lanes) (prov : t.prov = s.prov)
    (out : (t.latch b).state ≠ some .locked) (others : ∀ c, c ≠ b → entryView t c = entryView s c) :
    ServedWork s t := by
  have free (l : Lane) : (t.lane l).state = .free → (s.lane l).state = .free := by
    rw [State.lane, lanes]
    exact id
  refine .of_fewer (by rw [prov]) (by rw [prov]) free fun e mem ok => ?_
  have ne : e.bay ≠ b := by
    rintro rfl
    obtain ⟨-, -, locked, -⟩ := ok
    exact out locked
  exact ⟨by rwa [prov] at mem, (entryEligible_congr (others e.bay ne)).1 ok⟩

theorem setLatch_servedWork (s : State) (b : Bay) (r : LatchRec) (out : r.state ≠ some .locked) :
    ServedWork s (s.setLatch b r) := by
  refine unlocked_servedWork (b := b) rfl rfl (by rwa [latch_setLatch_self]) fun c ne => ?_
  have latch : (s.setLatch b r).latch c = s.latch c := latch_setLatch_ne s b c r ne
  simp only [entryView, latch]
  rfl

/-- R119: a motion leaves the queue as its latch starts to move. -/
theorem driven_servedWork (s : State) (b : Bay) (r : LatchRec) (out : r.state ≠ some .locked) :
    ServedWork s ((dropMotion b s).setLatch b r) := by
  refine unlocked_servedWork (b := b) rfl rfl (by rwa [latch_setLatch_self]) fun c ne => ?_
  have latch : ((dropMotion b s).setLatch b r).latch c = s.latch c := latch_setLatch_ne _ b c r ne
  have motion : ((dropMotion b s).setLatch b r).pendingMotion c = s.pendingMotion c :=
    (motionOf_drop _ b c).trans (if_neg ne)
  simp only [entryView, latch, motion]
  rfl

theorem enterLocked_servedWork (b : Bay) (s : State) : ServedWork s (enterLocked b s) := by
  rw [enterLocked_eq]
  exact .of_run id

theorem enterReleased_servedWork (b : Bay) (s : State) : ServedWork s (enterReleased b s) :=
  (setLatch_servedWork s b { (s.latch b).still with
    state := some .released, window := some (s.time.ms + s.latchUnit.settings.window * 1000) } (by simp)).trans
    (note_servedWork _ _ _ _ _ _ _)

theorem leftLocked_servedWork (b : Bay) (s : State) : ServedWork s (handOn b .leftLocked s) := by
  rw [handOn, schedLeftLocked]
  split
  · exact release_servedWork _ _ s
  · exact .refl s

theorem grant_servedWork (b : Bay) (m : Motion) (s : State) : ServedWork s (grant b m s) := by
  cases m
  · exact ((driven_servedWork s b ((s.latch b).drivenIn s.time.ms s.latchUnit.settings.travel)
      (by simp [LatchRec.drivenIn])).trans (leftLocked_servedWork b _).when_).trans (enterReleased_servedWork b _).when_
  · exact (driven_servedWork s b ((s.latch b).drivenOut s.time.ms s.latchUnit.settings.travel)
      (by simp [LatchRec.drivenOut])).trans (enterLocked_servedWork b _).when_

theorem arbitrate_servedWork (s : State) : ServedWork s (arbitrate s) :=
  arbitrate_rel .refl .trans (fun s b m _ _ => grant_servedWork b m s) s

theorem recompute_servedWork (s : State) : ServedWork s (recompute s) := by
  have stored : ServedWork s (budgetStored s) := .of_view rfl rfl fun _ => rfl
  rw [recompute_eq]
  split
  · exact stored.trans (askPass_servedWork _)
  · exact stored

theorem moverFreed_servedWork (before s : State) : ServedWork s (moverFreed before s) :=
  (recompute_servedWork s).when_.trans (arbitrate_servedWork _)

/-! ### Custody records -/

theorem cust_grant_ne {b c : Bay} (ne : c ≠ b) (m : Motion) (s : State) : (grant b m s).cust c = s.cust c := by
  have when_ {p : Prop} [Decidable p] {u v : State} (h : v.cust c = u.cust c) :
      (if p then v else u).cust c = u.cust c := by
    split
    · exact h
    · rfl
  have locked (u : State) : (enterLocked b u).cust c = u.cust c := by
    rw [enterLocked_eq, (assignmentRun_touch _).pass.cust]
    exact cust_setCust_ne _ b c _ ne
  have left (u : State) : (handOn b .leftLocked u).cust c = u.cust c := (schedLeftLocked_touch b u).pass.cust c
  have released (u : State) : (enterReleased b u).cust c = u.cust c := rfl
  cases m
  · exact (when_ (released _)).trans (when_ (left _))
  · exact when_ (locked _)

/-- R132: an arbitration step leaves the custody record of a bay for which no motion waits. -/
theorem arbitrate_cust {s : State} {b : Bay} (none : NoMotion s b) : (arbitrate s).cust b = s.cust b := by
  refine (arbitrate_rel (R := fun s t => (∀ x ∈ t.latchUnit.queue, x ∈ s.latchUnit.queue) ∧
    (NoMotion s b → t.cust b = s.cust b)) (fun s => ⟨fun _ => id, fun _ => rfl⟩) ?_ ?_ s).2 none
  · rintro s t u ⟨fewer, kept⟩ ⟨fewer', kept'⟩
    exact ⟨fun x mem => fewer x (fewer' x mem), fun none =>
      (kept' fun x mem => none x (fewer x mem)).trans (kept none)⟩
  · exact fun s c m waits _ => ⟨fun x mem => (mem_grant_queue.1 mem).1, fun none =>
      cust_grant_ne (fun e => none _ waits e.symm) m s⟩

theorem grant_boltOut (b c : Bay) (m : Motion) (s : State) : ((grant b m s).latch c).boltOut = (s.latch c).boltOut := by
  by_cases own : c = b
  · subst own
    cases m
    · rw [latch_grant_retract, if_pos rfl, LatchRec.retracted]
      split <;> rfl
    · rw [latch_grant_extend, if_pos rfl, LatchRec.extended]
      split <;> rfl
  · rw [latch_grant_ne own]

/-- An EXTEND granted with the bolt not thrown completes no motion yet, so that nothing is handed on. -/
theorem cust_grant_unthrown {b : Bay} {s : State} (unthrown : (s.latch b).boltOut.on = false) (c : Bay) :
    (grant b .extend s).cust c = s.cust c := by
  have off : ((dropMotion b s).latch b).boltOut.on = false := unthrown
  rw [grant, grantExtend]
  simp only [LatchRec.still, off]
  rfl

/-- R132: an arbitration step in which the bay's only motion is an EXTEND, its bolt not thrown, leaves its custody
record. -/
theorem arbitrate_cust_extend {s : State} {b : Bay} (only : ∀ x ∈ s.latchUnit.queue, x.1 = b → x.2 = .extend)
    (unthrown : (s.latch b).boltOut.on = false) : (arbitrate s).cust b = s.cust b := by
  refine (arbitrate_rel (R := fun s t => (∀ x ∈ t.latchUnit.queue, x ∈ s.latchUnit.queue) ∧
    (t.latch b).boltOut = (s.latch b).boltOut ∧ ((∀ x ∈ s.latchUnit.queue, x.1 = b → x.2 = .extend) →
      (s.latch b).boltOut.on = false → t.cust b = s.cust b)) (fun s => ⟨fun _ => id, rfl, fun _ _ => rfl⟩) ?_ ?_ s).2.2
    only unthrown
  · rintro s t u ⟨fewer, bolt, kept⟩ ⟨fewer', bolt', kept'⟩
    exact ⟨fun x mem => fewer x (fewer' x mem), bolt'.trans bolt, fun only off =>
      (kept' (fun x mem => only x (fewer x mem)) (bolt ▸ off)).trans (kept only off)⟩
  · refine fun s c m waits _ => ⟨fun x mem => (mem_grant_queue.1 mem).1, grant_boltOut c b m s, fun only off => ?_⟩
    by_cases own : b = c
    · subst own
      obtain rfl : m = .extend := only _ waits rfl
      exact cust_grant_unthrown off b
    · exact cust_grant_ne own m s

theorem recompute_latchUnit (s : State) : (recompute s).latchUnit = s.latchUnit := by
  rw [recompute_eq]
  split <;> rfl

theorem recompute_cust (s : State) (b : Bay) : (recompute s).cust b = s.cust b := by
  rw [recompute_eq]
  split <;> rfl

theorem moverFreed_cust {before s : State} {b : Bay} (none : NoMotion s b) :
    (moverFreed before s).cust b = s.cust b := by
  unfold moverFreed
  split
  · rw [arbitrate_cust (by rwa [NoMotion, recompute_latchUnit]), recompute_cust]
  · exact arbitrate_cust none

/-! ### The end of an event that an entry makes -/

/-- What is left at the end of an event of `s` in which the latch of `b` enters a state. -/
structure EntryEnds (b : Bay) (s : State) (r : LatchRec) (c : CustodyRec) (notices : List Notice) (freed : Prop)
    (t : State) : Prop where
  only : OnlyLatchesPass s t
  others : OtherLatchesKept b s t
  told : ∃ ns, t.link = s.link.queueAll (notices ++ ns)
  budget : BudgetTold (freed ∧ s.latchUnit.settings.movers < s.moving) s t
  latch : t.latch b = r
  cust : t.cust b = c

section Ends
variable {b : Bay} {s j : State} {r : LatchRec} {c : CustodyRec} {notices : List Notice}

theorem Entered.latch (h : Entered b s r c notices j) (d : Bay) : j.latch d = if d = b then r else s.latch d := by
  rw [State.latch, h.latches]
  exact latch_setLatch s b d r

/-- An event that frees no mover. -/
theorem Entered.ends (h : Entered b s r c notices j) {freed : Prop} (unfreed : ¬ freed) :
    EntryEnds b s r c notices freed (finish j) := by
  obtain ⟨only, kept, ns, link⟩ := h.untold.finished
  obtain ⟨ms, told⟩ := h.told
  have pass := finish_pass j
  exact {
    only := only
    others := fun d ne _ => (pass.latch d).trans ((h.latch d).trans (if_neg ne))
    told := ⟨ms ++ ns, by rw [link, told, queueAll_queueAll, List.append_assoc]⟩
    budget := ⟨fun both => absurd both.1 unfreed, fun _ => kept⟩
    latch := (pass.latch b).trans ((h.latch b).trans (if_pos rfl))
    cust := (pass.cust b).trans h.own }

/-- R46, R120: an event that frees the mover of the latch. -/
theorem Entered.freed (h : Entered b s r c notices j) {freed : Prop} (frees : freed) (none : NoMotion s b)
    (moved : (s.latch b).isMoving = true) (rest : r.isMoving = false) :
    EntryEnds b s r c notices freed (finish (moverFreed s j)) := by
  have own : j.latch b = r := (h.latch b).trans (if_pos rfl)
  have unit : j.latchUnit = s.latchUnit := h.unit.trans (without_noMotion none)
  have end_ := moverFreed_finish h.untold unit (fun d ne => (h.latch d).trans (if_neg ne)) moved (by rwa [own]) none
  obtain ⟨ns, link⟩ := end_.notices
  obtain ⟨ms, told⟩ := h.told
  exact {
    only := end_.only
    others := end_.others
    told := ⟨ms ++ ns, by rw [link, told, queueAll_queueAll, List.append_assoc]⟩
    budget := by
      rw [show (freed ∧ s.latchUnit.settings.movers < s.moving) = (s.latchUnit.settings.movers < s.moving) from
        propext (and_iff_right frees)]
      exact end_.told
    latch := end_.own.trans own
    cust := by rw [(finish_pass _).cust, moverFreed_cust (by rwa [NoMotion, unit]), h.own] }

end Ends

end Sys2Proof.Machine
end

