-- ==== Sys2Proof/Proofs/ContactTable.lean ====
section
/-! PROOF. The state that a contact event takes a latch machine to (R110 to R117), as one table, and the work that
brings it there. -/

namespace Sys2Proof.Machine

/-- R110 to R117: the state after a contact event, by the state before, the contact and the accepted levels. -/
def LatchRec.next (l : LatchRec) (st : LatchState) (contact : Contact) (asserted : Bool) : LatchState :=
  let out := l.boltOut.level = some true
  let inn := l.boltIn.level = some true
  let shut := l.door.level = some true
  if st = .sensorFault then
    if out ∧ inn then st else if ¬ shut then .opened else if out then .locked else if inn then .closing else st
  else if out ∧ inn then .sensorFault
  else match st, contact, asserted with
    | .locked, .doorClosed, false => .forced
    | .locked, .boltOut, false => .closing
    | .retracting, .boltIn, true => .released
    | .retracting, .doorClosed, false => .opened
    | .released, .doorClosed, false => .opened
    | .opened, .doorClosed, true => .closing
    | .closing, .doorClosed, false => .opened
    | .extending, .boltOut, true => .locked
    | .extending, .doorClosed, false => .opened
    | .jammed, .doorClosed, false => if out then .forced else .opened
    | .forced, .doorClosed, true => if out then .locked else .closing
    | _, _, _ => st

/-- The entry of a latch to a new state. -/
def enterState (b : Bay) (st next : LatchState) (s : State) : State :=
  match next with
  | .sensorFault => enterSensorFault b st s
  | .forced => enterForced b st s
  | .opened => if st = .retracting then doorTaken b s else enterOpen b s
  | .locked => enterLocked b s
  | .closing => enterClosing b s
  | .released => enterReleased b s
  | .retracting => s
  | .extending => s
  | .jammed => s

/-- What a contact event does that takes a latch machine from `st` to `next`. -/
def changeState (b : Bay) (st next : LatchState) (s : State) : State :=
  if next = st then s
  else if next = .closing ∧ st = .locked then boltSlipped b s
  else if next = .closing ∧ st = .sensorFault then arbitrate (enterClosingExtend b s)
  else if st = .retracting ∨ st = .extending then moverFreed s (enterState b st next s)
  else enterState b st next s

theorem sensorFaultTest_next (b : Bay) (c : Contact) (a : Bool) (s : State) : sensorFaultTest b s =
    changeState b .sensorFault ((s.latch b).next .sensorFault c a) s := by
  simp only [sensorFaultTest, Bool.eq_false_iff, ne_eq, Filter.on_iff, LatchRec.next, if_true]
  split
  · rfl
  split
  · rfl
  split
  · rfl
  split <;> rfl

section Unfaulted
variable {b : Bay} {st : LatchState} {s : State} (unfaulted : st ≠ .sensorFault)
variable (apart : ¬ ((s.latch b).boltOut.level = some true ∧ (s.latch b).boltIn.level = some true))
include unfaulted apart

theorem doorOpened_next : doorOpened b st s = changeState b st ((s.latch b).next st .doorClosed false) s := by
  simp only [LatchRec.next, if_neg unfaulted, if_neg apart]
  cases st
  case jammed =>
    simp only [doorOpened, Filter.on_iff]
    split <;> rfl
  case sensorFault => exact absurd rfl unfaulted
  all_goals rfl

theorem doorShut_next : doorShut b st s = changeState b st ((s.latch b).next st .doorClosed true) s := by
  simp only [LatchRec.next, if_neg unfaulted, if_neg apart]
  cases st
  case forced =>
    simp only [doorShut, Filter.on_iff]
    split <;> rfl
  case sensorFault => exact absurd rfl unfaulted
  all_goals rfl

theorem boltMoved_next {c : Contact} (bolt : c ≠ .doorClosed) (a : Bool) :
    boltMoved b st c a s = changeState b st ((s.latch b).next st c a) s := by
  simp only [LatchRec.next, if_neg unfaulted, if_neg apart]
  cases c
  case doorClosed => exact absurd rfl bolt
  all_goals cases a <;> cases st <;> rfl

end Unfaulted

/-- R110 to R117: the work of a contact event is that of the change of state that the table gives. -/
theorem machineEvent_next (b : Bay) (st : LatchState) (c : Contact) (a : Bool) (s : State) :
    machineEvent b st c a s = changeState b st ((s.latch b).next st c a) s := by
  by_cases faulted : st = .sensorFault
  · subst faulted
    exact sensorFaultTest_next b c a s
  by_cases both : (s.latch b).boltOut.level = some true ∧ (s.latch b).boltIn.level = some true
  · have fault : (s.latch b).next st c a = .sensorFault := by simp only [LatchRec.next, if_neg faulted, if_pos both]
    simp only [machineEvent, Filter.on_iff, if_neg faulted, if_pos both, fault, changeState, enterState,
      Ne.symm faulted, if_false, reduceCtorEq, false_and]
  · simp only [machineEvent, Filter.on_iff, if_neg faulted, if_neg both]
    cases c
    case doorClosed =>
      cases a
      · exact doorOpened_next faulted both
      · exact doorShut_next faulted both
    all_goals exact boltMoved_next faulted both (by decide) a

/-- The changes that the table holds. -/
theorem next_cases (l : LatchRec) (st : LatchState) (c : Contact) (a : Bool) (taken : (l.filter c).level = some a) :
    l.next st c a = st ∨ l.next st c a = .sensorFault ∨ l.next st c a = .opened ∨
      (l.next st c a = .forced ∧ (st = .locked ∨ st = .jammed)) ∨
      (l.next st c a = .locked ∧ (st = .sensorFault ∨ st = .extending ∨ st = .forced)) ∨
      (l.next st c a = .released ∧ st = .retracting) ∨ (l.next st c a = .closing ∧ (st = .opened ∨ st = .forced)) ∨
      (l.next st c a = .closing ∧ (st = .locked ∨ st = .sensorFault) ∧ l.boltOut.level ≠ some true) := by
  by_cases faulted : st = .sensorFault
  · subst faulted
    simp only [LatchRec.next, if_true]
    split_ifs <;> simp_all
  by_cases both : l.boltOut.level = some true ∧ l.boltIn.level = some true
  · exact .inr (.inl (by simp only [LatchRec.next, if_neg faulted, if_pos both]))
  simp only [LatchRec.next, if_neg faulted, if_neg both]
  cases st
  case jammed | forced =>
    by_cases out : l.boltOut.level = some true <;> cases c <;> cases a <;> simp [out]
  all_goals cases c <;> cases a <;> simp_all [LatchRec.filter]

end Sys2Proof.Machine
end

