-- ==== Sys2Proof/Proofs/ContactEvents.lean ====
section
/-! PROOF. A contact event of a latch machine that runs (R107, R110 to R117, R119, R124, R132), by the state that the
table gives. -/

namespace Sys2Proof.Machine

/-! ### The event as a change of state -/

theorem filter_setFilter (l : LatchRec) (c : Contact) (f : Filter) : (l.setFilter c f).filter c = f := by
  cases c <;> rfl

section Runs
variable {b : Bay} {c : Contact} {a : Bool} {st : LatchState} {s : State} (state : (s.latch b).state = some st)
include state

theorem contactEvent_runs : contactEvent b c a s = finish (acceptLevel b c a (setContactPin b c a s)) := by
  have before : ((setContactPin b c a s).latch b).state ≠ none := by
    change (s.latch b).state ≠ none
    simp [state]
  rw [contactEvent, if_neg (by simp [readyToStart_started (acceptLevel_started c a before)])]

/-- R107: a level that stands already is no event. -/
theorem contactEvent_stands (stands : ((s.latch b).filter c).level = some a) :
    contactEvent b c a s = finish (setContactPin b c a s) := by
  have same : acceptLevel b c a (setContactPin b c a s) = setContactPin b c a s := by
    have before : (((setContactPin b c a s).latch b).filter c).level = some a := stands
    have runs : ((setContactPin b c a s).latch b).state = some st := state
    simp only [acceptLevel, before, runs, if_true]
  rw [contactEvent_runs state, same]

/-- R107: a new level reaches the latch machine. -/
theorem contactEvent_changes (stood : ((s.latch b).filter c).level = some (!a)) :
    let l := (s.latch b).setFilter c (accepted a)
    contactEvent b c a s = finish (changeState b st (l.next st c a) (s.sampled (s.pins.atContact b c a) b l)) := by
  intro l
  have taken : acceptLevel b c a (setContactPin b c a s) =
      machineEvent b st c a (s.sampled (s.pins.atContact b c a) b l) := by
    have before : (((setContactPin b c a s).latch b).filter c).level = some (!a) := stood
    have runs : ((setContactPin b c a s).latch b).state = some st := state
    have new : (!a) ≠ a := by simp
    simp only [acceptLevel, before, runs, if_neg new]
    rfl
  rw [contactEvent_runs state, taken, machineEvent_next, latch_sampled_self]

end Runs

/-! ### An entry with no motion waiting -/

/-- The record of a latch that enters a state, the timer of that state started. -/
def LatchRec.entering (l : LatchRec) (next : LatchState) (now : Nat) (settings : LatchSettings) : LatchRec :=
  { l.still with
    state := some next
    window := if next = .released then some (now + settings.window * 1000) else none
    settle := if next = .closing then some (now + settings.closeSettle) else none }

theorem entering_rests (l : LatchRec) (now : Nat) (settings : LatchSettings) {next : LatchState}
    (out : next ≠ .retracting) (inn : next ≠ .extending) : (l.entering next now settings).isMoving = false := by
  cases next <;> simp_all [LatchRec.isMoving, LatchRec.entering]

/-- R110 to R117, R124, R132: the notices of a change of state. -/
def changeNotices (b : Bay) (st next : LatchState) (s : State) : List Notice :=
  let at_ (k : NoticeKind) (d1 d2 : Byte) : Notice := ⟨k, bayNumber b, s.time.minute, d1, d2, 0, 0⟩
  if next = st then []
  else if next = .sensorFault then [at_ .latchFault 2 st.code]
  else if next = .forced then [at_ .forced st.code 0]
  else if next = .locked then lapsed b s.time.minute 0 (s.cust b).purpose
  else if st = .retracting ∧ next = .released then [at_ .released 0 2]
  else if st = .retracting ∧ next = .opened then [at_ .released 1 3]
  else []

/-- R132: the custody record of a bay whose latch takes a state. -/
def custEntering (b : Bay) (next : LatchState) (s : State) : CustodyRec :=
  if next = .locked then (s.cust b).relocked (s.bay b).presence else s.cust b

theorem failureAt_none {s : State} {b : Bay} (none : NoMotion s b) (cause : Byte) (st : LatchState) :
    failureAt s b cause st = [] := by
  rw [failureAt, noMotion_iff.1 none]
  rfl

theorem custFailed_none {s : State} {b : Bay} (none : NoMotion s b) : custFailed s b = s.cust b := by
  rw [custFailed, noMotion_iff.1 none]
  rfl

theorem enterState_entered {b : Bay} {s : State} {st next : LatchState} (none : NoMotion s b) (changes : next ≠ st)
    (rests : next ≠ .retracting ∧ next ≠ .extending ∧ next ≠ .jammed) (releases : next = .released → st = .retracting) :
    Entered b s ((s.latch b).entering next s.time.ms s.latchUnit.settings) (custEntering b next s)
      (changeNotices b st next s) (enterState b st next s) := by
  cases next
  case sensorFault =>
    have entered := enterSensorFault_entered b st s
    rw [failureAt_none none, custFailed_none none] at entered
    rw [changeNotices, if_neg changes]
    exact entered
  case forced =>
    have entered := enterForced_entered b st s
    rw [failureAt_none none, custFailed_none none] at entered
    rw [changeNotices, if_neg changes]
    exact entered
  case opened =>
    by_cases taken : st = .retracting
    · subst taken
      exact doorTaken_entered none
    · have silent : changeNotices b st .opened s = [] := by simp [changeNotices, taken]
      rw [silent, enterState, if_neg taken]
      exact enterOpen_entered b s
  case locked =>
    rw [changeNotices, if_neg changes]
    exact enterLocked_entered none
  case closing =>
    have silent : changeNotices b st .closing s = [] := by simp [changeNotices]
    rw [silent]
    exact enterClosing_entered none
  case released =>
    obtain rfl := releases rfl
    exact enterReleased_entered none
  case retracting => exact absurd rfl rests.1
  case extending => exact absurd rfl rests.2.1
  case jammed => exact absurd rfl rests.2.2

/-! ### What the obligation asks for -/

/-- R110 to R117: with no motion of the bay waiting, what an event of `s` leaves at its end `t` that takes the latch of
`b`, its record `l` with the new level, from `st` to `next`. -/
def ContactEnds (b : Bay) (s u : State) (l : LatchRec) (st next : LatchState) (t : State) : Prop :=
  let still := { l with state := some next, travel := none, pause := none, window := none, settle := none }
  let freed := (st = .retracting ∨ st = .extending) ∧ next ≠ st
  OnlyLatchesPass u t ∧ OtherLatchesKept b s t ∧
    (∃ ns, t.link = s.link.queueAll (changeNotices b st next s ++ ns)) ∧
    BudgetTold (freed ∧ s.latchUnit.settings.movers < s.moving) s t ∧
    (next = .locked → st ≠ .locked → SlotLaw s → LanesServed t) ∧
    t.cust b = (if next = .locked ∧ st ≠ .locked then (s.cust b).relocked (s.bay b).presence else s.cust b) ∧
    (next = st → t.latch b = l) ∧
    (next = .closing → st = .locked ∨ st = .sensorFault → ExtendFollows b still s t) ∧
    (next = .closing → st = .opened ∨ st = .forced →
      t.latch b = { still with settle := some (s.time.ms + s.latchUnit.settings.closeSettle) }) ∧
    (next = .released → st = .retracting →
      t.latch b = { still with window := some (s.time.ms + s.latchUnit.settings.window * 1000) }) ∧
    (next ≠ st → next ≠ .closing → next ≠ .released → t.latch b = still)

section NoMotionWaits
variable {b : Bay} {s : State} {l : LatchRec} {st next : LatchState} (pins : Pins)
variable (none : NoMotion s b) (state : (s.latch b).state = some st) (level : l.state = some st)

/-- The event changes no state. -/
theorem contactEnds_same : ContactEnds b s (s.sampled pins b l) l st st (finish (s.sampled pins b l)) := by
  obtain ⟨only, kept, ns, link⟩ := (Untold.refl (s.sampled pins b l)).finished
  have pass := finish_pass (s.sampled pins b l)
  refine ⟨only, fun c ne _ => (pass.latch c).trans (latch_sampled_ne s pins b l ne), ⟨ns, ?_⟩,
    ⟨fun both => absurd rfl both.1.2, fun _ => kept⟩, fun locked other => absurd locked other, ?_,
    fun _ => (pass.latch b).trans (latch_sampled_self s pins b l), fun closing other => ?_, fun closing other => ?_,
    fun released other => ?_, fun changes => absurd rfl changes⟩
  · rw [link, changeNotices, if_pos rfl]
    rfl
  · rw [pass.cust, if_neg fun both => both.2 both.1]
    rfl
  · rcases other with e | e <;> rw [closing] at e <;> cases e
  · rcases other with e | e <;> rw [closing] at e <;> cases e
  · rw [released] at other
    cases other

/-- The latch enters a state in which no motion is asked for at once. -/
theorem contactEnds_entry {u t : State} (e : s.sampled pins b l = u) (same : l.state = (s.latch b).state)
    (changes : next ≠ st) (unasked : next = .closing → st = .opened ∨ st = .forced)
    (end_ : EntryEnds b u (l.entering next s.time.ms s.latchUnit.settings) (custEntering b next s)
      (changeNotices b st next s) ((st = .retracting ∨ st = .extending) ∧ next ≠ st) t)
    (served : next = .locked → SlotLaw s → LanesServed t) : ContactEnds b s u l st next t := by
  have movers := sampled_moving s pins b l same
  subst e
  obtain ⟨only, others, told, budget, latch, cust⟩ := end_
  rw [movers] at budget
  refine ⟨only, fun c ne h => (others c ne h).trans (latch_sampled_ne s pins b l ne), told, budget,
    fun locked _ => served locked, ?_, fun same => absurd same changes, fun closing other => ?_,
    fun closing _ => ?_, fun released _ => ?_, fun _ closing released => ?_⟩
  · rw [cust, custEntering]
    refine if_congr ⟨fun locked => ⟨locked, fun e => changes (locked.trans e.symm)⟩, And.left⟩ rfl rfl
  · rcases unasked closing with e | e <;> rw [e] at other <;> simp at other
  · rw [latch, closing]
    rfl
  · rw [latch, released]
    rfl
  · rw [latch, LatchRec.entering, if_neg closing, if_neg released]
    rfl

/-- R114, R117: a slipped bolt, or a SENSOR_FAULT left with the bolt withdrawn, asks for an EXTEND. -/
theorem contactEnds_extend {v : State} (none : NoMotion s b) (state : (s.latch b).state = some st)
    (from_ : st = .locked ∨ st = .sensorFault) (unthrown : l.boltOut.level ≠ some true)
    (untold : Untold (s.sampled pins b l) v)
    (latches : v.latches = s.latches.set b { l.still with state := some .closing })
    (unit : v.latchUnit = { s.latchUnit with queue := s.latchUnit.queue ++ [(b, .extend)] })
    (cust : v.cust b = s.cust b) :
    ContactEnds b s (s.sampled pins b l) l st .closing (finish (arbitrate v)) := by
  have other : LatchState.closing ≠ st := by rcases from_ with rfl | rfl <;> decide
  have own : v.latch b = { l.still with state := some .closing } := by
    rw [State.latch, latches]
    exact latch_setLatch_self s b _
  have time : v.time = s.time := by
    obtain ⟨_, _, _, _, _, _, _, _, _, _, h⟩ := untold.latches
    rw [h]
    rfl
  obtain ⟨only, kept, ns, link⟩ := untold.arbitrated
  obtain ⟨ms, before⟩ := untold.latches.queues
  obtain ⟨others, follows⟩ := extendAsked_finish latches unit time none
    (by rcases from_ with rfl | rfl <;> simp [LatchRec.isMoving, state]) unthrown
  refine ⟨only, others, ⟨ms ++ ns, ?_⟩, ⟨fun both => ?_, fun _ => kept⟩, fun locked => (nomatch locked), ?_,
    fun same => absurd same other, fun _ _ => follows, fun _ was => ?_, fun released => (nomatch released),
    fun _ closing => absurd rfl closing⟩
  · rw [link, before, queueAll_queueAll, changeNotices]
    simp [other, State.sampled]
  · rcases from_ with rfl | rfl <;> simp at both
  · rw [(finish_pass _).cust, arbitrate_cust_extend (fun x mem at_ => ?_), cust]
    · rfl
    · rw [own]
      exact decide_eq_false unthrown
    · rw [unit, List.mem_append, List.mem_singleton] at mem
      rcases mem with mem | rfl
      · exact absurd at_ (none x mem)
      · rfl
  · rcases from_ with rfl | rfl <;> simp at was

/-- Every other change: the entry, and what a mover freed by it brings. -/
theorem contactChange_entry (none : NoMotion s b) (state : (s.latch b).state = some st) (level : l.state = some st)
    (changes : next ≠ st) (rests : next ≠ .retracting ∧ next ≠ .extending ∧ next ≠ .jammed)
    (releases : next = .released → st = .retracting) (unasked : next = .closing → st = .opened ∨ st = .forced) :
    ContactEnds b s (s.sampled pins b l) l st next (finish (changeState b st next (s.sampled pins b l))) := by
  obtain ⟨u, e⟩ : ∃ u, s.sampled pins b l = u := ⟨_, rfl⟩
  have own : u.latch b = l := by rw [← e]; exact latch_sampled_self s pins b l
  have noMotion : NoMotion u b := by rw [← e]; exact none
  have entered : Entered b u (l.entering next s.time.ms s.latchUnit.settings) (custEntering b next s)
      (changeNotices b st next s) (enterState b st next u) := by
    have h := enterState_entered noMotion changes rests releases
    rw [own] at h
    subst e
    exact h
  have slots (slot : SlotLaw s) : SlotLaw u := by rw [← e]; exact slot
  have served (locked : next = .locked) (slot : SlotLaw u) :
      SlotLaw (enterState b st next u) ∧ LanesServed (enterState b st next u) := by
    subst locked
    exact ⟨(enterLocked_servedWork b u).slot slot, enterLocked_served slot⟩
  have notAsked : ¬ (next = .closing ∧ st = .locked) ∧ ¬ (next = .closing ∧ st = .sensorFault) := by
    constructor
    all_goals
      rintro ⟨closing, rfl⟩
      rcases unasked closing with e | e <;> cases e
  have same : l.state = (s.latch b).state := level.trans state.symm
  rw [changeState, if_neg changes, if_neg notAsked.1, if_neg notAsked.2]
  rw [e]
  split
  · rename_i moves
    refine contactEnds_entry pins e same changes unasked ?_ fun locked slot => ?_
    · refine entered.freed ⟨moves, changes⟩ noMotion (isMoving_of ?_) ?_
      · rw [own, level]
        exact moves.imp (congrArg some) (congrArg some)
      · exact entering_rests l _ _ rests.1 rests.2.1
    · have ⟨slot', served'⟩ := served locked (slots slot)
      exact ((moverFreed_servedWork u _).trans (finish_servedWork _)).served slot' served'
  · rename_i still
    refine contactEnds_entry pins e same changes unasked ?_ fun locked slot => ?_
    · exact entered.ends fun both => still both.1
    · have ⟨slot', served'⟩ := served locked (slots slot)
      exact (finish_servedWork _).served slot' served'

theorem enterClosingExtend_latches (s : State) (pins : Pins) (b : Bay) (l : LatchRec) :
    (enterClosingExtend b (s.sampled pins b l)).latches = s.latches.set b { l.still with state := some .closing } := by
  rw [enterClosingExtend, latch_sampled_self]
  exact Vector.set_set l b.isLt

/-- R110 to R117: what a contact event leaves with no motion of its bay waiting. -/
theorem contactChange_ends {c : Contact} {a : Bool} (none : NoMotion s b) (state : (s.latch b).state = some st)
    (level : l.state = some st) (taken : (l.filter c).level = some a) :
    ContactEnds b s (s.sampled pins b l) l st (l.next st c a)
      (finish (changeState b st (l.next st c a) (s.sampled pins b l))) := by
  by_cases changes : l.next st c a = st
  · rw [changes, changeState, if_pos rfl]
    exact contactEnds_same pins
  have table := next_cases l st c a taken
  generalize l.next st c a = next at changes table ⊢
  obtain same | rfl | rfl | ⟨rfl, -⟩ | ⟨rfl, -⟩ | ⟨rfl, from_⟩ | ⟨rfl, from_⟩ | ⟨rfl, from_, unthrown⟩ := table
  · exact absurd same changes
  · exact contactChange_entry pins none state level changes (by decide) (by simp) (by simp)
  · exact contactChange_entry pins none state level changes (by decide) (by simp) (by simp)
  · exact contactChange_entry pins none state level changes (by decide) (by simp) (by simp)
  · exact contactChange_entry pins none state level changes (by decide) (by simp) (by simp)
  · exact contactChange_entry pins none state level changes (by decide) (fun _ => from_) (by simp)
  · exact contactChange_entry pins none state level changes (by decide) (by simp) fun _ => from_
  · have asked := enterClosingExtend_untold b (s.sampled pins b l)
    have latches := enterClosingExtend_latches s pins b l
    rcases from_ with rfl | rfl
    · have slips : changeState b .locked .closing (s.sampled pins b l) =
          arbitrate (handOn b .leftLocked (enterClosingExtend b (s.sampled pins b l))) := by
        have unwithdrawn : (s.sampled pins b l).pendingMotion b ≠ some .retract := by
          change s.pendingMotion b ≠ some .retract
          simp [noMotion_iff.1 none]
        exact if_neg unwithdrawn
      rw [slips]
      exact contactEnds_extend pins none state (.inl rfl) unthrown (asked.trans (handOn_untold b _ _))
        ((handOn_latches b _ _).trans latches) (handOn_latchUnit b _ _) ((schedLeftLocked_touch b _).pass.cust b)
    · exact contactEnds_extend pins none state (.inr rfl) unthrown asked latches rfl rfl

end NoMotionWaits

/-! ### A motion waits -/

/-- R115, R117, R118: with the motion `m` of the bay waiting, what an event of `s` leaves at its end `t` that takes the
latch of `b`, its record `l` with the new level, from `st` to `next`. -/
def WaitingEnds (b : Bay) (s u : State) (l : LatchRec) (st next : LatchState) (m : Motion) (t : State) : Prop :=
  let still := { l with state := some next, travel := none, pause := none, window := none, settle := none }
  let stays := next = st ∨ next = .closing
  let failed := m = .retract ∧ (next = .forced ∨ next = .sensorFault)
  let failure : List Notice := if failed then
    [⟨.releaseFailed, bayNumber b, s.time.minute, if next = .forced then 2 else 3, next.code, 0, 0⟩] else []
  OnlyLatchesPass u t ∧ (∀ c, c ≠ b → t.latch c = s.latch c ∧ t.cust c = s.cust c) ∧ BudgetKept s t ∧
    (∃ ns, t.link = s.link.queueAll (failure ++ changeNotices b st next s ++ ns)) ∧
    t.cust b = (if failed then { s.cust b with purpose := none } else s.cust b) ∧
    t.latch b = (if stays then l else still) ∧
    t.latchUnit.queue =
      (if stays then s.latchUnit.queue else s.latchUnit.queue.filter fun x => x.1 ≠ b)

section MotionWaits
variable {b : Bay} {s : State} {l : LatchRec} {st next : LatchState} (pins : Pins) {m : Motion}

/-- The latch and its motion stay. -/
theorem waitingEnds_stays (stays : next = st ∨ next = .closing)
    (unfailed : ¬ (m = .retract ∧ (next = .forced ∨ next = .sensorFault))) (silent : changeNotices b st next s = []) :
    WaitingEnds b s (s.sampled pins b l) l st next m (finish (s.sampled pins b l)) := by
  obtain ⟨only, kept, ns, link⟩ := (Untold.refl (s.sampled pins b l)).finished
  have pass := finish_pass (s.sampled pins b l)
  refine ⟨only, fun c ne => ⟨(pass.latch c).trans (latch_sampled_ne s pins b l ne), pass.cust c⟩, kept, ⟨ns, ?_⟩,
    ?_, ?_, ?_⟩
  · rw [if_neg unfailed, silent]
    exact link
  · rw [if_neg unfailed]
    exact pass.cust b
  · rw [if_pos stays, pass.latch, latch_sampled_self]
  · rw [if_pos stays, pass.latchUnit]
    rfl

/-- The latch leaves its state, and its motion the queue. -/
theorem waitingEnds_entry {j : State} (leaves : ¬ (next = st ∨ next = .closing)) {r : CustodyRec} {ns : List Notice}
    (entered : Entered b (s.sampled pins b l) { l.still with state := some next } r ns j)
    (failing : r = (if m = .retract ∧ (next = .forced ∨ next = .sensorFault) then { s.cust b with purpose := none }
      else s.cust b))
    (told : ns = (if m = .retract ∧ (next = .forced ∨ next = .sensorFault) then
      [⟨.releaseFailed, bayNumber b, s.time.minute, if next = .forced then 2 else 3, next.code, 0, 0⟩] else []) ++
      changeNotices b st next s) :
    WaitingEnds b s (s.sampled pins b l) l st next m (finish j) := by
  obtain ⟨only, kept, ks, link⟩ := entered.untold.finished
  obtain ⟨ms, before⟩ := entered.told
  have pass := finish_pass j
  refine ⟨only, fun c ne => ⟨?_, (pass.cust c).trans (entered.others c ne)⟩, kept, ⟨ms ++ ks, ?_⟩, ?_, ?_, ?_⟩
  · rw [pass.latch, entered.latch, if_neg ne, latch_sampled_ne s pins b l ne]
  · rw [link, before, queueAll_queueAll, told, List.append_assoc]
    rfl
  · rw [pass.cust, entered.own, failing]
  · rw [pass.latch, entered.latch, if_pos rfl, if_neg leaves]
    rfl
  · rw [pass.latchUnit, entered.unit, if_neg leaves]
    rfl

theorem custFailed_eq (waits : s.pendingMotion b = some m) {p : Prop} [Decidable p] (fails : p) :
    custFailed s b = if m = .retract ∧ p then { s.cust b with purpose := none } else s.cust b := by
  simp [custFailed, waits, fails]

theorem failureAt_eq (waits : s.pendingMotion b = some m) {p : Prop} [Decidable p] (fails : p) (cause : Byte) :
    failureAt s b cause next =
      if m = .retract ∧ p then [⟨.releaseFailed, bayNumber b, s.time.minute, cause, next.code, 0, 0⟩] else [] := by
  simp [failureAt, waits, fails]

/-- R110 to R117: what a contact event leaves with a motion of its bay waiting. -/
theorem contactChange_waits {c : Contact} {a : Bool} (waits : s.pendingMotion b = some m)
    (admits : (m = .retract ∧ (st = .locked ∨ st = .jammed)) ∨ (m = .extend ∧ (st = .released ∨ st = .closing)))
    (taken : (l.filter c).level = some a) :
    WaitingEnds b s (s.sampled pins b l) l st (l.next st c a) m
      (finish (changeState b st (l.next st c a) (s.sampled pins b l))) := by
  have pending : (s.sampled pins b l).pendingMotion b = some m := waits
  have own := latch_sampled_self s pins b l
  have table := next_cases l st c a taken
  generalize l.next st c a = next at table ⊢
  obtain ⟨unmoved, resting, unfaulted, shut, unforced⟩ : st ≠ .retracting ∧ st ≠ .extending ∧ st ≠ .sensorFault ∧
      st ≠ .opened ∧ st ≠ .forced := by
    rcases admits with ⟨-, rfl | rfl⟩ | ⟨-, rfl | rfl⟩ <;> decide
  have enters (changes : next ≠ st) (not : next ≠ .closing) :
      changeState b st next (s.sampled pins b l) = enterState b st next (s.sampled pins b l) := by
    simp [changeState, changes, not, unmoved, resting]
  by_cases changes : next = st
  · subst changes
    rw [changeState, if_pos rfl]
    exact waitingEnds_stays pins (.inl rfl) (fun failed => failed.2.elim unforced unfaulted) (if_pos rfl)
  obtain same | rfl | rfl | ⟨rfl, -⟩ | ⟨rfl, from_⟩ | ⟨-, from_⟩ | ⟨-, from_⟩ | ⟨rfl, from_, -⟩ := table
  · exact absurd same changes
  · have entered := enterSensorFault_entered b st (s.sampled pins b l)
    rw [own] at entered
    rw [enters changes (by decide)]
    refine waitingEnds_entry pins (by simp [changes]) entered (custFailed_eq waits (.inr rfl)) ?_
    rw [changeNotices, if_neg changes]
    exact congrArg (· ++ _) (failureAt_eq waits (.inr rfl) 3)
  · have entered := enterOpen_entered b (s.sampled pins b l)
    rw [own] at entered
    rw [enters changes (by decide), enterState, if_neg unmoved]
    refine waitingEnds_entry pins (by simp [changes]) entered (by simp; rfl) ?_
    simp [changeNotices, unmoved]
  · have entered := enterForced_entered b st (s.sampled pins b l)
    rw [own] at entered
    rw [enters changes (by decide)]
    refine waitingEnds_entry pins (by simp [changes]) entered (custFailed_eq waits (.inl rfl)) ?_
    rw [changeNotices, if_neg changes]
    exact congrArg (· ++ _) (failureAt_eq waits (.inl rfl) 2)
  · exact from_.elim (absurd · unfaulted) (·.elim (absurd · resting) (absurd · unforced))
  · exact absurd from_ unmoved
  · exact from_.elim (absurd · shut) (absurd · unforced)
  · obtain rfl : st = .locked := from_.resolve_right unfaulted
    obtain rfl : m = .retract := by
      rcases admits with ⟨retract, -⟩ | ⟨-, e | e⟩
      · exact retract
      · cases e
      · cases e
    have slips : changeState b .locked .closing (s.sampled pins b l) = s.sampled pins b l := if_pos pending
    rw [slips]
    exact waitingEnds_stays pins (.inr rfl) (by simp) (by simp [changeNotices])

end MotionWaits

end Sys2Proof.Machine
end

