-- ==== Sys2Proof/Proofs/GrantRules.lean ====
section
/-! PROOF. Which motion an arbitration step grants, and what the grant makes of its bay (R119), and with it contact
events (R107, R110 to R117, R124, R132). -/

namespace Sys2Proof.Machine

/-! ### What a grant makes -/

/-- R113, R119: an EXTEND granted as one state. -/
theorem grantExtend_eq (b : Bay) (s : State) : grantExtend b s = s.extendGranted b := by
  obtain ⟨driven, made⟩ : ∃ r, (s.latch b).drivenOut s.time.ms s.latchUnit.settings.travel = r := ⟨_, rfl⟩
  have locks : relockedAt b (s.setLatch b driven) = State.notices
      { s with
        latches := s.latches.set b { driven with state := some .locked, travel := none }
        custody := s.custody.set b ((s.cust b).relocked (s.bay b).presence) }
      (lapsed b s.time.minute 0 (s.cust b).purpose) := by
    have once : (s.latches.set b driven).set b { driven.still with state := some .locked } =
        s.latches.set b { driven with state := some .locked, travel := none } := by
      rw [Vector.set_set, ← made]
      rfl
    rw [← once, relockedAt, latch_setLatch_self]
    rfl
  have granted : grantExtend b s =
      if (s.latch b).boltOut.on then enterLocked b (s.setLatch b driven) else s.setLatch b driven := by
    rw [← made]
    rfl
  simp only [granted, enterLocked_eq, locks, Filter.on_iff, State.extendGranted, made]
  rfl

theorem enterReleased_eq (b : Bay) (s : State) : enterReleased b s = State.notices
    { s with latches := s.latches.set b { (s.latch b).still with
      state := some .released, window := some (s.time.ms + s.latchUnit.settings.window * 1000) } }
    [⟨.released, bayNumber b, s.time.minute, 0, 2, 0, 0⟩] := rfl

/-- R110, R114, R119: a RETRACT granted as one state. -/
theorem grantRetract_eq (b : Bay) (s : State) : grantRetract b s = s.retractGranted b := by
  obtain ⟨driven, made⟩ : ∃ r, (s.latch b).drivenIn s.time.ms s.latchUnit.settings.travel = r := ⟨_, rfl⟩
  obtain ⟨left, handed⟩ : ∃ u, (if (s.latch b).state = some .locked then handOn b .leftLocked (s.setLatch b driven)
    else s.setLatch b driven) = u := ⟨_, rfl⟩
  have kept : left.latch b = driven ∧ left.time = s.time ∧ left.latchUnit = s.latchUnit := by
    rw [← handed]
    split
    · exact ⟨(handOn_latch b b _ _).trans (latch_setLatch_self s b driven), handOn_time b _ _, handOn_latchUnit b _ _⟩
    · exact ⟨latch_setLatch_self s b driven, rfl, rfl⟩
  obtain ⟨own, time, unit⟩ := kept
  have retracted : s.retractGranted b = if (s.latch b).boltIn.level = some true then State.notices
      { left with latches := left.latches.set b { driven with
          state := some .released, travel := none
          window := some (s.time.ms + s.latchUnit.settings.window * 1000) } }
      [⟨.released, bayNumber b, s.time.minute, 0, 2, 0, 0⟩] else left := by
    have lane : (s.setLatch b driven).laneOf b = s.laneOf b := rfl
    rw [← handed]
    simp only [handOn, schedLeftLocked, lane, State.retractGranted, made]
    cases s.laneOf b
    · simp only [ite_self]
      rfl
    · rfl
  have granted : grantRetract b s = if (s.latch b).boltIn.on then enterReleased b left else left := by
    rw [← handed, ← made]
    rfl
  have releases : enterReleased b left = State.notices
      { left with latches := left.latches.set b { driven with
          state := some .released, travel := none
          window := some (s.time.ms + s.latchUnit.settings.window * 1000) } }
      [⟨.released, bayNumber b, s.time.minute, 0, 2, 0, 0⟩] := by
    have record : { (left.latch b).still with
        state := some .released, window := some (left.time.ms + left.latchUnit.settings.window * 1000) } =
        { driven with
          state := some .released, travel := none
          window := some (s.time.ms + s.latchUnit.settings.window * 1000) } := by
      rw [own, unit, time, ← made]
      rfl
    rw [enterReleased_eq, record, time]
  simp only [granted, retracted, releases, Filter.on_iff]

theorem grant_eq (b : Bay) (m : Motion) (s : State) : grant b m s =
    match m with | .extend => (dropMotion b s).extendGranted b | .retract => (dropMotion b s).retractGranted b := by
  cases m
  · exact grantRetract_eq b _
  · exact grantExtend_eq b _

/-! ### Which motion is granted -/

theorem nextMotion_extend {b : Bay} {older newer : List (Bay × Motion)} (before : ∀ x ∈ older, x.2 = .retract) :
    nextMotion (older ++ (b, .extend) :: newer) = some (b, .extend) := by
  have none : older.find? (fun m => m.2 == Motion.extend) = Option.none :=
    List.find?_eq_none.2 fun x mem => by simp [before x mem]
  simp [nextMotion, List.find?_append, none]

theorem nextMotion_retract {b : Bay} {newer : List (Bay × Motion)} (after : ∀ x ∈ newer, x.2 = .retract) :
    nextMotion ((b, .retract) :: newer) = some (b, .retract) := by
  have none : newer.find? (fun m => m.2 == Motion.extend) = Option.none :=
    List.find?_eq_none.2 fun x mem => by simp [after x mem]
  simp [nextMotion, none]

/-- R119: an arbitration step with a mover free grants the next motion and goes on. -/
theorem arbitrate_next {s : State} {b : Bay} {m : Motion} {older newer : List (Bay × Motion)}
    (queue : s.latchUnit.queue = older ++ (b, m) :: newer) (others : ∀ x ∈ older ++ newer, x.1 ≠ b)
    (free : s.moving < s.latchUnit.settings.movers) (next : nextMotion s.latchUnit.queue = some (b, m)) :
    (s.latchUnit.queue.filter fun x => x.1 ≠ b) = older ++ newer ∧ arbitrate s = arbitrate (grant b m s) := by
  have left : (s.latchUnit.queue.filter fun x => x.1 ≠ b) = older ++ newer := by
    have all : (older ++ newer).filter (fun x => x.1 ≠ b) = older ++ newer :=
      List.filter_eq_self.2 fun x mem => decide_eq_true (others x mem)
    rw [queue]
    simpa using all
  refine ⟨left, ?_⟩
  have length : s.latchUnit.queue.length = (grant b m s).latchUnit.queue.length + 1 := by
    rw [latchUnit_grant, left, queue]
    simp
    omega
  rw [arbitrate, length, grantMotions_succ _ s b m free next]
  rfl

/-- R119: the grant of the oldest EXTEND, or with none of the oldest RETRACT. -/
theorem arbitrate_grants (s : State) (b : Bay) (m : Motion) (older newer : List (Bay × Motion)) :
    s.latchUnit.queue = older ++ (b, m) :: newer → (∀ x ∈ older ++ newer, x.1 ≠ b) →
      s.moving < s.latchUnit.settings.movers → (m = .extend → ∀ x ∈ older, x.2 = .retract) →
      (m = .retract → older = [] ∧ ∀ x ∈ newer, x.2 = .retract) →
      let u : State := { s with latchUnit := { s.latchUnit with queue := older ++ newer } }
      arbitrate s = arbitrate (match m with | .extend => u.extendGranted b | .retract => u.retractGranted b) := by
  intro queue others free extend retract u
  have next : nextMotion s.latchUnit.queue = some (b, m) := by
    rw [queue]
    cases m
    · obtain ⟨rfl, after⟩ := retract rfl
      exact nextMotion_retract after
    · exact nextMotion_extend (extend rfl)
  obtain ⟨left, step⟩ := arbitrate_next queue others free next
  have dropped : dropMotion b s = u := by
    change { s with latchUnit := { s.latchUnit with queue := s.latchUnit.queue.filter fun x => x.1 ≠ b } } = u
    rw [left]
  rw [step, grant_eq, dropped]

/-- Settles O39: the table gives the state after the event; with no motion waiting the entry to it, and with one
waiting its removal, leave what the statement says, and an arbitration step goes on from the motion that it grants. -/
theorem contactEventMovesTheLatch : Obligations.ContactEventMovesTheLatch := by
  refine ⟨fun b c a st s free => ?_, fun s => ⟨arbitrate_idle, arbitrate_grants s⟩⟩
  intro l pins l' out inn shut next still now at_ notices freed told state
  have level : l'.state = some st := (setFilter_state l c _).trans state
  have taken : (l'.filter c).level = some a := congrArg Filter.level (filter_setFilter l c _)
  have queued : changeNotices b st (l'.next st c a) s = notices := rfl
  obtain ⟨t, end_⟩ : ∃ t, finish (changeState b st (l'.next st c a) (s.sampled pins b l')) = t := ⟨_, rfl⟩
  have run (stood : (l.filter c).level = some (!a)) : exec (.contactEvent b c a) s = .next t :=
    next_live free ((contactEvent_changes state stood).trans end_)
  refine ⟨fun stands => ⟨_, next_live free (contactEvent_stands state stands), finish_pass _⟩,
    fun stood none _ => ⟨t, run stood, ?_⟩, fun stood _ m waits admits => ⟨t, run stood, ?_⟩⟩
  · obtain ⟨only, others, link, rest⟩ := contactChange_ends pins none state level taken
    rw [queued] at link
    subst end_
    exact ⟨only, others, link, rest⟩
  · obtain ⟨only, others, kept, link, rest⟩ := contactChange_waits pins waits admits taken
    rw [queued] at link
    subst end_
    exact ⟨only, others, kept, link, rest⟩

end Sys2Proof.Machine
end
